-- ==== Sys2Proof/Word.lean ====
section
/-! DEFINITION. The word types of the Tilfold architecture: bytes, scalar words and the 80-bit instruction word. -/
namespace Sys2Proof

/-- One byte, the unit of every memory (R6). -/
abbrev Byte := BitVec 8

/-- A scalar register, a sysreg, an address (R62, R85). -/
abbrev W64 := BitVec 64

/-- A 32-bit field: a word index, a counter, an immediate. -/
abbrev W32 := BitVec 32

/-- An instruction word: 80 bits, header 79:48 and body 47:0 (R39). -/
abbrev IWord := BitVec 80

/-- The four sequencers of a core, in fetch-index order (R2 of the text, R39, R62). -/
inductive Seq where
  | x | l | c | s
  deriving DecidableEq, Repr

/-- Fetch index (R64, SEQID of R72): 0 x, 1 l, 2 c, 3 s. -/
def Seq.idx : Seq → Fin 4
  | .x => 0 | .l => 1 | .c => 2 | .s => 3

/-- The sequencer of a two-bit field (POP.SRC and PUSH.DST of R39). -/
def Seq.ofIdx (n : Nat) : Seq :=
  match n % 4 with
  | 0 => .x | 1 => .l | 2 => .c | _ => .s

end Sys2Proof
end

