-- ==== Sys2Proof/Syntax.lean ====
section
/-! DEFINITION. The syntax of the machine's steps: operand types and Instr, one constructor per row of the spec's table of
operations and events. A word's constructor carries its header and its operands by name (D, A, B, C of R41); an event's
constructor carries which object it happens to. -/
namespace Sys2Proof

/-! ### Operand types -/

abbrev GReg := Fin 32
abbrev TReg := Fin 16
abbrev KReg := Fin 8
abbrev PReg := Fin 8
abbrev HReg := Fin 16
abbrev Ring := Fin 16
abbrev WList := Fin 16
abbrev Bar := Fin 64
abbrev Region := Fin 64
abbrev DTab := Fin 4
abbrev MReg := Fin 4

/-- Element types, the TY codes 0 to 14 (R22). -/
inductive Ty where
  | i8 | n8 | i16 | n16 | i32 | n32 | i64 | f32 | bf16 | f16 | e4m3 | e5m2 | t8 | t6 | e2m1
  deriving DecidableEq, Repr

/-- Rounding modes, the RM codes 0 to 3 (R10). -/
inductive Rm where
  | rne | rtz | rdn | rup
  deriving DecidableEq, Repr

/-- Predication, the PM codes 0 to 16 (R44). -/
inductive Pm where
  | none
  | mask (k : KReg)
  | pred (p : PReg)
  deriving DecidableEq, Repr

/-- Acquire and release, the SEM codes (R45). -/
inductive Sem where
  | plain | acq | rel | ar
  deriving DecidableEq, Repr

/-- Operand B of a tile word: a tile, or with BS = 1 a broadcast scalar register (R99). -/
inductive TB where
  | tile (t : TReg)
  | g (r : GReg)
  deriving DecidableEq, Repr

/-- Operand A of a tile load or store: a comb address register (HSEL 0) or a handle (HSEL 1) (R140). -/
inductive Base where
  | comb (g : GReg)
  | handle (h : HReg)
  deriving DecidableEq, Repr

/-- Operand B of `upd`: an index tile group, or with CONT a base index register (R202). -/
inductive UpdIdx where
  | tile (t : TReg)
  | cont (g : GReg)
  deriving DecidableEq, Repr

/-- The header of a word (R39). `eng` is its sequencer class. -/
structure Hdr where
  eng  : Seq
  pd   : Fin 8
  sba  : Option (Fin 8)
  sbw  : Byte
  pop  : Option Seq
  push : Option Seq
  deriving DecidableEq, Repr

/-- The tile MOD less BS, which is in operand B (R44). `gl` is GL − 1; `amx` is AMX when AMXE = 1. -/
structure TMod where
  ty  : Ty
  rm  : Rm
  gl  : Fin 6
  pm  : Pm
  z   : Bool
  sat : Bool
  amx : Option MReg
  sub : Fin 16
  deriving DecidableEq, Repr

/-- The common part of the memory MOD (R45). -/
structure MMod where
  ty    : Ty
  oc    : Fin 16
  scope : Fin 32
  sem   : Sem
  deriving DecidableEq, Repr

/-- The array MOD (R242). -/
structure AMod where
  ty     : Ty
  mode   : Fin 4
  sweep  : Bool
  strict : Bool
  sp     : Bool
  mx     : Bool
  deriving DecidableEq, Repr

/-- Atomic operations, the AOP codes 0 to 8 (R197). -/
inductive Aop where
  | add | and | or | xor | min | max | minu | maxu | swap
  deriving DecidableEq, Repr

/-- The kind of a `fence` (R88). -/
inductive FenceKind where
  | full | acq | rel
  deriving DecidableEq, Repr

/-- The operation of a `grpbind` (R275). -/
inductive BindOp where
  | bind | unbind | rel
  deriving DecidableEq, Repr

/-- The layout of a `drain` (R259). -/
inductive Lay where
  | lin | trn | mxb
  deriving DecidableEq, Repr

/-! ### What events name -/

/-- The copy queues of a core (R162). -/
inductive CopyQ where
  | inbound | outbound
  deriving DecidableEq, Repr

/-- A write that first takes effect on its core and then spreads to the others (R185, R221): the `sysw` word with issue
number `act` whose write takes effect, or the pending spread number `k` that arrives. -/
inductive Spread where
  | own (act : Nat)
  | arrive (k : Nat)
  deriving DecidableEq, Repr

/-- The homes of R129. -/
inductive Home where
  | hbm
  | peer (pkg : Fin 64)
  | host
  | expander
  deriving DecidableEq, Repr

/-- Where an uncorrectable error is found (R340). -/
inductive EccPlace where
  | word (core : Nat) (seq : Seq) (struct : Fin 5) (addr : Nat)
  | deviceRead (ctx : Nat) (core : Option Nat) (struct : Fin 5) (addr : Nat)
  | saved (ctx : Nat) (struct : Fin 5) (addr : Nat)
  | shared (part : Nat)
  deriving DecidableEq, Repr

/-- The page that a peer's request names (R129): its format, geometry and size, the physical addresses of its first element and its
side plane, and its virtual address. -/
structure RemotePage where
  fmt   : Fin 32
  geom  : Fin 8
  size  : Fin 3
  pa    : Nat
  plane : Nat
  va    : Nat
  deriving DecidableEq, Repr

/-- The sync word of a peer's copy, at an address of the comb it writes (R165, R172, R173): the bytes that arrive, and what the entry
ends in. -/
structure RemoteSync where
  addr   : Nat
  count  : Nat
  code   : Nat
  reason : Nat
  nonres : Bool
  stale  : Bool
  deriving DecidableEq, Repr

/-- What a peer package asks for (R355). Addresses are physical; values are bytes, lowest first. `load` and `store` name bytes;
`loadElem` and `storeElems` name elements of a page by their offset in half-bytes from its first, with their values in TY, and `storeMx` a
block of them as codes under a scale (R166). `combNibbles` writes elements of half a byte from a half-byte address of a comb. -/
inductive RemoteOp where
  | load (pa n : Nat)
  | store (pa : Nat) (bytes : List Byte)
  | loadElem (pg : RemotePage) (off2 : Nat) (ty : Ty)
  | storeElems (pg : RemotePage) (ty : Ty) (els : List (Nat × Nat))
  | storeMx (pg : RemotePage) (off2 : Nat) (ty : Ty) (scale : Nat) (codes : List Nat)
  | atomic (op : Aop) (wide : Bool) (pa : Nat) (v : W64)
  | cas (wide : Bool) (pa : Nat) (expect v : W64)
  | combWrite (core addr : Nat) (bytes : List Byte) (sync : Option RemoteSync)
  | combNibbles (core at2 : Nat) (vals : List Nat)
  | update (region : Region) (gen : Fin 16) (op : Fin 16) (exp : BitVec 16) (va : W64) (v : W64) (step : BitVec 16)
      (nf sat : Bool)
  deriving DecidableEq, Repr

/-- What a package answers a peer's request (R355, R356): denied, refused with a hint, or done with the bytes read and whether the
element read was stale (R224). -/
inductive PeerAnswer where
  | denied
  | refused (hint : Byte)
  | done (bytes : List Byte) (stale : Bool)
  deriving DecidableEq, Repr

/-- A Camnath flit (R353). `crcOk` is the outcome of the receiver's CRC-64 check; `body` and `answers` are the requests and responses
packed in its payload. -/
structure Flit where
  seq    : BitVec 12
  ack    : BitVec 12
  tc     : Fin 4
  dpkg   : Fin 64
  spkg   : Fin 64
  hops   : Fin 8
  podCtx : Byte
  crcOk  : Bool
  body   : List RemoteOp
  answers : List PeerAnswer
  deriving DecidableEq, Repr

/-- A host access through BAR 2 or CXL.mem: a read of `n` bytes, or a write of bytes (R348, R347). -/
inductive HostAccess where
  | read (n : Nat)
  | write (bytes : List Byte)
  deriving DecidableEq, Repr

/-- Host links (R347). -/
inductive HostLink where
  | a | b
  deriving DecidableEq, Repr

/-- A link that trains, and whether it runs in CXL mode, as the host has configured it (R347). -/
structure LinkUp where
  link : HostLink
  cxl  : Bool
  deriving DecidableEq, Repr

/-- A firmware image as the root of trust sees it (R391): its bytes' SHA-256 digest, the RSA-3072 public key it names and the signature
over the digest, and its security version. -/
structure FwImage where
  digest  : BitVec 256
  key     : BitVec 3072
  sig     : BitVec 3072
  version : W32
  deriving DecidableEq, Repr

/-! ### The steps -/

/-- One constructor per row of the spec's table of operations and events. -/
inductive Instr where
  -- sequencer words (R75 to R92)
  | nop (h : Hdr)
  | endW (h : Hdr)
  | add (h : Hdr) (d a b : GReg)
  | sub (h : Hdr) (d a b : GReg)
  | mul (h : Hdr) (d a b : GReg)
  | mulh (h : Hdr) (d a b : GReg)
  | mulhu (h : Hdr) (d a b : GReg)
  | madd (h : Hdr) (d a b c : GReg)
  | and (h : Hdr) (d a b : GReg)
  | or (h : Hdr) (d a b : GReg)
  | xor (h : Hdr) (d a b : GReg)
  | shl (h : Hdr) (d a b : GReg)
  | shr (h : Hdr) (d a b : GReg)
  | sar (h : Hdr) (d a b : GReg)
  | min (h : Hdr) (d a b : GReg)
  | max (h : Hdr) (d a b : GReg)
  | minu (h : Hdr) (d a b : GReg)
  | maxu (h : Hdr) (d a b : GReg)
  | slt (h : Hdr) (d a b : GReg)
  | sltu (h : Hdr) (d a b : GReg)
  | seq (h : Hdr) (d a b : GReg)
  | sel (h : Hdr) (d a b c : GReg)
  | clz (h : Hdr) (d a : GReg)
  | popc (h : Hdr) (d a : GReg)
  | addi (h : Hdr) (d a : GReg) (imm : W32)
  | andi (h : Hdr) (d a : GReg) (imm : W32)
  | ori (h : Hdr) (d a : GReg) (imm : W32)
  | xori (h : Hdr) (d a : GReg) (imm : W32)
  | shli (h : Hdr) (d a : GReg) (imm : Fin 64)
  | shri (h : Hdr) (d a : GReg) (imm : Fin 64)
  | sari (h : Hdr) (d a : GReg) (imm : Fin 64)
  | slti (h : Hdr) (d a : GReg) (imm : W32)
  | ldi (h : Hdr) (d : GReg) (imm : BitVec 42)
  | orhi (h : Hdr) (d : GReg) (imm : BitVec 22)
  | bfx (h : Hdr) (d a : GReg) (pos : Fin 64) (wid : Nat) (sx : Bool)
  | bfi (h : Hdr) (d a b : GReg) (pos : Fin 64) (wid : Nat)
  | beq (h : Hdr) (a b : GReg) (off : W32)
  | bne (h : Hdr) (a b : GReg) (off : W32)
  | blt (h : Hdr) (a b : GReg) (off : W32)
  | bge (h : Hdr) (a b : GReg) (off : W32)
  | bltu (h : Hdr) (a b : GReg) (off : W32)
  | bgeu (h : Hdr) (a b : GReg) (off : W32)
  | jmp (h : Hdr) (off : W32)
  | jal (h : Hdr) (a : GReg) (off : W32)
  | loop (h : Hdr) (a : GReg) (off : W32)
  | jr (h : Hdr) (a : GReg)
  | tsig (h : Hdr) (q : Seq) (a : GReg) (imm : W32)
  | twait (h : Hdr) (q : Seq) (a : GReg) (imm : W32)
  | tqrd (h : Hdr) (d : GReg) (a b : Seq)
  | sysr (h : Hdr) (d a : GReg) (imm : W32)
  | sysw (h : Hdr) (d a : GReg) (imm : W32)
  | tqceilWrite (core act : Nat)
  | tqcntWrite (core act : Nat)
  | amaxWrite (core act : Nat)
  | dcfWrite (core : Nat) (sp : Spread)
  | scopeEntryWrite (core : Nat) (sp : Spread)
  | pause (h : Hdr) (a : GReg) (imm : W32) (tok : Bool)
  | pauseEnd (core act : Nat)
  | trap (h : Hdr) (a : GReg) (imm : W32)
  | fence (h : Hdr) (kind : FenceKind) (scope : Fin 32) (cmask : BitVec 16)
  | qfence (h : Hdr) (inq outq : Bool)
  | exit (h : Hdr)
  | exitAbort (h : Hdr)
  | taskComplete (core : Nat)
  | resume (h : Hdr)
  | handlerEntry (core : Nat)
  | tokenDeadlock (core : Nat)
  | resultLanding (core act : Nat)
  | variableResultLanding (core act : Nat)
  -- handles (R135, R147) and the comb objects (R155 to R178)
  | trans (h : Hdr) (d : HReg) (a b : GReg)
  | walkEnd (core : Nat) (h : HReg)
  | hstat (h : Hdr) (d : GReg) (a : HReg)
  | hinv (h : Hdr) (d : HReg)
  | shootdown (ctx : Nat) (va : W64)
  | ringdef (h : Hdr) (d : Ring) (a b : GReg)
  | rclaim (h : Hdr) (d : GReg) (a : Ring) (n : W32)
  | rwaite (h : Hdr) (d : GReg) (a : Ring) (n : W32)
  | rwaitf (h : Hdr) (d : GReg) (a : Ring) (n : W32)
  | rcommit (h : Hdr) (a : Ring) (n : W32)
  | rrel (h : Hdr) (a : Ring) (n : W32)
  | rcommitApply (core act : Nat)
  | rrelApply (core act : Nat)
  | roomAnswer (core : Nat) (ring : Ring)
  | creditArrival (core : Nat) (ring : Ring) (n : Nat)
  | rapp (h : Hdr) (d : Ring) (a : GReg)
  | rappArrival (core act : Nat)
  | syncset (h : Hdr) (a b c : GReg)
  | syncwait (h : Hdr) (d a b c : GReg) (pl : Bool)
  | syncwaitTimeout (core act : Nat)
  | syncrd (h : Hdr) (d a : GReg) (field : Fin 4)
  | cld (h : Hdr) (d a b : GReg) (m : MMod)
  | cst (h : Hdr) (d a b : GReg) (m : MMod)
  -- memory words (R140 to R148) and homes
  | lds (h : Hdr) (d : GReg) (a : HReg) (b : GReg) (c : GReg) (res : Bool) (m : MMod)
  | sts (h : Hdr) (d : GReg) (a : HReg) (b : GReg) (m : MMod)
  | tld (h : Hdr) (d : TReg) (a : Base) (b : GReg) (gl : Fin 6) (rm : Option KReg) (m : MMod)
  | tldx (h : Hdr) (d : TReg) (a : Base) (b c : GReg) (gl : Fin 6) (rm : Option KReg) (m : MMod)
  | mld (h : Hdr) (d : TReg) (a : HReg) (b : GReg) (pm : Pm) (gl : Fin 6) (rm : Option KReg) (z : Bool) (m : MMod)
  | mgath (h : Hdr) (d : TReg) (a : HReg) (b : TReg) (pm : Pm) (gl : Fin 6) (rm : Option KReg) (z : Bool) (m : MMod)
  | tst (h : Hdr) (d : TReg) (a : Base) (b : GReg) (gl : Fin 6) (m : MMod)
  | tstx (h : Hdr) (d : TReg) (a : Base) (b c : GReg) (gl : Fin 6) (m : MMod)
  | mst (h : Hdr) (d : TReg) (a : HReg) (b : GReg) (pm : Pm) (gl : Fin 6) (m : MMod)
  | mscat (h : Hdr) (d : TReg) (a : HReg) (b : TReg) (pm : Pm) (gl : Fin 6) (m : MMod)
  | pref (h : Hdr) (a : HReg) (b c : GReg)
  | pgreq (h : Hdr) (a b c : GReg)
  | pageResident (k : Nat)
  | migrationRequest (ctx : Nat) (va : W64) (dest : Home) (pfn plane : Nat)
  | migrationDrained (k : Nat)
  | migrationCopied (k : Nat)
  | migrationSwitched (k : Nat)
  | peerTimeout (part : Fin 8) (pkg : Fin 64)
  | retryAfterHint (core act elem : Nat)
  | homeLoad (core act elem : Nat)
  | homeStore (core act elem : Nat)
  | homeAtomic (core act : Nat)
  | copyin (h : Hdr) (a : GReg)
  | copyout (h : Hdr) (a : GReg)
  | copyEntry (core : Nat) (q : CopyQ)
  | copyLoop (core : Nat) (q : CopyQ)
  | copyIf (core : Nat) (q : CopyQ)
  | copyLink (core : Nat) (q : CopyQ)
  | copyFence (core : Nat) (q : CopyQ)
  | copyEnd (core : Nat) (q : CopyQ)
  | amo (h : Hdr) (d : GReg) (a : HReg) (b c : GReg) (op : Aop) (m : MMod)
  | cas (h : Hdr) (d : GReg) (a : HReg) (b c : GReg) (m : MMod)
  -- regions, stamps (R202 to R229)
  | upd (h : Hdr) (d : Region) (a : HReg) (b : UpdIdx) (c : TReg) (gl : Fin 6) (pm : Pm) (ty : Ty) (oc : Fin 16)
  | ufence (h : Hdr)
  | updatePairArrival (core act elem : Nat)
  | windowClose
  | regdef (h : Hdr) (d : Region) (a b c : GReg)
  | regclr (h : Hdr) (d : Region)
  | regapply (h : Hdr) (d : Region)
  | stepadv (h : Hdr)
  | stsweep (h : Hdr) (a b c : GReg)
  | sweepPage (k : Nat)
  -- the orbit array and groups (R243 to R276)
  | stload (h : Hdr) (a b : GReg) (m : AMod)
  | arrayWordStart (core act : Nat)
  | arrayWordComplete (core act : Nat)
  | gbuild (h : Hdr) (a : GReg)
  | stswap (h : Hdr)
  | mma (h : Hdr) (a b c : GReg) (m : AMod)
  | mmas (h : Hdr) (d a b c : GReg) (m : AMod)
  | accinit (h : Hdr) (a b : GReg)
  | accnorm (h : Hdr) (a : GReg)
  | accrd (h : Hdr) (d : TReg) (a : GReg) (m : TMod)
  | accwr (h : Hdr) (a : GReg) (b : TReg) (m : TMod)
  | accstat (h : Hdr) (d a : GReg) (sub : Fin 4)
  | drain (h : Hdr) (a b c : GReg) (ty : Ty) (rm : Rm) (sat : Bool) (amx : Option MReg) (clr : Bool) (lay : Lay)
  | grpld (h : Hdr) (a : GReg) (slot : Fin 2)
  | grpldCheckDone (core act : Nat)
  | grpbind (h : Hdr) (op : BindOp) (slot : Fin 2)
  | grpstat (h : Hdr) (d : GReg) (slot : Fin 2)
  -- tile words (R103 to R125)
  | fadd (h : Hdr) (d a : TReg) (b : TB) (m : TMod)
  | fsub (h : Hdr) (d a : TReg) (b : TB) (m : TMod)
  | fmul (h : Hdr) (d a : TReg) (b : TB) (m : TMod)
  | fma (h : Hdr) (d a : TReg) (b : TB) (c : TReg) (m : TMod)
  | fms (h : Hdr) (d a : TReg) (b : TB) (c : TReg) (m : TMod)
  | fnma (h : Hdr) (d a : TReg) (b : TB) (c : TReg) (m : TMod)
  | fmin (h : Hdr) (d a : TReg) (b : TB) (m : TMod)
  | fmax (h : Hdr) (d a : TReg) (b : TB) (m : TMod)
  | fabs (h : Hdr) (d a : TReg) (m : TMod)
  | fneg (h : Hdr) (d a : TReg) (m : TMod)
  | fdiv (h : Hdr) (d a : TReg) (b : TB) (m : TMod)
  | fsqrt (h : Hdr) (d a : TReg) (m : TMod)
  | frsq (h : Hdr) (d a : TReg) (m : TMod)
  | frcp (h : Hdr) (d a : TReg) (m : TMod)
  | fexp2 (h : Hdr) (d a : TReg) (m : TMod)
  | flog2 (h : Hdr) (d a : TReg) (m : TMod)
  | ftanh (h : Hdr) (d a : TReg) (m : TMod)
  | fpowi (h : Hdr) (d a : TReg) (b : TB) (m : TMod)
  | fclass (h : Hdr) (d a : TReg) (m : TMod)
  | fcmp (h : Hdr) (d : KReg) (a : TReg) (b : TB) (m : TMod)
  | fsel (h : Hdr) (d a : TReg) (b : TB) (c : KReg) (m : TMod)
  | iadd (h : Hdr) (d a : TReg) (b : TB) (m : TMod)
  | isub (h : Hdr) (d a : TReg) (b : TB) (m : TMod)
  | imul (h : Hdr) (d a : TReg) (b : TB) (m : TMod)
  | imad (h : Hdr) (d a : TReg) (b : TB) (c : TReg) (m : TMod)
  | iand (h : Hdr) (d a : TReg) (b : TB) (m : TMod)
  | ior (h : Hdr) (d a : TReg) (b : TB) (m : TMod)
  | ixor (h : Hdr) (d a : TReg) (b : TB) (m : TMod)
  | ishl (h : Hdr) (d a : TReg) (b : TB) (m : TMod)
  | ishr (h : Hdr) (d a : TReg) (b : TB) (m : TMod)
  | isar (h : Hdr) (d a : TReg) (b : TB) (m : TMod)
  | imin (h : Hdr) (d a : TReg) (b : TB) (m : TMod)
  | imax (h : Hdr) (d a : TReg) (b : TB) (m : TMod)
  | icmp (h : Hdr) (d : KReg) (a : TReg) (b : TB) (m : TMod)
  | iabs (h : Hdr) (d a : TReg) (m : TMod)
  | cvt (h : Hdr) (d a : TReg) (src : Ty) (m : TMod)
  | cvtmx (h : Hdr) (d a b : TReg) (src : Ty) (m : TMod)
  | dqmx (h : Hdr) (d a b : TReg) (src : Ty) (m : TMod)
  | cvtfx (h : Hdr) (d a : TReg) (b : GReg) (src : Ty) (m : TMod)
  | tmov (h : Hdr) (d a : TReg) (m : TMod)
  | tbcast (h : Hdr) (d : TReg) (a : TReg) (b : GReg) (m : TMod)
  | ttrn (h : Hdr) (d a : TReg) (m : TMod)
  | tshuf (h : Hdr) (d a : TReg) (b : TB) (m : TMod)
  | text (h : Hdr) (d : GReg) (a : TReg) (b : GReg) (m : TMod)
  | tins (h : Hdr) (d : TReg) (a b : GReg) (m : TMod)
  | tiota (h : Hdr) (d : TReg) (a b : GReg) (m : TMod)
  | rsum (h : Hdr) (d a : TReg) (m : TMod)
  | rmax (h : Hdr) (d a : TReg) (m : TMod)
  | rmin (h : Hdr) (d a : TReg) (m : TMod)
  | ramax (h : Hdr) (d a : TReg) (m : TMod)
  | cmpx (h : Hdr) (d a : TReg) (b : GReg) (c : TReg) (m : TMod)
  | kand (h : Hdr) (d a b : KReg)
  | kor (h : Hdr) (d a b : KReg)
  | kxor (h : Hdr) (d a b : KReg)
  | knot (h : Hdr) (d a : KReg)
  | kpopc (h : Hdr) (d : GReg) (a : KReg)
  | kfirst (h : Hdr) (d : GReg) (a : KReg)
  | kcomp (h : Hdr) (d a : TReg) (b : KReg) (m : TMod)
  | kexp (h : Hdr) (d a : TReg) (b : KReg) (m : TMod)
  | pset (h : Hdr) (d : PReg) (a : GReg) (wc : Fin 4)
  | pget (h : Hdr) (d : GReg) (a : PReg)
  | amrd (h : Hdr) (d : GReg) (a : MReg)
  | amclr (h : Hdr) (a : MReg)
  -- barriers (R285 to R288)
  | barset (h : Hdr) (a : Bar) (b : GReg) (dis : Bool)
  | bararr (h : Hdr) (a : Bar)
  | barwait (h : Hdr) (d : GReg) (a : Bar) (b : GReg)
  | barwaitTimeout (core act : Nat)
  | bartry (h : Hdr) (d : GReg) (a : Bar)
  | barrierRelease (inst : Nat)
  -- work lists and dispatch (R295 to R303)
  | wldef (h : Hdr) (d : WList) (a b c : GReg)
  | wlreset (h : Hdr) (d : WList)
  | wlpush (h : Hdr) (d : WList) (b : TReg) (gl : Fin 6) (pm : Pm)
  | wlins (h : Hdr) (d : WList) (b : TReg) (gl : Fin 6) (pm : Pm)
  | wlpop (h : Hdr) (d : GReg) (a : WList) (b : GReg) (c : TReg) (gl : Fin 6)
  | wlsteal (h : Hdr) (d : GReg) (a : WList) (b : GReg) (c : TReg) (gl : Fin 6)
  | workListFaulted (hive : Nat) (list : WList)
  | dispdef (h : Hdr) (d : DTab) (a : GReg)
  | disp (h : Hdr) (d : KReg) (a : DTab) (b c : TReg) (gl : Fin 6) (pm : Pm) (ty : Ty)
  | dispclr (h : Hdr) (a : DTab) (b : GReg) (save : Bool)
  -- kernels and launch (R307 to R321)
  | qtake (h : Hdr) (d : GReg)
  | qput (h : Hdr) (a : GReg) (out : Fin 2)
  | kspawn (h : Hdr) (a : GReg) (lq : Fin 16)
  | heart (h : Hdr)
  | twaitt (h : Hdr) (a : GReg)
  | evpost (h : Hdr) (a b : GReg)
  | ctxyield (h : Hdr)
  | launchEntryCheck (ctx : Nat) (lq : Fin 16)
  | coreGrant (core : Nat)
  | agingExpiry (ctx : Nat) (lq : Fin 16)
  | forcedPreemption (core : Nat)
  | kernelComplete (ctx : Nat) (lq : Fin 16)
  | kernelAbortComplete (ctx : Nat) (lq : Fin 16)
  | watchdog (core : Nat)
  -- context commands and what follows from them (R327 to R340)
  | ctxCreate (ctx : Nat)
  | ctxSet (ctx : Nat)
  | ctxBind (ctx : Nat)
  | ctxStart (ctx : Nat)
  | ctxSuspend (ctx : Nat)
  | ctxResume (ctx : Nat)
  | ctxFault (ctx : Nat)
  | ctxRecover (ctx : Nat)
  | ctxDestroy (ctx : Nat)
  | ctxResetPart (ctx : Nat)
  | drainComplete (ctx : Nat)
  | drainTimeout (ctx : Nat)
  | scrubComplete (ctx : Nat)
  | partitionReset (part : Nat)
  | resetEscalation (part : Nat)
  | fqheadReread (ctx : Nat)
  | uncorrectableError (at_ : EccPlace)
  -- time (R343), host (R347 to R351), links (R353 to R357)
  | ppsEdge
  | ptmMeasurement (offset : Int)
  | timeSourceLoss
  | timeset (v : W64)
  | stepclr
  | lqbell (ctx : Nat) (lq : Fin 16)
  | tailPoll (ctx : Nat) (lq : Fin 16)
  | peerAdmit (part : Fin 8) (pkg : Fin 64)
  | peerRemove (part : Fin 8) (pkg : Fin 64)
  | hostRegisterWrite (off : Nat) (v : W64)
  | hostWindowAccess (off : Nat) (acc : HostAccess)
  | cxlMemAccess (pa : Nat) (acc : HostAccess)
  | flitReceive (port : Fin 12) (f : Flit)
  | portTrained (port : Fin 12)
  | remoteRequest (pkg : Fin 64) (podCtx : Byte) (op : RemoteOp)
  -- power, telemetry, management (R382 to R392)
  | inputOutOfRange (low : Bool)
  | powerOnReset
  | throttle (part : Fin 8) (frac : Fin 16)
  | forecastWrite (part : Fin 8) (level : Fin 16)
  | telemetryFlush
  | telread (set : Nat)
  | powerset (part : Fin 8) (cap : Nat) (forecast : Bool)
  | devreset
  | fwstage (img : FwImage)
  | attest (nonce : BitVec 256)
  | twaittTimeReached (core act : Nat)
  | hostLinkDown (l : HostLink)
  | hostLinkTrained (l : LinkUp)
  | telemetrySample
  deriving DecidableEq, Repr

end Sys2Proof
end

