-- ==== Sys2Proof/WellFormed.lean ====
section
/-! DEFINITION. When a word is well formed: the limits of the spec that its own bits must meet (the decode reasons of R57),
said over the typed syntax. Types already exclude an index past its file (R43), TY 15 (R22), GL 0 and 7, and PM 17 to 31
(R44); the checks below are the rest. -/
namespace Sys2Proof

/-- How an instruction uses BS (R99): either form, always a scalar, never, or never and its rule calls BS reserved. -/
inductive BsUse where
  | either | must | never | reserved
  deriving DecidableEq, Repr

/-- Which element types an instruction accepts (R22, and sets F, S, I of 04_tile). -/
inductive TySet where
  | all | float | short | int | i64only | f32only | mx | noE2m1 | unused
  deriving DecidableEq, Repr

/-- Integer types, codes 0 to 6: set I. -/
def Ty.isInt : Ty → Bool
  | .i8 | .n8 | .i16 | .n16 | .i32 | .n32 | .i64 => true
  | _ => false

def TySet.has : TySet → Ty → Bool
  | .all, _ => true
  | .float, t => !t.isInt
  | .short, t => t == .f32 || t == .bf16 || t == .f16
  | .int, t => t.isInt
  | .i64only, t => t == .i64
  | .f32only, t => t == .f32
  | .mx, t => t == .e4m3 || t == .e2m1
  | .noE2m1, t => t != .e2m1
  | .unused, t => t == .i8

/-- Which fields of the tile MOD an instruction uses (R44 and each instruction's rule). `subRes` is the mask of reserved SUB
bits and `subLim` the number of SUB codes the instruction has. -/
structure TUse where
  tys    : TySet
  rm     : Bool := false
  glOne  : Bool := false
  pm     : Bool := true
  z      : Bool := true
  bs     : BsUse := .never
  sat    : Bool := false
  amx    : Bool := false
  subRes : Nat := 15
  subLim : Nat := 16
  deriving DecidableEq, Repr

/-- The MOD `m` keeps to the use `u`: unused fields are zero, used ones within their limits. -/
def TMod.fits (m : TMod) (u : TUse) : Bool :=
  u.tys.has m.ty && (u.rm || m.rm == .rne) && (!u.glOne || m.gl == 0) && (u.pm || m.pm == .none)
    && ((u.z && m.pm != .none) || !m.z) && (u.sat || !m.sat) && (u.amx || m.amx == none)
    && (m.sub.val &&& u.subRes) == 0 && m.sub.val < u.subLim

/-- Operand B agrees with the instruction's BS use (R99). -/
def TB.fits (b : TB) (u : BsUse) : Bool :=
  match u, b with
  | .either, _ => true
  | .must, .g _ => true
  | .never, .tile _ => true
  | .reserved, .tile _ => true
  | _, _ => false

/-- A group of GL registers lies within t0 to t15 (R43). -/
def groupOk (t : TReg) (gl : Fin 6) : Bool := t.val + gl.val ≤ 15

def TB.groupOk (b : TB) (gl : Fin 6) : Bool :=
  match b with
  | .tile t => Sys2Proof.groupOk t gl
  | .g _ => true

/-! ### The uses of the tile instructions -/

def useFBin : TUse := { tys := .float, rm := true, bs := .either, sat := true }
def useFUn : TUse := { tys := .float, rm := true, sat := true }
def useSBin : TUse := { tys := .short, rm := true, bs := .either, sat := true }
def useSUn : TUse := { tys := .short, rm := true, sat := true }
def useFpowi : TUse := { tys := .f32only, bs := .either }
def useFclass : TUse := { tys := .float, bs := .reserved }
def useFcmp : TUse := { tys := .float, glOne := true, bs := .either, subRes := 0, subLim := 8 }
def useIcmp : TUse := { tys := .int, glOne := true, bs := .either, subRes := 0, subLim := 6 }
def useFsel : TUse := { tys := .all, bs := .either }
def useISat : TUse := { tys := .int, bs := .either, sat := true }
def useINoSat : TUse := { tys := .int, bs := .either }
def useIabs : TUse := { tys := .int, sat := true }
def useCvt : TUse := { tys := .all, bs := .reserved, rm := true, sat := true, amx := true, subRes := 0, subLim := 15 }
def useCvtmx : TUse := { tys := .mx, amx := true, subRes := 0, subLim := 15 }
def useDqmx : TUse := { tys := .short, bs := .reserved, rm := true, sat := true, amx := true, subRes := 0, subLim := 15 }
def useCvtfxToInt : TUse := { tys := .int, rm := true, bs := .must, amx := true, subRes := 0, subLim := 15 }
def useCvtfxToFloat : TUse := { tys := .float, rm := true, bs := .must, sat := true, amx := true, subRes := 0, subLim := 15 }
def useTmov : TUse := { tys := .all, bs := .reserved }
def useTbcastG : TUse := { tys := .all, bs := .must, subRes := 0, subLim := 3 }
def useTbcastT : TUse := { tys := .all, bs := .reserved, subRes := 0, subLim := 3 }
def useTtrn : TUse := { tys := .all, bs := .reserved, pm := false, z := false }
def useTshuf : TUse := { tys := .all, bs := .either }
def useText : TUse := { tys := .all, pm := false, z := false, bs := .must }
def useTiota : TUse := { tys := .all, rm := true, bs := .must, sat := true }
def useReduce : TUse := { tys := .all, bs := .reserved, rm := true, z := false, sat := true, subRes := 0, subLim := 4 }
def useCmpx : TUse := { tys := .all, pm := false, z := false, bs := .must, subRes := 14 }
def useMask : TUse := { tys := .unused, bs := .reserved, glOne := true, pm := false, z := false }
def useKcomp : TUse := { tys := .all, bs := .reserved, pm := false, z := false, subRes := 14 }
def usePset : TUse := { tys := .unused, bs := .reserved, glOne := true, pm := false, z := false, subRes := 12 }
def useAccrd : TUse := { tys := .all, bs := .reserved, rm := true, sat := true, amx := true, subRes := 0, subLim := 4 }
def useAccrdRaw : TUse := { tys := .all, bs := .reserved, subRes := 0, subLim := 4 }
def useAccwr : TUse := { tys := .all, bs := .reserved, z := false, subRes := 0, subLim := 12 }
def useWlpush : TUse := { tys := .i64only, bs := .reserved, z := false }
def useWlpop : TUse := { tys := .i64only, bs := .reserved, pm := false, z := false }
def useDisp : TUse := { tys := .noE2m1, bs := .reserved, z := false }

/-- The type an accumulator kind requires (R256, R257): kind 0 any, `.mant` i64, `.guard` i8, `.exp` i16. -/
def accKindTy (kind : Nat) (t : Ty) : Bool :=
  match kind with
  | 0 => true
  | 1 => t == .i64
  | 2 => t == .i8
  | _ => t == .i16

/-- SUB of `accwr`: a kind in bits 1:0, bit 2 clear, ADD (bit 3) with kind 0 only (R257). -/
def accwrSubOk (sub : Nat) (t : Ty) : Bool :=
  accKindTy (sub % 4) t && (sub / 4 % 2 == 0) && (sub / 8 == 0 || sub % 4 == 0)

/-- A stationary format that R232 allows: its type with its MX flag. -/
def staFmtOk (t : Ty) (mx : Bool) : Bool :=
  match t with
  | .bf16 | .f16 | .e5m2 | .t8 | .t6 | .i8 | .n8 => !mx
  | .e4m3 => true
  | .e2m1 => mx
  | _ => false

/-- R244's image limit KS and R232's element sizes need the byte size of a type, in half bytes (R22). -/
def Ty.halfBytes : Ty → Nat
  | .i8 | .n8 | .e4m3 | .e5m2 | .t8 | .t6 => 2
  | .i16 | .n16 | .bf16 | .f16 => 4
  | .i32 | .n32 | .f32 => 8
  | .i64 => 16
  | .e2m1 => 1

/-- TY codes (R22). -/
def Ty.code : Ty → Nat
  | .i8 => 0 | .n8 => 1 | .i16 => 2 | .n16 => 3 | .i32 => 4 | .n32 => 5 | .i64 => 6 | .f32 => 7
  | .bf16 => 8 | .f16 => 9 | .e4m3 => 10 | .e5m2 => 11 | .t8 => 12 | .t6 => 13 | .e2m1 => 14

/-- The type of a TY code; codes past 14 are refused before this is asked. -/
def Ty.ofCode (n : Nat) : Ty :=
  match n with
  | 0 => .i8 | 1 => .n8 | 2 => .i16 | 3 => .n16 | 4 => .i32 | 5 => .n32 | 6 => .i64 | 7 => .f32
  | 8 => .bf16 | 9 => .f16 | 10 => .e4m3 | 11 => .e5m2 | 12 => .t8 | 13 => .t6 | _ => .e2m1

/-! ### The memory MOD -/

/-- A load accepts plain and acquire; a store plain and release (R140, R178). -/
def Sem.okLoad (s : Sem) : Bool := s == .plain || s == .acq
def Sem.okStore (s : Sem) : Bool := s == .plain || s == .rel

/-- The comb form of a tile load or store: OC, SCOPE and SEM are reserved (R140). -/
def MMod.combForm (m : MMod) : Bool := m.oc == 0 && m.scope == 0 && m.sem == .plain

def Base.modOk (b : Base) (m : MMod) (ok : Sem → Bool) : Bool :=
  match b with
  | .comb _ => m.combForm
  | .handle _ => ok m.sem

/-- Residency needs the handle form (R140). -/
def Base.resOk (b : Base) (rm : Option KReg) : Bool :=
  match b with
  | .comb _ => rm == none
  | .handle _ => true

/-- A tag is carried, or the only destination is g0 (R43, R51). -/
def tagOk (h : Hdr) (d : GReg) : Bool := h.sba != none || d == 0

/-- The header is legal (R40): its POP and PUSH name other classes, and a common or class opcode runs in its class. -/
def Hdr.ok (h : Hdr) : Bool := h.pop != some h.eng && h.push != some h.eng

/-- The word belongs to stream x, l, c or s. -/
def Hdr.inX (h : Hdr) : Bool := h.ok && h.eng == .x
def Hdr.inL (h : Hdr) : Bool := h.ok && h.eng == .l
def Hdr.inC (h : Hdr) : Bool := h.ok && h.eng == .c
def Hdr.inS (h : Hdr) : Bool := h.ok && h.eng == .s

/-- A † word: legal in x, l and s (R58). -/
def Hdr.notC (h : Hdr) : Bool := h.ok && h.eng != .c

def ringCount (n : W32) : Bool := n.toNat ≤ 4096

def aModOnly (m : AMod) (ty mode sweep strict fmt : Bool) : Bool :=
  (ty || m.ty == .i8) && (mode || m.mode == 0) && (sweep || !m.sweep) && (strict || !m.strict)
    && (fmt || (!m.sp && !m.mx))

/-- The decode limits of every word (R57's decode reasons). An event is not decoded: its own rule says when it happens. -/
def wellFormed : Instr → Bool
  | .nop h | .endW h => h.ok
  | .add h _ _ _ | .sub h _ _ _ | .mul h _ _ _ | .mulh h _ _ _ | .mulhu h _ _ _ | .and h _ _ _ | .or h _ _ _
  | .xor h _ _ _ | .shl h _ _ _ | .shr h _ _ _ | .sar h _ _ _ | .min h _ _ _ | .max h _ _ _ | .minu h _ _ _
  | .maxu h _ _ _ | .slt h _ _ _ | .sltu h _ _ _ | .seq h _ _ _ => h.ok
  | .madd h _ _ _ _ | .sel h _ _ _ _ => h.ok
  | .clz h _ _ | .popc h _ _ => h.ok
  | .addi h _ _ _ | .andi h _ _ _ | .ori h _ _ _ | .xori h _ _ _ | .slti h _ _ _ => h.ok
  | .shli h _ _ _ | .shri h _ _ _ | .sari h _ _ _ => h.ok
  | .ldi h _ _ => h.ok
  | .orhi h _ _ => h.ok
  | .bfx h _ _ pos wid _ => h.ok && 1 ≤ wid && pos.val + wid ≤ 64
  | .bfi h _ _ _ pos wid => h.ok && 1 ≤ wid && pos.val + wid ≤ 64
  | .beq h _ _ _ | .bne h _ _ _ | .blt h _ _ _ | .bge h _ _ _ | .bltu h _ _ _ | .bgeu h _ _ _ => h.ok
  | .jmp h _ => h.ok
  | .jal h _ _ | .loop h _ _ => h.ok
  | .jr h _ => h.ok
  | .tsig h q _ _ | .twait h q _ _ => h.ok && q != h.eng
  | .tqrd h _ a b => h.ok && a != b
  | .sysr h _ _ _ | .sysw h _ _ _ => h.ok
  | .pause h _ _ _ => h.ok
  | .trap h _ _ => h.ok
  | .fence h _ _ _ => h.ok
  | .qfence h i o => h.ok && (i || o)
  | .exit h | .exitAbort h | .resume h => h.inX
  | .trans h _ _ _ => h.notC
  | .hstat h d _ => h.notC && tagOk h d
  | .hinv h _ => h.notC && h.sba != none
  | .ringdef h _ _ _ => h.ok
  | .rclaim h d _ n | .rwaite h d _ n | .rwaitf h d _ n => h.ok && ringCount n && tagOk h d
  | .rcommit h _ n | .rrel h _ n => h.ok && ringCount n
  | .rapp h _ _ => h.ok
  | .syncset h _ _ _ => h.ok
  | .syncwait h d _ _ _ _ => h.ok && tagOk h d
  | .syncrd h d _ _ => h.ok && tagOk h d
  | .cld h d _ _ m => h.notC && tagOk h d && m.sem.okLoad && m.scope == 0 && m.ty != .e2m1
  | .cst h _ _ _ m => h.notC && m.sem.okStore && m.scope == 0 && m.ty != .e2m1
  | .lds h d _ _ c res m => h.inX && m.sem.okLoad && (res || c == 0) && (h.sba != none || (d == 0 && c == 0))
  | .sts h _ _ _ m => h.inX && m.sem.okStore
  | .tld h d a _ gl rm m => h.inL && h.sba != none && groupOk d gl && a.modOk m Sem.okLoad && a.resOk rm
  | .tldx h d a _ _ gl rm m => h.inL && h.sba != none && groupOk d gl && a.modOk m Sem.okLoad && a.resOk rm
  | .mld h d _ _ _ gl _ _ m => h.inL && h.sba != none && groupOk d gl && m.sem.okLoad
  | .mgath h d _ b _ gl _ _ m => h.inL && h.sba != none && groupOk d gl && groupOk b gl && m.sem == .plain
  | .tst h d a _ gl m => h.inS && groupOk d gl && a.modOk m Sem.okStore
  | .tstx h d a _ _ gl m => h.inS && groupOk d gl && a.modOk m Sem.okStore
  | .mst h d _ _ _ gl m => h.inS && groupOk d gl && m.sem.okStore
  | .mscat h d _ b _ gl m => h.inS && groupOk d gl && groupOk b gl && m.sem == .plain
  | .pref h _ _ _ => h.inL
  | .pgreq h _ _ _ => h.inX
  | .copyin h _ => h.inL
  | .copyout h _ => h.inS
  | .amo h d _ _ _ _ m => h.inX && tagOk h d && (m.ty == .i32 || m.ty == .i64)
  | .cas h d _ _ _ m => h.inX && tagOk h d && (m.ty == .i32 || m.ty == .i64)
  | .upd h _ _ b c gl _ _ _ =>
      h.inS && groupOk c gl && (match b with | .tile t => groupOk t gl | .cont _ => true)
  | .ufence h => h.inS
  | .regdef h _ _ _ _ => h.inX
  | .regclr h _ | .regapply h _ => h.inX
  | .stepadv h => h.inX
  | .stsweep h _ _ _ => h.inX
  | .stload h _ _ m => h.inL && aModOnly m true false false false true && staFmtOk m.ty m.mx
  | .gbuild h _ => h.inC
  | .stswap h => h.inC
  | .mma h _ _ _ m => h.inC && aModOnly m true true true false false && (!m.sweep || m.mode == 1 || m.mode == 2)
  | .mmas h _ _ _ _ m => h.inC && aModOnly m true false false true true && staFmtOk m.ty m.mx
  | .accinit h _ _ => h.inC
  | .accnorm h _ => h.inC
  | .accrd h d _ m => h.inC && h.sba != none && groupOk d m.gl && accKindTy m.sub.val m.ty
      && m.fits (if m.sub == 0 then useAccrd else useAccrdRaw)
  | .accwr h _ b m => h.inC && groupOk b m.gl && accwrSubOk m.sub.val m.ty && m.fits useAccwr
  | .accstat h d a sub => h.inC && tagOk h d && (sub != 3 || a == 0)
  | .drain h _ _ _ ty _ _ _ _ lay => h.inS && (if lay == .mxb then ty == .e4m3 || ty == .e2m1 else ty != .e2m1)
  | .grpld h _ _ => h.inL
  | .grpbind h _ _ => h.inC
  | .grpstat h d _ => h.inC && tagOk h d
  | .fadd h d a b m | .fsub h d a b m | .fmul h d a b m | .fmin h d a b m | .fmax h d a b m =>
      h.inC && groupOk d m.gl && groupOk a m.gl && b.groupOk m.gl && m.fits useFBin
  | .fma h d a b c m | .fms h d a b c m | .fnma h d a b c m =>
      h.inC && groupOk d m.gl && groupOk a m.gl && b.groupOk m.gl && groupOk c m.gl && m.fits useFBin
  | .fabs h d a m | .fneg h d a m => h.inC && groupOk d m.gl && groupOk a m.gl && m.fits useFUn
  | .fdiv h d a b m => h.inC && groupOk d m.gl && groupOk a m.gl && b.groupOk m.gl && m.fits useSBin
  | .fsqrt h d a m | .frsq h d a m | .frcp h d a m | .fexp2 h d a m | .flog2 h d a m | .ftanh h d a m =>
      h.inC && groupOk d m.gl && groupOk a m.gl && m.fits useSUn
  | .fpowi h d a b m => h.inC && groupOk d m.gl && groupOk a m.gl && b.groupOk m.gl && m.fits useFpowi
  | .fclass h d a m => h.inC && groupOk d m.gl && groupOk a m.gl && m.fits useFclass
  | .fcmp h _ a b m => h.inC && groupOk a m.gl && b.groupOk m.gl && m.fits useFcmp
  | .fsel h d a b _ m => h.inC && groupOk d m.gl && groupOk a m.gl && b.groupOk m.gl && m.fits useFsel
  | .iadd h d a b m | .isub h d a b m | .imul h d a b m | .ishl h d a b m =>
      h.inC && groupOk d m.gl && groupOk a m.gl && b.groupOk m.gl && m.fits useISat
  | .imad h d a b c m =>
      h.inC && groupOk d m.gl && groupOk a m.gl && b.groupOk m.gl && groupOk c m.gl && m.fits useISat
  | .iand h d a b m | .ior h d a b m | .ixor h d a b m | .ishr h d a b m | .isar h d a b m | .imin h d a b m
  | .imax h d a b m => h.inC && groupOk d m.gl && groupOk a m.gl && b.groupOk m.gl && m.fits useINoSat
  | .icmp h _ a b m => h.inC && groupOk a m.gl && b.groupOk m.gl && m.fits useIcmp
  | .iabs h d a m => h.inC && groupOk d m.gl && groupOk a m.gl && m.fits useIabs
  | .cvt h d a src m => h.inC && groupOk d m.gl && groupOk a m.gl && m.fits useCvt && m.sub.val == src.code
  | .cvtmx h d a b src m => h.inC && groupOk d m.gl && groupOk a m.gl && m.fits useCvtmx && m.sub.val == src.code
      && !(d.val ≤ b.val && b.val ≤ d.val + m.gl.val)
  | .dqmx h d a _ src m => h.inC && groupOk d m.gl && groupOk a m.gl && m.fits useDqmx && m.sub.val == src.code
      && (src == .e4m3 || src == .e2m1)
  | .cvtfx h d a _ src m => h.inC && groupOk d m.gl && groupOk a m.gl && m.sub.val == src.code && (src.isInt != m.ty.isInt)
      && m.fits (if m.ty.isInt then useCvtfxToInt else useCvtfxToFloat)
  | .tmov h d a m => h.inC && groupOk d m.gl && groupOk a m.gl && m.fits useTmov
  | .tbcast h d a b m => h.inC && groupOk d m.gl && m.fits useTbcastT
      && (if m.sub == 0 then a == 0 else b == 0 && groupOk a m.gl)
  | .ttrn h d a m => h.inC && groupOk d m.gl && groupOk a m.gl && m.fits useTtrn
  | .tshuf h d a b m => h.inC && groupOk d m.gl && groupOk a m.gl && b.groupOk m.gl && m.fits useTshuf
  | .text h _ a _ m => h.inC && groupOk a m.gl && m.fits useText
  | .tins h d _ _ m => h.inC && groupOk d m.gl && m.fits useText
  | .tiota h d _ _ m => h.inC && groupOk d m.gl && m.fits useTiota
  | .rsum h d a m | .rmax h d a m | .rmin h d a m | .ramax h d a m =>
      h.inC && groupOk d m.gl && groupOk a m.gl && m.fits useReduce
  | .cmpx h d a _ c m => h.inC && groupOk d m.gl && groupOk a m.gl && m.fits useCmpx
      && (if m.sub == 1 then groupOk c m.gl else c == 0)
  | .kand h _ _ _ | .kor h _ _ _ | .kxor h _ _ _ => h.inC
  | .knot h _ _ => h.inC
  | .kpopc h _ _ | .kfirst h _ _ => h.inC
  | .kcomp h d a _ m | .kexp h d a _ m => h.inC && groupOk d m.gl && groupOk a m.gl && m.fits useKcomp
  | .pset h _ _ _ => h.inC
  | .pget h _ _ => h.inC
  | .amrd h _ _ => h.inC
  | .amclr h _ => h.inC
  | .barset h _ b dis => h.inX && (!dis || b == 0)
  | .bararr h _ => h.inX
  | .barwait h d _ _ => h.inX && tagOk h d
  | .bartry h d _ => h.inX && tagOk h d
  | .wldef h _ _ _ _ => h.inX
  | .wlreset h _ => h.inX
  | .wlpush h _ b gl _ | .wlins h _ b gl _ => h.inS && groupOk b gl
  | .wlpop h _ _ _ c gl | .wlsteal h _ _ _ c gl => h.inL && h.sba != none && groupOk c gl
  | .dispdef h _ _ => h.inX
  | .disp h _ _ _ c gl _ ty => h.inS && h.sba != none && groupOk c gl && ty != .e2m1
  | .dispclr h _ b save => h.inX && (save || b == 0)
  | .qtake h d => h.inX && h.sba != none && (d == 0 || 9 ≤ d.val)
  | .qput h _ _ => h.inX
  | .kspawn h _ _ => h.inX
  | .heart h => h.inX
  | .twaitt h _ => h.inX
  | .evpost h _ _ => h.inX
  | .ctxyield h => h.inX
  | .tqceilWrite _ _ | .tqcntWrite _ _ | .amaxWrite _ _ | .dcfWrite _ _ | .scopeEntryWrite _ _ | .pauseEnd _ _
  | .taskComplete _ | .handlerEntry _ | .tokenDeadlock _ | .resultLanding _ _ | .variableResultLanding _ _ | .walkEnd _ _
  | .shootdown _ _ | .rcommitApply _ _ | .rrelApply _ _ | .roomAnswer _ _ | .creditArrival _ _ _ | .rappArrival _ _
  | .syncwaitTimeout _ _ | .pageResident _ | .migrationRequest _ _ _ _ _ | .migrationDrained _ | .migrationCopied _
  | .migrationSwitched _ | .retryAfterHint _ _ _ | .homeLoad _ _ _ | .homeStore _ _ _ | .homeAtomic _ _
  | .copyEntry _ _ | .copyLoop _ _ | .copyIf _ _ | .copyLink _ _ | .copyFence _ _ | .copyEnd _ _
  | .updatePairArrival _ _ _ | .windowClose | .sweepPage _ | .arrayWordStart _ _ | .arrayWordComplete _ _
  | .grpldCheckDone _ _ | .barwaitTimeout _ _ | .barrierRelease _ | .workListFaulted _ _ | .launchEntryCheck _ _
  | .coreGrant _ | .agingExpiry _ _ | .forcedPreemption _ | .kernelComplete _ _ | .kernelAbortComplete _ _ | .watchdog _
  | .ctxCreate _ | .ctxSet _ | .ctxBind _ | .ctxStart _ | .ctxSuspend _ | .ctxResume _ | .ctxFault _ | .ctxRecover _
  | .ctxDestroy _ | .ctxResetPart _ | .drainComplete _ | .drainTimeout _ | .scrubComplete _ | .partitionReset _
  | .resetEscalation _ | .fqheadReread _ | .uncorrectableError _ | .ppsEdge | .ptmMeasurement _ | .timeSourceLoss
  | .timeset _ | .stepclr | .lqbell _ _ | .tailPoll _ _ | .peerAdmit _ _ | .peerRemove _ _ | .hostRegisterWrite _ _
  | .hostWindowAccess _ _ | .cxlMemAccess _ _ | .flitReceive _ _ | .portTrained _ | .remoteRequest _ _ _
  | .peerTimeout _ _ | .inputOutOfRange _ | .powerOnReset | .throttle _ _ | .forecastWrite _ _ | .telemetryFlush
  | .telread _ | .powerset _ _ _ | .devreset | .fwstage _ | .attest _ | .twaittTimeReached _ _ | .hostLinkDown _
  | .hostLinkTrained _ | .telemetrySample => true

/-- The header of a word; an event has none. -/
def Instr.hdr? : Instr → Option Hdr
  | .nop h .. | .endW h .. | .add h .. | .sub h .. | .mul h .. | .mulh h .. | .mulhu h .. | .madd h ..
  | .and h .. | .or h .. | .xor h .. | .shl h .. | .shr h .. | .sar h .. | .min h .. | .max h .. | .minu h ..
  | .maxu h .. | .slt h .. | .sltu h .. | .seq h .. | .sel h .. | .clz h .. | .popc h .. | .addi h ..
  | .andi h .. | .ori h .. | .xori h .. | .shli h .. | .shri h .. | .sari h .. | .slti h .. | .ldi h ..
  | .orhi h .. | .bfx h .. | .bfi h .. | .beq h .. | .bne h .. | .blt h .. | .bge h .. | .bltu h ..
  | .bgeu h .. | .jmp h .. | .jal h .. | .loop h .. | .jr h .. | .tsig h .. | .twait h .. | .tqrd h ..
  | .sysr h .. | .sysw h .. | .pause h .. | .trap h .. | .fence h .. | .qfence h .. | .exit h ..
  | .exitAbort h .. | .resume h .. | .trans h .. | .hstat h .. | .hinv h .. | .ringdef h .. | .rclaim h ..
  | .rwaite h .. | .rwaitf h .. | .rcommit h .. | .rrel h .. | .rapp h .. | .syncset h .. | .syncwait h ..
  | .syncrd h .. | .cld h .. | .cst h .. | .lds h .. | .sts h .. | .tld h .. | .tldx h .. | .mld h ..
  | .mgath h .. | .tst h .. | .tstx h .. | .mst h .. | .mscat h .. | .pref h .. | .pgreq h .. | .copyin h ..
  | .copyout h .. | .amo h .. | .cas h .. | .upd h .. | .ufence h .. | .regdef h .. | .regclr h ..
  | .regapply h .. | .stepadv h .. | .stsweep h .. | .stload h .. | .gbuild h .. | .stswap h .. | .mma h ..
  | .mmas h .. | .accinit h .. | .accnorm h .. | .accrd h .. | .accwr h .. | .accstat h .. | .drain h ..
  | .grpld h .. | .grpbind h .. | .grpstat h .. | .fadd h .. | .fsub h .. | .fmul h .. | .fma h .. | .fms h ..
  | .fnma h .. | .fmin h .. | .fmax h .. | .fabs h .. | .fneg h .. | .fdiv h .. | .fsqrt h .. | .frsq h ..
  | .frcp h .. | .fexp2 h .. | .flog2 h .. | .ftanh h .. | .fpowi h .. | .fclass h .. | .fcmp h .. | .fsel h ..
  | .iadd h .. | .isub h .. | .imul h .. | .imad h .. | .iand h .. | .ior h .. | .ixor h .. | .ishl h ..
  | .ishr h .. | .isar h .. | .imin h .. | .imax h .. | .icmp h .. | .iabs h .. | .cvt h .. | .cvtmx h ..
  | .dqmx h .. | .cvtfx h .. | .tmov h .. | .tbcast h .. | .ttrn h .. | .tshuf h .. | .text h .. | .tins h ..
  | .tiota h .. | .rsum h .. | .rmax h .. | .rmin h .. | .ramax h .. | .cmpx h .. | .kand h .. | .kor h ..
  | .kxor h .. | .knot h .. | .kpopc h .. | .kfirst h .. | .kcomp h .. | .kexp h .. | .pset h .. | .pget h ..
  | .amrd h .. | .amclr h .. | .barset h .. | .bararr h .. | .barwait h .. | .bartry h .. | .wldef h ..
  | .wlreset h .. | .wlpush h .. | .wlins h .. | .wlpop h .. | .wlsteal h .. | .dispdef h .. | .disp h ..
  | .dispclr h .. | .qtake h .. | .qput h .. | .kspawn h .. | .heart h .. | .twaitt h .. | .evpost h ..
  | .ctxyield h .. => some h
  | .tqceilWrite .. | .tqcntWrite .. | .amaxWrite .. | .dcfWrite .. | .scopeEntryWrite .. | .pauseEnd ..
  | .taskComplete .. | .handlerEntry .. | .tokenDeadlock .. | .resultLanding .. | .variableResultLanding ..
  | .walkEnd .. | .shootdown .. | .rcommitApply .. | .rrelApply .. | .roomAnswer .. | .creditArrival ..
  | .rappArrival .. | .syncwaitTimeout .. | .pageResident .. | .migrationRequest .. | .migrationDrained ..
  | .migrationCopied .. | .migrationSwitched .. | .retryAfterHint .. | .homeLoad .. | .homeStore ..
  | .homeAtomic .. | .copyEntry .. | .copyLoop .. | .copyIf .. | .copyLink .. | .copyFence .. | .copyEnd ..
  | .updatePairArrival .. | .windowClose | .sweepPage .. | .arrayWordStart .. | .arrayWordComplete ..
  | .grpldCheckDone .. | .barwaitTimeout .. | .barrierRelease .. | .workListFaulted .. | .launchEntryCheck ..
  | .coreGrant .. | .agingExpiry .. | .forcedPreemption .. | .kernelComplete .. | .kernelAbortComplete ..
  | .watchdog .. | .ctxCreate .. | .ctxSet .. | .ctxBind .. | .ctxStart .. | .ctxSuspend .. | .ctxResume ..
  | .ctxFault .. | .ctxRecover .. | .ctxDestroy .. | .ctxResetPart .. | .drainComplete .. | .drainTimeout ..
  | .scrubComplete .. | .partitionReset .. | .resetEscalation .. | .fqheadReread .. | .uncorrectableError ..
  | .ppsEdge | .ptmMeasurement .. | .timeSourceLoss | .timeset .. | .stepclr | .lqbell .. | .tailPoll ..
  | .peerAdmit .. | .peerRemove .. | .hostRegisterWrite .. | .hostWindowAccess .. | .cxlMemAccess ..
  | .flitReceive .. | .portTrained .. | .remoteRequest .. | .peerTimeout .. | .inputOutOfRange .. | .powerOnReset
  | .throttle .. | .forecastWrite .. | .telemetryFlush | .telread .. | .powerset .. | .devreset | .fwstage ..
  | .attest .. | .twaittTimeReached .. | .hostLinkDown .. | .hostLinkTrained .. | .telemetrySample => none

end Sys2Proof
end

