-- ==== Sys2Proof/Machine/Numbers.lean ====
section
/-! DEFINITION. Numbers (spec 01): the formats bit for bit, and every rounding as a function of an exact value. Exact values
are signed fractions of natural numbers, with the special values beside them; nothing is rounded on the way. -/
namespace Sys2Proof.Machine

/-- An exact value before rounding: ±n/d with n and d positive, a signed zero, a signed infinity, or NaN (also NaR, R17). -/
inductive Num where
  | nan
  | inf (neg : Bool)
  | zero (neg : Bool)
  | val (neg : Bool) (n d : Nat)
  deriving DecidableEq, Repr

namespace Num

def ofInt (i : Int) : Num :=
  if i = 0 then .zero false else .val (decide (i < 0)) i.natAbs 1

/-- ±m × 2^e. -/
def dyadic (neg : Bool) (m : Nat) (e : Int) : Num :=
  if m = 0 then .zero neg else if e < 0 then .val neg m (2 ^ (-e).toNat) else .val neg (m * 2 ^ e.toNat) 1

def isNeg : Num → Bool
  | .nan => false
  | .inf s | .zero s | .val s _ _ => s

def neg : Num → Num
  | .nan => .nan
  | .inf s => .inf (!s)
  | .zero s => .zero (!s)
  | .val s n d => .val (!s) n d

def abs : Num → Num
  | .nan => .nan
  | .inf _ => .inf false
  | .zero _ => .zero false
  | .val _ n d => .val false n d

/-- Multiplication; Inf × 0 is NaN. -/
def mul : Num → Num → Num
  | .nan, _ | _, .nan => .nan
  | .inf _, .zero _ | .zero _, .inf _ => .nan
  | .inf s, .inf t | .inf s, .val t _ _ | .val s _ _, .inf t => .inf (s != t)
  | .zero s, .zero t | .zero s, .val t _ _ | .val s _ _, .zero t => .zero (s != t)
  | .val s n d, .val t m e => .val (s != t) (n * m) (d * e)

/-- The sum; an exact zero that is not of two zeros of one sign is −0 under RDN and +0 otherwise (R11). -/
def add (rm : Rm) : Num → Num → Num
  | .nan, _ | _, .nan => .nan
  | .inf s, .inf t => if s = t then .inf s else .nan
  | .inf s, _ | _, .inf s => .inf s
  | .zero s, .zero t => if s = t then .zero s else .zero (rm == .rdn)
  | .zero _, x | x, .zero _ => x
  | .val s n d, .val t m e =>
    let a := n * e
    let b := m * d
    if s = t then .val s (a + b) (d * e)
    else if a = b then .zero (rm == .rdn)
    else if b < a then .val s (a - b) (d * e) else .val t (b - a) (d * e)

/-- Division by R34's table. -/
def div : Num → Num → Num
  | .nan, _ | _, .nan => .nan
  | .inf _, .inf _ | .zero _, .zero _ => .nan
  | .inf s, .zero t | .inf s, .val t _ _ | .val s _ _, .zero t => .inf (s != t)
  | .zero s, .inf t | .zero s, .val t _ _ | .val s _ _, .inf t => .zero (s != t)
  | .val s n d, .val t m e => .val (s != t) (n * e) (d * m)

/-- Order of two values that are not NaN, with −0 below +0 when `zeros` is set. -/
def lt (zeros : Bool) : Num → Num → Bool
  | .nan, _ | _, .nan => false
  | .inf s, .inf t => s && !t
  | .inf s, _ => s
  | _, .inf t => !t
  | .zero s, .zero t => zeros && s && !t
  | .zero _, .val t _ _ => !t
  | .val s _ _, .zero _ => s
  | .val s n d, .val t m e =>
    if s && !t then true else if !s && t then false
    else if s then decide (m * d < n * e) else decide (n * e < m * d)

/-- Equality as numbers: the two zeros are equal, NaN equals nothing. -/
def numEq (a b : Num) : Bool := a != .nan && b != .nan && !lt false a b && !lt false b a

/-- floor(log2(n/d)) for positive n and d. -/
def log2Floor (n d : Nat) : Int :=
  let k : Int := (n.log2 : Int) - (d.log2 : Int)
  -- 2^(k-1) < n/d < 2^(k+1)
  if (if k < 0 then d ≤ n * 2 ^ (-k).toNat else d * 2 ^ k.toNat ≤ n) then k else k - 1

end Num

/-- Rounds the positive fraction n/d to an integer magnitude under a mode; `neg` is the sign of the value (R9). -/
def roundMag (rm : Rm) (neg : Bool) (n d : Nat) : Nat :=
  let lo := n / d
  let rem := n % d
  if rem = 0 then lo
  else match rm with
    | .rne => if d < 2 * rem then lo + 1 else if 2 * rem = d ∧ lo % 2 = 1 then lo + 1 else lo
    | .rtz => lo
    | .rdn => if neg then lo + 1 else lo
    | .rup => if neg then lo else lo + 1

/-- RoundNE(x, Z, rm) for a finite x, as an integer (R9). NaN and infinities are settled by the caller and read as 0 here. -/
def roundInt (rm : Rm) : Num → Int
  | .val s n d => if s then -(roundMag rm s n d : Int) else (roundMag rm s n d : Int)
  | _ => 0

/-- GridRound(p, E) = RoundNE(p / 2^E, Z) (R29). -/
def gridRound (p : Num) (e : Int) : Int := roundInt .rne (p.mul (Num.dyadic false 1 (-e)))

/-! ### IEEE-style formats (R13, R14) -/

inductive Fmt where
  | fp32 | bf16 | fp16 | e5m2 | e4m3 | e2m1
  deriving DecidableEq, Repr

namespace Fmt
def bits : Fmt → Nat
  | .fp32 => 32 | .bf16 => 16 | .fp16 => 16 | .e5m2 => 8 | .e4m3 => 8 | .e2m1 => 4
def mb : Fmt → Nat
  | .fp32 => 23 | .bf16 => 7 | .fp16 => 10 | .e5m2 => 2 | .e4m3 => 3 | .e2m1 => 1
def emin : Fmt → Int
  | .fp32 => -126 | .bf16 => -126 | .fp16 => -14 | .e5m2 => -14 | .e4m3 => -6 | .e2m1 => 0
/-- The code of the largest finite magnitude. -/
def maxCode : Fmt → Nat
  | .fp32 => 0x7F7FFFFF | .bf16 => 0x7F7F | .fp16 => 0x7BFF | .e5m2 => 0x7B | .e4m3 => 0x7E | .e2m1 => 0x7
def hasInf : Fmt → Bool
  | .e4m3 | .e2m1 => false
  | _ => true
def infCode (f : Fmt) : Nat := f.maxCode + 1
/-- The canonical NaN; E2M1 has none and takes +0 (R9, R14). -/
def nanCode : Fmt → Nat
  | .fp32 => 0x7FC00000 | .bf16 => 0x7FC0 | .fp16 => 0x7E00 | .e5m2 => 0x7E | .e4m3 => 0x7F | .e2m1 => 0
def signBit (f : Fmt) : Nat := 2 ^ (f.bits - 1)
def withSign (f : Fmt) (neg : Bool) (mag : Nat) : Nat := if neg then f.signBit + mag else mag

/-- Big(F, s, sat) of R9. -/
def big (f : Fmt) (neg sat : Bool) : Nat :=
  if sat || f == .e2m1 then f.withSign neg f.maxCode
  else if f.hasInf then f.withSign neg f.infCode else f.nanCode

/-- The exact value of a code (R13). -/
def decode (f : Fmt) (code : Nat) : Num :=
  let neg := code / f.signBit % 2 == 1
  let mag := code % f.signBit
  if f.maxCode < mag then
    if f.hasInf && mag == f.infCode then .inf neg else .nan
  else
    let ex := mag / 2 ^ f.mb
    let m := mag % 2 ^ f.mb
    if ex = 0 then Num.dyadic neg m (f.emin - f.mb) else Num.dyadic neg (2 ^ f.mb + m) (f.emin + (ex : Int) - 1 - f.mb)

/-- RoundNE(x, F, rm, sat) as a code (R9). -/
def round (f : Fmt) (rm : Rm) (sat : Bool) : Num → Nat
  | .nan => f.nanCode
  | .inf s => f.big s sat
  | .zero s => f.withSign s 0
  | .val s n d =>
    let e := max (Num.log2Floor n d) f.emin
    let sh := e - f.mb
    let k := if sh < 0 then roundMag rm s (n * 2 ^ (-sh).toNat) d else roundMag rm s n (d * 2 ^ sh.toNat)
    let code := (e - f.emin).toNat * 2 ^ f.mb + k
    if f.maxCode < code then
      if sat || rm == .rtz || (rm == .rdn && !s) || (rm == .rup && s) then f.withSign s f.maxCode else f.big s false
    else f.withSign s code
end Fmt

/-! ### FP32 shorthands -/

/-- RoundNE(x) as an FP32 code. -/
def f32 (x : Num) : Nat := Fmt.fp32.round .rne false x
def ofF32 (c : Nat) : Num := Fmt.fp32.decode c
/-- The FP32 product, rounded once. -/
def mul32 (a b : Nat) : Nat := f32 ((ofF32 a).mul (ofF32 b))
/-- The FP32 sum, rounded once. -/
def add32 (a b : Nat) : Nat := f32 ((ofF32 a).add .rne (ofF32 b))

/-! ### Tapered formats (R15, R16) -/

/-- The length of the run of bits equal to `b` from bit `i - 1` of c downwards. -/
def runLen (c : Nat) (b : Nat) : Nat → Nat
  | 0 => 0
  | i + 1 => if c / 2 ^ i % 2 = b then 1 + runLen c b i else 0

/-- The exact value of a tapered code of n bits (R15). -/
def taperDecode (n : Nat) (code : Nat) : Num :=
  let c := code % 2 ^ n
  if c = 0 then .zero false
  else if c = 2 ^ (n - 1) then .nan
  else
    let neg := c / 2 ^ (n - 1) == 1
    let m := (if neg then 2 ^ n - c else c) % 2 ^ (n - 1)
    let first := m / 2 ^ (n - 2) % 2
    let r := runLen m first (n - 1)
    let k : Int := if first = 1 then (r : Int) - 1 else -(r : Int)
    -- bits left after the regime and its ending bit
    let left := (n - 1) - (r + 1)
    let e := if left = 0 then 0 else m / 2 ^ (left - 1) % 2
    let fb := left - 1
    let f := m % 2 ^ fb
    Num.dyadic neg (2 ^ fb + f) (2 * k + e - fb)

/-- TaperRound(x, T) as a code of n bits (R16). -/
def taperRound (n : Nat) : Num → Nat
  | .nan | .inf _ => 2 ^ (n - 1)
  | .zero _ => 0
  | .val neg p q =>
    let maxLog : Nat := 2 * (n - 2)
    let c :=
      if 2 ^ maxLog * q ≤ p then 2 ^ (n - 1) - 1
      else if p * 2 ^ maxLog ≤ q then 1
      else
        let l := Num.log2Floor p q
        let k := l / 2
        let e := l - 2 * k
        -- a = 2^l × (1 + fn/fd)
        let (an, ad) := if l < 0 then (p * 2 ^ (-l).toNat, q) else (p, q * 2 ^ l.toNat)
        let fn := an - ad
        -- the regime as an integer and its length
        let (reg, rl) := if 0 ≤ k then ((2 ^ (k.toNat + 1) - 1) * 2, k.toNat + 2) else (1, (-k).toNat + 1)
        -- the string is (reg, e, f) read as reg·2 + e followed by the fraction fn/ad
        let whole := reg * 2 + e.toNat
        let wl := rl + 1
        -- its first n − 1 bits, and the rest as a fraction tn/td
        let (c, tn, td) :=
          if wl ≤ n - 1 then
            let extra := n - 1 - wl
            let sc := fn * 2 ^ extra
            (whole * 2 ^ extra + sc / ad, sc % ad, ad)
          else
            let drop := wl - (n - 1)
            (whole / 2 ^ drop, whole % 2 ^ drop * ad + fn, 2 ^ drop * ad)
        if td < 2 * tn ∨ (2 * tn = td ∧ c % 2 = 1) then c + 1 else c
    if neg then (2 ^ n - c) % 2 ^ n else c

/-! ### Element types (R22 to R24) -/

/-- A signed integer type. -/
def tySigned : Ty → Bool
  | .i8 | .i16 | .i32 | .i64 => true
  | _ => false

/-- The bits of an element (R22). -/
def tyBits (t : Ty) : Nat := t.halfBytes * 4

def tyFmt : Ty → Option Fmt
  | .f32 => some .fp32 | .bf16 => some .bf16 | .f16 => some .fp16 | .e4m3 => some .e4m3 | .e5m2 => some .e5m2
  | .e2m1 => some .e2m1
  | _ => none

/-- An integer element's value. -/
def tyInt (t : Ty) (code : Nat) : Int :=
  let w := tyBits t
  let c := code % 2 ^ w
  if tySigned t && 2 ^ (w - 1) ≤ c then (c : Int) - (2 ^ w : Nat) else c

def tyMin (t : Ty) : Int := if tySigned t then -((2 ^ (tyBits t - 1) : Nat) : Int) else 0
def tyMax (t : Ty) : Int := if tySigned t then ((2 ^ (tyBits t - 1) : Nat) : Int) - 1 else ((2 ^ tyBits t : Nat) : Int) - 1

/-- The low bits of an integer, as an element of t. -/
def tyWrap (t : Ty) (i : Int) : Nat := (i % ((2 ^ tyBits t : Nat) : Int)).toNat
def tyClamp (t : Ty) (i : Int) : Nat := tyWrap t (max (tyMin t) (min (tyMax t) i))
/-- An integer result: wrapped, or with SAT clamped (R23). -/
def tyFit (t : Ty) (sat : Bool) (i : Int) : Nat := if sat then tyClamp t i else tyWrap t i

/-- The exact value of an element code of any type (R13, R15, R17, R22). -/
def tyDecode (t : Ty) (code : Nat) : Num :=
  match tyFmt t with
  | some f => f.decode (code % 2 ^ f.bits)
  | none => match t with
    | .t8 => taperDecode 8 code
    | .t6 => taperDecode 6 code
    | t => Num.ofInt (tyInt t code)

/-- An exact value rounded once into a type (R24). -/
def tyEncode (t : Ty) (rm : Rm) (sat : Bool) (x : Num) : Nat :=
  match tyFmt t with
  | some f => f.round rm sat x
  | none => match t with
    | .t8 => taperRound 8 x
    | .t6 => taperRound 6 x
    | t => match x with
      | .nan => 0
      | .inf s => tyWrap t (if s then tyMin t else tyMax t)
      | x => tyClamp t (roundInt rm x)

/-- A conversion between element types (R24). DESIGN CHOICE (log 67): with SAT an infinity becomes MAXF also where both types are one,
though R111 has such a `cvt` return the value. -/
def convert (src dst : Ty) (rm : Rm) (sat : Bool) (code : Nat) : Nat :=
  if src.isInt && dst.isInt then
    let i := tyInt src code
    if src.halfBytes < dst.halfBytes then tyWrap dst i else tyFit dst sat i
  else tyEncode dst rm sat (tyDecode src code)

/-! ### MX blocks (R18 to R21) -/

/-- The scale of an E8M0 code, or NaN (R18). -/
def e8m0 (s : Nat) : Num := if s = 255 then .nan else Num.dyadic false 1 ((s : Int) - 127)

/-- An MX element's exact value (R19). -/
def mxDecode (t : Ty) (scale code : Nat) : Num := if scale = 255 then .nan else (e8m0 scale).mul (tyDecode t code)

/-- The largest magnitude of a list of finite values, as a fraction; none when all are zero. -/
def maxMag : List Num → Option (Nat × Nat)
  | [] => none
  | x :: t => match x, maxMag t with
    | .val _ n d, some (m, e) => if m * d < n * e then some (n, d) else some (m, e)
    | .val _ n d, none => some (n, d)
    | _, r => r

/-- MxScale (R20): the scale code and the element codes. -/
def mxScale (t : Ty) (xs : List Num) : Nat × List Nat :=
  if xs.any (fun x => match x with | .nan | .inf _ => true | _ => false) then (255, xs.map (fun _ => 0))
  else
    let emaxe : Int := if t == .e2m1 then 2 else 8
    let e : Int := match maxMag xs with
      | none => -127
      | some (n, d) => min (max (Num.log2Floor n d - emaxe) (-127)) 127
    let sc := Num.dyadic false 1 (-e)
    ((e + 127).toNat, xs.map (fun x => tyEncode t .rne true (x.mul sc)))

/-! ### The melt (R35, R38) -/

/-- DecayPow's loop over the bits of Δ from bit i − 1 down. -/
def decayLoop (f dl : Nat) : Nat → Nat → Nat
  | 0, p => p
  | i + 1, p =>
    let p2 := mul32 p p
    decayLoop f dl i (if dl / 2 ^ i % 2 = 1 then mul32 p2 f else p2)

/-- DecayPow(f, Δ) as an FP32 code (R35). -/
def decayPow (f dl : Nat) : Nat := decayLoop f dl 15 0x3F800000

/-- The melted value of an exact y (R35). -/
def melt (f dl : Nat) (y : Num) : Nat := f32 (y.mul (ofF32 (decayPow f dl)))

/-! ### Correctly rounded functions (R34): values to 400 bits, with a last bit that says the value is not exact -/

/-- Integer square root, one bit of the root a step from bit i − 1 down. -/
def isqrtLoop (n : Nat) : Nat → Nat → Nat
  | 0, r => r
  | i + 1, r => let r' := r + 2 ^ i; isqrtLoop n i (if r' * r' ≤ n then r' else r)

def isqrt (n : Nat) : Nat := isqrtLoop n (n.log2 / 2 + 1) 0

/-- √(n/d), exact or with the inexact bit. -/
def sqrtNum (n d : Nat) : Num :=
  -- scale so that the root has some 400 bits
  let sh := 2 * (400 + d.log2)
  let m := n * 2 ^ sh / d
  let r := isqrt m
  if r * r * d = n * 2 ^ sh then .val false r (2 ^ (sh / 2)) else .val false (2 * r + 1) (2 ^ (sh / 2 + 1))

/-- Fixed point: 2^400 stands for 1. -/
def fixOne : Nat := 2 ^ 400

/-- Σ z^(2k+1)/(2k+1): the odd powers from p on, with k the next odd number. -/
def atanhLoop (z2 : Nat) : Nat → Nat → Nat → Nat → Nat
  | 0, _, _, acc => acc
  | fuel + 1, p, k, acc => atanhLoop z2 fuel (p * z2 / fixOne) (k + 2) (acc + p / k)

/-- atanh of a fixed-point z ≤ 1/3. -/
def fixAtanh (z : Nat) : Nat := atanhLoop (z * z / fixOne) 140 z 1 0

def fixLn2 : Nat := 2 * fixAtanh (fixOne / 3)

def expLoop (r : Nat) : Nat → Nat → Nat → Nat → Nat
  | 0, _, _, acc => acc
  | fuel + 1, term, k, acc => expLoop r fuel (term * r / fixOne / k) (k + 1) (acc + term)

/-- e^r of a fixed-point 0 ≤ r < 1. -/
def fixExp (r : Nat) : Nat := expLoop r 90 fixOne 1 0

/-- A fixed-point magnitude that is not exact. -/
def inexact (neg : Bool) (a : Nat) (e : Int) : Num := (Num.val neg (2 * a + 1) (2 * fixOne)).mul (Num.dyadic false 1 e)

/-- 2^x (R34). Beyond ±1100 the result is that of ±1100 in every format. -/
def exp2Num : Num → Num
  | .nan => .nan
  | .inf true => .zero false
  | .inf false => .inf false
  | .zero _ => .val false 1 1
  | .val s n d =>
    if 1100 * d < n then (if s then inexact false fixOne (-1100) else inexact false fixOne 1100)
    else
      -- x = k + f with 0 ≤ f < 1
      let k : Int := if s then -(((n + d - 1) / d : Nat) : Int) else ((n / d : Nat) : Int)
      let fn : Nat := if s then ((n + d - 1) / d) * d - n else n % d
      if fn = 0 then Num.dyadic false 1 k
      else inexact false (fixExp (fn * fixLn2 / d)) k

/-- log2 x (R34). -/
def log2Num : Num → Num
  | .nan => .nan
  | .inf true => .nan
  | .inf false => .inf false
  | .zero _ => .inf true
  | .val true _ _ => .nan
  | .val false n d =>
    let k := Num.log2Floor n d
    let (mn, md) := if k < 0 then (n * 2 ^ (-k).toNat, d) else (n, d * 2 ^ k.toNat)
    if mn = md then Num.ofInt k
    else
      let ln := 2 * fixAtanh ((mn - md) * fixOne / (mn + md))
      let fr := ln * fixOne / fixLn2
      -- k + fr/2^400, not exact
      let tot : Int := k * (fixOne : Nat) + fr
      if tot < 0 then .val true (2 * tot.natAbs - 1) (2 * fixOne) else .val false (2 * tot.natAbs + 1) (2 * fixOne)

/-- tanh x (R34). A magnitude under 2^−60 differs from its tanh by less than any rounding can tell but for its side; from 64
up tanh is just under 1. -/
def tanhNum : Num → Num
  | .nan => .nan
  | .inf s => .val s 1 1
  | .zero s => .zero s
  | .val s n d =>
    if n * 2 ^ 60 < d then .val s (n * (2 ^ 100 - 1)) (d * 2 ^ 100)
    else if 64 * d ≤ n then .val s (2 ^ 100 - 1) (2 ^ 100)
    else
      -- y = 2x = k ln 2 + r
      let y := 2 * n * fixOne / d
      let k := y / fixLn2
      let r := y % fixLn2
      let e := fixExp r * 2 ^ k
      let q := (e - fixOne) * fixOne / (e + fixOne)
      .val s (2 * q + 1) (2 * fixOne)

/-- The square root (R34). -/
def fsqrtNum : Num → Num
  | .nan => .nan
  | .inf true => .nan
  | .inf false => .inf false
  | .zero s => .zero s
  | .val true _ _ => .nan
  | .val false n d => sqrtNum n d

/-- The reciprocal square root (R34). -/
def frsqNum : Num → Num
  | .nan => .nan
  | .inf true => .nan
  | .inf false => .zero false
  | .zero s => .inf s
  | .val true _ _ => .nan
  | .val false n d => sqrtNum d n

/-! ### Amax (R25, R26) -/

/-- The FP32 magnitude that an input adds to an amax register: rounded up. -/
def amaxMag (x : Num) : Nat := Fmt.fp32.round .rup false x.abs

/-- The shadow of R26 over the active inputs: (MAG, N, I). -/
def amaxShadow : List Num → Nat × Bool × Bool
  | [] => (0, false, false)
  | x :: t =>
    let (m, n, i) := amaxShadow t
    match x with
    | .nan => (m, true, i)
    | .inf _ => (max m 0x7F800000, n, true)
    | x => (max m (amaxMag x), n, i)

/-- The merge of a shadow into an amax register; FP32 magnitudes compare as their codes (R26). DESIGN CHOICE (log 67): so does a NaN pattern
that a `sysw` has stored in MAG, which stays, as R26 says nothing of its maximum. -/
def amaxMerge (r : BitVec 64) (m : Nat) (n i : Bool) : BitVec 64 :=
  BitVec.ofNat 64 (max (r.toNat % 2 ^ 31) m
    + (if n || r.getLsbD 32 then 2 ^ 32 else 0) + (if i || r.getLsbD 33 then 2 ^ 33 else 0))

end Sys2Proof.Machine
end

