-- ==== Sys2Proof/Decode.lean ====
section
/-! DEFINITION. Decoding: from the 80 bits of a word (R39 to R45, R58, R59) to a step, or the reason it is illegal (R57);
and the encoder, written from the same tables. Decoding is total on every number; bits above 79 are ignored. -/
namespace Sys2Proof

/-- The decode reasons of ILLEGAL (R57), by name. -/
inductive Illegal where
  | engReserved     -- 0x01
  | engMismatch     -- 0x02
  | ownQueue        -- 0x03
  | unassigned      -- 0x04
  | reservedNonzero -- 0x05
  | indexRange      -- 0x06
  | ty15            -- 0x07
  | glBad           -- 0x08
  | pmBad           -- 0x09
  | semBad          -- 0x0A
  | noTag           -- 0x0B
  | operandLimit    -- 0x0D
  deriving DecidableEq, Repr

/-- The code TRAPINFO bits 7:0 hold (R57). -/
def Illegal.code : Illegal → Nat
  | .engReserved => 0x01 | .engMismatch => 0x02 | .ownQueue => 0x03 | .unassigned => 0x04
  | .reservedNonzero => 0x05 | .indexRange => 0x06 | .ty15 => 0x07 | .glBad => 0x08 | .pmBad => 0x09
  | .semBad => 0x0A | .noTag => 0x0B | .operandLimit => 0x0D

/-- Bits lo + n − 1 : lo of w. -/
def fld (w lo n : Nat) : Nat := w / 2 ^ lo % 2 ^ n

def bitSet (w i : Nat) : Bool := fld w i 1 == 1

/-! ### Checks: which reasons apply. A word traps with the lowest (R57). -/

/-- The reasons that apply to a word, as flags in code order. -/
structure Checks where
  reserved : Bool := false
  index    : Bool := false
  ty       : Bool := false
  gl       : Bool := false
  pm       : Bool := false
  sem      : Bool := false
  tag      : Bool := false
  limit    : Bool := false
  deriving DecidableEq, Repr

/-- Either's reasons. -/
def Checks.or (a b : Checks) : Checks :=
  { reserved := a.reserved || b.reserved, index := a.index || b.index, ty := a.ty || b.ty, gl := a.gl || b.gl
    pm := a.pm || b.pm, sem := a.sem || b.sem, tag := a.tag || b.tag, limit := a.limit || b.limit }

/-- The lowest reason that applies (R57). -/
def Checks.first (c : Checks) : Option Illegal :=
  if c.reserved then some .reservedNonzero else if c.index then some .indexRange else if c.ty then some .ty15
  else if c.gl then some .glBad else if c.pm then some .pmBad else if c.sem then some .semBad
  else if c.tag then some .noTag else if c.limit then some .operandLimit else none

def ckRes (vals : List Nat) : Checks := { reserved := vals.any (· != 0) }
def ckIx (pairs : List (Nat × Nat)) : Checks := { index := pairs.any (fun p => p.2 ≤ p.1) }
def ckLim (bad : Bool) : Checks := { limit := bad }
def ckTag (h : Hdr) (bad : Bool) : Checks := { tag := h.sba == none && bad }

/-! ### Fields -/

def fD (w : Nat) : Nat := fld w 42 6
def fA (w : Nat) : Nat := fld w 36 6
def fB (w : Nat) : Nat := fld w 30 6
def fC (w : Nat) : Nat := fld w 24 6
def fMod (w : Nat) : Nat := fld w 0 24
def fImm (w : Nat) : Nat := fld w 4 32
def fMod4 (w : Nat) : Nat := fld w 0 4
def fWide (w : Nat) : Nat := fld w 0 42
def fBrA (w : Nat) : Nat := fld w 42 6
def fBrB (w : Nat) : Nat := fld w 36 6
def fBrMod4 (w : Nat) : Nat := fld w 32 4
def fOff (w : Nat) : Nat := fld w 0 32

/-- An index that its check has bounded. -/
def ix (k : Nat) [NeZero k] (v : Nat) : Fin k := Fin.ofNat k v

def rg (v : Nat) : GReg := ix 32 v
def rt (v : Nat) : TReg := ix 16 v
def rk (v : Nat) : KReg := ix 8 v
def rh (v : Nat) : HReg := ix 16 v

def optMod (en : Bool) (v : Nat) : Option (Fin 4) := if en then some (ix 4 v) else none

def semOf (n : Nat) : Sem :=
  match n with | 0 => .plain | 1 => .acq | 2 => .rel | _ => .ar

def rmOf (n : Nat) : Rm :=
  match n with | 0 => .rne | 1 => .rtz | 2 => .rdn | _ => .rup

def aopOf (n : Nat) : Aop :=
  match n with
  | 0 => .add | 1 => .and | 2 => .or | 3 => .xor | 4 => .min | 5 => .max | 6 => .minu | 7 => .maxu | _ => .swap

def fenceOf (n : Nat) : FenceKind :=
  match n with | 0 => .full | 1 => .acq | _ => .rel

def layOf (n : Nat) : Lay :=
  match n with | 0 => .lin | 1 => .trn | _ => .mxb

def bindOpOf (n : Nat) : BindOp :=
  match n with | 0 => .bind | 1 => .unbind | _ => .rel

def pmOf (n : Nat) : Pm :=
  if n = 0 then .none else if n ≤ 8 then .mask (ix 8 (n - 1)) else .pred (ix 8 (n - 9))

/-- The header less OPC (R39). The caller has refused ENG 4 to 7. -/
def hdrOf (w : Nat) : Hdr :=
  { eng := Seq.ofIdx (fld w 77 3), pd := ix 8 (fld w 74 3)
    sba := if bitSet w 73 then some (ix 8 (fld w 70 3)) else none
    sbw := BitVec.ofNat 8 (fld w 62 8)
    pop := if bitSet w 61 then some (Seq.ofIdx (fld w 59 2)) else none
    push := if bitSet w 58 then some (Seq.ofIdx (fld w 56 2)) else none }

/-- Reserved header fields (R39): SBA.TAG, POP.SRC and PUSH.DST when not enabled. -/
def hdrReserved (w : Nat) : Bool :=
  (!bitSet w 73 && fld w 70 3 != 0) || (!bitSet w 61 && fld w 59 2 != 0) || (!bitSet w 58 && fld w 56 2 != 0)

/-- The tile MOD (R44). -/
def tmodOf (w : Nat) : TMod :=
  { ty := Ty.ofCode (fld w 20 4), rm := rmOf (fld w 18 2), gl := ix 6 (fld w 15 3 - 1), pm := pmOf (fld w 10 5)
    z := bitSet w 9, sat := bitSet w 7, amx := optMod (bitSet w 4) (fld w 5 2), sub := ix 16 (fld w 0 4) }

def tbOf (w : Nat) : TB := if bitSet w 8 then .g (rg (fB w)) else .tile (rt (fB w))

/-- The memory MOD (R45). -/
def mmodOf (w : Nat) : MMod :=
  { ty := Ty.ofCode (fld w 20 4), oc := ix 16 (fld w 16 4), scope := ix 32 (fld w 11 5), sem := semOf (fld w 9 2) }

/-- The array MOD (R242). -/
def amodOf (w : Nat) : AMod :=
  { ty := Ty.ofCode (fld w 20 4), mode := ix 4 (fld w 16 3), sweep := bitSet w 15, strict := bitSet w 14
    sp := bitSet w 13, mx := bitSet w 12 }

/-! ### Shared checks -/

/-- GL 0 and 7 have reason 0x08 (R44, R57). -/
def glBad (gl : Nat) : Bool := gl == 0 || gl == 7

/-- A group of register t with GL registers goes past t15 (R43). -/
def groupBad (gl t : Nat) : Bool := 16 ≤ t || 15 < t + (gl - 1)

/-- The checks of the tile MOD under use `u`; `groups` are the fields that name tile groups, `bGroup` says that operand B is
a tile group when BS = 0. -/
def ckTile (u : TUse) (w : Nat) (groups : List Nat) (bGroup : Bool) : Checks :=
  let ty := fld w 20 4; let gl := fld w 15 3; let pm := fld w 10 5; let bs := bitSet w 8; let sub := fld w 0 4
  let amxe := bitSet w 4
  { reserved := (u.tys == .unused && ty != 0) || (!u.rm && fld w 18 2 != 0) || (!u.pm && pm != 0)
      || ((!u.z || pm == 0) && bitSet w 9) || (!u.sat && bitSet w 7) || (!u.amx && amxe)
      || ((!u.amx || !amxe) && fld w 5 2 != 0) || sub &&& u.subRes != 0 || (u.bs == .reserved && bs)
    index := groups.any (groupBad gl) || (bGroup && !bs && groupBad gl (fB w)) || (((bs && u.bs == .either) || u.bs == .must) && 32 ≤ fB w)
    ty := u.tys != .unused && ty == 15
    gl := glBad gl
    pm := u.pm && 17 ≤ pm
    limit := (u.tys != .unused && ty != 15 && !u.tys.has (Ty.ofCode ty)) || (u.glOne && gl != 1)
      || (u.bs == .must && !bs) || (u.bs == .never && bs) || u.subLim ≤ sub }

/-- The checks of the memory MOD's common part; `sems` accepts a SEM value. -/
def ckMem (w : Nat) (sems : Sem → Bool) : Checks :=
  { ty := fld w 20 4 == 15, sem := !sems (semOf (fld w 9 2)) }

/-- Bits 8:0 of a tile load or store through a handle or from the comb (R140). `res` and `z` say whether RME and Z are used. DESIGN CHOICE
(log 70): Z = 1 with no predication is accepted, as R140 and R141 do not reserve it there, though R44 does in the tile MOD. -/
def ckLdSt (w : Nat) (sems : Sem → Bool) (combForm res z : Bool) (groups : List Nat) : Checks :=
  let hsel := bitSet w 8; let rme := bitSet w 7
  let gl := fld w 1 3
  { reserved := (!hsel && combForm && fld w 9 11 != 0) || (rme && (!res || (!hsel && combForm)))
      || ((!res || !rme) && fld w 4 3 != 0) || (!z && bitSet w 0)
    index := groups.any (groupBad gl) || (if hsel then 16 ≤ fA w else 32 ≤ fA w)
    ty := fld w 20 4 == 15
    gl := glBad gl
    sem := (hsel || !combForm) && !sems (semOf (fld w 9 2))
    limit := !combForm && !hsel }

/-- C holds PM (R141). -/
def ckPmC (w : Nat) : Checks := { pm := 17 ≤ fC w }

def baseOf (w : Nat) : Base := if bitSet w 8 then .handle (rh (fA w)) else .comb (rg (fA w))
def resOf (w : Nat) : Option KReg := if bitSet w 7 then some (rk (fld w 4 3)) else none
def ldGl (w : Nat) : Fin 6 := ix 6 (fld w 1 3 - 1)

/-- The array MOD's checks: which of its fields are used (R242). -/
def ckArr (w : Nat) (ty mode sweep strict fmt sub : Bool) : Checks :=
  { reserved := (!ty && fld w 20 4 != 0) || bitSet w 19 || (!mode && fld w 16 3 != 0) || (!sweep && bitSet w 15)
      || (!strict && bitSet w 14) || (!fmt && fld w 12 2 != 0) || fld w 4 8 != 0 || (!sub && fld w 0 4 != 0)
    ty := ty && fld w 20 4 == 15
    limit := mode && 4 ≤ fld w 16 3 }

/-- What decoding one opcode gives: the reasons that apply and the step it names. -/
abbrev Dec := Checks × Instr

def decG3 (h : Hdr) (w : Nat) (k : Hdr → GReg → GReg → GReg → Instr) : Dec :=
  ((ckRes [fC w, fMod w]).or (ckIx [(fD w, 32), (fA w, 32), (fB w, 32)]), k h (rg (fD w)) (rg (fA w)) (rg (fB w)))

def decG4 (h : Hdr) (w : Nat) (k : Hdr → GReg → GReg → GReg → GReg → Instr) : Dec :=
  ((ckRes [fMod w]).or (ckIx [(fD w, 32), (fA w, 32), (fB w, 32), (fC w, 32)]),
    k h (rg (fD w)) (rg (fA w)) (rg (fB w)) (rg (fC w)))

def decG2 (h : Hdr) (w : Nat) (k : Hdr → GReg → GReg → Instr) : Dec :=
  ((ckRes [fB w, fC w, fMod w]).or (ckIx [(fD w, 32), (fA w, 32)]), k h (rg (fD w)) (rg (fA w)))

def decGI (h : Hdr) (w : Nat) (k : Hdr → GReg → GReg → W32 → Instr) : Dec :=
  ((ckRes [fMod4 w]).or (ckIx [(fD w, 32), (fA w, 32)]), k h (rg (fD w)) (rg (fA w)) (BitVec.ofNat 32 (fImm w)))

def decSh (h : Hdr) (w : Nat) (k : Hdr → GReg → GReg → Fin 64 → Instr) : Dec :=
  (((ckRes [fMod4 w]).or (ckIx [(fD w, 32), (fA w, 32)])).or (ckLim (64 ≤ fImm w)),
    k h (rg (fD w)) (rg (fA w)) (ix 64 (fImm w)))

def decBr (h : Hdr) (w : Nat) (k : Hdr → GReg → GReg → W32 → Instr) : Dec :=
  ((ckRes [fBrMod4 w]).or (ckIx [(fBrA w, 32), (fBrB w, 32)]),
    k h (rg (fBrA w)) (rg (fBrB w)) (BitVec.ofNat 32 (fOff w)))

def decBrA (h : Hdr) (w : Nat) (k : Hdr → GReg → W32 → Instr) : Dec :=
  ((ckRes [fBrMod4 w, fBrB w]).or (ckIx [(fBrA w, 32)]), k h (rg (fBrA w)) (BitVec.ofNat 32 (fOff w)))

def decTok (h : Hdr) (w : Nat) (k : Hdr → Seq → GReg → W32 → Instr) : Dec :=
  (((ckRes [fD w, fMod4 w / 4]).or (ckIx [(fA w, 32)])).or (ckLim (Seq.ofIdx (fMod4 w) == h.eng)),
    k h (Seq.ofIdx (fMod4 w)) (rg (fA w)) (BitVec.ofNat 32 (fImm w)))

def decRing (h : Hdr) (w : Nat) (k : Hdr → GReg → Ring → W32 → Instr) : Dec :=
  ((((ckRes [fMod4 w]).or (ckIx [(fD w, 32), (fA w, 16)])).or (ckLim (4096 < fImm w))).or (ckTag h (fD w != 0)),
    k h (rg (fD w)) (ix 16 (fA w)) (BitVec.ofNat 32 (fImm w)))

def decRingN (h : Hdr) (w : Nat) (k : Hdr → Ring → W32 → Instr) : Dec :=
  (((ckRes [fMod4 w, fD w]).or (ckIx [(fA w, 16)])).or (ckLim (4096 < fImm w)),
    k h (ix 16 (fA w)) (BitVec.ofNat 32 (fImm w)))

/-- The common block, OPC 0x00 to 0x5F (R58). -/
def decodeCommon (h : Hdr) (opc w : Nat) : Option Dec :=
  match opc with
  | 0x00 => some (ckRes [fld w 0 48], .nop h)
  | 0x01 => some (ckRes [fld w 0 48], .endW h)
  | 0x04 => some (decG3 h w .add)
  | 0x05 => some (decG3 h w .sub)
  | 0x06 => some (decG3 h w .mul)
  | 0x07 => some (decG3 h w .mulh)
  | 0x08 => some (decG3 h w .mulhu)
  | 0x09 => some (decG3 h w .and)
  | 0x0A => some (decG3 h w .or)
  | 0x0B => some (decG3 h w .xor)
  | 0x0C => some (decG3 h w .shl)
  | 0x0D => some (decG3 h w .shr)
  | 0x0E => some (decG3 h w .sar)
  | 0x0F => some (decG3 h w .min)
  | 0x10 => some (decG3 h w .max)
  | 0x11 => some (decG3 h w .minu)
  | 0x12 => some (decG3 h w .maxu)
  | 0x13 => some (decG3 h w .slt)
  | 0x14 => some (decG3 h w .sltu)
  | 0x15 => some (decG3 h w .seq)
  | 0x16 => some (decG4 h w .madd)
  | 0x17 => some (decG4 h w .sel)
  | 0x18 => some (decGI h w .addi)
  | 0x19 => some (decGI h w .andi)
  | 0x1A => some (decGI h w .ori)
  | 0x1B => some (decGI h w .xori)
  | 0x1C => some (decSh h w .shli)
  | 0x1D => some (decSh h w .shri)
  | 0x1E => some (decSh h w .sari)
  | 0x1F => some (decGI h w .slti)
  | 0x20 => some (ckIx [(fD w, 32)], .ldi h (rg (fD w)) (BitVec.ofNat 42 (fWide w)))
  | 0x21 => some ((ckRes [fld w 22 20]).or (ckIx [(fD w, 32)]), .orhi h (rg (fD w)) (BitVec.ofNat 22 (fld w 0 22)))
  | 0x22 => some (decG2 h w .clz)
  | 0x23 => some (decG2 h w .popc)
  | 0x24 => some (((ckRes [fB w, fC w, fld w 14 10]).or (ckIx [(fD w, 32), (fA w, 32)])).or
      (ckLim (fld w 6 7 == 0 || 64 < fld w 0 6 + fld w 6 7)),
      .bfx h (rg (fD w)) (rg (fA w)) (ix 64 (fld w 0 6)) (fld w 6 7) (bitSet w 13))
  | 0x25 => some (((ckRes [fC w, fld w 13 11]).or (ckIx [(fD w, 32), (fA w, 32), (fB w, 32)])).or
      (ckLim (fld w 6 7 == 0 || 64 < fld w 0 6 + fld w 6 7)),
      .bfi h (rg (fD w)) (rg (fA w)) (rg (fB w)) (ix 64 (fld w 0 6)) (fld w 6 7))
  | 0x28 => some (decBr h w .beq)
  | 0x29 => some (decBr h w .bne)
  | 0x2A => some (decBr h w .blt)
  | 0x2B => some (decBr h w .bge)
  | 0x2C => some (decBr h w .bltu)
  | 0x2D => some (decBr h w .bgeu)
  | 0x2E => some (ckRes [fBrA w, fBrB w, fBrMod4 w], .jmp h (BitVec.ofNat 32 (fOff w)))
  | 0x2F => some (decBrA h w .jal)
  | 0x30 => some ((ckRes [fD w, fB w, fC w, fMod w]).or (ckIx [(fA w, 32)]), .jr h (rg (fA w)))
  | 0x31 => some (decBrA h w .loop)
  | 0x34 => some (decTok h w .tsig)
  | 0x35 => some (decTok h w .twait)
  | 0x36 => some (((ckRes [fA w, fImm w]).or (ckIx [(fD w, 32)])).or (ckLim (fMod4 w % 4 == fMod4 w / 4)),
      .tqrd h (rg (fD w)) (Seq.ofIdx (fMod4 w % 4)) (Seq.ofIdx (fMod4 w / 4)))
  | 0x38 => some (decGI h w .sysr)
  | 0x39 => some (decGI h w .sysw)
  | 0x3A => some ((ckRes [fD w, fMod4 w / 2]).or (ckIx [(fA w, 32)]),
      .pause h (rg (fA w)) (BitVec.ofNat 32 (fImm w)) (fMod4 w % 2 == 1))
  | 0x3B => some ((ckRes [fD w, fMod4 w]).or (ckIx [(fA w, 32)]), .trap h (rg (fA w)) (BitVec.ofNat 32 (fImm w)))
  | 0x3C => some ((ckRes [fD w, fA w, fMod4 w / 4, fImm w / 2 ^ 21]).or (ckLim (fMod4 w % 4 == 3)),
      .fence h (fenceOf (fMod4 w % 4)) (ix 32 (fImm w / 2 ^ 16 % 32))
        (BitVec.ofNat 16 (fImm w)))
  | 0x3D => some ((ckRes [fD w, fA w, fMod4 w, fImm w / 4]).or (ckLim (fImm w % 4 == 0)),
      .qfence h (fImm w % 2 == 1) (fImm w / 2 % 2 == 1))
  | 0x40 => some ((ckRes [fC w, fMod w]).or (ckIx [(fD w, 16), (fA w, 32), (fB w, 32)]),
      .trans h (rh (fD w)) (rg (fA w)) (rg (fB w)))
  | 0x41 => some (((ckRes [fB w, fC w, fMod w]).or (ckIx [(fD w, 32), (fA w, 16)])).or (ckTag h (fD w != 0)),
      .hstat h (rg (fD w)) (rh (fA w)))
  | 0x42 => some (((ckRes [fA w, fB w, fC w, fMod w]).or (ckIx [(fD w, 16)])).or (ckTag h true), .hinv h (rh (fD w)))
  | 0x44 => some ((ckRes [fC w, fMod w]).or (ckIx [(fD w, 16), (fA w, 32), (fB w, 32)]),
      .ringdef h (ix 16 (fD w)) (rg (fA w)) (rg (fB w)))
  | 0x45 => some (decRing h w .rwaitf)
  | 0x46 => some (decRing h w .rwaite)
  | 0x47 => some (decRing h w .rclaim)
  | 0x48 => some (decRingN h w .rcommit)
  | 0x49 => some (decRingN h w .rrel)
  | 0x4A => some ((ckRes [fB w, fC w, fMod w]).or (ckIx [(fD w, 16), (fA w, 32)]), .rapp h (ix 16 (fD w)) (rg (fA w)))
  | 0x4C => some ((ckRes [fD w, fMod w]).or (ckIx [(fA w, 32), (fB w, 32), (fC w, 32)]),
      .syncset h (rg (fA w)) (rg (fB w)) (rg (fC w)))
  | 0x4D => some (((ckRes [fMod w / 2]).or (ckIx [(fD w, 32), (fA w, 32), (fB w, 32), (fC w, 32)])).or (ckTag h (fD w != 0)),
      .syncwait h (rg (fD w)) (rg (fA w)) (rg (fB w)) (rg (fC w)) (fMod w % 2 == 1))
  | 0x4E => some (((ckRes [fB w, fC w, fMod w / 4]).or (ckIx [(fD w, 32), (fA w, 32)])).or (ckTag h (fD w != 0)),
      .syncrd h (rg (fD w)) (rg (fA w)) (ix 4 (fMod w % 4)))
  | 0x50 => some (((((ckRes [fC w, fld w 11 5, fld w 0 9]).or (ckIx [(fD w, 32), (fA w, 32), (fB w, 32)])).or
      (ckMem w Sem.okLoad)).or (ckTag h (fD w != 0))).or (ckLim (fld w 20 4 == 14)),
      .cld h (rg (fD w)) (rg (fA w)) (rg (fB w)) (mmodOf w))
  | 0x51 => some ((((ckRes [fC w, fld w 11 5, fld w 0 9]).or (ckIx [(fD w, 32), (fA w, 32), (fB w, 32)])).or
      (ckMem w Sem.okStore)).or (ckLim (fld w 20 4 == 14)),
      .cst h (rg (fD w)) (rg (fA w)) (rg (fB w)) (mmodOf w))
  | _ => none

/-- The X block (R59). -/
def decodeX (h : Hdr) (opc w : Nat) : Option Dec :=
  match opc with
  | 0x60 => some (ckRes [fD w, fA w, fB w, fC w, fMod w / 2], if fMod w % 2 == 1 then .exitAbort h else .exit h)
  | 0x61 => some ((((ckRes [fld w 0 7, if bitSet w 7 then 0 else fC w]).or
      (ckIx [(fD w, 32), (fA w, if bitSet w 8 then 16 else 32), (fB w, 32), (fC w, 32)])).or (ckMem w Sem.okLoad)).or
      ((ckTag h (fD w != 0 || fC w != 0)).or (ckLim (!bitSet w 8))),
      .lds h (rg (fD w)) (rh (fA w)) (rg (fB w)) (rg (fC w)) (bitSet w 7) (mmodOf w))
  | 0x62 => some ((((ckRes [fld w 0 8, fC w]).or (ckIx [(fD w, 32), (fA w, if bitSet w 8 then 16 else 32), (fB w, 32)])).or (ckMem w Sem.okStore)).or
      (ckLim (!bitSet w 8)), .sts h (rg (fD w)) (rh (fA w)) (rg (fB w)) (mmodOf w))
  | 0x63 => some ((((ckRes [fld w 4 5]).or (ckIx [(fD w, 32), (fA w, 16), (fB w, 32), (fC w, 32)])).or
      (ckMem w (fun _ => true))).or ((ckTag h (fD w != 0)).or
      (ckLim (9 ≤ fld w 0 4 || (fld w 20 4 != 4 && fld w 20 4 != 6)))),
      .amo h (rg (fD w)) (rh (fA w)) (rg (fB w)) (rg (fC w))
        (aopOf (fld w 0 4)) (mmodOf w))
  | 0x64 => some ((((ckRes [fld w 0 9]).or (ckIx [(fD w, 32), (fA w, 16), (fB w, 32), (fC w, 32)])).or
      (ckMem w (fun _ => true))).or ((ckTag h (fD w != 0)).or (ckLim (fld w 20 4 != 4 && fld w 20 4 != 6))),
      .cas h (rg (fD w)) (rh (fA w)) (rg (fB w)) (rg (fC w)) (mmodOf w))
  | 0x65 => some ((ckRes [fD w, fC w, fMod w / 2, if fMod w % 2 == 1 then fB w else 0]).or (ckIx [(fB w, 32)]),
      .barset h (ix 64 (fA w)) (rg (fB w)) (fMod w % 2 == 1))
  | 0x66 => some (ckRes [fD w, fB w, fC w, fMod w], .bararr h (ix 64 (fA w)))
  | 0x67 => some (((ckRes [fC w, fMod w]).or (ckIx [(fD w, 32), (fB w, 32)])).or (ckTag h (fD w != 0)),
      .barwait h (rg (fD w)) (ix 64 (fA w)) (rg (fB w)))
  | 0x68 => some (((ckRes [fB w, fC w, fMod w]).or (ckIx [(fD w, 32)])).or (ckTag h (fD w != 0)),
      .bartry h (rg (fD w)) (ix 64 (fA w)))
  | 0x69 => some (ckRes [fld w 0 48], .stepadv h)
  | 0x6A => some ((ckRes [fD w, fMod w]).or (ckIx [(fA w, 32), (fB w, 32), (fC w, 32)]),
      .stsweep h (rg (fA w)) (rg (fB w)) (rg (fC w)))
  | 0x6B => some ((ckRes [fMod w]).or (ckIx [(fA w, 32), (fB w, 32), (fC w, 32)]),
      .regdef h (ix 64 (fD w)) (rg (fA w)) (rg (fB w)) (rg (fC w)))
  | 0x6C => some (ckRes [fA w, fB w, fC w, fMod w], .regclr h (ix 64 (fD w)))
  | 0x6D => some (ckRes [fA w, fB w, fC w, fMod w], .regapply h (ix 64 (fD w)))
  | 0x6E => some ((ckRes [fD w, fMod w]).or (ckIx [(fA w, 32), (fB w, 32), (fC w, 32)]),
      .pgreq h (rg (fA w)) (rg (fB w)) (rg (fC w)))
  | 0x6F => some (ckRes [fld w 0 48], .heart h)
  | 0x70 => some ((ckRes [fD w, fB w, fC w, fMod w]).or (ckIx [(fA w, 32)]), .twaitt h (rg (fA w)))
  | 0x71 => some ((ckRes [fD w, fB w, fC w, fMod w / 16]).or (ckIx [(fA w, 32)]),
      .kspawn h (rg (fA w)) (ix 16 (fMod w % 16)))
  | 0x72 => some (((ckRes [fA w, fB w, fC w, fMod w]).or (ckIx [(fD w, 32)])).or ((ckTag h true).or
      (ckLim (1 ≤ fD w && fD w ≤ 8))), .qtake h (rg (fD w)))
  | 0x73 => some ((ckRes [fD w, fB w, fC w, fMod w / 2]).or (ckIx [(fA w, 32)]), .qput h (rg (fA w)) (ix 2 (fMod w % 2)))
  | 0x74 => some ((ckRes [fD w, fC w, fMod w]).or (ckIx [(fA w, 32), (fB w, 32)]), .evpost h (rg (fA w)) (rg (fB w)))
  | 0x75 => some ((ckRes [fMod w]).or (ckIx [(fD w, 16), (fA w, 32), (fB w, 32), (fC w, 32)]),
      .wldef h (ix 16 (fD w)) (rg (fA w)) (rg (fB w)) (rg (fC w)))
  | 0x76 => some ((ckRes [fA w, fB w, fC w, fMod w]).or (ckIx [(fD w, 16)]), .wlreset h (ix 16 (fD w)))
  | 0x77 => some ((ckRes [fB w, fC w, fMod w]).or (ckIx [(fD w, 4), (fA w, 32)]), .dispdef h (ix 4 (fD w)) (rg (fA w)))
  | 0x78 => some ((ckRes [fD w, fC w, fMod w / 2, if fMod w % 2 == 1 then 0 else fB w]).or (ckIx [(fA w, 4), (fB w, 32)]),
      .dispclr h (ix 4 (fA w)) (rg (fB w)) (fMod w % 2 == 1))
  | 0x79 => some (ckRes [fld w 0 48], .resume h)
  | 0x7C => some (ckRes [fld w 0 48], .ctxyield h)
  | _ => none

/-- The L block (R59). -/
def decodeL (h : Hdr) (opc w : Nat) : Option Dec :=
  match opc with
  | 0x60 => some (((ckRes [fC w]).or (ckIx [(fB w, 32)])).or ((ckLdSt w Sem.okLoad true true false [fD w]).or (ckTag h true)),
      .tld h (rt (fD w)) (baseOf w) (rg (fB w)) (ldGl w) (resOf w) (mmodOf w))
  | 0x61 => some ((ckIx [(fB w, 32), (fC w, 32)]).or ((ckLdSt w Sem.okLoad true true false [fD w]).or (ckTag h true)),
      .tldx h (rt (fD w)) (baseOf w) (rg (fB w)) (rg (fC w)) (ldGl w) (resOf w) (mmodOf w))
  | 0x62 => some (((ckIx [(fB w, 32)]).or (ckPmC w)).or ((ckLdSt w Sem.okLoad false true true [fD w]).or (ckTag h true)),
      .mld h (rt (fD w)) (rh (fA w)) (rg (fB w)) (pmOf (fC w)) (ldGl w) (resOf w) (bitSet w 0) (mmodOf w))
  | 0x63 => some ((ckPmC w).or ((ckLdSt w (· == .plain) false true true [fD w, fB w]).or (ckTag h true)),
      .mgath h (rt (fD w)) (rh (fA w)) (rt (fB w)) (pmOf (fC w)) (ldGl w) (resOf w) (bitSet w 0) (mmodOf w))
  | 0x64 => some ((ckRes [fD w, fB w, fC w, fMod w]).or (ckIx [(fA w, 32)]), .copyin h (rg (fA w)))
  | 0x65 => some ((((ckRes [fD w, fC w]).or (ckIx [(fA w, 32), (fB w, 32)])).or (ckArr w true false false false true false)).or
      (ckLim (fld w 20 4 != 15 && !staFmtOk (Ty.ofCode (fld w 20 4)) (bitSet w 12))),
      .stload h (rg (fA w)) (rg (fB w)) (amodOf w))
  | 0x66 => some ((ckRes [fD w, fB w, fC w, fMod w / 2]).or (ckIx [(fA w, 32)]), .grpld h (rg (fA w)) (ix 2 (fMod w % 2)))
  | 0x67 => some ((ckRes [fD w, fMod w]).or (ckIx [(fA w, 16), (fB w, 32), (fC w, 32)]),
      .pref h (rh (fA w)) (rg (fB w)) (rg (fC w)))
  | 0x68 => some ((ckIx [(fD w, 32), (fA w, 16), (fB w, 32)]).or ((ckTile useWlpop w [fC w] false).or (ckTag h true)),
      .wlpop h (rg (fD w)) (ix 16 (fA w)) (rg (fB w)) (rt (fC w)) (tmodOf w).gl)
  | 0x69 => some ((ckIx [(fD w, 32), (fA w, 16), (fB w, 32)]).or ((ckTile useWlpop w [fC w] false).or (ckTag h true)),
      .wlsteal h (rg (fD w)) (ix 16 (fA w)) (rg (fB w)) (rt (fC w)) (tmodOf w).gl)
  | _ => none

/-- The checks of `upd` (R202). -/
def ckUpd (w : Nat) : Checks :=
  let gl := fld w 5 3; let cont := bitSet w 8
  { reserved := fld w 11 5 != 0
    index := 16 ≤ fA w || groupBad gl (fC w) || (if cont then 32 ≤ fB w else groupBad gl (fB w))
    ty := fld w 20 4 == 15, gl := glBad gl, pm := 17 ≤ fld w 0 5, sem := fld w 9 2 != 0 }

/-- The checks of `drain`'s MOD (R259). -/
def ckDrain (w : Nat) : Checks :=
  let ty := fld w 20 4; let lay := fld w 0 2
  { reserved := fD w != 0 || fld w 8 10 != 0 || bitSet w 3 || (!bitSet w 4 && fld w 5 2 != 0)
    index := 32 ≤ fA w || 32 ≤ fB w || 32 ≤ fC w
    ty := ty == 15
    limit := lay == 3 || (ty == 14 && lay != 2) || (lay == 2 && ty != 10 && ty != 14) }

/-- The S block (R59). -/
def decodeS (h : Hdr) (opc w : Nat) : Option Dec :=
  match opc with
  | 0x60 => some (((ckRes [fC w]).or (ckIx [(fB w, 32)])).or (ckLdSt w Sem.okStore true false false [fD w]),
      .tst h (rt (fD w)) (baseOf w) (rg (fB w)) (ldGl w) (mmodOf w))
  | 0x61 => some ((ckIx [(fB w, 32), (fC w, 32)]).or (ckLdSt w Sem.okStore true false false [fD w]),
      .tstx h (rt (fD w)) (baseOf w) (rg (fB w)) (rg (fC w)) (ldGl w) (mmodOf w))
  | 0x62 => some (((ckIx [(fB w, 32)]).or (ckPmC w)).or (ckLdSt w Sem.okStore false false false [fD w]),
      .mst h (rt (fD w)) (rh (fA w)) (rg (fB w)) (pmOf (fC w)) (ldGl w) (mmodOf w))
  | 0x63 => some ((ckPmC w).or (ckLdSt w (· == .plain) false false false [fD w, fB w]),
      .mscat h (rt (fD w)) (rh (fA w)) (rt (fB w)) (pmOf (fC w)) (ldGl w) (mmodOf w))
  | 0x64 => some (ckUpd w, .upd h (ix 64 (fD w)) (rh (fA w))
      (if bitSet w 8 then .cont (rg (fB w)) else .tile (rt (fB w))) (rt (fC w)) (ix 6 (fld w 5 3 - 1)) (pmOf (fld w 0 5))
      (Ty.ofCode (fld w 20 4)) (ix 16 (fld w 16 4)))
  | 0x65 => some (ckRes [fld w 0 48], .ufence h)
  | 0x66 => some (ckDrain w, .drain h (rg (fA w)) (rg (fB w)) (rg (fC w)) (Ty.ofCode (fld w 20 4)) (rmOf (fld w 18 2))
      (bitSet w 7) (optMod (bitSet w 4) (fld w 5 2)) (bitSet w 2)
      (layOf (fld w 0 2)))
  | 0x67 => some ((ckRes [fD w, fB w, fC w, fMod w]).or (ckIx [(fA w, 32)]), .copyout h (rg (fA w)))
  | 0x68 => some (((ckRes [fA w, fC w]).or (ckIx [(fD w, 16)])).or (ckTile useWlpush w [fB w] false),
      .wlpush h (ix 16 (fD w)) (rt (fB w)) (tmodOf w).gl (tmodOf w).pm)
  | 0x69 => some (((ckRes [fA w, fC w]).or (ckIx [(fD w, 16)])).or (ckTile useWlpush w [fB w] false),
      .wlins h (ix 16 (fD w)) (rt (fB w)) (tmodOf w).gl (tmodOf w).pm)
  | 0x6A => some ((ckIx [(fD w, 8), (fA w, 4), (fB w, 16)]).or ((ckTile useDisp w [fC w] false).or (ckTag h true)),
      .disp h (rk (fD w)) (ix 4 (fA w)) (rt (fB w)) (rt (fC w)) (tmodOf w).gl (tmodOf w).pm (tmodOf w).ty)
  | _ => none

/-! The C block (R59): binary, ternary and unary tile words, and the rest. -/

def decBin (h : Hdr) (w : Nat) (u : TUse) (k : Hdr → TReg → TReg → TB → TMod → Instr) : Dec :=
  ((ckRes [fC w]).or (ckTile u w [fD w, fA w] true), k h (rt (fD w)) (rt (fA w)) (tbOf w) (tmodOf w))

def decTer (h : Hdr) (w : Nat) (u : TUse) (k : Hdr → TReg → TReg → TB → TReg → TMod → Instr) : Dec :=
  (ckTile u w [fD w, fA w, fC w] true, k h (rt (fD w)) (rt (fA w)) (tbOf w) (rt (fC w)) (tmodOf w))

def decUn (h : Hdr) (w : Nat) (u : TUse) (k : Hdr → TReg → TReg → TMod → Instr) : Dec :=
  ((ckRes [fB w, fC w]).or (ckTile u w [fD w, fA w] false), k h (rt (fD w)) (rt (fA w)) (tmodOf w))

def decCmp (h : Hdr) (w : Nat) (u : TUse) (k : Hdr → KReg → TReg → TB → TMod → Instr) : Dec :=
  (((ckRes [fC w]).or (ckIx [(fD w, 8)])).or (ckTile u w [fA w] true), k h (rk (fD w)) (rt (fA w)) (tbOf w) (tmodOf w))

def decMask3 (h : Hdr) (w : Nat) (k : Hdr → KReg → KReg → KReg → Instr) : Dec :=
  (((ckRes [fC w]).or (ckIx [(fD w, 8), (fA w, 8), (fB w, 8)])).or (ckTile useMask w [] false),
    k h (rk (fD w)) (rk (fA w)) (rk (fB w)))

def decK2 (h : Hdr) (w : Nat) (k : Hdr → GReg → KReg → Instr) : Dec :=
  (((ckRes [fB w, fC w]).or (ckIx [(fD w, 32), (fA w, 8)])).or (ckTile useMask w [] false), k h (rg (fD w)) (rk (fA w)))

def srcBad (w : Nat) (ok : Ty → Bool) : Checks := ckLim (fld w 0 4 != 15 && !ok (Ty.ofCode (fld w 0 4)))

/-- The C block (R59). A B that is always a g register is checked as one whatever BS says (R99; DEDUCED, log 10). -/
def decodeC (h : Hdr) (opc w : Nat) : Option Dec :=
  match opc with
  | 0x60 => some (decBin h w useFBin .fadd)
  | 0x61 => some (decBin h w useFBin .fsub)
  | 0x62 => some (decBin h w useFBin .fmul)
  | 0x63 => some (decTer h w useFBin .fma)
  | 0x64 => some (decTer h w useFBin .fms)
  | 0x65 => some (decTer h w useFBin .fnma)
  | 0x66 => some (decBin h w useFBin .fmin)
  | 0x67 => some (decBin h w useFBin .fmax)
  | 0x68 => some (decUn h w useFUn .fabs)
  | 0x69 => some (decUn h w useFUn .fneg)
  | 0x6A => some (decBin h w useSBin .fdiv)
  | 0x6B => some (decUn h w useSUn .fsqrt)
  | 0x6C => some (decUn h w useSUn .frsq)
  | 0x6D => some (decUn h w useSUn .frcp)
  | 0x6E => some (decUn h w useSUn .fexp2)
  | 0x6F => some (decUn h w useSUn .flog2)
  | 0x70 => some (decUn h w useSUn .ftanh)
  | 0x71 => some (decBin h w useFpowi .fpowi)
  | 0x72 => some (decUn h w useFclass .fclass)
  | 0x73 => some (decCmp h w useFcmp .fcmp)
  | 0x74 => some ((ckIx [(fC w, 8)]).or (ckTile useFsel w [fD w, fA w] true),
      .fsel h (rt (fD w)) (rt (fA w)) (tbOf w) (rk (fC w)) (tmodOf w))
  | 0x78 => some (decBin h w useISat .iadd)
  | 0x79 => some (decBin h w useISat .isub)
  | 0x7A => some (decBin h w useISat .imul)
  | 0x7B => some (decTer h w useISat .imad)
  | 0x7C => some (decBin h w useINoSat .iand)
  | 0x7D => some (decBin h w useINoSat .ior)
  | 0x7E => some (decBin h w useINoSat .ixor)
  | 0x7F => some (decBin h w useISat .ishl)
  | 0x80 => some (decBin h w useINoSat .ishr)
  | 0x81 => some (decBin h w useINoSat .isar)
  | 0x82 => some (decBin h w useINoSat .imin)
  | 0x83 => some (decBin h w useINoSat .imax)
  | 0x84 => some (decCmp h w useIcmp .icmp)
  | 0x85 => some (decUn h w useIabs .iabs)
  | 0x88 => some (decUn h w useCvt (fun h d a m => .cvt h d a (Ty.ofCode m.sub.val) m))
  | 0x89 => some (((ckRes [fC w]).or (ckIx [(fB w, 16)])).or ((ckTile useCvtmx w [fD w, fA w] false).or
      (ckLim (fD w ≤ fB w && fB w ≤ fD w + (fld w 15 3 - 1)))),
      .cvtmx h (rt (fD w)) (rt (fA w)) (rt (fB w)) (Ty.ofCode (fld w 0 4)) (tmodOf w))
  | 0x8A => some (((ckRes [fC w]).or (ckIx [(fB w, 16)])).or ((ckTile useDqmx w [fD w, fA w] false).or
      (srcBad w (fun t => t == .e4m3 || t == .e2m1))),
      .dqmx h (rt (fD w)) (rt (fA w)) (rt (fB w)) (Ty.ofCode (fld w 0 4)) (tmodOf w))
  | 0x8B => some ((ckRes [fC w]).or ((ckTile (if (Ty.ofCode (fld w 20 4)).isInt then useCvtfxToInt else useCvtfxToFloat) w
        [fD w, fA w] false).or (srcBad w (fun t => t.isInt != (Ty.ofCode (fld w 20 4)).isInt))),
      .cvtfx h (rt (fD w)) (rt (fA w)) (rg (fB w)) (Ty.ofCode (fld w 0 4)) (tmodOf w))
  | 0x90 => some (decUn h w useTmov .tmov)
  | 0x91 => some (if fld w 0 4 == 0
      then ((ckRes [fA w, fC w]).or (ckTile useTbcastG w [fD w] false), .tbcast h (rt (fD w)) 0 (rg (fB w)) (tmodOf w))
      else ((ckRes [if fld w 0 4 ≤ 2 then fB w else 0, fC w]).or (ckTile (if fld w 0 4 ≤ 2 then useTbcastT else { useTbcastT with bs := .never }) w [fD w, fA w] false),
        .tbcast h (rt (fD w)) (rt (fA w)) 0 (tmodOf w)))
  | 0x92 => some (decUn h w useTtrn .ttrn)
  | 0x93 => some (decBin h w useTshuf .tshuf)
  | 0x94 => some (((ckRes [fC w]).or (ckIx [(fD w, 32)])).or (ckTile useText w [fA w] false),
      .text h (rg (fD w)) (rt (fA w)) (rg (fB w)) (tmodOf w))
  | 0x95 => some (((ckRes [fC w]).or (ckIx [(fA w, 32)])).or (ckTile useText w [fD w] false),
      .tins h (rt (fD w)) (rg (fA w)) (rg (fB w)) (tmodOf w))
  | 0x96 => some (((ckRes [fC w]).or (ckIx [(fA w, 32)])).or (ckTile useTiota w [fD w] false),
      .tiota h (rt (fD w)) (rg (fA w)) (rg (fB w)) (tmodOf w))
  | 0x98 => some (decUn h w useReduce .rsum)
  | 0x99 => some (decUn h w useReduce .rmax)
  | 0x9A => some (decUn h w useReduce .rmin)
  | 0x9B => some (decUn h w useReduce .ramax)
  | 0x9C => some (if fld w 0 4 % 2 == 1
      then (ckTile useCmpx w [fD w, fA w, fC w] false, .cmpx h (rt (fD w)) (rt (fA w)) (rg (fB w)) (rt (fC w)) (tmodOf w))
      else ((ckRes [fC w]).or (ckTile useCmpx w [fD w, fA w] false),
        .cmpx h (rt (fD w)) (rt (fA w)) (rg (fB w)) 0 (tmodOf w)))
  | 0xA0 => some (decMask3 h w .kand)
  | 0xA1 => some (decMask3 h w .kor)
  | 0xA2 => some (decMask3 h w .kxor)
  | 0xA3 => some (((ckRes [fB w, fC w]).or (ckIx [(fD w, 8), (fA w, 8)])).or (ckTile useMask w [] false),
      .knot h (rk (fD w)) (rk (fA w)))
  | 0xA4 => some (decK2 h w .kpopc)
  | 0xA5 => some (decK2 h w .kfirst)
  | 0xA6 => some (((ckRes [fC w]).or (ckIx [(fB w, 8)])).or (ckTile useKcomp w [fD w, fA w] false),
      .kcomp h (rt (fD w)) (rt (fA w)) (rk (fB w)) (tmodOf w))
  | 0xA7 => some (((ckRes [fC w]).or (ckIx [(fB w, 8)])).or (ckTile useKcomp w [fD w, fA w] false),
      .kexp h (rt (fD w)) (rt (fA w)) (rk (fB w)) (tmodOf w))
  | 0xA8 => some (((ckRes [fB w, fC w]).or (ckIx [(fD w, 8), (fA w, 32)])).or (ckTile usePset w [] false),
      .pset h (ix 8 (fD w)) (rg (fA w)) (ix 4 (fld w 0 2)))
  | 0xA9 => some (((ckRes [fB w, fC w]).or (ckIx [(fD w, 32), (fA w, 8)])).or (ckTile useMask w [] false),
      .pget h (rg (fD w)) (ix 8 (fA w)))
  | 0xAC => some (((ckRes [fB w, fC w]).or (ckIx [(fD w, 32), (fA w, 4)])).or (ckTile useMask w [] false),
      .amrd h (rg (fD w)) (ix 4 (fA w)))
  | 0xAD => some (((ckRes [fD w, fB w, fC w]).or (ckIx [(fA w, 4)])).or (ckTile useMask w [] false), .amclr h (ix 4 (fA w)))
  | 0xC0 => some (((ckRes [fD w]).or (ckIx [(fA w, 32), (fB w, 32), (fC w, 32)])).or
      ((ckArr w true true true false false false).or (ckLim (bitSet w 15 && (fld w 16 3 == 0 || fld w 16 3 == 3)))),
      .mma h (rg (fA w)) (rg (fB w)) (rg (fC w)) (amodOf w))
  | 0xC1 => some ((ckIx [(fD w, 32), (fA w, 32), (fB w, 32), (fC w, 32)]).or
      ((ckArr w true false false true true false).or
        (ckLim (fld w 20 4 != 15 && !staFmtOk (Ty.ofCode (fld w 20 4)) (bitSet w 12)))),
      .mmas h (rg (fD w)) (rg (fA w)) (rg (fB w)) (rg (fC w)) (amodOf w))
  | 0xC2 => some (ckRes [fld w 0 48], .stswap h)
  | 0xC3 => some ((ckRes [fD w, fB w, fC w, fMod w]).or (ckIx [(fA w, 32)]), .gbuild h (rg (fA w)))
  | 0xC4 => some ((ckRes [fD w, fA w, fB w, fC w, fMod w / 8]).or (ckLim (fMod w % 4 == 3)),
      .grpbind h (bindOpOf (fMod w % 4)) (ix 2 (fMod w / 4 % 2)))
  | 0xC5 => some (((ckRes [fA w, fB w, fC w, fMod w / 2]).or (ckIx [(fD w, 32)])).or (ckTag h (fD w != 0)),
      .grpstat h (rg (fD w)) (ix 2 (fMod w % 2)))
  | 0xC6 => some ((ckRes [fD w, fC w, fMod w]).or (ckIx [(fA w, 32), (fB w, 32)]), .accinit h (rg (fA w)) (rg (fB w)))
  | 0xC7 => some ((ckRes [fD w, fB w, fC w, fMod w]).or (ckIx [(fA w, 32)]), .accnorm h (rg (fA w)))
  | 0xC8 => some (((ckRes [fB w, fC w]).or (ckIx [(fA w, 32)])).or
      ((ckTile (if 1 ≤ fld w 0 4 && fld w 0 4 ≤ 3 then useAccrdRaw else useAccrd) w [fD w] false).or
        ((ckTag h true).or (ckLim (fld w 20 4 != 15 && !accKindTy (fld w 0 4) (Ty.ofCode (fld w 20 4)))))),
      .accrd h (rt (fD w)) (rg (fA w)) (tmodOf w))
  | 0xC9 => some (((ckRes [fD w, fC w]).or (ckIx [(fA w, 32)])).or
      ((ckTile useAccwr w [fB w] false).or
        (ckLim (fld w 20 4 != 15 && !accwrSubOk (fld w 0 4) (Ty.ofCode (fld w 20 4))))),
      .accwr h (rg (fA w)) (rt (fB w)) (tmodOf w))
  | 0xCA => some (((ckRes [fB w, fC w, if fld w 0 4 == 3 then fA w else 0]).or (ckIx [(fD w, 32), (fA w, 32)])).or
      (((ckArr w false false false false false true).or (ckTag h (fD w != 0))).or (ckLim (4 ≤ fld w 0 4))),
      .accstat h (rg (fD w)) (rg (fA w)) (ix 4 (fld w 0 4)))
  | _ => none

/-- OPC 0x00 to 0x5F is the common block, where † words are unassigned in class c; the rest is the class's own (R58, R59). -/
def decodeClass (h : Hdr) (opc w : Nat) : Option Dec :=
  if opc < 0x60 then
    if h.eng = .c ∧ (opc = 0x40 ∨ opc = 0x41 ∨ opc = 0x42 ∨ opc = 0x50 ∨ opc = 0x51) then none
    else decodeCommon h opc w
  else match h.eng with
    | .x => decodeX h opc w
    | .l => decodeL h opc w
    | .c => decodeC h opc w
    | .s => decodeS h opc w

/-- A word fetched by stream `sq`: its step, or the lowest reason it is illegal (R40, R57). -/
def decode (sq : Seq) (w : Nat) : Except Illegal Instr :=
  if 4 ≤ fld w 77 3 then .error .engReserved
  else
    let h := hdrOf w
    if h.eng ≠ sq then .error .engMismatch
    else if !h.ok then .error .ownQueue
    else match decodeClass h (fld w 48 8) w with
      | none => .error .unassigned
      | some (ck, i) =>
        match (({ reserved := hdrReserved w } : Checks).or ck).first with
        | some r => .error r
        | none => .ok i

/-- The number that bytes hold, lowest first (R6). -/
def leNat : List Byte → Nat
  | [] => 0
  | b :: bs => b.toNat + 256 * leNat bs

/-- The n bytes of a number, lowest first (R6). -/
def leBytes : Nat → Nat → List Byte
  | 0, _ => []
  | n + 1, v => BitVec.ofNat 8 v :: leBytes n (v / 256)

/-- A word is stored as ten packed bytes, least significant first (R39). -/
def decodeBytes (sq : Seq) (bs : List Byte) : Except Illegal Instr := decode sq (leNat (bs.take 10))

/-- What the decoder reads from the word whose bits are w, in the stream its ENG names. -/
def decodeTableWord (_nbits w : Nat) : Option Instr :=
  match decodeBytes (Seq.ofIdx (fld w 77 3)) (leBytes 10 w) with
  | .ok i => some i
  | .error _ => none

/-! ### Encoding -/

def bnat (b : Bool) : Nat := if b then 1 else 0

def encSba : Option (Fin 8) → Nat
  | some t => 2 ^ 73 + t.val * 2 ^ 70
  | none => 0
def encPop : Option Seq → Nat
  | some q => 2 ^ 61 + q.idx.val * 2 ^ 59
  | none => 0
def encPush : Option Seq → Nat
  | some q => 2 ^ 58 + q.idx.val * 2 ^ 56
  | none => 0
def encAmx : Option MReg → Nat
  | some a => a.val * 2 ^ 5 + 2 ^ 4
  | none => 0
def encRes : Option KReg → Nat
  | some k => 2 ^ 7 + k.val * 2 ^ 4
  | none => 0
def FenceKind.code : FenceKind → Nat
  | .full => 0 | .acq => 1 | .rel => 2
def BindOp.code : BindOp → Nat
  | .bind => 0 | .unbind => 1 | .rel => 2
def Lay.code : Lay → Nat
  | .lin => 0 | .trn => 1 | .mxb => 2
def UpdIdx.field : UpdIdx → Nat
  | .tile t => t.val
  | .cont g => g.val
def UpdIdx.isCont : UpdIdx → Bool
  | .tile _ => false
  | .cont _ => true

def encHdr (h : Hdr) (opc : Nat) : Nat :=
  h.eng.idx.val * 2 ^ 77 + h.pd.val * 2 ^ 74
    + encSba h.sba
    + h.sbw.toNat * 2 ^ 62
    + encPop h.pop
    + encPush h.push
    + opc * 2 ^ 48

def rrr (h : Hdr) (opc d a b c md : Nat) : Nat :=
  encHdr h opc + d * 2 ^ 42 + a * 2 ^ 36 + b * 2 ^ 30 + c * 2 ^ 24 + md
def rri (h : Hdr) (opc d a imm md : Nat) : Nat := encHdr h opc + d * 2 ^ 42 + a * 2 ^ 36 + imm * 2 ^ 4 + md
def brw (h : Hdr) (opc a b off : Nat) : Nat := encHdr h opc + a * 2 ^ 42 + b * 2 ^ 36 + off

def Rm.code : Rm → Nat
  | .rne => 0 | .rtz => 1 | .rdn => 2 | .rup => 3

def Sem.code : Sem → Nat
  | .plain => 0 | .acq => 1 | .rel => 2 | .ar => 3

def Pm.code : Pm → Nat
  | .none => 0
  | .mask k => k.val + 1
  | .pred p => p.val + 9

def Aop.code : Aop → Nat
  | .add => 0 | .and => 1 | .or => 2 | .xor => 3 | .min => 4 | .max => 5 | .minu => 6 | .maxu => 7 | .swap => 8

def encTMod (m : TMod) (bs : Bool) : Nat :=
  m.ty.code * 2 ^ 20 + m.rm.code * 2 ^ 18 + (m.gl.val + 1) * 2 ^ 15 + m.pm.code * 2 ^ 10 + bnat m.z * 2 ^ 9
    + bnat bs * 2 ^ 8 + bnat m.sat * 2 ^ 7 + encAmx m.amx + m.sub.val

def encMMod (m : MMod) (low : Nat) : Nat :=
  m.ty.code * 2 ^ 20 + m.oc.val * 2 ^ 16 + m.scope.val * 2 ^ 11 + m.sem.code * 2 ^ 9 + low

def encAMod (m : AMod) (sub : Nat) : Nat :=
  m.ty.code * 2 ^ 20 + m.mode.val * 2 ^ 16 + bnat m.sweep * 2 ^ 15 + bnat m.strict * 2 ^ 14 + bnat m.sp * 2 ^ 13
    + bnat m.mx * 2 ^ 12 + sub

/-- Bits 8:0 of a handle-capable memory word (R140). -/
def encLd (hsel : Bool) (rm : Option KReg) (gl : Fin 6) (z : Bool) : Nat :=
  bnat hsel * 2 ^ 8 + encRes rm + (gl.val + 1) * 2 + bnat z

def Base.field : Base → Nat
  | .comb g => g.val
  | .handle h => h.val
def Base.isH : Base → Bool
  | .comb _ => false
  | .handle _ => true
def TB.field : TB → Nat
  | .tile t => t.val
  | .g r => r.val
def TB.isG : TB → Bool
  | .tile _ => false
  | .g _ => true

def encBin (h : Hdr) (opc : Nat) (d a : TReg) (b : TB) (m : TMod) : Nat :=
  rrr h opc d.val a.val b.field 0 (encTMod m b.isG)
def encTer (h : Hdr) (opc : Nat) (d a : TReg) (b : TB) (c : TReg) (m : TMod) : Nat :=
  rrr h opc d.val a.val b.field c.val (encTMod m b.isG)
def encUn (h : Hdr) (opc : Nat) (d a : TReg) (m : TMod) : Nat := rrr h opc d.val a.val 0 0 (encTMod m false)

/-- The MOD of the mask, predicate and amax words: GL 1 and a SUB (R100, R122). -/
def glOneMod (sub : Nat) : Nat := 2 ^ 15 + sub

/-- GL, PM and TY of the work-list words in the tile MOD (R297, R299). -/
def encWl (ty : Ty) (gl : Fin 6) (pm : Pm) : Nat := ty.code * 2 ^ 20 + (gl.val + 1) * 2 ^ 15 + pm.code * 2 ^ 10

/-- The word of an instruction; an event has none. -/
def encodeNat : Instr → Option Nat
  | .nop h => some (rrr h 0x00 0 0 0 0 0)
  | .endW h => some (rrr h 0x01 0 0 0 0 0)
  | .add h d a b => some (rrr h 0x04 d.val a.val b.val 0 0)
  | .sub h d a b => some (rrr h 0x05 d.val a.val b.val 0 0)
  | .mul h d a b => some (rrr h 0x06 d.val a.val b.val 0 0)
  | .mulh h d a b => some (rrr h 0x07 d.val a.val b.val 0 0)
  | .mulhu h d a b => some (rrr h 0x08 d.val a.val b.val 0 0)
  | .and h d a b => some (rrr h 0x09 d.val a.val b.val 0 0)
  | .or h d a b => some (rrr h 0x0A d.val a.val b.val 0 0)
  | .xor h d a b => some (rrr h 0x0B d.val a.val b.val 0 0)
  | .shl h d a b => some (rrr h 0x0C d.val a.val b.val 0 0)
  | .shr h d a b => some (rrr h 0x0D d.val a.val b.val 0 0)
  | .sar h d a b => some (rrr h 0x0E d.val a.val b.val 0 0)
  | .min h d a b => some (rrr h 0x0F d.val a.val b.val 0 0)
  | .max h d a b => some (rrr h 0x10 d.val a.val b.val 0 0)
  | .minu h d a b => some (rrr h 0x11 d.val a.val b.val 0 0)
  | .maxu h d a b => some (rrr h 0x12 d.val a.val b.val 0 0)
  | .slt h d a b => some (rrr h 0x13 d.val a.val b.val 0 0)
  | .sltu h d a b => some (rrr h 0x14 d.val a.val b.val 0 0)
  | .seq h d a b => some (rrr h 0x15 d.val a.val b.val 0 0)
  | .madd h d a b c => some (rrr h 0x16 d.val a.val b.val c.val 0)
  | .sel h d a b c => some (rrr h 0x17 d.val a.val b.val c.val 0)
  | .addi h d a i => some (rri h 0x18 d.val a.val i.toNat 0)
  | .andi h d a i => some (rri h 0x19 d.val a.val i.toNat 0)
  | .ori h d a i => some (rri h 0x1A d.val a.val i.toNat 0)
  | .xori h d a i => some (rri h 0x1B d.val a.val i.toNat 0)
  | .shli h d a i => some (rri h 0x1C d.val a.val i.val 0)
  | .shri h d a i => some (rri h 0x1D d.val a.val i.val 0)
  | .sari h d a i => some (rri h 0x1E d.val a.val i.val 0)
  | .slti h d a i => some (rri h 0x1F d.val a.val i.toNat 0)
  | .ldi h d i => some (encHdr h 0x20 + d.val * 2 ^ 42 + i.toNat)
  | .orhi h d i => some (encHdr h 0x21 + d.val * 2 ^ 42 + i.toNat)
  | .clz h d a => some (rrr h 0x22 d.val a.val 0 0 0)
  | .popc h d a => some (rrr h 0x23 d.val a.val 0 0 0)
  | .bfx h d a pos wid sx => some (rrr h 0x24 d.val a.val 0 0 (pos.val + wid * 2 ^ 6 + bnat sx * 2 ^ 13))
  | .bfi h d a b pos wid => some (rrr h 0x25 d.val a.val b.val 0 (pos.val + wid * 2 ^ 6))
  | .beq h a b o => some (brw h 0x28 a.val b.val o.toNat)
  | .bne h a b o => some (brw h 0x29 a.val b.val o.toNat)
  | .blt h a b o => some (brw h 0x2A a.val b.val o.toNat)
  | .bge h a b o => some (brw h 0x2B a.val b.val o.toNat)
  | .bltu h a b o => some (brw h 0x2C a.val b.val o.toNat)
  | .bgeu h a b o => some (brw h 0x2D a.val b.val o.toNat)
  | .jmp h o => some (brw h 0x2E 0 0 o.toNat)
  | .jal h a o => some (brw h 0x2F a.val 0 o.toNat)
  | .jr h a => some (rrr h 0x30 0 a.val 0 0 0)
  | .loop h a o => some (brw h 0x31 a.val 0 o.toNat)
  | .tsig h q a i => some (rri h 0x34 0 a.val i.toNat q.idx.val)
  | .twait h q a i => some (rri h 0x35 0 a.val i.toNat q.idx.val)
  | .tqrd h d a b => some (rri h 0x36 d.val 0 0 (a.idx.val + 4 * b.idx.val))
  | .sysr h d a i => some (rri h 0x38 d.val a.val i.toNat 0)
  | .sysw h d a i => some (rri h 0x39 d.val a.val i.toNat 0)
  | .pause h a i tok => some (rri h 0x3A 0 a.val i.toNat (bnat tok))
  | .trap h a i => some (rri h 0x3B 0 a.val i.toNat 0)
  | .fence h k sc cm => some (rri h 0x3C 0 0 (cm.toNat + sc.val * 2 ^ 16)
      k.code)
  | .qfence h i o => some (rri h 0x3D 0 0 (bnat i + 2 * bnat o) 0)
  | .exit h => some (rrr h 0x60 0 0 0 0 0)
  | .exitAbort h => some (rrr h 0x60 0 0 0 0 1)
  | .resume h => some (rrr h 0x79 0 0 0 0 0)
  | .trans h d a b => some (rrr h 0x40 d.val a.val b.val 0 0)
  | .hstat h d a => some (rrr h 0x41 d.val a.val 0 0 0)
  | .hinv h d => some (rrr h 0x42 d.val 0 0 0 0)
  | .ringdef h d a b => some (rrr h 0x44 d.val a.val b.val 0 0)
  | .rwaitf h d a n => some (rri h 0x45 d.val a.val n.toNat 0)
  | .rwaite h d a n => some (rri h 0x46 d.val a.val n.toNat 0)
  | .rclaim h d a n => some (rri h 0x47 d.val a.val n.toNat 0)
  | .rcommit h a n => some (rri h 0x48 0 a.val n.toNat 0)
  | .rrel h a n => some (rri h 0x49 0 a.val n.toNat 0)
  | .rapp h d a => some (rrr h 0x4A d.val a.val 0 0 0)
  | .syncset h a b c => some (rrr h 0x4C 0 a.val b.val c.val 0)
  | .syncwait h d a b c pl => some (rrr h 0x4D d.val a.val b.val c.val (bnat pl))
  | .syncrd h d a f => some (rrr h 0x4E d.val a.val 0 0 f.val)
  | .cld h d a b m => some (rrr h 0x50 d.val a.val b.val 0 (encMMod m 0))
  | .cst h d a b m => some (rrr h 0x51 d.val a.val b.val 0 (encMMod m 0))
  | .lds h d a b c res m => some (rrr h 0x61 d.val a.val b.val c.val (encMMod m (2 ^ 8 + bnat res * 2 ^ 7)))
  | .sts h d a b m => some (rrr h 0x62 d.val a.val b.val 0 (encMMod m (2 ^ 8)))
  | .tld h d a b gl rm m => some (rrr h 0x60 d.val a.field b.val 0 (encMMod m (encLd a.isH rm gl false)))
  | .tldx h d a b c gl rm m => some (rrr h 0x61 d.val a.field b.val c.val (encMMod m (encLd a.isH rm gl false)))
  | .mld h d a b pm gl rm z m => some (rrr h 0x62 d.val a.val b.val pm.code (encMMod m (encLd true rm gl z)))
  | .mgath h d a b pm gl rm z m => some (rrr h 0x63 d.val a.val b.val pm.code (encMMod m (encLd true rm gl z)))
  | .tst h d a b gl m => some (rrr h 0x60 d.val a.field b.val 0 (encMMod m (encLd a.isH none gl false)))
  | .tstx h d a b c gl m => some (rrr h 0x61 d.val a.field b.val c.val (encMMod m (encLd a.isH none gl false)))
  | .mst h d a b pm gl m => some (rrr h 0x62 d.val a.val b.val pm.code (encMMod m (encLd true none gl false)))
  | .mscat h d a b pm gl m => some (rrr h 0x63 d.val a.val b.val pm.code (encMMod m (encLd true none gl false)))
  | .pref h a b c => some (rrr h 0x67 0 a.val b.val c.val 0)
  | .pgreq h a b c => some (rrr h 0x6E 0 a.val b.val c.val 0)
  | .copyin h a => some (rrr h 0x64 0 a.val 0 0 0)
  | .copyout h a => some (rrr h 0x67 0 a.val 0 0 0)
  | .amo h d a b c op m => some (rrr h 0x63 d.val a.val b.val c.val (encMMod m op.code))
  | .cas h d a b c m => some (rrr h 0x64 d.val a.val b.val c.val (encMMod m 0))
  | .upd h d a b c gl pm ty oc => some (rrr h 0x64 d.val a.val b.field c.val
      (ty.code * 2 ^ 20 + oc.val * 2 ^ 16 + bnat b.isCont * 2 ^ 8 + (gl.val + 1) * 2 ^ 5
        + pm.code))
  | .ufence h => some (rrr h 0x65 0 0 0 0 0)
  | .regdef h d a b c => some (rrr h 0x6B d.val a.val b.val c.val 0)
  | .regclr h d => some (rrr h 0x6C d.val 0 0 0 0)
  | .regapply h d => some (rrr h 0x6D d.val 0 0 0 0)
  | .stepadv h => some (rrr h 0x69 0 0 0 0 0)
  | .stsweep h a b c => some (rrr h 0x6A 0 a.val b.val c.val 0)
  | .stload h a b m => some (rrr h 0x65 0 a.val b.val 0 (encAMod m 0))
  | .gbuild h a => some (rrr h 0xC3 0 a.val 0 0 0)
  | .stswap h => some (rrr h 0xC2 0 0 0 0 0)
  | .mma h a b c m => some (rrr h 0xC0 0 a.val b.val c.val (encAMod m 0))
  | .mmas h d a b c m => some (rrr h 0xC1 d.val a.val b.val c.val (encAMod m 0))
  | .accinit h a b => some (rrr h 0xC6 0 a.val b.val 0 0)
  | .accnorm h a => some (rrr h 0xC7 0 a.val 0 0 0)
  | .accrd h d a m => some (rrr h 0xC8 d.val a.val 0 0 (encTMod m false))
  | .accwr h a b m => some (rrr h 0xC9 0 a.val b.val 0 (encTMod m false))
  | .accstat h d a sub => some (rrr h 0xCA d.val a.val 0 0 sub.val)
  | .drain h a b c ty rm sat amx clr lay => some (rrr h 0x66 0 a.val b.val c.val
      (ty.code * 2 ^ 20 + rm.code * 2 ^ 18 + bnat sat * 2 ^ 7
        + encAmx amx + bnat clr * 2 ^ 2
        + lay.code))
  | .grpld h a s => some (rrr h 0x66 0 a.val 0 0 s.val)
  | .grpbind h op s => some (rrr h 0xC4 0 0 0 0 (op.code + 4 * s.val))
  | .grpstat h d s => some (rrr h 0xC5 d.val 0 0 0 s.val)
  | .fadd h d a b m => some (encBin h 0x60 d a b m)
  | .fsub h d a b m => some (encBin h 0x61 d a b m)
  | .fmul h d a b m => some (encBin h 0x62 d a b m)
  | .fma h d a b c m => some (encTer h 0x63 d a b c m)
  | .fms h d a b c m => some (encTer h 0x64 d a b c m)
  | .fnma h d a b c m => some (encTer h 0x65 d a b c m)
  | .fmin h d a b m => some (encBin h 0x66 d a b m)
  | .fmax h d a b m => some (encBin h 0x67 d a b m)
  | .fabs h d a m => some (encUn h 0x68 d a m)
  | .fneg h d a m => some (encUn h 0x69 d a m)
  | .fdiv h d a b m => some (encBin h 0x6A d a b m)
  | .fsqrt h d a m => some (encUn h 0x6B d a m)
  | .frsq h d a m => some (encUn h 0x6C d a m)
  | .frcp h d a m => some (encUn h 0x6D d a m)
  | .fexp2 h d a m => some (encUn h 0x6E d a m)
  | .flog2 h d a m => some (encUn h 0x6F d a m)
  | .ftanh h d a m => some (encUn h 0x70 d a m)
  | .fpowi h d a b m => some (encBin h 0x71 d a b m)
  | .fclass h d a m => some (encUn h 0x72 d a m)
  | .fcmp h d a b m => some (rrr h 0x73 d.val a.val b.field 0 (encTMod m b.isG))
  | .fsel h d a b c m => some (rrr h 0x74 d.val a.val b.field c.val (encTMod m b.isG))
  | .iadd h d a b m => some (encBin h 0x78 d a b m)
  | .isub h d a b m => some (encBin h 0x79 d a b m)
  | .imul h d a b m => some (encBin h 0x7A d a b m)
  | .imad h d a b c m => some (encTer h 0x7B d a b c m)
  | .iand h d a b m => some (encBin h 0x7C d a b m)
  | .ior h d a b m => some (encBin h 0x7D d a b m)
  | .ixor h d a b m => some (encBin h 0x7E d a b m)
  | .ishl h d a b m => some (encBin h 0x7F d a b m)
  | .ishr h d a b m => some (encBin h 0x80 d a b m)
  | .isar h d a b m => some (encBin h 0x81 d a b m)
  | .imin h d a b m => some (encBin h 0x82 d a b m)
  | .imax h d a b m => some (encBin h 0x83 d a b m)
  | .icmp h d a b m => some (rrr h 0x84 d.val a.val b.field 0 (encTMod m b.isG))
  | .iabs h d a m => some (encUn h 0x85 d a m)
  | .cvt h d a _ m => some (encUn h 0x88 d a m)
  | .cvtmx h d a b _ m => some (rrr h 0x89 d.val a.val b.val 0 (encTMod m false))
  | .dqmx h d a b _ m => some (rrr h 0x8A d.val a.val b.val 0 (encTMod m false))
  | .cvtfx h d a b _ m => some (rrr h 0x8B d.val a.val b.val 0 (encTMod m true))
  | .tmov h d a m => some (encUn h 0x90 d a m)
  | .tbcast h d a b m => some (rrr h 0x91 d.val a.val b.val 0 (encTMod m (m.sub == 0)))
  | .ttrn h d a m => some (encUn h 0x92 d a m)
  | .tshuf h d a b m => some (encBin h 0x93 d a b m)
  | .text h d a b m => some (rrr h 0x94 d.val a.val b.val 0 (encTMod m true))
  | .tins h d a b m => some (rrr h 0x95 d.val a.val b.val 0 (encTMod m true))
  | .tiota h d a b m => some (rrr h 0x96 d.val a.val b.val 0 (encTMod m true))
  | .rsum h d a m => some (encUn h 0x98 d a m)
  | .rmax h d a m => some (encUn h 0x99 d a m)
  | .rmin h d a m => some (encUn h 0x9A d a m)
  | .ramax h d a m => some (encUn h 0x9B d a m)
  | .cmpx h d a b c m => some (rrr h 0x9C d.val a.val b.val c.val (encTMod m true))
  | .kand h d a b => some (rrr h 0xA0 d.val a.val b.val 0 (glOneMod 0))
  | .kor h d a b => some (rrr h 0xA1 d.val a.val b.val 0 (glOneMod 0))
  | .kxor h d a b => some (rrr h 0xA2 d.val a.val b.val 0 (glOneMod 0))
  | .knot h d a => some (rrr h 0xA3 d.val a.val 0 0 (glOneMod 0))
  | .kpopc h d a => some (rrr h 0xA4 d.val a.val 0 0 (glOneMod 0))
  | .kfirst h d a => some (rrr h 0xA5 d.val a.val 0 0 (glOneMod 0))
  | .kcomp h d a b m => some (rrr h 0xA6 d.val a.val b.val 0 (encTMod m false))
  | .kexp h d a b m => some (rrr h 0xA7 d.val a.val b.val 0 (encTMod m false))
  | .pset h d a wc => some (rrr h 0xA8 d.val a.val 0 0 (glOneMod wc.val))
  | .pget h d a => some (rrr h 0xA9 d.val a.val 0 0 (glOneMod 0))
  | .amrd h d a => some (rrr h 0xAC d.val a.val 0 0 (glOneMod 0))
  | .amclr h a => some (rrr h 0xAD 0 a.val 0 0 (glOneMod 0))
  | .barset h a b dis => some (rrr h 0x65 0 a.val b.val 0 (bnat dis))
  | .bararr h a => some (rrr h 0x66 0 a.val 0 0 0)
  | .barwait h d a b => some (rrr h 0x67 d.val a.val b.val 0 0)
  | .bartry h d a => some (rrr h 0x68 d.val a.val 0 0 0)
  | .wldef h d a b c => some (rrr h 0x75 d.val a.val b.val c.val 0)
  | .wlreset h d => some (rrr h 0x76 d.val 0 0 0 0)
  | .wlpush h d b gl pm => some (rrr h 0x68 d.val 0 b.val 0 (encWl .i64 gl pm))
  | .wlins h d b gl pm => some (rrr h 0x69 d.val 0 b.val 0 (encWl .i64 gl pm))
  | .wlpop h d a b c gl => some (rrr h 0x68 d.val a.val b.val c.val (encWl .i64 gl .none))
  | .wlsteal h d a b c gl => some (rrr h 0x69 d.val a.val b.val c.val (encWl .i64 gl .none))
  | .dispdef h d a => some (rrr h 0x77 d.val a.val 0 0 0)
  | .disp h d a b c gl pm ty => some (rrr h 0x6A d.val a.val b.val c.val (encWl ty gl pm))
  | .dispclr h a b save => some (rrr h 0x78 0 a.val b.val 0 (bnat save))
  | .qtake h d => some (rrr h 0x72 d.val 0 0 0 0)
  | .qput h a o => some (rrr h 0x73 0 a.val 0 0 o.val)
  | .kspawn h a q => some (rrr h 0x71 0 a.val 0 0 q.val)
  | .heart h => some (rrr h 0x6F 0 0 0 0 0)
  | .twaitt h a => some (rrr h 0x70 0 a.val 0 0 0)
  | .evpost h a b => some (rrr h 0x74 0 a.val b.val 0 0)
  | .ctxyield h => some (rrr h 0x7C 0 0 0 0 0)
  | _ => none

/-- The word of an instruction, as 80 bits. -/
def encode (i : Instr) : Option IWord := (encodeNat i).map (BitVec.ofNat 80)

end Sys2Proof
end

