-- ==== Sys2Proof/Config.lean ====
section
/-! DEFINITION. What one implementation fixes, and the free values: constants with no body where the spec leaves a value or
a time open. Each is applied to the counter `free` of State, which a step advances, or to an address; nothing can be proved
about its values. -/
namespace Sys2Proof.Config

/-- What a byte that nothing has written since device reset number `epoch` reads as: of high-bandwidth memory after a device reset
(R390 leaves it undefined), and of memory outside the package (log 5). -/
opaque freeByte (epoch key : Nat) : Byte

/-- A further latency, in cycles or pulses, where the spec gives only a minimum or a bound (R52, R135, R185; log 3). -/
opaque delay (n : Nat) : Nat

/-- Which of several things that the spec leaves unordered happens first (R142, R167, R207; log 3). -/
opaque pick (n : Nat) : Nat

/-- A 64-bit value the spec does not state (log 3). -/
opaque word (n : Nat) : W64

/-- Byte `at_` of save number `n` of a core in the device's own layout (R335; log 49). -/
opaque ownByte (n at_ : Nat) : Byte

/-- The half-die whose channels hold a physical address: the spec gives no interleaving (R323; log 7). -/
opaque channelOf (pa : Nat) : Fin 8

/-- The stack of its die, one of three, whose memory-side unit serves a 64-byte line: the spec gives no interleaving (R2, R207, R208;
log 12). -/
opaque stackOf (line : Nat) : Fin 3

/-- How many bins a half-die's 8 MiB of a unit's bin cache hold: the spec gives the cache's size and not a bin's (R208, R323; log 12). -/
opaque binSlots : Nat

/-- The silicon revision that R389's registers report (log 6). -/
opaque revision : BitVec 8

/-- The array activity level of a partition with this many busy cores (R384; log 3). -/
opaque activity (busy : Nat) : Fin 16

/-- The power that a partition draws at a pulse, in watts, and what a sensor reads then, in °C (R382, R383; log 50): sensors 0 to 7 are
those of the half-dies, 8 to 19 those of the stacks. -/
opaque power (pulse part : Nat) : Nat
opaque celsius (pulse sensor : Nat) : Nat

/-- SHA-256 of a public key, and whether an RSA-3072 signature over a digest verifies under a key (R391; log 30). -/
opaque sha256 (key : BitVec 3072) : BitVec 256
opaque rsaVerify (key : BitVec 3072) (digest : BitVec 256) (sig : BitVec 3072) : Bool

/-- The SHA-256 that a report gives of a firmware slot that nothing has been written to (R392; log 30). -/
opaque emptyDigest (slot : Nat) : BitVec 256

/-- Whether package `pkg` admits, at this pulse, a request with pod tag `tag` for the byte with this key (R355; log 3). -/
opaque admits (pulse pkg tag key : Nat) : Bool

/-- Whether package `pkg` refuses, at this pulse, a request for the byte with this key with a hint (R356; log 3). -/
opaque peerRefuses (pulse pkg key : Nat) : Bool

/-- The signature key of the root of trust, as the function from a report to its signature (R392; log 30). -/
opaque sign (report : Nat) : BitVec 3072

/-- A byte of a LOF symbol entry that R371 gives no value for that kind of symbol (log 59). -/
opaque blank (n : Nat) : Byte

end Sys2Proof.Config
end

