-- ==== Sys2Proof/Machine/State.lean ====
section
/-! DEFINITION. The state of the package: every piece of state that spec/ gives it, as plain data, with the two kinds of
stop and the state after reset. INVENTORY.md lists the fields with the rules that name them. -/
namespace Sys2Proof.Machine

/-! ### Stops -/

/-- Why the machine stops. -/
inductive Fault where
  /-- A host CXL.mem access to a physical address that R347's range does not hold (raised by cxlMemAccess). Safe: the machine
  stops where the spec names no device. -/
  | noMemory (pa : Nat)
  deriving DecidableEq, Repr

/-- Why a step has no meaning. -/
inductive Refusal where
  /-- The instruction has no meaning yet (raised by arms of exec only). Safe. -/
  | notModelled (mnemonic : String)
  deriving DecidableEq, Repr

/-! ### Memory -/

/-- A memory: bytes by address, strictly rising, with no entry equal to what an unlisted address reads as. `epoch` counts
device resets (R390). -/
structure Memory where
  epoch : Nat := 0
  cells : List Host.Cell := []
  deriving DecidableEq, Repr

/-- What an unlisted address reads as: 0 in the package's own memories before the first device reset; a free value after one, and
in the memory of other packages, of the host and of the expander, whose keys are 2^52 up (R390; log 5). -/
def Memory.base (epoch a : Nat) : Byte := if epoch = 0 ∧ a < 2 ^ 52 then 0 else Config.freeByte epoch a

/-! ### Sequencers -/

/-- The wait reasons of R74. -/
inductive Why where
  | none | gap | tag | token | structural | fence | exit | ring | sync | barrier | time
  deriving DecidableEq, Repr

/-- The states of a sequencer (R64). -/
inductive Status where
  | idle | running | waiting | paused | ended | stopped | handler
  deriving DecidableEq, Repr

/-- RESTART (R73). -/
structure Restart where
  progress : W32
  opc      : Byte
  popped   : Bool
  valid    : Bool
  deriving DecidableEq, Repr

/-- The private state of a sequencer (R62). `earliest` is the first cycle in which condition 1 of R46 holds. -/
structure Seqr where
  pc        : W32
  g         : Vector W64 32
  shp       : W64
  oobfill   : W64
  restart   : Restart
  streamLen : W32
  streamVA  : W64
  status    : Status
  why       : Why
  tags      : Vector Bool 8
  earliest  : Nat
  /-- A pre-emption stopped it while ENDED: it is ENDED again when its task goes on (R65). -/
  ended     : Bool
  deriving DecidableEq, Repr

/-- The trap causes (R333). -/
inductive Cause where
  | illegal | misaligned | permission | handleRevoked | notResidentStore | tokenCeiling | tokenDeadlock | stampStale
  | groupCheck | groupBounds | ringMisuse | combBounds | software | watchdog | preempt | eccUncorrectable | accBounds
  deriving DecidableEq, Repr

/-- A trap raised and not yet taken (R333): the sequencer, the cause, TRAPPC and TRAPINFO. -/
structure Trap where
  seq   : Seq
  cause : Cause
  pc    : W32
  info  : W64
  deriving DecidableEq, Repr

/-- Why a core is stopping (R65, R68, R310, R315, R329, R345); `dead`: its own trap faulted the context. -/
inductive StopKind where
  | trap | abort | killed | forced | yield | suspend | fault | dead
  deriving DecidableEq, Repr

/-- A predicate register: N in 0 to 4096 fits 15 bits, and WC (R97). -/
structure Pred where
  n  : BitVec 15
  wc : BitVec 2
  deriving DecidableEq, Repr

/-! ### Pages and handles -/

/-- A page's translation, as a leaf gives it (R129). `base` is the page's virtual address, `pfn` and `plane` are physical
byte addresses; `size` is 0 for 64 KiB, 1 for 2 MiB and 2 for 1 GiB. -/
structure Leaf where
  base  : Nat
  size  : Fin 3
  res   : Bool
  home  : Fin 4
  r     : Bool
  w     : Bool
  u     : Bool
  fmt   : Fin 32
  geom  : Fin 8
  vw    : Bool
  view  : Fin 64
  msc   : Bool
  plane : Nat
  peer  : Fin 64
  pfn   : Nat
  deriving DecidableEq, Repr

/-- The states of a handle (R134). -/
inductive HState where
  | invalid | ready | pending | partly | revoked | unmapped
  deriving DecidableEq, Repr

/-- A handle (R133). While it is PENDING, `final` is the state its walk will reach and `walkEnd` the cycle it ends. -/
structure Handle where
  state   : HState
  base    : W64
  size    : Fin 3
  len     : Nat
  leaves  : List Leaf
  ctx     : Fin 64
  final   : HState
  walkEnd : Nat
  deriving DecidableEq, Repr

/-- A view-table entry (R132, R151). -/
structure View where
  vbase  : W64
  pbase  : W64
  vshape : W64
  deriving DecidableEq, Repr

/-! ### Rings, sync words, copy queues -/

/-- A ring register (R154 to R160). -/
structure RingReg where
  valid   : Bool
  base    : BitVec 21
  log2n   : BitVec 4
  esz     : BitVec 7
  remote  : Bool
  rcore   : BitVec 2
  rring   : BitVec 4
  accept  : Bool
  asrc    : BitVec 2
  err     : Bool
  head    : W32
  tail    : W32
  claimed : W32
  room    : BitVec 13
  deriving DecidableEq, Repr

/-- A LOOP that is running its slots again (R170): where it stands, its N, K, SINC and DINC, the pass it is on and the slot
within the pass. -/
structure Pass where
  at_  : Nat
  n    : Nat
  k    : Nat
  sinc : W64
  dinc : W64
  j    : Nat
  i    : Nat
  deriving DecidableEq, Repr

/-- A posted chain (R162 to R170): where its next slot is, the LOOP it is running, how many entries an IF still passes over, and,
once the current entry has begun, its slot. `no` counts posts to the queue. -/
structure Chain where
  no    : Nat
  pos   : Nat
  pass  : Option Pass
  skip  : Nat
  /-- The entry at hand has begun: its slot is read, and it is not complete. -/
  begun : Bool
  slot  : List Byte
  /-- For a FENCE that has begun: the chains of the other queue it waits for are those numbered below this. -/
  fence : Nat
  /-- How often the entry was refused by a migrating home or a peer, and the pulse before which it is not sent again. -/
  tries : Nat
  notBefore : Nat
  /-- One past the pulse in which it was last sent to a peer, 0 while it has not been (R356). -/
  sent  : Nat
  /-- The packages lost while the entry was outstanding (R357). -/
  lost : List (Fin 64)
  deriving DecidableEq, Repr

/-- A copy queue (R162 to R171, R179). `posted` counts its posts; no slot is read before cycle `nextAt` (R163). -/
structure CopyQueue where
  chains     : List Chain
  posted     : Nat
  nextAt     : Nat
  stopping   : Bool
  lastCode   : Byte
  lastReason : BitVec 4
  lastSlot   : BitVec 21
  deriving DecidableEq, Repr

/-! ### The orbit array -/

/-- A stationary store (R232 to R235): element codes of 4 to 16 bits by stored row and column, E8M0 scales, masks. `g` is
the group element of a plane. -/
structure Store where
  valid  : Bool
  ty     : Ty
  mx     : Bool
  sp     : Bool
  kf     : Nat
  g      : Fin 16
  elems  : Memory
  scales : Memory
  masks  : Memory
  deriving DecidableEq, Repr

/-- An accumulator row (R236): 128 FX72 elements, the exponent, the non-finite and the normalisation-refused flags. -/
structure AccRow where
  a    : Vector (BitVec 72) 128
  e    : BitVec 16
  nf   : Bool
  nerr : Bool
  deriving DecidableEq, Repr

/-- The states of a group slot (R267) but for LOADING, which a running `grpld` among the core's issued words stands for. -/
inductive GState where
  | empty | checked | bound | faulted | released
  deriving DecidableEq, Repr

/-- A group slot (R265 to R276): its group as two tables, and what its last check found (GRPFAIL). -/
structure GSlot where
  state   : GState
  m       : Nat
  kg      : Nat
  inexact : Bool
  cayley  : List Nat
  action  : List W32
  fail    : W64
  deriving DecidableEq, Repr

/-! ### Barriers -/

inductive BState where
  | unconfigured | armed | partly | released | broken
  deriving DecidableEq, Repr

/-- A core's view of a barrier (R284, R290). `inst` is the instance it has joined. -/
structure BarView where
  state   : BState
  breason : BitVec 3
  scope   : Fin 32
  p       : BitVec 16
  phase   : W32
  inst    : Nat
  deriving DecidableEq, Repr

/-! ### Scopes -/

/-- A scope entry (R184, R185): CMASK, REACH, VALID, SCPKG, and the 144-bit hive mask. -/
structure ScopeEntry where
  cmask : BitVec 16
  reach : BitVec 3
  valid : Bool
  pkgs  : BitVec 64
  hives : BitVec 144
  deriving DecidableEq, Repr

/-! ### Words issued and not complete -/

/-- A register write that a landing performs (R48, R51). -/
inductive Write where
  /-- A scalar register, of the handler bank or the normal one. -/
  | g (handler : Bool) (r : GReg) (v : W64)
  /-- Elements of a tile, `hb` half-bytes each; `none` keeps the old element. -/
  | tile (t : TReg) (hb : Nat) (vals : List (Option Nat))
  /-- Mask bits where `en` is 1. -/
  | mask (k : KReg) (en v : BitVec 4096)
  | pred (p : PReg) (v : Pred)
  | handle (h : HReg) (v : Handle)
  /-- A merge of a shadow, (MAG, N, I), into an amax register (R26, R27). -/
  | amax (m : MReg) (mag : Nat) (n i : Bool)
  | amclr (m : MReg)
  | sysreg (i : Nat) (v : W64)
  /-- A ring register as `ringdef` defines it (R155). -/
  | ring (r : Ring) (v : RingReg)
  /-- The core leaves handler mode: at the end of the cycle in which `resume` issues (R92). -/
  | leave
  deriving DecidableEq, Repr

/-- How an access is ordered (R183 to R187): its class, its SEM, and its scope entry with the CMASK, REACH and hives captured at
issue. -/
structure Order where
  cls   : Fin 16
  sem   : Sem
  cmask : BitVec 16
  reach : BitVec 3
  scope : Fin 32
  hives : BitVec 144
  deriving DecidableEq, Repr

inductive AccKind where
  | load | store | atomic | update
  deriving DecidableEq, Repr

/-- An access not yet performed: its bytes in half-byte keys (empty where the whole comb or accumulator stands for it), whether
its home is the comb or the accumulator, and the least REACH that takes its home in (R184). -/
structure Access where
  kind : AccKind
  comb : Bool
  lo   : Nat
  hi   : Nat
  need : Nat
  deriving DecidableEq, Repr

/-- An access performed before an earlier one of its sequencer, which only an agent outside the SET of the acquire or release
between them may see (R186): whose it is, the number of its word, its order and bytes, the entry and hives of that SET. -/
structure Early where
  core  : Nat
  seq   : Seq
  act   : Nat
  ord   : Order
  acc   : Access
  scope : Fin 32
  hives : BitVec 144
  deriving DecidableEq, Repr

/-- What has become of the page of a request since its translation was captured: a shootdown of it has reached the core, or it has been
migrated away (R145, R150). -/
inductive Fate where
  | same | shot | moved
  deriving DecidableEq, Repr

/-- One element of a memory word, as checked at issue (R137): its index in the group, its virtual address in half-bytes, its
page, its physical address in half-bytes (a key of State.mem), where its page's or view's elements start, its block in the page,
the value to store. -/
structure Elem where
  idx  : Nat
  va2  : Nat
  leaf : Leaf
  pa2  : Nat
  base2 : Nat
  blk  : Nat
  val  : Nat
  /-- The attempt count of a refused request, and the pulse before which it is not re-sent (0: not refused). -/
  tries : Nat
  notBefore : Nat
  /-- One past the pulse in which it was last sent to a peer, 0 while it has not been (R356). -/
  sent : Nat
  fate : Fate := .same
  deriving DecidableEq, Repr

/-- What a memory word does (R141, R197, R202). -/
inductive MemKind where
  | load | store | amo (op : Aop) | cas (expect : W64)
  deriving DecidableEq, Repr

/-- Where a load's values go: a scalar register, or a group of `gl` tile registers of `per` elements each, with what the
elements not loaded get (R138, R139). -/
inductive Dest where
  | none
  | g (r : GReg)
  | tile (t : TReg) (gl per : Nat) (fill : List (Option Nat))
  deriving DecidableEq, Repr

/-- An update pair (R204): its region as captured, the key of the byte it targets, the value as storage bits (an FP32 value
for STAMPADD) with its step, and its marks. -/
structure Pair where
  ctx  : Fin 64
  reg  : Region
  gen  : BitVec 4
  op   : BitVec 4
  exp  : BitVec 16
  key  : Nat
  leaf : Leaf
  va   : Nat
  v    : Nat
  step : BitVec 16
  nf   : Bool
  sat  : Bool
  deriving DecidableEq, Repr

/-- The rest of an issued word's work, with the operands captured at issue (R47). -/
inductive ActBody where
  /-- Results only. -/
  | plain
  /-- `sysw` to a register whose write is an event of its own (R153, R126, R185, R221). -/
  | sysw (i : Nat) (v : W64)
  | tsig (q : Seq) (n : Nat)
  | pause (e : Nat) (tok : Bool)
  | fence (kind : FenceKind) (cmask : BitVec 16) (reach : BitVec 3)
  | qfence (inUpTo outUpTo : Nat)
  | exit
  /-- A handle `trans` binds, with the VA and length it captured (R135). -/
  | trans (h : HReg)
  /-- `hstat` of a PENDING handle (R147). -/
  | hstat (d : GReg) (h : HReg) (hd : Handle)
  /-- A memory word: the elements still to perform, the values loaded so far, the stale elements met (index and address), the
  minimum latency, the number of group indices. -/
  | mem (kind : MemKind) (ord : Order) (ty : Ty) (todo : List Elem) (got stale : List (Nat × Nat)) (dest : Dest)
      (min total : Nat)
  /-- A memory word held at its port by a PENDING handle until the cycle in which the walk ends; it then traps, or goes on as
  `inner` (R137). -/
  | held (h : HReg) (until_ : Nat) (trap : Option (Cause × W64)) (inner : ActBody)
  /-- A comb load: reads half-byte addresses at the end of cycle `at_`, and lands `lat` cycles after issue if it could
  (R142, R178). -/
  | combLoad (at_ lat : Nat) (ord : Order) (ty : Ty) (addrs : List Nat) (dest : Dest)
  /-- A comb store: the addresses and values, written at the end of cycle `at_`. -/
  | combStore (at_ : Nat) (ord : Order) (ty : Ty) (items : List (Nat × Nat))
  | rcommit (r : Ring) (n : Nat)
  | rrel (r : Ring) (n : Nat)
  /-- `rapp`: the proxy, the core and ring it stands for, the source address and its length; `data` once it has been read. -/
  | rapp (r : Ring) (dst : Nat) (dring : Ring) (addr len : Nat) (data : Option (List Byte))
  | copyPost (q : CopyQ) (addr : Nat)
  | syncset (addr : Nat) (target gen : W32)
  /-- `syncwait`: address, generation, timeout, and with PL whether a PEERLIVE bit has cleared since issue. -/
  | syncwait (d : GReg) (addr : Nat) (v : W32) (timeout : Nat) (lost : Option Bool)
  /-- `upd`: its class, a pair with the region as captured (R203, R204), the elements whose pairs have not left the core (`val` is
  the value, + 2^64 for NF, + 2^65 for SAT), the number of group indices. -/
  | upd (cls : Fin 16) (tpl : Pair) (todo : List Elem) (total : Nat)
  | ufence
  /-- A word of an array, region, step, barrier, hive or launch object: the word, the scalar values and the elements it
  captured, the SHP it captured, how far it has come. -/
  | word (i : Instr) (v : List W64) (els : List Nat) (shp : W64) (phase prog : Nat)
  deriving DecidableEq, Repr

/-- A word that has issued and is not complete. -/
structure Act where
  id      : Nat
  seq     : Seq
  pc      : W32
  opc     : Byte
  /-- Issued in handler mode: its scalar registers are the handler bank's. -/
  handler : Bool
  tag     : Option (Fin 8)
  push    : Option Seq
  /-- It took a POP, or RESTART said that it had (R393). -/
  popped  : Bool
  /-- It is the word at the PC that RESTART is about; RESTART is cleared when it completes (R73). -/
  resumed : Bool
  /-- Its sequencer issues no later word until it completes, with this wait reason. -/
  holds   : Option Why
  issued  : Nat
  /-- The cycle at whose end its results land and it completes, once known. -/
  due     : Option Nat
  fixed   : Bool
  writes  : List Write
  body    : ActBody
  /-- Its sequencer has issued a later word. -/
  passed  : Bool := false
  /-- The last requests of a memory word have come to nothing in this cycle (R357). -/
  lost    : Bool := false
  deriving DecidableEq, Repr

/-! ### Cores -/

/-- The shared structures whose use R46 lets hold a later word: the first cycle in which the tile unit, each sequencer's memory
request port and the ring port are free again, and the cycle in which the ring port was last taken. -/
structure Ports where
  tile : Nat
  mem  : Vector Nat 4
  ring : Nat
  ringAt : Nat
  deriving DecidableEq, Repr

/-- Which of these structures a word uses. -/
inductive SharedPort where
  | tile | mem | ring
  deriving DecidableEq, Repr

/-- The task a core runs (R305 to R308, R337). `lq` and `kseq` name its kernel; `since` is the pulse its watchdog counts from and
`used` the pulses counted before that. -/
structure Task where
  ctx     : Fin 64
  lq      : Fin 16
  kseq    : W32
  stage   : Fin 8
  persist : Bool
  out     : Vector (Option (Fin 8)) 2
  live    : Nat
  limitUs : Nat
  since   : Nat
  used    : Nat
  cls     : Fin 4
  /-- Its watchdog has fired. -/
  fired   : Bool
  deriving DecidableEq, Repr

/-- A core (R62, R72). -/
structure Core where
  id          : Nat
  /-- Core cycles are pulses not swallowed since `born` (R3, R72). -/
  born        : Nat
  seqs        : Vector Seqr 4
  handlerBank : Vector W64 32
  handlerTags : Vector Bool 8
  /-- The handler's program counter; PC_X keeps the resume PC (R70). -/
  handlerPc   : W32
  /-- SEQSTATE as it stood at the start of this cycle (R74). -/
  seqSnap     : W64
  inHandler   : Bool
  trapVec     : W32
  trapCause   : Byte
  trapPc      : W32
  trapEng     : BitVec 2
  trapInfo    : W64
  raised      : List Trap
  pending     : List Trap
  stop        : Option StopKind
  /-- A stop asked for while in handler mode (R333). -/
  waitingStop : Option StopKind
  deadlock    : Nat
  tiles       : Memory
  masks       : Vector (BitVec 4096) 8
  preds       : Vector Pred 8
  amax        : Vector W64 4
  handles     : Vector Handle 16
  tqcnt       : BitVec 64
  /-- TQCNT as it stood at the start of this cycle (R46, R84). -/
  tqSnap      : BitVec 64
  tqceil      : BitVec 64
  rings       : Vector RingReg 16
  /-- The rings as they stood at the start of this cycle, as `sysr` reads them (R85). -/
  ringSnap    : Vector RingReg 16
  inQ         : CopyQueue
  outQ        : CopyQueue
  comb        : Memory
  filter      : Store
  shadow      : Store
  active      : Store
  acc         : List (Nat × AccRow)
  accDirty    : BitVec 16
  arrFlag     : BitVec 3
  slots       : Vector GSlot 2
  grpBerr     : Bool
  /-- One past the core cycle in which a `grpld` into each slot last issued (R269). -/
  grpAt       : Vector Nat 2
  bars        : Vector BarView 64
  acts        : List Act
  nextAct     : Nat
  task        : Option Task
  scopes      : Vector ScopeEntry 32
  dcf         : Vector W32 16
  cstep       : W32
  ports       : Ports
  deriving DecidableEq, Repr

/-! ### Hives (R291 to R304) -/

inductive LState where
  | undefined | ready | faulted
  deriving DecidableEq, Repr

/-- A work list (R291 to R293). -/
structure ListReg where
  state     : LState
  ctx       : Fin 64
  owner     : BitVec 2
  domain    : BitVec 25
  log2spill : BitVec 5
  spillVA   : W64
  bitmapVA  : W64
  entries   : List W64
  ovf       : Bool
  drops     : BitVec 24
  deriving DecidableEq, Repr

/-- A dispatch table (R301). -/
structure DispTable where
  valid : Bool
  ctx   : Fin 64
  nexp  : Nat
  rowsz : Nat
  rbase : W64
  rcap  : W32
  ridx  : W64
  bases : List W64
  caps  : List W32
  fill  : List W32
  rfill : W32
  lost  : W32
  deriving DecidableEq, Repr

/-- A hive router's objects. -/
structure Hive where
  lists  : Vector ListReg 16
  tables : Vector DispTable 4
  deriving DecidableEq, Repr

/-! ### Contexts (R326 to R346) -/

/-- CTXSTATE's codes (R328). -/
inductive CState where
  | free | created | bound | running | suspended | faulted | draining | destroyed
  deriving DecidableEq, Repr

/-- A region entry (R199, R217). -/
structure RegionReg where
  valid     : Bool
  base      : W64
  len       : Nat
  op        : BitVec 4
  gen       : BitVec 4
  exp       : BitVec 16
  staletrap : Bool
  nf        : Bool
  sat       : Bool
  drops     : W32
  deriving DecidableEq, Repr

/-- The states of a launch entry before DONE (R312). -/
inductive EState where
  | queued | waiting | ready | running
  deriving DecidableEq, Repr

/-- A launch entry taken and not DONE (R311, R312). `since` is the pulse it was last checked, from READY on the one it became READY
or was last granted a core. -/
structure LaunchEntry where
  no    : W32
  state : EState
  bytes : List Byte
  since : Nat
  aged  : Bool
  deriving DecidableEq, Repr

/-- A launch queue (R311, R322, R351). `polled` is the pulse its tail word was last read; while `refused` it is read at a
doorbell only. -/
structure LaunchQueue where
  valid    : Bool
  ringVA   : W64
  log2n    : BitVec 4
  res      : BitVec 10
  doneVA   : W64
  done     : W32
  accepted : W32
  entries  : List LaunchEntry
  polled   : Nat
  refused  : Bool
  deriving DecidableEq, Repr

/-- A stage record (R306). -/
structure Stage where
  vas     : Vector W64 4
  lens    : Vector W32 4
  ents    : Vector W32 4
  imgVA   : W64
  imgLen  : Nat
  live    : Nat
  out     : Vector (Option (Fin 8)) 2
  minc    : Nat
  maxc    : Nat
  persist : Bool
  heart   : Nat
  budget  : Nat
  deriving DecidableEq, Repr

/-- An item of a stage queue: the pulse it was put, and its slot in the queue's memory (R307). -/
structure Item where
  put  : Nat
  slot : Nat
  deriving DecidableEq, Repr

/-- A running kernel (R305 to R314): its stages and their queues, how many items each queue was given, its fill as it stood at
the start of the cycle, the tasks each stage has started, and whether an `exit.abort` has aborted it. `since` is the pulse of
its last grant, or the last at which it had no runnable stage. -/
structure Kernel where
  lq      : Fin 16
  no      : W32
  cls     : Fin 4
  fault   : Bool
  stages  : List Stage
  qvas    : List W64
  qlog2   : List Nat
  queues  : List (List Item)
  puts    : List Nat
  fills   : List Nat
  started : List Nat
  aborted : Bool
  since   : Nat
  aged    : Bool
  /-- The pulse since which its stages have wanted cores to reach MINC (R315). -/
  wanting : Nat
  deriving DecidableEq, Repr

/-- A context that is DRAINING (R329): whether its outcome is SUSPENDED, when the stop was asked for. -/
structure Drain where
  suspend : Bool
  since   : Nat
  deriving DecidableEq, Repr

/-- A save slot in use and the core it holds (R335). -/
structure Saved where
  slot : Nat
  core : Core
  deriving DecidableEq, Repr

/-- A context (R326 to R346, R132, R199, R218, R311). -/
structure Ctx where
  state       : CState
  desc        : Nat
  partMask    : Byte
  ptRoot      : W64
  trapVec     : W32
  mighyst     : W32
  aging       : W32
  preemptWait : W32
  fqVA        : W64
  fqLog2      : BitVec 4
  fqHead      : W32
  fqTailVA    : W64
  fqTail      : W32
  fqLost      : W32
  fqReread    : Nat
  savePA      : Nat
  viewPA      : Nat
  views       : Vector View 64
  lqs         : Vector LaunchQueue 16
  /-- By class, the launch queue that was last granted a core (R313). -/
  lastLq      : Vector (Fin 16) 4
  regions     : Vector RegionReg 64
  gstep       : W32
  unitStep    : W32
  sweepTh     : W32
  stepDue     : Bool
  stepStale   : Bool
  stepAhead   : Bool
  staleCnt    : W32
  unitDcf     : Vector W32 16
  /-- The factors and the scope table as last written on this package; a core takes its copy at task start (R184, R221). -/
  dcf         : Vector W32 16
  scopes      : Vector ScopeEntry 32
  pgLost      : W32
  podCtx      : Byte
  drain       : Option Drain
  kernels     : List Kernel
  saved       : List Saved
  /-- The context's work lists and dispatch tables by hive while the context is not running (R291). -/
  savedHives  : List (Nat × Hive)
  lastStale   : Option Nat
  lastDrop    : List (Nat × Nat)
  deriving DecidableEq, Repr

/-! ### The glacier (R207 to R212) -/

/-- A pair that has left its core and is not performed. -/
structure Flight where
  core : Nat
  /-- The launch queue of the kernel it belongs to. -/
  lq   : Fin 16
  cls  : Fin 16
  act  : Nat
  elem : Nat
  pair : Pair
  tries : Nat
  notBefore : Nat
  /-- One past the pulse in which it was last sent to a peer, 0 while it has not been (R356). -/
  sent : Nat
  fate : Fate := .same
  deriving DecidableEq, Repr

/-- A partial result of a bin: the key of its element, the value, its stamp (R208, R226). -/
structure Partial where
  key  : Nat
  v    : Nat
  step : BitVec 16
  deriving DecidableEq, Repr

/-- A line bin (R208): `pairs` counts the pairs merged into it, `used` is the pulse of its last use. -/
structure Bin where
  line  : Nat
  ctx   : Fin 64
  reg   : Region
  gen   : BitVec 4
  op    : BitVec 4
  exp   : BitVec 16
  leaf  : Leaf
  parts : List Partial
  /-- For a STAMPADD region, the classes of the line's blocks by block number, as read when the bin was formed (R226). -/
  classes : List (Nat × Fin 16)
  pairs : Nat
  used  : Nat
  deriving DecidableEq, Repr

/-! ### Requests in progress -/

/-- A participant of a barrier instance: a core, or 576 + n for the task saved in slot n of its context; whether it has arrived for the
phase not yet released; its SET as captured at configuration, the cores of a package and the packages (R281). -/
structure BarPart where
  key  : Nat
  here : Bool
  set  : List Nat × W64
  deriving DecidableEq, Repr

/-- A barrier instance (R281, R282): the entry and P of the last to configure it first since a break; its participants; a break
waiting at the root. -/
structure BarInst where
  no     : Nat
  ctx    : Fin 64
  bar    : Bar
  scope  : Fin 32
  p      : BitVec 16
  phase  : W32
  parts  : List BarPart
  break_ : Option (BitVec 3)
  deriving DecidableEq, Repr

/-- The states of a migration (R150). -/
inductive MState where
  | draining | copying | switched
  deriving DecidableEq, Repr

/-- A migration (R149, R150): the page, its old leaf, and where it goes. -/
structure Migration where
  no    : Nat
  ctx   : Fin 64
  va    : Nat
  leaf  : Leaf
  dest  : Home
  /-- The page's and its side plane's physical addresses there. -/
  pfn   : Nat
  plane : Nat
  state : MState
  deriving DecidableEq, Repr

/-- A page asked for by `pgreq` and not yet resident (R148), with its leaf as it was when asked for. -/
structure PageReq where
  no   : Nat
  core : Nat
  ctx  : Fin 64
  va   : Nat
  sync : Nat
  leaf : Leaf
  /-- The pulse before which it is not sent again (0: not refused yet), and the migration it has started. -/
  notBefore : Nat
  mig  : Option Nat
  deriving DecidableEq, Repr

/-- A sweep in progress (R229): the part of its range still to do. -/
structure Sweep where
  no   : Nat
  core : Nat
  ctx  : Fin 64
  va   : Nat
  stop : Nat
  sync : Nat
  deriving DecidableEq, Repr

/-- A factor, or a write of register `j` of a scope entry, on its way to another core (`core`) or to the units (none) (R185, R221). -/
inductive Spreading where
  | dcf (i : Fin 16) (v : W32)
  | scope (i : Fin 32) (j : Nat) (v : W64)
  deriving DecidableEq, Repr

structure Prop_ where
  no   : Nat
  ctx  : Fin 64
  core : Option Nat
  what : Spreading
  src  : Nat
  due  : Nat
  deriving DecidableEq, Repr

/-- A message between two rings of a hive (R160, R161). -/
inductive RingMsg where
  | ask (src : Nat) (ring : Ring)
  | credit (dst : Nat) (ring : Ring) (n : Nat)
  deriving DecidableEq, Repr

/-- A fault-queue record to be written (R332). -/
structure Rec where
  ctx     : Fin 64
  kind    : Nat
  code    : Nat
  core    : Nat
  eng     : Nat
  handled : Bool
  stage   : Nat
  lq      : Nat
  info    : W64
  pc      : W32
  lqseq   : W32
  payload : List Byte
  deriving DecidableEq, Repr

/-! ### Links, time, power -/

/-- A Camnath port (R353, R359). A flit that has left and is not acknowledged goes with how often it was sent again; `lastTc` is the
class among 1 to 3 that sent last (R354). -/
structure Port where
  up      : Bool
  resent  : W32
  txSeq   : BitVec 12
  rxSeq   : BitVec 12
  acked   : BitVec 12
  unacked : List (Flit × Nat)
  lastTc  : Fin 4
  deriving DecidableEq, Repr

/-- A partition's power settings (R382 to R384, R388). -/
structure PartPower where
  cap      : Nat
  forecast : Bool
  nextCap  : Nat
  nextFc   : Bool
  frac     : Fin 16
  level    : Fin 16
  /-- The pulse in which each level was announced (R384). -/
  levelAt  : Vector Nat 16
  deriving DecidableEq, Repr

/-- A telemetry structure name (R340, R385). -/
inductive TeleKey where
  | temperature (sensor bin : Nat)
  | voltage (die bin : Nat)
  | corrected (struct die : Nat)
  | uncorrectable (struct die : Nat)
  | resent (port : Nat)
  | watchdogs
  | partResets
  | devResets
  | throttle (part bin : Nat)
  | hours
  deriving DecidableEq, Repr

/-- An attestation report (R392). -/
structure Report where
  nonce   : BitVec 256
  digests : Vector (BitVec 256) 2
  version : W32
  slot    : Option (Fin 2)
  sig     : BitVec 3072
  deriving DecidableEq, Repr

/-- Whose move is next: the issue slot of a sequencer, or a stage of what happens at the end of the cycle. -/
inductive Turn where
  | issue (core : Nat) (seq : Seq)
  | settle (stage : Nat)
  deriving DecidableEq, Repr

/-! ### The package -/

/-- Cores, contexts and hives as they stood at the start of the cycle: what `sysr` samples (R85) and what a group slot's tests see
(R268). -/
structure Before where
  cores : List Core
  ctxs  : Vector Ctx 64
  hives : Vector Hive 144
  deriving DecidableEq, Repr

/-- The state of the package. -/
structure State where
  pulse     : Nat
  turn      : Turn
  free      : Nat
  inputs    : List (Nat × Instr)
  powered   : Bool
  /-- The pulses swallowed so far on each half-die (R383). -/
  swallowed : Vector Nat 8
  /-- Whether the present pulse is swallowed on each half-die. -/
  gated     : Vector Bool 8
  cores     : List Core
  ctxs      : Vector Ctx 64
  hives     : Vector Hive 144
  before    : Before
  mem       : Memory
  peerCombs : Memory
  poisoned  : List Nat
  window    : List Pair
  /-- How many pairs each unit has taken into its window in this cycle (R207). -/
  taken     : Vector Nat 12
  bins      : List Bin
  flight    : List Flight
  early     : Option Early
  barInsts  : List BarInst
  migrations : List Migration
  lastMig   : List (Nat × Nat)
  pageReqs  : List PageReq
  sweeps    : List Sweep
  props     : List Prop_
  ringMsgs  : List RingMsg
  /-- Records whose cause has occurred in this cycle and which are still to be posted. -/
  events    : List Rec
  nextNo    : Nat
  ctxDesc   : W64
  ctxRes    : W64
  /-- The context command in progress: its code, context and descriptor (R349). -/
  cmd       : Option (Nat × Fin 64 × Nat)
  winBase   : W64
  lqOvf     : W64
  timeCtl   : W64
  podCfg    : W64
  portPart  : Vector (BitVec 4) 12
  route     : Vector (BitVec 9) 512
  peerLive  : Vector W64 8
  linkLost  : W32
  linkDenied : W32
  ports     : Vector Port 12
  /-- Flits that have not left, oldest first, each with the number of the partition whose routes it takes (R354). -/
  outgoing  : List (Fin 8 × Flit)
  linkA     : Bool
  linkB     : Bool
  /-- Link A, link B runs in CXL mode (R347). -/
  cxlA      : Bool
  cxlB      : Bool
  msixLast  : List (Nat × Nat)
  msixWait  : List Nat
  /-- The vectors sent, each with whether it left on link B (R350). -/
  msixSent  : List (Nat × Bool)
  hostReply : List (List Byte)
  /-- The answers sent to peers. -/
  peerReply : List (Fin 64 × PeerAnswer)
  /-- DTIME in ninths of a nanosecond (2.25 GHz pulses are 4/9 ns apart). -/
  dtime9    : Nat
  timeLock  : BitVec 2
  holdover  : Bool
  stepped   : Bool
  timeOff   : BitVec 32
  slew9     : Int
  parts     : Vector PartPower 8
  partReset : List (Nat × Nat)
  telemetry : List (TeleKey × W64)
  flashTele : List (TeleKey × W64)
  /-- The pulses of the present power-on hour that went by before the last device reset (R385). -/
  hourPart  : Nat
  fwSlots   : Vector (Option FwImage) 2
  fwActive  : Fin 2
  fwStaged  : Bool
  bootSlot  : Option (Fin 2)
  fuseVersion : W32
  /-- The fused SHA-256 hash of the Holvos public key (R391). -/
  fuseKey   : BitVec 256
  reports   : List Report
  mgmtReply : List (List W64)
  deriving DecidableEq, Repr

/-! ### Reset -/

def Seqr.reset : Seqr :=
  { pc := 0, g := Vector.replicate 32 0, shp := 0xFF00, oobfill := 0, restart := ⟨0, 0, false, false⟩, streamLen := 0
    streamVA := 0, status := .idle, why := .none, tags := Vector.replicate 8 false, earliest := 0, ended := false }

def Handle.reset : Handle :=
  { state := .invalid, base := 0, size := 0, len := 0, leaves := [], ctx := 0, final := .invalid, walkEnd := 0 }

def RingReg.reset : RingReg := ⟨false, 0, 0, 0, false, 0, 0, false, 0, false, 0, 0, 0, 0⟩

def CopyQueue.reset : CopyQueue := ⟨[], 0, 0, false, 0, 0, 0⟩

def Store.reset : Store := ⟨false, .i8, false, false, 0, 0, {}, {}, {}⟩

def GSlot.reset : GSlot := ⟨.empty, 0, 0, false, [], [], 0⟩

def BarView.reset : BarView := ⟨.unconfigured, 0, 0, 0, 0, 0⟩

/-- R185: entries 0 to 5 are valid with REACH n, the rest invalid. -/
def ScopeEntry.reset (n : Fin 32) : ScopeEntry :=
  { cmask := 0xFFFF, reach := if n.val ≤ 5 then BitVec.ofNat 3 n.val else 0, valid := n.val ≤ 5, pkgs := 0, hives := 0 }

/-- TQCEIL's reset: 0xF in each field with a ≠ b (R179). -/
def tqceilReset : BitVec 64 := 0x0FFF_F0FF_FF0F_FFF0

/-- 1.0 in FP32, the reset of each melt factor (R221). -/
def one32 : W32 := 0x3F80_0000

def Ports.reset : Ports := ⟨0, Vector.replicate 4 0, 0, 0⟩

/-- A core after its reset (R390). -/
def Core.reset (id : Nat) : Core :=
  { id := id, born := 0, seqs := Vector.replicate 4 Seqr.reset, handlerBank := Vector.replicate 32 0
    handlerTags := Vector.replicate 8 false, handlerPc := 0, seqSnap := 0, inHandler := false, trapVec := 0, trapCause := 0, trapPc := 0, trapEng := 0
    trapInfo := 0, raised := [], pending := [], stop := none, waitingStop := none, deadlock := 0, tiles := {}
    masks := Vector.replicate 8 0, preds := Vector.replicate 8 ⟨0, 0⟩, amax := Vector.replicate 4 0
    handles := Vector.replicate 16 Handle.reset, tqcnt := 0, tqSnap := 0, tqceil := tqceilReset
    rings := Vector.replicate 16 RingReg.reset, ringSnap := Vector.replicate 16 RingReg.reset, inQ := CopyQueue.reset, outQ := CopyQueue.reset, comb := {}
    filter := Store.reset, shadow := Store.reset, active := Store.reset, acc := [], accDirty := 0, arrFlag := 0
    slots := Vector.replicate 2 GSlot.reset, grpBerr := false, grpAt := Vector.replicate 2 0, bars := Vector.replicate 64 BarView.reset, acts := []
    nextAct := 0, task := none, scopes := Vector.ofFn ScopeEntry.reset, dcf := Vector.replicate 16 one32, cstep := 0
    ports := Ports.reset }

def ListReg.reset : ListReg := ⟨.undefined, 0, 0, 0, 0, 0, 0, [], false, 0⟩
def DispTable.reset : DispTable := ⟨false, 0, 0, 0, 0, 0, 0, [], [], [], 0, 0⟩
def Hive.reset : Hive := ⟨Vector.replicate 16 ListReg.reset, Vector.replicate 4 DispTable.reset⟩

def RegionReg.reset : RegionReg := ⟨false, 0, 0, 0, 0, 0, false, false, false, 0⟩
def LaunchQueue.reset : LaunchQueue := ⟨false, 0, 0, 0, 0, 0, 0, [], 0, false⟩

def Ctx.reset : Ctx :=
  { state := .free, desc := 0, partMask := 0, ptRoot := 0, trapVec := 0, mighyst := 1000, aging := 10000
    preemptWait := 100, fqVA := 0, fqLog2 := 0, fqHead := 0, fqTailVA := 0, fqTail := 0, fqLost := 0, fqReread := 0
    savePA := 0, viewPA := 0, views := Vector.replicate 64 ⟨0, 0, 0⟩, lqs := Vector.replicate 16 LaunchQueue.reset
    lastLq := Vector.replicate 4 0, regions := Vector.replicate 64 RegionReg.reset, gstep := 0, unitStep := 0, sweepTh := 0x2000
    stepDue := false, stepStale := false, stepAhead := false, staleCnt := 0, unitDcf := Vector.replicate 16 one32
    dcf := Vector.replicate 16 one32, scopes := Vector.ofFn ScopeEntry.reset
    pgLost := 0, podCtx := 0, drain := none, kernels := [], saved := [], savedHives := [], lastStale := none, lastDrop := [] }

def Port.reset : Port := ⟨false, 0, 0, 0, 0, [], 0⟩
def PartPower.reset : PartPower := ⟨3200, false, 3200, false, 0, 0, Vector.replicate 16 0⟩

/-- The image a package has in slot 0 at the first power-on (log 6). -/
def FwImage.first : FwImage := ⟨0, 0, 0, 0⟩

/-- The package right after power-on reset (R390): the values of each chapter's register tables, and where the spec gives
none the values the log names. Its inputs are none, so nothing of the outside acts. -/
def State.reset : State :=
  { pulse := 0, turn := .settle 0, free := 0, inputs := [], powered := true, swallowed := Vector.replicate 8 0, gated := Vector.replicate 8 false, cores := []
    ctxs := Vector.replicate 64 Ctx.reset, hives := Vector.replicate 144 Hive.reset
    before := ⟨[], Vector.replicate 64 Ctx.reset, Vector.replicate 144 Hive.reset⟩, mem := {}, peerCombs := {}
    poisoned := [], window := [], taken := Vector.replicate 12 0, bins := [], flight := [], early := none, barInsts := [], migrations := [], lastMig := []
    pageReqs := [], sweeps := [], props := [], ringMsgs := [], events := [], nextNo := 0, ctxDesc := 0, ctxRes := 0x8000_0000_0000_0000
    cmd := none
    winBase := 0, lqOvf := 0, timeCtl := 0, podCfg := 0, portPart := Vector.replicate 12 0
    route := Vector.replicate 512 0, peerLive := Vector.replicate 8 1, linkLost := 0, linkDenied := 0
    ports := Vector.replicate 12 Port.reset, outgoing := [], linkA := false, linkB := false, cxlA := false, cxlB := false, msixLast := [], msixWait := []
    msixSent := [], hostReply := [], peerReply := [], dtime9 := 0, timeLock := 0, holdover := false, stepped := false, timeOff := 0
    slew9 := 0, parts := Vector.replicate 8 PartPower.reset, partReset := [], telemetry := [], flashTele := [], hourPart := 0
    fwSlots := #v[some FwImage.first, none], fwActive := 0, fwStaged := false, bootSlot := some 0, fuseVersion := 0
    fuseKey := Config.sha256 FwImage.first.key
    reports := [], mgmtReply := [] }

end Sys2Proof.Machine
end

