-- ==== Sys2Proof/Machine/Memory.lean ====
section
/-! DEFINITION. Reading and writing memories (R6): bytes by address in one canonical form, and wider values made of them,
lowest byte first. Every comb, tile, store and device access goes through these. -/
namespace Sys2Proof.Machine

/-- The cells are in canonical form: addresses strictly rising, none equal to what an unlisted address reads as. -/
def cellsWf (epoch : Nat) : List Host.Cell → Bool
  | [] => true
  | [(k, v)] => v != Memory.base epoch k
  | (k, v) :: (k', v') :: t => v != Memory.base epoch k && k < k' && cellsWf epoch ((k', v') :: t)

def Memory.wf (m : Memory) : Bool := cellsWf m.epoch m.cells

/-- The byte listed at address `a`, if any. -/
def lookupCell : List Host.Cell → Nat → Option Byte
  | [], _ => none
  | (k, v) :: t, a => if k = a then some v else lookupCell t a

/-- One byte (R6). -/
def Memory.read (m : Memory) (a : Nat) : Byte := (lookupCell m.cells a).getD (Memory.base m.epoch a)

/-- The cells at addresses below `a`. -/
def cellsBelow (a : Nat) : List Host.Cell → List Host.Cell
  | [] => []
  | (k, v) :: t => if k < a then (k, v) :: cellsBelow a t else []

/-- The cells from address `a` up. -/
def cellsFrom (a : Nat) : List Host.Cell → List Host.Cell
  | [] => []
  | (k, v) :: t => if k < a then cellsFrom a t else (k, v) :: t

/-- The cells that bytes from address `a` up need. -/
def cellsOf (epoch : Nat) : Nat → List Byte → List Host.Cell
  | _, [] => []
  | a, b :: bs => if b = Memory.base epoch a then cellsOf epoch (a + 1) bs else (a, b) :: cellsOf epoch (a + 1) bs

/-- Bytes written from address `a` up. -/
def Memory.writeBytes (m : Memory) (a : Nat) (bs : List Byte) : Memory :=
  { m with cells := cellsBelow a m.cells ++ cellsOf m.epoch a bs ++ cellsFrom (a + bs.length) m.cells }

/-- Bytes from `a` up, read off a list of cells whose addresses are at least `a`. -/
def readCells (epoch : Nat) : Nat → Nat → List Host.Cell → List Byte
  | _, 0, _ => []
  | a, n + 1, [] => Memory.base epoch a :: readCells epoch (a + 1) n []
  | a, n + 1, (k, v) :: t =>
    if k = a then v :: readCells epoch (a + 1) n t else Memory.base epoch a :: readCells epoch (a + 1) n ((k, v) :: t)

/-- The `n` bytes from address `a` up. -/
def Memory.readBytes (m : Memory) (a n : Nat) : List Byte := readCells m.epoch a n (cellsFrom a m.cells)

/-- The little-endian value of the `n` bytes at `a` (R6). -/
def Memory.readNat (m : Memory) (a n : Nat) : Nat := leNat (m.readBytes a n)

def Memory.writeNat (m : Memory) (a n v : Nat) : Memory := m.writeBytes a (leBytes n v)

/-- A half-byte: element codes of e2m1 are packed two to a byte, the even one low (R19). `a2` counts half-bytes. -/
def Memory.readNibble (m : Memory) (a2 : Nat) : Nat := (m.read (a2 / 2)).toNat / 16 ^ (a2 % 2) % 16

def Memory.writeNibble (m : Memory) (a2 v : Nat) : Memory :=
  let old := (m.read (a2 / 2)).toNat
  let new := if a2 % 2 = 0 then old / 16 * 16 + v % 16 else v % 16 * 16 + old % 16
  m.writeBytes (a2 / 2) [BitVec.ofNat 8 new]

/-- An element of `hb` half-bytes at half-byte address `a2`. -/
def Memory.readElem (m : Memory) (a2 hb : Nat) : Nat :=
  if hb = 1 then m.readNibble a2 else m.readNat (a2 / 2) (hb / 2)

def Memory.writeElem (m : Memory) (a2 hb v : Nat) : Memory :=
  if hb = 1 then m.writeNibble a2 v else m.writeNat (a2 / 2) (hb / 2) v

/-- Consecutive elements of `hb` half-bytes in bytes. -/
def bytesToElems (hb : Nat) : Nat → List Byte → List Nat
  | 0, _ => []
  | n + 1, bs =>
    if hb = 1 then
      match bs with
      | [] => 0 :: bytesToElems hb n []
      | b :: t => match n with
        | 0 => [b.toNat % 16]
        | n' + 1 => b.toNat % 16 :: b.toNat / 16 :: bytesToElems hb n' t
    else leNat (bs.take (hb / 2)) :: bytesToElems hb n (bs.drop (hb / 2))

/-- The bytes of consecutive elements of `hb` half-bytes; an odd last half-byte leaves the high half of its byte 0. -/
def elemsToBytes (hb : Nat) : List Nat → List Byte
  | [] => []
  | [v] => if hb = 1 then [BitVec.ofNat 8 (v % 16)] else leBytes (hb / 2) v
  | v :: w :: t =>
    if hb = 1 then BitVec.ofNat 8 (v % 16 + 16 * (w % 16)) :: elemsToBytes hb t
    else leBytes (hb / 2) v ++ elemsToBytes hb (w :: t)

/-- Bytes with each element that is given in place of the old one (R95): `vals` are elements of `hb` half-bytes. -/
def mergeElems (hb : Nat) (old : List Byte) (vals : List (Option Nat)) : List Byte :=
  let n := vals.length
  let olds := bytesToElems hb n old
  let new := elemsToBytes hb ((vals.zip olds).map (fun p => p.1.getD p.2))
  if hb = 1 ∧ n % 2 = 1 then
    -- the high half of the last byte is not part of the elements
    let last := (old.getD (n / 2) 0).toNat / 16
    new.dropLast ++ [BitVec.ofNat 8 ((new.getLastD 0).toNat % 16 + 16 * last)]
  else new

end Sys2Proof.Machine
end

