-- ==== Sys2Proof/Machine/Access.lean ====
section
/-! DEFINITION. The one home of each register: cores, sequencers, scalar registers, tags, tokens, tiles and clocks, read and
written by name. -/
namespace Sys2Proof.Machine

/-! ### Codes -/

/-- The wait reasons' codes (R74). -/
def Why.code : Why → Nat
  | .none => 0 | .gap => 1 | .tag => 2 | .token => 3 | .structural => 4 | .fence => 5 | .exit => 6 | .ring => 7
  | .sync => 8 | .barrier => 9 | .time => 10

/-- The states' codes (R64). -/
def Status.code : Status → Nat
  | .idle => 0 | .running => 1 | .waiting => 2 | .paused => 3 | .ended => 4 | .stopped => 5 | .handler => 6

/-- The trap causes' codes (R333). -/
def Cause.code : Cause → Nat
  | .illegal => 0x01 | .misaligned => 0x02 | .permission => 0x03 | .handleRevoked => 0x04 | .notResidentStore => 0x05
  | .tokenCeiling => 0x06 | .tokenDeadlock => 0x07 | .stampStale => 0x08 | .groupCheck => 0x09 | .groupBounds => 0x0A
  | .ringMisuse => 0x0B | .combBounds => 0x0C | .software => 0x0D | .watchdog => 0x0E | .preempt => 0x0F
  | .eccUncorrectable => 0x10 | .accBounds => 0x11

def HState.code : HState → Nat
  | .invalid => 0 | .ready => 1 | .pending => 2 | .partly => 3 | .revoked => 4 | .unmapped => 5

def CState.code : CState → Nat
  | .free => 0 | .created => 1 | .bound => 2 | .running => 3 | .suspended => 4 | .faulted => 5 | .draining => 6
  | .destroyed => 7

/-! ### Cores -/

def findCore : List Core → Nat → Option Core
  | [], _ => none
  | c :: t, id => if c.id = id then some c else findCore t id

/-- Core `id`. A core nothing has touched since its reset is not listed. -/
def State.core (s : State) (id : Nat) : Core := (findCore s.cores id).getD (Core.reset id)

def insertCore : List Core → Core → List Core
  | [], c => [c]
  | d :: t, c => if d.id < c.id then d :: insertCore t c else if d.id = c.id then c :: t else c :: d :: t

/-- The state with cores, contexts and hives as they stood at the start of the cycle. -/
def State.atStart (s : State) : State := { s with cores := s.before.cores, ctxs := s.before.ctxs, hives := s.before.hives }

/-- The state with core `c.id` as `c`. -/
def State.setCore (s : State) (c : Core) : State := { s with cores := insertCore s.cores c }

/-- The half-die of a core (R323). -/
def halfDie (id : Nat) : Fin 8 := Fin.ofNat 8 (id / 72)

/-- The hive of a core on the package, 36 × die + hive (R2). -/
def hiveOf (id : Nat) : Fin 144 := Fin.ofNat 144 (id / 4)

/-- The core cycles that a core's half-die has counted (R3, R383). -/
def State.clock (s : State) (id : Nat) : Nat := s.pulse - s.swallowed[halfDie id]

/-- CYCLE: core cycles since the core's reset (R72). -/
def State.cycle (s : State) (c : Core) : Nat := s.clock c.id - c.born

/-- Whether a pulse is swallowed on a half-die: FRAC sixteenths of the pulses, the first of each sixteen (R383; log 24). -/
def swallows (frac : Fin 16) (pulse : Nat) : Bool := pulse % 16 < frac.val

/-! ### Sequencers and scalar registers -/

def Core.seq (c : Core) (q : Seq) : Seqr := c.seqs[q.idx]

def Core.setSeq (c : Core) (q : Seq) (r : Seqr) : Core := { c with seqs := c.seqs.set q.idx r }

/-- Words of X run from the handler bank in handler mode (R70). -/
def Core.usesHandler (c : Core) (q : Seq) : Bool := c.inHandler && q == .x

/-- A scalar register of sequencer `q`, as its words read it: `g0` reads as zero (R43), X's bank is the handler's in handler
mode (R70). -/
def Core.rd (c : Core) (q : Seq) (r : GReg) : W64 :=
  if r = 0 then 0 else if c.usesHandler q then c.handlerBank[r] else (c.seq q).g[r]

/-- A write to a scalar register of the bank named; a write to `g0` is discarded (R43). -/
def Core.wr (c : Core) (q : Seq) (handler : Bool) (r : GReg) (v : W64) : Core :=
  if r = 0 then c
  else if handler then { c with handlerBank := c.handlerBank.set r v }
  else c.setSeq q { c.seq q with g := (c.seq q).g.set r v }

/-- Whether a tag of sequencer `q` is outstanding (R51, R70). -/
def Core.tagBusy (c : Core) (q : Seq) (t : Fin 8) : Bool :=
  if c.usesHandler q then c.handlerTags[t] else (c.seq q).tags[t]

def Core.setTag (c : Core) (q : Seq) (handler : Bool) (t : Fin 8) (b : Bool) : Core :=
  if handler then { c with handlerTags := c.handlerTags.set t b }
  else c.setSeq q { c.seq q with tags := (c.seq q).tags.set t b }

/-- Some tag that SBW names is outstanding (condition 2 of R46). -/
def Core.sbwBusy (c : Core) (q : Seq) (sbw : Byte) : Bool :=
  (List.finRange 8).any (fun t => sbw.getLsbD t.val && c.tagBusy q t)

/-! ### Token queues (R153) -/

/-- The number of the queue from `a` to `b`: its field in TQCNT and TQCEIL. -/
def queueNo (a b : Seq) : Nat := 4 * a.idx.val + b.idx.val

def nib (w : BitVec 64) (k : Nat) : Nat := w.toNat / 16 ^ k % 16

def setNib (w : BitVec 64) (k v : Nat) : BitVec 64 :=
  BitVec.ofNat 64 (w.toNat - nib w k * 16 ^ k + v % 16 * 16 ^ k)

def Core.tokens (c : Core) (a b : Seq) : Nat := nib c.tqcnt (queueNo a b)
def Core.ceiling (c : Core) (a b : Seq) : Nat := nib c.tqceil (queueNo a b)
def Core.setTokens (c : Core) (a b : Seq) (n : Nat) : Core := { c with tqcnt := setNib c.tqcnt (queueNo a b) n }

/-! ### Tiles and the comb -/

/-- A tile register's 4 KiB (R93). -/
def Core.tileBytes (c : Core) (t : TReg) (n : Nat) : List Byte := c.tiles.readBytes (t.val * 4096) n

def Core.setTile (c : Core) (t : TReg) (bs : List Byte) : Core := { c with tiles := c.tiles.writeBytes (t.val * 4096) bs }

/-- One past the comb's last byte. -/
def combEnd : Nat := 0x18_0000

/-! ### Contexts and hives -/

def State.ctx (s : State) (x : Fin 64) : Ctx := s.ctxs[x]
def State.setCtx (s : State) (x : Fin 64) (v : Ctx) : State := { s with ctxs := s.ctxs.set x v }
def State.hive (s : State) (h : Fin 144) : Hive := s.hives[h]
def State.setHive (s : State) (h : Fin 144) (v : Hive) : State := { s with hives := s.hives.set h v }

/-- The context of a core's task; 0 where it has none (CTX_ID's reset, R72). -/
def Core.ctxId (c : Core) : Fin 64 := match c.task with | some t => t.ctx | none => 0

/-- The number of a partition (R324): its lowest half-die. -/
def partNo (mask : Byte) : Fin 8 :=
  Fin.ofNat 8 (((List.range 8).find? (fun k => mask.getLsbD k)).getD 0)

/-- Whether core `id` lies in the partition of `mask` (R324). -/
def inPart (mask : Byte) (id : Nat) : Bool := mask.getLsbD (halfDie id).val

/-- The cores of a partition in ascending id. -/
def partCores (mask : Byte) : List Nat := (List.range 576).filter (inPart mask)

/-- The package's number in the pod (R354). -/
def State.pkg (s : State) : Nat := s.podCfg.toNat % 64

/-! ### Free values -/

/-- The next free value's number, and the state that has used it (log 3). -/
def State.draw (s : State) : Nat × State := (s.free, { s with free := s.free + 1 })

/-- A number for a new object or request. -/
def State.newNo (s : State) : Nat × State := (s.nextNo, { s with nextNo := s.nextNo + 1 })

/-! ### Bit fields -/

/-- Bits lo + n − 1 : lo of a 64-bit register. -/
def bits (w : W64) (lo n : Nat) : Nat := fld w.toNat lo n

/-- A register put together from its fields: (value, low bit). -/
def pack (fs : List (Nat × Nat)) : W64 := BitVec.ofNat 64 (fs.foldl (fun acc f => acc + f.1 * 2 ^ f.2) 0)

def b2n (b : Bool) : Nat := if b then 1 else 0

/-- An address whose bits 63:57 all equal bit 56 (R128). -/
def canonicalVA (a : W64) : Bool := bits a 57 7 == (if bits a 56 1 == 1 then 127 else 0)

/-- The low n bits as a signed number. -/
def signedOf (n v : Nat) : Int := if v % 2 ^ n < 2 ^ (n - 1) then (v % 2 ^ n : Nat) else ((v % 2 ^ n : Nat) : Int) - (2 ^ n : Nat)

/-- The low n bits of an integer. -/
def natOf (n : Nat) (i : Int) : Nat := (i % ((2 ^ n : Nat) : Int)).toNat

end Sys2Proof.Machine
end

