-- ==== Sys2Proof/Machine/Pages.lean ====
section
/-! DEFINITION. Page tables (R128, R129): the walk from a virtual address to a leaf, and where a leaf's bytes lie. -/
namespace Sys2Proof.Machine

/-- HBM holds 864 GB, physical addresses 0 up (R4, R348; log 7). -/
def hbmEnd : Nat := 864 * 10 ^ 9

/-- The key of a physical byte address at a home in State.mem. A HOME 1 page of this package is local. -/
def homeKey (pkg : Nat) (home : Fin 4) (peer : Fin 64) (pa : Nat) : Nat :=
  match home with
  | 0 => pa
  | 1 => if peer.val = pkg then pa else (1 + peer.val) * 2 ^ 52 + pa
  | 2 => 65 * 2 ^ 52 + pa
  | 3 => 66 * 2 ^ 52 + pa

def Leaf.bytes (l : Leaf) : Nat := match l.size with | 0 => 2 ^ 16 | 1 => 2 ^ 21 | 2 => 2 ^ 30

/-- The key of a leaf's page base and of its side plane. -/
def Leaf.dataKey (pkg : Nat) (l : Leaf) : Nat := homeKey pkg l.home l.peer l.pfn
def Leaf.planeKey (pkg : Nat) (l : Leaf) : Nat := homeKey pkg l.home l.peer l.plane

/-- The package of a page's home, if it is a peer (R129). -/
def Leaf.peerOf (l : Leaf) (pkg : Nat) : Option (Fin 64) := if l.home = 1 ∧ l.peer.val ≠ pkg then some l.peer else none

/-- The page's home is this package's memory. -/
def Leaf.isHere (l : Leaf) (pkg : Nat) : Bool := l.home == 0 || (l.home == 1 && l.peer.val == pkg)

/-- The element type of a page, none for RAW (R130). -/
def Leaf.elemTy (l : Leaf) : Option Ty :=
  if l.fmt = 0 then none else if l.fmt = 16 then some .e4m3 else if l.fmt = 17 then some .e2m1
  else some (Ty.ofCode (l.fmt.val - 1))

/-- The elements in which a page's blocks are counted: its format's, and on a RAW page its bytes (R129, R130; DESIGN CHOICE, log 71). -/
def Leaf.blockTy (l : Leaf) : Ty := (l.elemTy).getD .i8

/-- The page holds MX blocks (R130). -/
def Leaf.isMx (l : Leaf) : Bool := l.fmt == 16 || l.fmt == 17

/-- The page is stamped (R129): GEOM 2 to 5. -/
def Leaf.isStamped (l : Leaf) : Bool := 2 ≤ l.geom.val && l.geom.val ≤ 5

/-- Elements per block: 32 on an MX page, 8 to 64 on a stamped one, none on others (R129). -/
def Leaf.block (l : Leaf) : Nat := if l.isStamped then 2 ^ (l.geom.val + 1) else if l.isMx then 32 else 0

/-- The half-die whose channels hold a line, and the number of the memory-side unit that serves it: die × 3 + s (R2, R323; logs 7, 12). -/
def halfOfLine (line : Nat) : Fin 8 := Config.channelOf (64 * line)
def unitOfLine (line : Nat) : Fin 12 := Fin.ofNat 12 ((halfOfLine line).val / 2 * 3 + (Config.stackOf line).val)

/-- A channel the partition owns holds the address (R324). All half-dies own every channel. -/
def inChannels (mask : Byte) (pa : Nat) : Bool :=
  decide (pa < hbmEnd) && (mask == 0xFF || mask.getLsbD (halfOfLine (pa / 64)).val)

/-- A leaf entry's meaning for a page of size code `sz` at VA `base`, or none where the walk treats it as V = 0 (R129). -/
def leafOf (base : Nat) (sz : Fin 3) (w0 w1 : Nat) : Option Leaf :=
  let fmt := fld w0 8 5
  let geom := fld w0 13 3
  let mx := fmt = 16 ∨ fmt = 17
  let pfn := fld w1 16 36 * 2 ^ 16
  let l : Leaf :=
    { base := base, size := sz, res := bitSet w0 2, home := Fin.ofNat 4 (fld w0 3 2), r := bitSet w0 5, w := bitSet w0 6
      u := bitSet w0 7, fmt := Fin.ofNat 32 fmt, geom := Fin.ofNat 8 geom, vw := bitSet w0 16
      view := Fin.ofNat 64 (fld w0 17 6), msc := bitSet w0 23, plane := fld w0 24 40 * 2 ^ 12
      peer := Fin.ofNat 64 (fld w1 0 6), pfn := pfn }
  if fld w1 6 10 ≠ 0 ∨ fld w1 52 12 ≠ 0 then none
  else if 17 < fmt ∨ 5 < geom then none
  else if fmt = 16 ∧ geom ≠ 1 ∧ geom ≠ 4 then none
  else if fmt = 17 ∧ geom ≠ 1 then none
  else if geom = 1 ∧ ¬ mx then none
  else if pfn % l.bytes ≠ 0 then none
  else some l

/-- The walk from level `n` down, with the table at physical address `table`; `rd` reads an entry's two words (R128). -/
def walkFrom (rd : Nat → Nat × Nat) (va : Nat) : Nat → Nat → Option Leaf
  | n, table =>
    let shift := if n = 0 then 16 else 12 + 9 * n
    let ix := fld va shift (if n = 0 then 5 else 9)
    let (w0, w1) := rd (table + 16 * ix)
    if !bitSet w0 0 then none
    else if bitSet w0 1 then
      match n with
      | 0 => leafOf (va / 2 ^ 16 * 2 ^ 16) 0 w0 w1
      | 1 => leafOf (va / 2 ^ 21 * 2 ^ 21) 1 w0 w1
      | 2 => leafOf (va / 2 ^ 30 * 2 ^ 30) 2 w0 w1
      | _ => none
    else
      match n with
      | 0 => none
      | k + 1 => if w0 ≠ 1 ∨ fld w1 0 13 ≠ 0 ∨ fld w1 52 12 ≠ 0 then none
        else walkFrom rd va k (fld w1 13 39 * 2 ^ 13)

/-- The canonical address whose low 57 bits these are (R128). -/
def canonOf (va : Nat) : W64 := BitVec.ofNat 64 (if bitSet va 56 then va % 2 ^ 57 + 127 * 2 ^ 57 else va % 2 ^ 57)

/-- The key of the byte at virtual address `va` (57 bits) of a leaf's page. -/
def Leaf.byteKey (pkg : Nat) (l : Leaf) (va : Nat) : Nat := l.dataKey pkg + (va % 2 ^ 57 - l.base)

/-- A page that a device structure may use: resident, local, R and W, RAW, no geometry, no view (R295, R305). -/
def Leaf.plain (l : Leaf) : Bool :=
  l.res && l.home == 0 && l.r && l.w && l.fmt == 0 && l.geom == 0 && !l.vw

/-! ### Views (R132) -/

def View.esz (v : View) : Nat := 2 ^ fld v.vshape.toNat 0 2
def View.rows (v : View) : Nat := fld v.vshape.toNat 2 20 + 1
def View.cols (v : View) : Nat := fld v.vshape.toNat 22 20 + 1
def View.valid (v : View) : Bool := bitSet v.vshape.toNat 63 && fld v.vshape.toNat 0 2 != 3

/-- The byte offset from PBASE of the element at `va`, or none for a view fault (R132). `hb` is the element size in half-bytes: the
page format's, and on a RAW page that of the access's TY, as R141 has it (DEDUCED, log 18). DESIGN CHOICE (log 70): an address below
VBASE, for which R132 has no case, is a view fault. -/
def View.offset (v : View) (va hb : Nat) : Option Nat :=
  let vb := v.vbase.toNat % 2 ^ 57
  if !v.valid ∨ hb ≠ 2 * v.esz ∨ va < vb then none
  else if (va - vb) % v.esz ≠ 0 then none
  else
    let n := (va - vb) / v.esz
    if v.rows * v.cols ≤ n then none else some (((n % v.rows) * v.cols + n / v.rows) * v.esz)

/-- The half-byte key at which the elements of a page start: its own bytes, or those of the view it is read through (R132). -/
def State.start2 (s : State) (x : Fin 64) (l : Leaf) : Nat :=
  if l.vw then 2 * homeKey s.pkg l.home l.peer ((s.ctx x).views[l.view]).pbase.toNat else 2 * l.dataKey s.pkg

/-- A page of this package whose bytes, or those of the view it is read through, and side plane lie in the channels of the context's
partition; another package judges its own (R324, R355). -/
def State.pageOwned (s : State) (x : Fin 64) (l : Leaf) : Bool :=
  let c := s.ctx x
  let v := c.views[l.view]
  !l.isHere s.pkg || (inChannels c.partMask (if l.vw && v.valid then v.pbase.toNat else l.pfn)
    && (l.block == 0 || inChannels c.partMask l.plane))

/-- The byte offset from PBASE of the element at `va` of a page read through a view, or none for a view fault (R132). A request for an
element of this package outside the partition's channels never leaves (R324): DESIGN CHOICE (log 70): it is a view fault. -/
def State.viewAt (s : State) (x : Fin 64) (l : Leaf) (va hb : Nat) : Option Nat :=
  let c := s.ctx x
  let v := c.views[l.view]
  (v.offset va hb).filter (fun o => !l.isHere s.pkg || inChannels c.partMask (v.pbase.toNat + o))

/-- The element, counted from the start of its page's or view's elements, at byte offset `off` of a page (R132). -/
def State.elemAt (s : State) (x : Fin 64) (l : Leaf) (hb off : Nat) : Option Nat :=
  if l.vw then (s.viewAt x l (l.base + off) hb).map (fun o => 2 * o / hb) else some (2 * off / hb)

/-- The elements of bytes `lo` to `hi` of a page. -/
def State.elemsOver (s : State) (x : Fin 64) (l : Leaf) (hb lo hi : Nat) : List Nat :=
  (List.range (2 * (hi - lo) / hb)).filterMap (fun j => s.elemAt x l hb (lo + j * hb / 2))

/-- The blocks that bytes `lo` to `hi` of a stamped page overlap. -/
def State.blocksOver (s : State) (x : Fin 64) (l : Leaf) (hb lo hi : Nat) : List Nat :=
  if l.vw then ((s.elemsOver x l hb lo hi).map (· / l.block)).eraseDups
  else
    let bb := l.block * hb / 2
    (List.range ((hi + bb - 1) / bb - lo / bb)).map (lo / bb + ·)

end Sys2Proof.Machine
end

