-- ==== Sys2Proof/Machine/Glacier.lean ====
section
/-! DEFINITION. The memory-side units (R207 to R213, R222 to R227): windows, line bins, stamped blocks, and the reads and
writes that homes perform. Every access to device memory goes through these, so every access applies the bins of its line. -/
namespace Sys2Proof.Machine

/-! ### Combining (R200) -/

/-- The storage size of an operator in half-bytes; STAMPADD has its page's (R200). -/
def opHb (op : BitVec 4) : Nat :=
  match op.toNat with
  | 0 | 2 | 4 | 5 | 6 | 7 | 10 => 8
  | _ => 16

/-- a ⊕ b of an operator other than STAMPADD, on storage bits (R200). -/
def combine (op : BitVec 4) (a b : Nat) : Nat :=
  let pickMax (x y : Nat) : Nat :=
    if ofF32 x == .nan || ofF32 y == .nan then 0x7FC00000 else if Num.lt true (ofF32 x) (ofF32 y) then y else x
  let pickMin (x y : Nat) : Nat :=
    if ofF32 x == .nan || ofF32 y == .nan then 0x7FC00000 else if Num.lt true (ofF32 y) (ofF32 x) then y else x
  match op.toNat with
  | 0 => add32 a b
  | 1 | 3 => (a + b) % 2 ^ 64
  | 2 | 10 => (a + b) % 2 ^ 32
  | 4 => pickMax a b
  | 5 => pickMin a b
  | 6 => if signedOf 32 a < signedOf 32 b then b else a
  | 7 => if signedOf 32 b < signedOf 32 a then b else a
  | 8 => a ||| b
  | 9 => a &&& b
  | _ => a

/-- The identity that `regclr` writes (R200). -/
def identity (op : BitVec 4) : Nat :=
  match op.toNat with
  | 4 => 0xFF800000
  | 5 => 0x7F800000
  | 6 => 0x80000000
  | 7 => 0x7FFFFFFF
  | 9 => 2 ^ 64 - 1
  | _ => 0

/-! ### Stamped contributions (R225) -/

/-- Bring(v, s, t, f): v as an exact value, the result an FP32 code, and whether the contribution was stale. -/
def bring (v : Num) (s t : BitVec 16) (f : Nat) : Nat × Bool :=
  let d := (t - s).toNat
  if 2 ^ 15 ≤ d then (0, true) else (f32 (v.mul (ofF32 (decayPow f d))), false)

def younger (s1 s2 : BitVec 16) : BitVec 16 := if (s1 - s2).toNat < 2 ^ 15 then s1 else s2

/-- Combine((v1, s1), (v2, s2), f) on FP32 values. -/
def combineStamped (v1 : Nat) (s1 : BitVec 16) (v2 : Nat) (s2 : BitVec 16) (f : Nat) : (Nat × BitVec 16) × Bool :=
  let t := younger s1 s2
  let (a, b1) := bring (ofF32 v1) s1 t f
  let (b, b2) := bring (ofF32 v2) s2 t f
  ((add32 a b, t), b1 || b2)

/-! ### Raw bytes of device memory -/

def State.rawBytes (s : State) (key n : Nat) : List Byte := s.mem.readBytes key n
def State.setBytes (s : State) (key : Nat) (bs : List Byte) : State := { s with mem := s.mem.writeBytes key bs }

/-! ### Stale events (R224) -/

/-- A device event of a context, with no core (R334). -/
def eventRec (x : Fin 64) (code : Nat) (info : W64) : Rec :=
  { ctx := x, kind := 3, code := code, core := 0x3FF, eng := 0, handled := false, stage := 0, lq := 0, info := info
    pc := 0, lqseq := 0, payload := [] }

def State.postEvent (s : State) (x : Fin 64) (code : Nat) (info : W64) : State :=
  { s with events := s.events ++ [eventRec x code info] }

/-- Adds to a 32-bit count that saturates. -/
def satInc (c : W32) (n : Nat) : W32 := BitVec.ofNat 32 (min (c.toNat + n) (2 ^ 32 - 1))

/-- The record of an uncorrectable error that no word takes as a trap, still to be posted; its context faults with it (R331, R340). -/
def State.noteEcc (s : State) (x : Fin 64) (info : W64) : State :=
  { s with events := s.events ++ [{ eventRec x 0x10 info with kind := 1 }] }

/-- TRAPINFO of ECC_UNCORRECTABLE: the structure and the address (R340). -/
def eccInfo (struct addr : Nat) : W64 := pack [(struct, 0), (addr % 2 ^ 57, 4)]

/-- A stale block was met at virtual address `va`: STEPSTAT counts it, and an event goes to the fault queue at most once in
4096 cycles. -/
def State.staleMet (s : State) (x : Fin 64) (va : Nat) : State :=
  let c := s.ctx x
  let post := match c.lastStale with
    | none => true
    | some p => decide (p + 4096 ≤ s.pulse)
  let c := { c with stepStale := true, staleCnt := satInc c.staleCnt 1
                    lastStale := if post then some s.pulse else c.lastStale }
  let s := s.setCtx x c
  if post then s.postEvent x 0x02 (BitVec.ofNat 64 va) else s

/-! ### Blocks (R37, R130, R222, R226, R227) -/

/-- Where a block of a page lies: the keys of its elements, stamp word and scale, its page's format, and whether the page is RAW, whose
bytes have no value to melt (R130, R131; DESIGN CHOICE, log 71). -/
structure BlockAt where
  raw   : Bool
  ty    : Ty
  hb    : Nat
  n     : Nat
  data2 : Nat
  stamp : Option Nat
  scale : Option Nat
  va    : Nat
  deriving DecidableEq, Repr

/-- The number of blocks in a page (R130). -/
def Leaf.blocks (l : Leaf) (hb : Nat) : Nat := l.bytes * 2 / hb / l.block

/-- Block `b` of a leaf's page, whose elements start at half-byte key `data2`. -/
def blockAt (pkg : Nat) (l : Leaf) (b data2 : Nat) : BlockAt :=
  let ty := l.blockTy
  let hb := ty.halfBytes
  let pk := l.planeKey pkg
  { raw := l.fmt == 0, ty := ty, hb := hb, n := l.block, data2 := data2
    stamp := if l.isStamped then some (pk + 4 * b) else none
    scale := if l.isMx then some (pk + b + if l.isStamped then 4 * l.blocks hb else 0) else none
    va := l.base + b * l.block * hb / 2 }

def BlockAt.stampWord (k : BlockAt) (m : Memory) : Nat := match k.stamp with | some a => m.readNat a 4 | none => 0
def stampOf (w : Nat) : BitVec 16 := BitVec.ofNat 16 w
def dclassOf (w : Nat) : Fin 16 := Fin.ofNat 16 (w / 2 ^ 16)
def zbOf (w : Nat) : Bool := bitSet w 20
/-- The stamp word with a new STAMP and ZB, DCLASS unchanged (R37). -/
def newStamp (w : Nat) (t : BitVec 16) (zb : Bool) : Nat := t.toNat + fld w 16 4 * 2 ^ 16 + b2n zb * 2 ^ 20

/-- The age of a block at step `g` (R38). -/
def ageOf (g : W32) (w : Nat) : Nat := (BitVec.ofNat 16 g.toNat - stampOf w).toNat

def BlockAt.elemCode (k : BlockAt) (m : Memory) (i : Nat) : Nat := m.readElem (k.data2 + i * k.hb) k.hb
def BlockAt.scaleCode (k : BlockAt) (m : Memory) : Nat := match k.scale with | some a => (m.read a).toNat | none => 127

/-- Element `i` decoded exactly: with its scale on an MX page (R222). -/
def BlockAt.elem (k : BlockAt) (m : Memory) (i : Nat) : Num :=
  match k.scale with
  | some _ => mxDecode k.ty (k.scaleCode m) (k.elemCode m i)
  | none => tyDecode k.ty (k.elemCode m i)

/-- Codes of the block's elements and their scale written together; an f32, bf16 or other element as its code. -/
def BlockAt.write (k : BlockAt) (m : Memory) (scale : Nat) (codes : List Nat) : Memory :=
  let m := (codes.zipIdx).foldl (fun m p => m.writeElem (k.data2 + p.2 * k.hb) k.hb p.1) m
  match k.scale with | some a => m.writeNat a 1 scale | none => m

/-- The stamped block `k` brought to stamp `t` with the entries (element, FP32 value, step) added in, and the elements of
`news` replaced by the codes (or, on an MX page, the exact values) given (ApplyBlock, R226, R227). Also whether the block or
a contribution was stale: however many were, they are one stale event (DESIGN CHOICE, log 71). Elements of a format for which R226
gives no write are written by R24 with RNE and no SAT, and those of a RAW page keep their bits (DESIGN CHOICES, log 71). `g` is the unit's
step. -/
def BlockAt.apply (k : BlockAt) (m : Memory) (f : Nat) (g : W32) (t? : Option (BitVec 16))
    (entries : List (Nat × Nat × BitVec 16)) (news : List (Nat × Nat × Num)) : Memory × Bool :=
  let w := k.stampWord m
  let st := stampOf w
  let stale := decide (2 ^ 15 ≤ ageOf g w)
  let t := t?.getD (entries.foldl (fun t e => younger t e.2.2) st)
  let step (i : Nat) : (Nat × Num) × Bool :=
    let gone := zbOf w || stale
    let m0 : Num := if gone then .zero false else k.elem m i
    let (x, b1) := bring m0 st t f
    match entries.find? (·.1 == i), news.find? (·.1 == i) with
    | _, some o => ((o.2.1, o.2.2), false)
    | none, none => if k.raw then ((if gone then 0 else k.elemCode m i, m0), false)
      else ((tyEncode k.ty .rne false (ofF32 x), ofF32 x), b1)
    | some e, none =>
      let (y, b2) := bring (ofF32 e.2.1) e.2.2 t f
      let z := add32 x y
      ((tyEncode k.ty .rne false (ofF32 z), ofF32 z), b1 || b2)
  let rs := (List.range k.n).map step
  let m := match k.scale with
    | some _ => let (sc, cs) := mxScale k.ty (rs.map (·.1.2)); k.write m sc cs
    | none => k.write m 0 (rs.map (·.1.1))
  let m := match k.stamp with | some a => m.writeNat a 4 (newStamp w t false) | none => m
  (m, stale || rs.any (·.2))

/-! ### Bins (R207, R208) -/

/-- The line of a byte key. -/
def lineOf (key : Nat) : Nat := key / 64

/-- A partial joined with another of its element (R200, R226). -/
def joinPart (op : BitVec 4) (f : Nat) (a b : Partial) : Partial × Bool :=
  if op = 11 then
    let ((v, t), st) := combineStamped a.v a.step b.v b.step f
    ({ a with v := v, step := t }, st)
  else ({ a with v := combine op a.v b.v }, false)

def addPart (op : BitVec 4) (f : Nat) : List Partial → Partial → List Partial × Bool
  | [], p => ([p], false)
  | q :: t, p =>
    if q.key = p.key then let (r, st) := joinPart op f q p; (r :: t, st)
    else let (t', st) := addPart op f t p; (q :: t', st)

/-- A melt factor lies in (0, 1] (R221). -/
def factorOk (v : W32) : Bool := 0 < v.toNat && v.toNat ≤ 0x3F80_0000

/-- The block of a page that holds the element at a half-byte key. -/
def Leaf.blockNo (l : Leaf) (pkg key2 : Nat) : Nat := (key2 - 2 * l.dataKey pkg) / l.blockTy.halfBytes / l.block

/-- The step and factors of the unit at a page's home: this package's, or a peer's, which it keeps to itself (R218, R222; log 3). -/
def State.unitOf (s : State) (x : Fin 64) (l : Leaf) : (W32 × Vector W32 16) × State :=
  let c := s.ctx x
  if (l.peerOf s.pkg).isNone then ((c.unitStep, c.unitDcf), s)
  else
    let v (i : Nat) : W32 := BitVec.ofNat 32 (Config.word (s.free + i)).toNat
    ((v 16, Vector.ofFn (fun (i : Fin 16) => if factorOk (v i.val) then v i.val else one32)), { s with free := s.free + 17 })

/-- A stale block met by a write, or a stale contribution, at a unit of this package; a peer notes its own (R224). -/
def State.staleAt (s : State) (st : Bool) (x : Fin 64) (l : Leaf) (va : Nat) : State :=
  if st && (l.peerOf s.pkg).isNone then s.staleMet x va else s

/-- The classes of the blocks of a stamped page that a line overlaps (R226). -/
def State.lineClasses (s : State) (l : Leaf) (line : Nat) : List (Nat × Fin 16) :=
  let lo := l.blockNo s.pkg (128 * line)
  let hi := l.blockNo s.pkg (128 * line + 127)
  (List.range (hi + 1 - lo)).map (fun i => (lo + i, dclassOf ((blockAt s.pkg l (lo + i) 0).stampWord s.mem)))

def Bin.takes (b : Bin) (p : Pair) : Bool := b.line == lineOf p.key && b.ctx == p.ctx && b.reg == p.reg && b.gen == p.gen

/-! The units' work on a line may need other lines: the stamp words and scales of a block lie in its page's side plane, whose lines
have bins of their own. The functions here take as `plane` the operation by which they touch such a line first. -/

/-- The lines of the side plane that hold a block's stamp word and scale (R130). -/
def BlockAt.planeLines (k : BlockAt) : List Nat := ((k.stamp.toList ++ k.scale.toList).map lineOf).eraseDups

/-- The lines of side planes that hold the stamp words of the blocks a line overlaps. -/
def State.classLines (s : State) (l : Leaf) (line : Nat) : List Nat :=
  ((s.lineClasses l line).flatMap (fun q => (blockAt s.pkg l q.1 0).planeLines)).eraseDups

/-- The poisoned line that the `n` bytes at a key touch, if any (R340). -/
def State.poisonIn (s : State) (key n : Nat) : Option Nat := s.poisoned.find? (fun l => l * 64 < key + n && key < l * 64 + 64)

/-- A line of a block, or of the side plane that holds its stamp word or scale, is poisoned. -/
def State.poisonedBlock (s : State) (k : BlockAt) : Bool :=
  (s.poisonIn (k.data2 / 2) ((k.n * k.hb + 1) / 2)).isSome || k.planeLines.any s.poisoned.contains

/-- The entries of a STAMPADD bin applied to block `bl` of its page (ApplyBlock, R226). -/
def State.applyBlockBy (plane : State → Nat → State) (s : State) (b : Bin) (bl : Nat) : State :=
  let l := b.leaf
  let hb := l.blockTy.halfBytes
  let page := l.dataKey s.pkg
  let k := blockAt s.pkg l bl (2 * page + bl * l.block * hb)
  if s.poisonedBlock k then s.noteEcc b.ctx (eccInfo 3 k.va)
  else
    let s := k.planeLines.foldl plane s
    let ((g, fs), s) := s.unitOf b.ctx l
    let es := (b.parts.filter (fun p => l.blockNo s.pkg (2 * p.key) == bl)).map
      (fun p => (2 * (p.key - page) / hb - bl * l.block, p.v, p.step))
    let (m, st) := k.apply s.mem fs[dclassOf (k.stampWord s.mem)].toNat g none es []
    { s with mem := m }.staleAt st b.ctx l k.va

/-- A bin applied to memory (R208, R226). A poisoned line is not written: the bin's context faults (R340). -/
def State.applyBinBy (plane : State → Nat → State) (s : State) (b : Bin) : State :=
  if b.op = 11 then
    ((b.parts.map (fun p => b.leaf.blockNo s.pkg (2 * p.key))).eraseDups).foldl (fun s bl => s.applyBlockBy plane b bl) s
  else if (s.poisonIn (64 * b.line) 64).isSome then s.noteEcc b.ctx (eccInfo 3 (64 * b.line))
  else
    let n := opHb b.op / 2
    { s with mem := b.parts.foldl (fun m p => m.writeNat p.key n (combine b.op (m.readNat p.key n) p.v)) s.mem }

/-- Every bin that satisfies a test applied and dropped. -/
def State.applyBinsBy (plane : State → Nat → State) (s : State) (sel : Bin → Bool) : State :=
  let bs := s.bins.filter sel
  bs.foldl (State.applyBinBy plane) { s with bins := s.bins.filter (fun b => !sel b) }

/-- The bins that a half-die's share of a unit's cache holds: at most 2^17, the lines of its 8 MiB (R208, R323; log 12). -/
def binCapacity : Nat := 1 + Config.binSlots % 2 ^ 17

/-- Two lines share a half-die's part of one unit's bin cache (R2, R323). -/
def sharesBins (a b : Nat) : Bool := unitOfLine a == unitOfLine b && halfOfLine a == halfOfLine b

/-- The one of some bins that was used least recently. -/
def leastUsed (b : Bin) : List Bin → Bin
  | [] => b
  | c :: t => leastUsed (if c.used < b.used then c else b) t

/-- Room for a bin of a line in its share of its unit's cache: where it is full, the least recently used bin is applied (R208). -/
def State.makeRoom (plane : State → Nat → State) (s : State) (line : Nat) : State :=
  match s.bins.filter (fun b => sharesBins b.line line) with
  | [] => s
  | b :: t => if (b :: t).length < binCapacity then s else s.applyBinsBy plane (· == leastUsed b t)

/-- A bin is formed for a pair's line, unless one is there (R208, R226). -/
def State.formBin (plane : State → Nat → State) (s : State) (p : Pair) : State :=
  if s.bins.any (·.takes p) then s
  else
    let line := lineOf p.key
    let s := if p.op = 11 then (s.classLines p.leaf line).foldl plane s else s
    let s := s.makeRoom plane line
    if s.bins.any (·.takes p) then s
    else { s with bins := s.bins ++ [⟨line, p.ctx, p.reg, p.gen, p.op, p.exp, p.leaf, [],
      if p.op = 11 then s.lineClasses p.leaf line else [], 0, s.pulse⟩] }

/-- The factor a bin's combinations use for an element. -/
def State.binFactor (s : State) (p : Pair) : Nat :=
  if p.op ≠ 11 then 0
  else match s.bins.find? (·.takes p) with
    | some b => match b.classes.find? (·.1 == p.leaf.blockNo s.pkg (2 * p.key)) with
      | some q => ((s.ctx p.ctx).unitDcf[q.2]).toNat
      | none => one32.toNat
    | none => one32.toNat

/-- The virtual address of the block that a pair's element lies in (R334). -/
def Pair.blockVa (p : Pair) (pkg : Nat) : Nat := (blockAt pkg p.leaf (p.leaf.blockNo pkg (2 * p.key)) 0).va

/-- A pair merged into its line's bin, which is formed where there is none (R207, R208). -/
def State.mergePair (plane : State → Nat → State) (s : State) (p : Pair) (n : Nat) : State :=
  let s := s.formBin plane p
  let f := s.binFactor p
  let add (b : Bin) : List Partial × Bool := addPart p.op f b.parts ⟨p.key, p.v, p.step⟩
  let st := s.bins.any (fun b => b.takes p && (add b).2)
  let s := { s with bins := s.bins.map (fun b =>
    if b.takes p then { b with parts := (add b).1, pairs := b.pairs + n, used := s.pulse } else b) }
  if st then s.staleMet p.ctx (p.blockVa s.pkg) else s

/-- Two pairs of the window that meet: one element of one region and generation. -/
def Pair.meets (p q : Pair) : Bool := p.key == q.key && p.ctx == q.ctx && p.reg == q.reg && p.gen == q.gen

/-- Two pairs of the window joined into one (R200, R226). -/
def State.joinPairs (plane : State → Nat → State) (s : State) (p q : Pair) : Pair × State :=
  let s := s.formBin plane p
  let (r, st) := joinPart p.op (s.binFactor p) ⟨p.key, p.v, p.step⟩ ⟨q.key, q.v, q.step⟩
  ({ p with v := r.v, step := r.step }, if st then s.staleMet p.ctx (p.blockVa s.pkg) else s)

/-- The window's pairs that satisfy a test: those of one element are combined with each other, then merged into their bin, in an
order the spec leaves open, as a free value picks the next two (R207). A list of counts goes with them: how many pairs each stands
for. The fuel is at least the number of pairs. -/
def State.mergeAll (plane : State → Nat → State) (s : State) : Nat → List (Pair × Nat) → State
  | 0, _ => s
  | _, [] => s
  | fuel + 1, q :: t =>
    let (n, s) := s.draw
    let l := q :: t
    let p := l.getD (Config.pick n % l.length) q
    let rest := l.erase p
    match rest.filter (fun r => r.1.meets p.1) with
    | [] => (s.mergePair plane p.1 p.2).mergeAll plane fuel rest
    | r :: rs =>
      let r := (r :: rs).getD (Config.pick n / l.length % (rs.length + 1)) r
      let (u, s) := s.joinPairs plane p.1 r.1
      s.mergeAll plane fuel ((u, p.2 + r.2) :: rest.erase r)

/-- The window's pairs that satisfy a test leave it for their bins. -/
def State.mergeWindowBy (plane : State → Nat → State) (s : State) (sel : Pair → Bool) : State :=
  let ps := s.window.filter sel
  { s with window := s.window.filter (fun p => !sel p) }.mergeAll plane ps.length (ps.map (fun p => (p, 1)))

/-- A line of a memory outside the package: its owner may have written it since, as a free value has it (log 5). -/
def State.outsideWrites (s : State) (line : Nat) : State :=
  if 64 * line < 2 ^ 52 then s
  else
    let (n, s) := s.draw
    if Config.pick n % 2 = 0 then s
    else { s with mem := s.mem.writeBytes (64 * line) ((List.range 64).map (fun i => Config.freeByte n (64 * line + i))) }

/-- A line touched, `fuel` deep: lines of side planes are touched by what is left of the fuel. -/
def State.touchFuel : Nat → State → Nat → State
  | 0, s, _ => s
  | fuel + 1, s, line =>
    let plane := State.touchFuel fuel
    ((s.mergeWindowBy plane (fun p => lineOf p.key == line)).applyBinsBy plane (fun b => b.line == line)).outsideWrites line

/-- Before a line is read or written: its pairs in the window are merged and every bin held for it is applied (R208). Each level of
touching takes a bin or a pair, so the fuel suffices. -/
def State.touchLine (s : State) (line : Nat) : State := s.touchFuel (s.bins.length + s.window.length + 1) line

def State.applyBlock (s : State) (b : Bin) (bl : Nat) : State := s.applyBlockBy State.touchLine b bl
def State.applyBin (s : State) (b : Bin) : State := s.applyBinBy State.touchLine b
def State.applyBins (s : State) (sel : Bin → Bool) : State := s.applyBinsBy State.touchLine sel
def State.mergeWindow (s : State) (sel : Pair → Bool) : State := s.mergeWindowBy State.touchLine sel

/-- The pairs and bins of the lines of `n` bytes at a key are applied. -/
def State.applyOver (s : State) (key n : Nat) : State :=
  let over_ (line : Nat) : Bool := decide (line * 64 < key + n) && decide (key < line * 64 + 64)
  (s.mergeWindow (fun p => over_ (lineOf p.key))).applyBins (fun b => over_ b.line)

/-- The lines of a block's stamp word and scale touched (R208). -/
def State.touchPlane (s : State) (k : BlockAt) : State := k.planeLines.foldl State.touchLine s

/-- The lines of `n` bytes at a key. -/
def State.touch (s : State) (key n : Nat) : State :=
  if n = 0 then s
  else (List.range (lineOf (key + n - 1) - lineOf key + 1)).foldl (fun s i => s.touchLine (lineOf key + i)) s

/-! ### What homes perform -/

/-- Bytes read at their home (R208, R222: no melting). -/
def State.homeRead (s : State) (key n : Nat) : List Byte × State :=
  let s := s.touch key n
  (s.rawBytes key n, s)

/-- The lines a write covers whole are no longer poisoned (R340). -/
def unpoison (ps : List Nat) (key n : Nat) : List Nat := ps.filter (fun l => !(key ≤ l * 64 && l * 64 + 64 ≤ key + n))

/-- Bytes written at their home (R208). -/
def State.homeWrite (s : State) (key : Nat) (bs : List Byte) : State :=
  let s := s.touch key bs.length
  { s.setBytes key bs with poisoned := unpoison s.poisoned key bs.length }

/-- A number read at its home. -/
def State.homeNat (s : State) (key n : Nat) : Nat × State := let (bs, s) := s.homeRead key n; (leNat bs, s)

/-- The half-byte key of the first element of an element's block. -/
def Elem.block2 (e : Elem) : Nat := e.base2 + e.blk * e.leaf.block * e.leaf.blockTy.halfBytes

/-- The value an element of a page has for a load into TY (R131, R139, R222), the state after its line's bins are applied,
and whether its block is stale. An element that is not resident reads zero bits. One of a stamped RAW page passes unchanged, but that of a
stale or zero block reads 0 (DESIGN CHOICE, log 71). -/
def State.loadElem (s : State) (x : Fin 64) (e : Elem) (ty : Ty) : (Nat × Bool) × State :=
  if !e.leaf.res then ((0, false), s)
  else
    let hb := match e.leaf.elemTy with | none => ty.halfBytes | some t => t.halfBytes
    let s := s.touch (e.pa2 / 2) ((hb + 1) / 2)
    let raw := s.mem.readElem e.pa2 hb
    if e.leaf.isStamped then
      let k := blockAt s.pkg e.leaf e.blk e.block2
      let s := s.touchPlane k
      let w := k.stampWord s.mem
      let ((g, fs), s) := s.unitOf x e.leaf
      let d := ageOf g w
      if 2 ^ 15 ≤ d then ((0, true), s)
      else match e.leaf.elemTy with
        | none => ((if zbOf w then 0 else raw, false), s)
        | some pt =>
          let y : Num := if zbOf w then .zero false
            else if e.leaf.isMx then mxDecode pt (k.scaleCode s.mem) raw else tyDecode pt raw
          ((tyEncode ty .rne false (ofF32 (melt fs[dclassOf w].toNat d y)), false), s)
    else match e.leaf.elemTy with
      | none => ((raw, false), s)
      | some pt =>
        if e.leaf.isMx then
          let k := blockAt s.pkg e.leaf e.blk e.block2
          let s := s.touchPlane k
          ((tyEncode ty .rne false (mxDecode pt (k.scaleCode s.mem) raw), false), s)
        else ((if pt == ty then raw else convert pt ty .rne false raw, false), s)

/-- One element stored to a page that is neither stamped nor MX (R131). -/
def State.storeElem (s : State) (e : Elem) (ty : Ty) : State :=
  let pt := (e.leaf.elemTy).getD ty
  let hb := pt.halfBytes
  let v := if pt == ty then e.val else convert ty pt .rne false e.val
  let s := s.touch (e.pa2 / 2) ((hb + 1) / 2)
  { s with mem := s.mem.writeElem e.pa2 hb v }

/-- Elements of the block of `e` on a stamped or MX page stored as one read-merge-write (R131, R227): `news` gives an element's
index in the block, its code in the page's format and its exact value. -/
def State.storeOver (s : State) (x : Fin 64) (e : Elem) (news : List (Nat × Nat × Num)) : State :=
  let hb := e.leaf.blockTy.halfBytes
  let d2 := e.block2
  let k := blockAt s.pkg e.leaf e.blk d2
  let s := (s.touch (d2 / 2) ((k.n * hb + 1) / 2)).touchPlane k
  if e.leaf.isStamped then
    let ((g, fs), s) := s.unitOf x e.leaf
    let (m, st) := k.apply s.mem fs[dclassOf (k.stampWord s.mem)].toNat g (some (BitVec.ofNat 16 g.toNat)) [] news
    { s with mem := m }.staleAt st x e.leaf k.va
  else
    -- an MX block, covered whole
    let xs := (List.range k.n).map (fun i => match news.find? (·.1 == i) with
      | some o => o.2.2
      | none => k.elem s.mem i)
    let (sc, cs) := mxScale k.ty xs
    { s with mem := k.write s.mem sc cs }

/-- The elements of one block stored from codes of type `ty`. Of two with one place the later one stands (R142). On a stamped RAW page
the bits pass unchanged into the block, which gets its stamp as any other (R131, R227; DESIGN CHOICE, log 71). -/
def State.storeBlock (s : State) (x : Fin 64) (es : List Elem) (ty : Ty) : State :=
  match es with
  | [] => s
  | e :: _ =>
    let pt := (e.leaf.elemTy).getD ty
    if e.leaf.fmt = 0 then
      let s := s.storeOver x e []
      { s with mem := es.foldl (fun m f => m.writeElem f.pa2 ty.halfBytes f.val) s.mem }
    else s.storeOver x e (es.reverse.map (fun f => ((f.pa2 - e.block2) / pt.halfBytes,
      (if pt == ty then f.val else convert ty pt .rne false f.val), tyDecode ty f.val)))

/-- The lines that stored ranges (half-byte key, half-bytes) cover whole are no longer poisoned (R340). -/
def State.unpoisonBy (s : State) (rs : List (Nat × Nat)) : State :=
  { s with poisoned := s.poisoned.filter (fun l => !(List.range 128).all (fun k =>
      rs.any (fun r => r.1 ≤ l * 128 + k && l * 128 + k < r.1 + r.2))) }

/-! ### Walks (R128, R208) -/

/-- The two words of a page-table entry at a physical address, as a read finds them: the bins and pairs of its line applied (R208). That
they are no longer held is said by State.readTables, where a step begins with a walk (log 12). -/
def State.entryAt (s : State) (a : Nat) : Nat × Nat :=
  let m := if s.bins.isEmpty && s.window.isEmpty then s.mem else (s.touchLine (lineOf a)).mem
  (m.readNat a 8, m.readNat (a + 8) 8)

/-- The leaf of a virtual address of a context, if valid (R128): its bins and pairs reach an entry before it is read (R208), and a page
outside the partition's channels counts as V = 0 (R324). An address not canonical has none. -/
def State.walk (s : State) (x : Fin 64) (va : W64) : Option Leaf :=
  let c := s.ctx x
  if canonicalVA va then
    (walkFrom s.entryAt (va.toNat % 2 ^ 57) 4 (fld c.ptRoot.toNat 13 39 * 2 ^ 13)).filter (s.pageOwned x)
  else none

/-- The lines of the entries that a walk from level `n` down reads are touched. -/
def State.touchWalk (s : State) (va : Nat) : Nat → Nat → State
  | n, table =>
    let a := table + 16 * fld va (if n = 0 then 16 else 12 + 9 * n) (if n = 0 then 5 else 9)
    let s := s.touchLine (lineOf a)
    let (w0, w1) := (s.mem.readNat a 8, s.mem.readNat (a + 8) 8)
    if !bitSet w0 0 ∨ bitSet w0 1 then s
    else match n with
      | 0 => s
      | k + 1 => s.touchWalk va k (fld w1 13 39 * 2 ^ 13)

/-- The entries that walks of these addresses read have their bins and pairs applied (R208). -/
def State.readTables (s : State) (x : Fin 64) (vas : List W64) : State :=
  vas.foldl (fun s va =>
    if (s.bins.isEmpty && s.window.isEmpty) || !canonicalVA va then s
    else s.touchWalk (va.toNat % 2 ^ 57) 4 (fld (s.ctx x).ptRoot.toNat 13 39 * 2 ^ 13)) s

/-- The keys of `n` bytes from virtual address `va`, each page of which must satisfy `ok`; none otherwise. Pages are taken
in pieces of 64 KiB. -/
def State.vaKeys (s : State) (x : Fin 64) (ok : Leaf → Bool) : Nat → W64 → Nat → Option (List (Nat × Nat))
  | 0, _, n => if n = 0 then some [] else none
  | fuel + 1, va, n =>
    if n = 0 then some []
    else match s.walk x va with
      | none => none
      | some l =>
        if !ok l then none
        else
          let k := min n (2 ^ 16 - va.toNat % 2 ^ 16)
          (s.vaKeys x ok fuel (va + BitVec.ofNat 64 k) (n - k)).map ((l.byteKey s.pkg va.toNat, k) :: ·)

end Sys2Proof.Machine
end

