-- ==== Sys2Proof/Machine/Sysregs.lean ====
section
/-! DEFINITION. The sysregs (R72, R73, R74, R126, R127, R151, R179, R185, R217, R231, R262, R279, R290, R304, R322, R346,
R359, R388, R389): what each index reads, which the mode denies, and what a write changes. -/
namespace Sys2Proof.Machine

/-! ### Layouts -/

/-- RESTART (R73). -/
def Restart.word (r : Restart) : W64 :=
  pack [(r.progress.toNat, 0), (r.opc.toNat, 32), (b2n r.popped, 40), (b2n r.valid, 63)]

def Restart.ofWord (w : W64) : Restart :=
  { progress := BitVec.ofNat 32 (bits w 0 32), opc := BitVec.ofNat 8 (bits w 32 8), popped := bits w 40 1 == 1
    valid := bits w 63 1 == 1 }

/-- SEQSTATE of a core (R74). In handler mode STX is 6 (R64). -/
def Core.seqState (c : Core) : W64 :=
  pack [((c.seq .x).status.code, 0), ((c.seq .l).status.code, 4), ((c.seq .c).status.code, 8),
    ((c.seq .s).status.code, 12), ((c.seq .x).why.code, 16), ((c.seq .l).why.code, 20), ((c.seq .c).why.code, 24),
    ((c.seq .s).why.code, 28)]

/-- SEQSTATE as the reading sequencer sees it: the state at the start of the cycle, itself RUNNING, or X in handler mode as
HANDLER, with no wait reason (R74). -/
def Core.seqStateFor (c : Core) (q : Seq) : W64 :=
  let i := q.idx.val
  let st := if c.usesHandler q then 6 else 1
  let w := setNib c.seqSnap i st
  setNib w (4 + i) 0

def Pred.word (p : Pred) : W64 := pack [(p.n.toNat, 0), (p.wc.toNat, 16)]
def Pred.ofWord (w : W64) : Pred := ⟨BitVec.ofNat 15 (bits w 0 15), BitVec.ofNat 2 (bits w 16 2)⟩

/-- SHP's writable bits (R127). -/
def shpMask (w : W64) : W64 := w &&& 0xFF3F

/-- An amax register as `sysw` stores it: the sign of MAG and bits 63:34 read 0 (R25). -/
def amaxMask (w : W64) : W64 := w &&& 0x3_7FFF_FFFF

/-- HSTn, and the result of `hstat` (R151). DESIGN CHOICE (log 62): while PENDING, LEN and SIZE show what the walk will bind. -/
def Handle.word (h : Handle) : W64 := pack [(h.state.code, 0), (h.size.val, 4), (h.len % 2 ^ 40, 8)]

def RingReg.cfgWord (r : RingReg) : W64 :=
  pack [(r.base.toNat, 0), (r.log2n.toNat, 21), (r.esz.toNat, 25), (b2n r.remote, 32), (r.rcore.toNat, 33),
    (r.rring.toNat, 35), (b2n r.accept, 39), (r.asrc.toNat, 40), (b2n r.err, 42), (b2n r.valid, 63)]
def RingReg.ptrWord (r : RingReg) : W64 := pack [(r.head.toNat, 0), (r.tail.toNat, 32)]
def RingReg.clmWord (r : RingReg) : W64 := pack [(r.claimed.toNat, 0), (r.room.toNat, 32)]

def CopyQueue.word (k : CopyQueue) : W64 :=
  pack [(k.chains.length % 32, 0), (k.lastCode.toNat, 8), (k.lastReason.toNat, 16), (k.lastSlot.toNat, 32)]

def ScopeEntry.cfgWord (e : ScopeEntry) : W64 := pack [(e.cmask.toNat, 0), (e.reach.toNat, 16), (b2n e.valid, 63)]

def RegionReg.cfgWord (r : RegionReg) : W64 :=
  pack [(r.op.toNat, 0), (r.gen.toNat, 5), (r.exp.toNat, 9), (b2n r.staletrap, 25), (b2n r.valid, 63)]
def RegionReg.statWord (r : RegionReg) : W64 := pack [(b2n r.nf, 0), (b2n r.sat, 1), (r.drops.toNat, 16)]

def Ctx.stepStatWord (c : Ctx) : W64 :=
  pack [(b2n c.stepDue, 0), (b2n c.stepStale, 1), (b2n c.stepAhead, 2), (c.staleCnt.toNat, 16)]

def Store.word (k : Store) (plane : Bool) : W64 :=
  pack [(b2n k.valid, 0), (b2n k.mx, 1), (b2n k.sp, 2), (k.ty.code, 4), (k.kf, 8), (if plane then k.g.val else 0, 20)]

def GState.code : GState → Nat
  | .empty => 0 | .checked => 2 | .bound => 3 | .faulted => 4 | .released => 5

/-- A `grpld` into slot `k` is running (R267). -/
def Core.loading (c : Core) (k : Fin 2) : Bool :=
  c.acts.any (fun a => match a.body with | .word (.grpld _ _ j) _ _ _ 1 _ => j == k | _ => false)

/-- GRPSTAT, and the result of `grpstat` (R280). M and KG read 0 when no group is held. -/
def Core.slotWord (c : Core) (k : Fin 2) : W64 :=
  let g := c.slots[k]
  pack [(if c.loading k then 1 else g.state.code, 0), (b2n g.inexact, 3), (g.m, 4), (g.kg, 10)]

def BState.code : BState → Nat
  | .unconfigured => 0 | .armed => 1 | .partly => 2 | .released => 3 | .broken => 4

def BarView.word (b : BarView) : W64 :=
  pack [(b.state.code, 0), (b.breason.toNat, 3), (b.scope.val, 8), (b.p.toNat, 16), (b.phase.toNat, 32)]

def LState.code : LState → Nat
  | .undefined => 0 | .ready => 1 | .faulted => 2

def ListReg.cfgWord (l : ListReg) : W64 :=
  pack [(l.state.code, 0), (l.owner.toNat, 2), (l.domain.toNat, 4), (l.log2spill.toNat, 29)]
def ListReg.statWord (l : ListReg) : W64 := pack [(l.entries.length, 0), (b2n l.ovf, 32), (l.drops.toNat, 40)]

def DispTable.cfgWord (d : DispTable) : W64 := pack [(b2n d.valid, 0), (d.nexp, 1), (d.rowsz, 10)]
def DispTable.statWord (d : DispTable) : W64 := pack [(d.rfill.toNat, 0), (d.lost.toNat, 32)]

def LaunchQueue.cfgWord (q : LaunchQueue) : W64 := pack [(q.log2n.toNat, 0), (q.res.toNat, 16), (b2n q.valid, 63)]
def LaunchQueue.statWord (q : LaunchQueue) : W64 := pack [(q.done.toNat, 0), (q.accepted.toNat, 32)]

/-- TASKINFO (R322). -/
def Core.taskInfo (c : Core) : W64 :=
  match c.task with
  | none => 0
  | some t => pack [(t.stage.val, 0), (b2n t.persist, 3), (t.lq.val, 4), (t.kseq.toNat, 32)]

/-- Pulses in a microsecond: 2.25 GHz (R3). -/
def pulsesPerUs : Nat := 2250

/-- The pulses a task's watchdog has counted (R337). -/
def Task.elapsed (t : Task) (pulse : Nat) : Nat := t.used + (pulse - t.since)

/-- WDSTAT: whole microseconds left (R346). -/
def State.wdstat (s : State) (c : Core) : W64 :=
  match c.task with
  | none => 0
  | some t => pack [(((t.limitUs * pulsesPerUs - t.elapsed s.pulse) / pulsesPerUs) % 2 ^ 32, 0), (b2n t.persist, 32)]

/-- A list or table as a core sees it: another context's is UNDEFINED (R291). -/
def State.listFor (s : State) (h : Fin 144) (x : Fin 64) (k : WList) : ListReg :=
  let l := (s.hive h).lists[k]
  if l.state ≠ .undefined ∧ l.ctx = x then l else ListReg.reset

def State.tableFor (s : State) (h : Fin 144) (x : Fin 64) (k : DTab) : DispTable :=
  let d := (s.hive h).tables[k]
  if d.valid ∧ d.ctx = x then d else DispTable.reset

/-- DTIME in ns (R342). -/
def State.dtime (s : State) : W64 := BitVec.ofNat 64 (s.dtime9 / 9)

/-- PEERLIVE of a context's partition (R357, R359). -/
def State.livePeers (s : State) (x : Fin 64) : W64 := s.peerLive[partNo (s.ctx x).partMask]

def portWord (p : Port) (part : BitVec 4) : W64 := pack [(b2n p.up, 0), (part.toNat, 1), (p.resent.toNat, 32)]

/-- The capability list (R388, R389): entry headers and payloads. -/
def State.capability (s : State) (c : Core) (i : Nat) : W64 :=
  let part := s.parts[partNo (s.ctx c.ctxId).partMask]
  match i with
  | 0xF00 => 0xF20
  | 0xF08 => pack [(b2n part.forecast, 0), (part.frac.val, 1)]
  | 0xF09 => pack [(part.level.val, 0)]
  | 0xF20 => 0x0000_0F24_0301_0001
  | 0xF21 => pack [(5760, 0), (Config.revision.toNat, 16)]
  | 0xF22 => 576
  | 0xF23 => 36
  | 0xF24 => 0x0000_0F26_0101_0002
  | 0xF25 => 2250
  | 0xF26 => 0x0000_0F29_0201_0003
  | 0xF27 => 12
  | 0xF28 => 72
  | 0xF29 => 0x0000_0000_0201_0004
  | 0xF2A => match s.bootSlot with | some k => BitVec.ofNat 64 k.val | none => 0
  | 0xF2B => match s.bootSlot with
    | some k => match s.fwSlots[k] with
      | some im => BitVec.ofNat 64 im.version.toNat
      | none => 0
    | none => 0
  | _ => 0

/-! ### Access rights -/

/-- Registers accessible only in handler mode (R72, R126, R179). -/
def handlerOnly (i : Nat) : Bool :=
  (0x020 ≤ i && i ≤ 0x027) || (0x060 ≤ i && i ≤ 0x0DF) || (0x104 ≤ i && i ≤ 0x10B) || i == 0x301

/-- Whether an access to sysreg `i` traps PERMISSION: a handler register outside handler mode (R72, R85). -/
def Core.sysDenied (c : Core) (q : Seq) (i : Nat) : Bool := handlerOnly i && !c.usesHandler q

/-! ### Reading -/

/-- Indices 0x000 to 0x0FF (R72). -/
def State.readSeqReg (s : State) (c : Core) (q : Seq) (i : Nat) : W64 :=
  match i with
  | 0x000 => BitVec.ofNat 64 q.idx.val
  | 0x001 => BitVec.ofNat 64 (c.seq q).streamLen.toNat
  | 0x002 => (c.seq q).restart.word
  | 0x008 => BitVec.ofNat 64 (s.cycle c)
  | 0x009 => BitVec.ofNat 64 c.id
  | 0x00A => BitVec.ofNat 64 (c.id % 144 / 4)
  | 0x00B => BitVec.ofNat 64 (c.id / 144)
  | 0x00C => BitVec.ofNat 64 s.pkg
  | 0x00D => BitVec.ofNat 64 c.ctxId.val
  | 0x010 => BitVec.ofNat 64 c.trapVec.toNat
  | 0x011 => BitVec.ofNat 64 c.trapCause.toNat
  | 0x012 => BitVec.ofNat 64 c.trapPc.toNat
  | 0x013 => BitVec.ofNat 64 c.trapEng.toNat
  | 0x014 => c.trapInfo
  | 0x018 => c.seqStateFor q
  | _ =>
    if 0x020 ≤ i ∧ i ≤ 0x023 then BitVec.ofNat 64 (c.seq (Seq.ofIdx (i - 0x020))).pc.toNat
    else if 0x024 ≤ i ∧ i ≤ 0x027 then (c.seq (Seq.ofIdx (i - 0x024))).restart.word
    else if 0x060 ≤ i ∧ i ≤ 0x0DF then
      let r : GReg := Fin.ofNat 32 (i - 0x060)
      if r = 0 then 0 else (c.seq (Seq.ofIdx ((i - 0x060) / 32))).g[r]
    else 0

/-- Indices 0x100 to 0x1FF (R126). -/
def Core.readTileReg (c : Core) (q : Seq) (i : Nat) : W64 :=
  if i = 0x100 then (c.seq q).shp
  else if i = 0x101 then (c.seq q).oobfill
  else if 0x104 ≤ i ∧ i ≤ 0x107 then (c.seq (Seq.ofIdx (i - 0x104))).shp
  else if 0x108 ≤ i ∧ i ≤ 0x10B then (c.seq (Seq.ofIdx (i - 0x108))).oobfill
  else if 0x110 ≤ i ∧ i ≤ 0x117 then (c.preds[Fin.ofNat 8 (i - 0x110)]).word
  else if 0x118 ≤ i ∧ i ≤ 0x11B then c.amax[Fin.ofNat 4 (i - 0x118)]
  else 0

/-- Indices 0x200 to 0x2FF (R151). -/
def State.readPageReg (s : State) (c : Core) (i : Nat) : W64 :=
  let x := s.ctx c.ctxId
  if i = 0x200 then x.ptRoot
  else if i = 0x201 then BitVec.ofNat 64 x.mighyst.toNat
  else if i = 0x202 then BitVec.ofNat 64 x.pgLost.toNat
  else if 0x210 ≤ i ∧ i ≤ 0x21F then (c.handles[Fin.ofNat 16 (i - 0x210)]).word
  else if 0x240 ≤ i ∧ i ≤ 0x2FF then
    let v := x.views[Fin.ofNat 64 ((i - 0x240) / 3)]
    match (i - 0x240) % 3 with | 0 => v.vbase | 1 => v.pbase | _ => v.vshape
  else 0

/-- Indices 0x300 to 0x3FF (R179). -/
def Core.readQueueReg (c : Core) (i : Nat) : W64 :=
  if i = 0x300 then c.tqceil
  else if i = 0x301 then c.tqSnap
  else if 0x310 ≤ i ∧ i ≤ 0x31F then (c.ringSnap[Fin.ofNat 16 (i - 0x310)]).cfgWord
  else if 0x320 ≤ i ∧ i ≤ 0x32F then (c.ringSnap[Fin.ofNat 16 (i - 0x320)]).ptrWord
  else if 0x330 ≤ i ∧ i ≤ 0x33F then (c.ringSnap[Fin.ofNat 16 (i - 0x330)]).clmWord
  else if i = 0x340 then c.inQ.word
  else if i = 0x341 then c.outQ.word
  else 0

/-- Indices 0x400 to 0x4FF (R185). -/
def Core.readScopeReg (c : Core) (i : Nat) : W64 :=
  let e := c.scopes[Fin.ofNat 32 ((i - 0x400) / 8)]
  match (i - 0x400) % 8 with
  | 0 => e.cfgWord
  | 1 => e.pkgs
  | 2 => BitVec.ofNat 64 e.hives.toNat
  | 3 => BitVec.ofNat 64 (e.hives.toNat / 2 ^ 64)
  | 4 => BitVec.ofNat 64 (e.hives.toNat / 2 ^ 128)
  | _ => 0

/-- Indices 0x500 to 0x5FF (R217, R231). -/
def State.readRegionReg (s : State) (c : Core) (i : Nat) : W64 :=
  let x := s.ctx c.ctxId
  if 0x500 ≤ i ∧ i ≤ 0x53F then (x.regions[Fin.ofNat 64 (i - 0x500)]).cfgWord
  else if 0x540 ≤ i ∧ i ≤ 0x57F then (x.regions[Fin.ofNat 64 (i - 0x540)]).statWord
  else if i = 0x580 then BitVec.ofNat 64 x.gstep.toNat
  else if i = 0x581 then BitVec.ofNat 64 x.sweepTh.toNat
  else if i = 0x582 then x.stepStatWord
  else if 0x590 ≤ i ∧ i ≤ 0x59F then BitVec.ofNat 64 (c.dcf[Fin.ofNat 16 (i - 0x590)]).toNat
  else 0

/-- Indices 0x600 to 0x77F (R262, R279, R290). -/
def Core.readArrayReg (c : Core) (i : Nat) : W64 :=
  if i = 0x600 then c.filter.word false
  else if i = 0x601 then c.shadow.word true
  else if i = 0x602 then c.active.word true
  else if i = 0x603 then BitVec.ofNat 64 c.arrFlag.toNat
  else if i = 0x604 then BitVec.ofNat 64 c.accDirty.toNat
  else if i = 0x680 then c.slotWord 0
  else if i = 0x681 then c.slotWord 1
  else if i = 0x682 then c.slots[0].fail
  else if i = 0x683 then c.slots[1].fail
  else if i = 0x684 then BitVec.ofNat 64 (b2n c.grpBerr)
  else if 0x700 ≤ i ∧ i ≤ 0x73F then (c.bars[Fin.ofNat 64 (i - 0x700)]).word
  else 0

/-- Indices 0x780 to 0x7FF (R304). -/
def State.readHiveReg (s : State) (c : Core) (i : Nat) : W64 :=
  let h := hiveOf c.id
  if 0x780 ≤ i ∧ i ≤ 0x78F then (s.listFor h c.ctxId (Fin.ofNat 16 (i - 0x780))).cfgWord
  else if 0x790 ≤ i ∧ i ≤ 0x79F then (s.listFor h c.ctxId (Fin.ofNat 16 (i - 0x790))).statWord
  else if 0x7A0 ≤ i ∧ i ≤ 0x7A3 then (s.tableFor h c.ctxId (Fin.ofNat 4 (i - 0x7A0))).cfgWord
  else if 0x7A4 ≤ i ∧ i ≤ 0x7A7 then (s.tableFor h c.ctxId (Fin.ofNat 4 (i - 0x7A4))).statWord
  else 0

/-- Indices 0x800 to 0xAFF (R322, R346, R359). -/
def State.readCtxReg (s : State) (c : Core) (i : Nat) : W64 :=
  let x := s.ctx c.ctxId
  if i = 0x800 then BitVec.ofNat 64 x.aging.toNat
  else if i = 0x801 then BitVec.ofNat 64 x.preemptWait.toNat
  else if i = 0x802 then c.taskInfo
  else if 0x810 ≤ i ∧ i ≤ 0x81F then (x.lqs[Fin.ofNat 16 (i - 0x810)]).cfgWord
  else if 0x820 ≤ i ∧ i ≤ 0x82F then (x.lqs[Fin.ofNat 16 (i - 0x820)]).statWord
  else if i = 0x900 then pack [(x.state.code, 0), (x.partMask.toNat, 8)]
  else if i = 0x901 then pack [(x.fqTail.toNat, 0), (x.fqLost.toNat, 32)]
  else if i = 0x908 then s.wdstat c
  else if i = 0x910 then s.dtime
  else if i = 0x911 then pack [(s.timeLock.toNat, 0), (b2n s.holdover, 2), (b2n s.stepped, 3), (s.timeOff.toNat, 32)]
  else if i = 0xA00 then s.livePeers c.ctxId
  else if i = 0xA01 then pack [(s.podCfg.toNat % 64, 0), (fld s.podCfg.toNat 8 6, 8), (x.podCtx.toNat, 16)]
  else if i = 0xA02 then pack [(s.linkLost.toNat, 0), (s.linkDenied.toNat, 32)]
  else if 0xA10 ≤ i ∧ i ≤ 0xA1B then
    portWord s.ports[Fin.ofNat 12 (i - 0xA10)] s.portPart[Fin.ofNat 12 (i - 0xA10)]
  else 0

/-- What `sysr` of index `i` reads on core `c` in sequencer `q`; an index no chapter lists reads 0. -/
def State.sysRead (s : State) (c : Core) (q : Seq) (i : Nat) : W64 :=
  if i < 0x100 then s.readSeqReg c q i
  else if i < 0x200 then c.readTileReg q i
  else if i < 0x300 then s.readPageReg c i
  else if i < 0x400 then c.readQueueReg i
  else if i < 0x500 then c.readScopeReg i
  else if i < 0x600 then s.readRegionReg c i
  else if i < 0x780 then c.readArrayReg i
  else if i < 0x800 then s.readHiveReg c i
  else if i < 0xB00 then s.readCtxReg c i
  else if 0xF00 ≤ i then s.capability c i
  else 0

/-! ### Writing -/

/-- Whether the write of a sysreg is an event of its own: TQCEIL, TQCNT, amax, DCF and the scope entries. -/
def writeIsEvent (i : Nat) : Bool :=
  i == 0x300 || i == 0x301 || (0x118 ≤ i && i ≤ 0x11B) || (0x590 ≤ i && i ≤ 0x59F) || (0x400 ≤ i && i ≤ 0x4FF)

/-- A W1C count field, cleared by a write of 1 to any of its bits. -/
def w1cField (w : W64) (lo n : Nat) : Bool := bits w lo n != 0

/-- The write of a register of the core alone (R72, R126, R179, R263, R280). -/
def Core.sysWrite (c : Core) (q : Seq) (i : Nat) (v : W64) : Core :=
  let r := c.seq q
  if i = 0x002 then c.setSeq q { r with restart := Restart.ofWord v }
  else if i = 0x010 then { c with trapVec := BitVec.ofNat 32 v.toNat }
  else if 0x020 ≤ i ∧ i ≤ 0x023 then
    let p := Seq.ofIdx (i - 0x020); c.setSeq p { c.seq p with pc := BitVec.ofNat 32 v.toNat }
  else if 0x024 ≤ i ∧ i ≤ 0x027 then
    let p := Seq.ofIdx (i - 0x024); c.setSeq p { c.seq p with restart := Restart.ofWord v }
  else if 0x060 ≤ i ∧ i ≤ 0x0DF then c.wr (Seq.ofIdx ((i - 0x060) / 32)) false (Fin.ofNat 32 (i - 0x060)) v
  else if i = 0x100 then c.setSeq q { r with shp := shpMask v }
  else if i = 0x101 then c.setSeq q { r with oobfill := v }
  else if 0x104 ≤ i ∧ i ≤ 0x107 then
    let p := Seq.ofIdx (i - 0x104); c.setSeq p { c.seq p with shp := shpMask v }
  else if 0x108 ≤ i ∧ i ≤ 0x10B then
    let p := Seq.ofIdx (i - 0x108); c.setSeq p { c.seq p with oobfill := v }
  else if 0x110 ≤ i ∧ i ≤ 0x117 then { c with preds := c.preds.set (Fin.ofNat 8 (i - 0x110)) (Pred.ofWord v) }
  else if i = 0x340 then
    { c with inQ := { c.inQ with lastCode := BitVec.ofNat 8 (bits v 8 8), lastReason := BitVec.ofNat 4 (bits v 16 4) } }
  else if i = 0x341 then
    { c with outQ := { c.outQ with lastCode := BitVec.ofNat 8 (bits v 8 8), lastReason := BitVec.ofNat 4 (bits v 16 4) } }
  else if i = 0x603 then { c with arrFlag := c.arrFlag &&& ~~~(BitVec.ofNat 3 v.toNat) }
  else if i = 0x684 then { c with grpBerr := c.grpBerr && bits v 0 1 == 0 }
  else c

/-- The write of a register of the context, the hive or the package (R151, R217, R231, R304, R359). DESIGN CHOICE (log 69): a write of 1 to
any bit of PGSTAT.LOST clears the count, as R85 has it of other counts that name it so. -/
def State.sysWriteShared (s : State) (c : Core) (i : Nat) (v : W64) : State :=
  let x := c.ctxId
  let cx := s.ctx x
  if i = 0x202 then s.setCtx x { cx with pgLost := if w1cField v 0 32 then 0 else cx.pgLost }
  else if 0x540 ≤ i ∧ i ≤ 0x57F then
    let k : Region := Fin.ofNat 64 (i - 0x540)
    let r := cx.regions[k]
    let r := { r with nf := r.nf && bits v 0 1 == 0, sat := r.sat && bits v 1 1 == 0
                      drops := if w1cField v 16 32 then 0 else r.drops }
    s.setCtx x { cx with regions := cx.regions.set k r }
  else if i = 0x581 then s.setCtx x { cx with sweepTh := BitVec.ofNat 32 (bits v 0 15) }
  else if i = 0x582 then
    s.setCtx x { cx with stepDue := cx.stepDue && bits v 0 1 == 0, stepStale := cx.stepStale && bits v 1 1 == 0
                         stepAhead := cx.stepAhead && bits v 2 1 == 0
                         staleCnt := if w1cField v 16 32 then 0 else cx.staleCnt }
  else if 0x790 ≤ i ∧ i ≤ 0x79F then
    let h := hiveOf c.id
    let k : WList := Fin.ofNat 16 (i - 0x790)
    let l := (s.hive h).lists[k]
    if l.state ≠ .undefined ∧ l.ctx = x then
      let l := { l with ovf := l.ovf && bits v 32 1 == 0, drops := if w1cField v 40 24 then 0 else l.drops }
      s.setHive h { s.hive h with lists := (s.hive h).lists.set k l }
    else s
  else if 0x7A4 ≤ i ∧ i ≤ 0x7A7 then
    let h := hiveOf c.id
    let k : DTab := Fin.ofNat 4 (i - 0x7A4)
    let d := (s.hive h).tables[k]
    if d.valid ∧ d.ctx = x then
      let d := { d with lost := if w1cField v 32 32 then 0 else d.lost }
      s.setHive h { s.hive h with tables := (s.hive h).tables.set k d }
    else s
  else if i = 0xA02 then
    { s with linkLost := if w1cField v 0 32 then 0 else s.linkLost
             linkDenied := if w1cField v 32 32 then 0 else s.linkDenied }
  else s

/-- The effect of a `sysw` to index `i` at the end of its issue cycle (R85). An index no chapter lists, and a read-only one,
discards the write. -/
def State.sysWrite (s : State) (id : Nat) (q : Seq) (i : Nat) (v : W64) : State :=
  let c := s.core id
  (s.setCore (c.sysWrite q i v)).sysWriteShared c i v

/-- A write to TQCEIL: a field written 0 keeps its value (R153). -/
def ceilWrite (old v : BitVec 64) : Nat → BitVec 64
  | 0 => old
  | k + 1 => if k / 4 = k % 4 ∨ nib v k = 0 then ceilWrite old v k else setNib (ceilWrite old v k) k (nib v k)

/-- A write to TQCNT: the fields with a ≠ b (R153, R179). -/
def cntWrite (old v : BitVec 64) : Nat → BitVec 64
  | 0 => old
  | k + 1 => if k / 4 = k % 4 then cntWrite old v k else setNib (cntWrite old v k) k (nib v k)

/-- A write to a scope entry's register (R185): entries 0 to 5 keep all but CMASK; a REACH of 6 or 7 is discarded. -/
def ScopeEntry.sysWrite (e : ScopeEntry) (n : Fin 32) (f : Nat) (v : W64) : ScopeEntry :=
  let hv := e.hives.toNat
  match f with
  | 0 =>
    let e := { e with cmask := BitVec.ofNat 16 v.toNat }
    if n.val ≤ 5 then e
    else { e with reach := if 6 ≤ bits v 16 3 then e.reach else BitVec.ofNat 3 (bits v 16 3), valid := bits v 63 1 == 1 }
  | 1 => if n.val ≤ 5 then e else { e with pkgs := v }
  | 2 => if n.val ≤ 5 then e else { e with hives := BitVec.ofNat 144 (hv / 2 ^ 64 * 2 ^ 64 + v.toNat) }
  | 3 => if n.val ≤ 5 then e
    else { e with hives := BitVec.ofNat 144 (hv / 2 ^ 128 * 2 ^ 128 + v.toNat * 2 ^ 64 + hv % 2 ^ 64) }
  | 4 => if n.val ≤ 5 then e else { e with hives := BitVec.ofNat 144 (v.toNat % 2 ^ 16 * 2 ^ 128 + hv % 2 ^ 128) }
  | _ => e


end Sys2Proof.Machine
end

