-- ==== Sys2Proof/Machine/Ops.lean ====
section
/-! DEFINITION. The shared operations of every word: issue (R46), completion and landing (R48 to R56), stopping a core, taking
a trap and returning from one (R65, R70, R71, R92, R333), records in the fault queue (R332), and what makes a context fault
(R331). -/
namespace Sys2Proof.Machine

/-! ### Signals and records (R332, R350) -/

/-- A telemetry counter rises by `n` and saturates (R385). -/
def bumpList (k : TeleKey) (n : Nat) : List (TeleKey × W64) → List (TeleKey × W64)
  | [] => [(k, BitVec.ofNat 64 (min n (2 ^ 64 - 1)))]
  | p :: t => if p.1 = k then (k, BitVec.ofNat 64 (min (p.2.toNat + n) (2 ^ 64 - 1))) :: t else p :: bumpList k n t

def State.bump (s : State) (k : TeleKey) (n : Nat) : State := { s with telemetry := bumpList k n s.telemetry }

/-- The pulses in 2 µs: no MSI-X vector is sent twice within them (R350). -/
def msixGap : Nat := 2 * pulsesPerUs

/-- MSI-X vector `v` on link A, or on B while A is down; held while neither carries traffic or inside the gap (R350). -/
def State.signal (s : State) (v : Nat) : State :=
  let recent := match s.msixLast.find? (·.1 == v) with
    | some p => decide (s.pulse < p.2 + msixGap)
    | none => false
  if recent || (!s.linkA && !s.linkB) then
    { s with msixWait := if s.msixWait.contains v then s.msixWait else s.msixWait ++ [v] }
  else
    { s with msixSent := s.msixSent ++ [(v, !s.linkA)], msixLast := s.msixLast.filter (·.1 != v) ++ [(v, s.pulse)]
             msixWait := s.msixWait.filter (· != v) }

/-- The 64 bytes of a record at its time of posting (R332). -/
def Rec.bytes (r : Rec) (dtime : W64) : List Byte :=
  leBytes 8 (pack [(r.kind, 0), (r.code, 8), (r.core, 16), (r.eng, 26), (b2n r.handled, 28), (r.stage, 29), (r.lq, 32)]).toNat
    ++ leBytes 8 dtime.toNat ++ leBytes 8 r.info.toNat ++ leBytes 4 r.pc.toNat ++ leBytes 4 r.lqseq.toNat
    ++ (r.payload ++ List.replicate 32 0).take 32

/-- The key of an address whose page is valid, writable and resident. -/
def State.writableKey (s : State) (x : Fin 64) (va : W64) : Option Nat :=
  match s.walk x va with
  | some l => if l.w && l.res then some (l.byteKey s.pkg va.toNat) else none
  | none => none

/-- FQHEAD read again from the context descriptor (R326, R332). -/
def State.rereadHead (s : State) (x : Fin 64) : State :=
  let (v, s) := s.homeNat ((s.ctx x).desc + 0x2C) 4
  s.setCtx x { s.ctx x with fqHead := BitVec.ofNat 32 v, fqReread := s.pulse }

def Ctx.fqFull (c : Ctx) : Bool := (c.fqTail - c.fqHead).toNat == 2 ^ c.fqLog2.toNat

/-- A record posted to its context's fault queue, or counted as lost (R332). -/
def State.postRec (s : State) (r : Rec) : State :=
  let s := if (s.ctx r.ctx).fqFull then s.rereadHead r.ctx else s
  let c := s.ctx r.ctx
  let va := c.fqVA + BitVec.ofNat 64 (64 * (c.fqTail.toNat % 2 ^ c.fqLog2.toNat))
  let s := if c.fqFull then s else s.readTables r.ctx [va, c.fqTailVA]
  let c := s.ctx r.ctx
  let lost := s.setCtx r.ctx { c with fqLost := satInc c.fqLost 1 }
  if c.fqFull then lost
  else match s.writableKey r.ctx va, s.writableKey r.ctx c.fqTailVA with
    | some ke, some kt =>
      let s := s.homeWrite ke (r.bytes s.dtime)
      let c := s.ctx r.ctx
      let s := s.setCtx r.ctx { c with fqTail := c.fqTail + 1 }
      let s := s.homeWrite kt (leBytes 4 (c.fqTail + 1).toNat)
      s.signal r.ctx.val
    | _, _ => lost

/-- A record with a core's fields filled in (R332). -/
def Core.record (c : Core) (kind code eng : Nat) (handled : Bool) (info : W64) (pc : W32) (payload : List Byte) : Rec :=
  { ctx := c.ctxId, kind := kind, code := code, core := c.id, eng := eng, handled := handled
    stage := match c.task with | some t => t.stage.val | none => 0
    lq := match c.task with | some t => t.lq.val | none => 0
    info := info, pc := pc, lqseq := match c.task with | some t => t.kseq | none => 0, payload := payload }

/-! ### Raising a trap (R65) -/

/-- A trap that comes of a word's effect, which is not done again: it stands beside another of its sequencer. -/
def Cause.stands : Cause → Bool
  | .tokenCeiling | .software => true
  | _ => false

/-- Raises a trap of sequencer `q`: the core stops at the end of the cycle (R65). A precise trap takes the place of a precise one that
its sequencer has raised: that is of a later word, which has not issued and is reissued after it (R56; DEDUCED, log 60). Beside one that
stands it is dropped: its word is reissued, and may trap then (DEDUCED, log 60). -/
def Core.raise (c : Core) (q : Seq) (cause : Cause) (pc : W32) (info : W64) : Core :=
  if cause.stands then { c with raised := c.raised ++ [⟨q, cause, pc, info⟩] }
  else
    let rest := c.raised.filter (fun t => t.seq != q || t.cause.stands)
    { c with raised := if rest.any (·.seq == q) then rest else rest ++ [⟨q, cause, pc, info⟩] }

/-! ### Tokens (R54, R55, R82) -/

/-- TRAPINFO of TOKEN_CEILING: the word's index, the queue, and whether a `tsig` was lost (R55, R376). -/
def ceilingInfo (pc : W32) (a b : Seq) (sig : Bool) : W64 :=
  pack [(pc.toNat, 0), (queueNo a b, 32), (b2n sig, 36)]

/-- The index of the first word sequencer `q` has not issued. -/
def Core.nextPc (c : Core) (q : Seq) : W32 := if c.usesHandler q then c.handlerPc else (c.seq q).pc

/-- `n` tokens from `a` to `b` at the completion of the word at `pc`; past the ceiling none counts and the sequencer takes
TOKEN_CEILING. -/
def Core.pushTokens (c : Core) (a b : Seq) (n : Nat) (pc : W32) (sig : Bool) : Core :=
  if n = 0 then c
  else if c.ceiling a b < c.tokens a b + n then c.raise a .tokenCeiling (c.nextPc a) (ceilingInfo pc a b sig)
  else c.setTokens a b (c.tokens a b + n)

/-! ### Completion (R53, R54, R73) -/

/-- The word is a `tsig`: TRAPINFO of its PUSH's TOKEN_CEILING says so (R376). -/
def Act.isTsig (a : Act) : Bool := match a.body with | .tsig _ _ => true | _ => false

/-- A word completes: its tag frees, its PUSH counts, RESTART is cleared if it was about this word, and it is gone (R53, R54,
R73). -/
def Core.complete (c : Core) (a : Act) : Core :=
  let c := { c with acts := c.acts.filter (·.id != a.id) }
  let c := match a.tag with
    | some t => c.setTag a.seq a.handler t false
    | none => c
  let c := if a.resumed then
      let r := c.seq a.seq
      c.setSeq a.seq { r with restart := { r.restart with valid := false, popped := false } }
    else c
  match a.push with
  | some b => c.pushTokens a.seq b 1 a.pc a.isTsig
  | none => c

/-! ### Stopping words (R56, R65, R393) -/

/-- What a stop does to a word that has issued: it completes, or it is abandoned and reissued, with PROGRESS where its chapter
keeps some. -/
inductive StopRule where
  | complete
  | abandon
  | progress (n : Nat)
  deriving DecidableEq, Repr

/-- The stop rule of a word's remaining work (R82, R144, R175, R205, R206, R241, R250, R274, R287, R298, R302, R317 to R319,
R321, R335). -/
def Act.stopRule (a : Act) : StopRule :=
  match a.body with
  | .tsig _ _ | .fence _ _ _ | .qfence _ _ | .exit | .ufence | .syncwait _ _ _ _ _ => .abandon
  | .upd _ _ todo total | .held _ _ _ (.upd _ _ todo total) =>
    .progress (todo.foldl (fun m e => min m e.idx) total)
  | .mem .store _ _ todo _ _ _ _ total | .held _ _ _ (.mem .store _ _ todo _ _ _ _ total) =>
    if a.opc = 0x63 ∧ a.seq = .s then .progress (todo.foldl (fun m e => min m e.idx) total) else .complete
  | .word i _ _ _ phase prog => match i with
    | .barwait _ _ _ _ | .twaitt _ _ | .grpld _ _ _ => .abandon
    | .bararr _ _ => if phase = 2 then .abandon else .complete
    | .qtake _ _ | .qput _ _ _ | .kspawn _ _ _ => if phase = 0 then .abandon else .complete
    | .wlpush _ _ _ _ _ | .wlins _ _ _ _ _ | .disp _ _ _ _ _ _ _ _ => .progress prog
    | .mma _ _ _ _ _ | .mmas _ _ _ _ _ _ => if phase = 0 then .abandon else .progress prog
    | _ => .complete
  | _ => .complete

/-- What `exit.abort`, or the abort of its kernel, does to a word that has issued (R68, R310): it completes, array words too; one
that only waits for something outside its core is abandoned, as its own rule has it (log 60). -/
def Act.abortRule (a : Act) : StopRule :=
  match a.body with
  | .exit | .syncwait _ _ _ _ _ => .abandon
  | .word i _ _ _ phase _ => match i with
    | .barwait _ _ _ _ | .twaitt _ _ => .abandon
    | .bararr _ _ => if phase = 2 then .abandon else .complete
    | .qtake _ _ | .qput _ _ _ | .kspawn _ _ _ => if phase = 0 then .abandon else .complete
    | _ => .complete
  | _ => .complete

/-- The stop rule of a word under a stop of kind `k`. -/
def Act.ruleFor (k : StopKind) (a : Act) : StopRule :=
  match k with
  | .abort | .killed => a.abortRule
  | _ => a.stopRule

/-- RESTART of a word that has issued and is given back: with PROGRESS where its chapter keeps some, else with the PROGRESS it had
itself resumed from, and with its POP, which stays taken (R73, R393). -/
def Restart.giveBack (r : Restart) (a : Act) (prog : Option Nat) : Restart :=
  match prog with
  | some n => { progress := BitVec.ofNat 32 n, opc := a.opc, popped := a.popped, valid := true }
  | none =>
    if a.resumed && r.valid && r.opc == a.opc then { r with popped := a.popped }
    else if a.popped then { progress := 0, opc := a.opc, popped := true, valid := false }
    else { r with valid := false, popped := false }

/-- A sequencer whose word `a` is abandoned: its PC goes back to the word, RESTART records it (R73, R393), its tag is free (R56). -/
def Core.giveBack (c : Core) (a : Act) (prog : Option Nat) : Core :=
  let c := match a.tag with
    | some t => c.setTag a.seq a.handler t false
    | none => c
  let r := c.seq a.seq
  c.setSeq a.seq { r with pc := a.pc, restart := r.restart.giveBack a prog, earliest := a.issued }

/-- One issued word meets a stop of kind `k` in cycle `now`. A pause ends there: it completes, its PUSH counts, and the next word's earliest
cycle counts from it (R86). -/
def Core.stopAct (now : Nat) (k : StopKind) (c : Core) (a : Act) : Core :=
  match a.ruleFor k, a.body with
  | .complete, .pause _ _ =>
    let r := c.seq a.seq
    (c.setSeq a.seq { r with earliest := r.earliest + (now - a.issued) }).complete a
  | .complete, _ => { c with acts := c.acts ++ [a] }
  | .abandon, _ => if a.handler then c else c.giveBack a none
  | .progress n, _ => if a.handler then c else c.giveBack a (some n)

/-- The stop is a pre-emption: the task is to be saved and goes on later (R65, R315, R329). -/
def StopKind.saves : StopKind → Bool
  | .forced | .yield | .suspend | .fault => true
  | .trap | .abort | .killed | .dead => false

/-- A sequencer stops unless it is IDLE; one that is ENDED stays so, but for a pre-emption, which stops it too (R65). -/
def Seqr.stop (saves : Bool) (r : Seqr) : Seqr :=
  match r.status with
  | .idle => { r with why := .none }
  | .ended => if saves then { r with status := .stopped, why := .none, ended := true } else { r with why := .none }
  | _ => { r with status := .stopped, why := .none }

/-- Little-endian fields of a copy slot. -/
def slotNat (b : List Byte) (at_ n : Nat) : Nat := leNat ((b.drop at_).take n)

def slotKind (b : List Byte) : Nat := slotNat b 0 1 % 16

/-- An entry that has begun and moves elements: a queue that stops completes it. A FENCE that waits is no such entry: it stays where it
is, and waits on when its queue goes on (R171; DESIGN CHOICE, log 63). -/
def Chain.moving (ch : Chain) : Bool := ch.begun && slotKind ch.slot != 5

/-- The copy queues stop at an entry's end (R171). -/
def Core.stopQueues (c : Core) : Core :=
  { c with inQ := { c.inQ with stopping := true }, outQ := { c.outQ with stopping := true } }

/-- The core stops at its sequencers' word boundaries. For a trap its copy queues go on, else they stop at an entry's end (R68,
R171). -/
def Core.halt (c : Core) (now : Nat) (k : StopKind) : Core :=
  let acts := c.acts
  let c := acts.foldl (Core.stopAct now k) { c with acts := [] }
  let c := if k == .trap then c else c.stopQueues
  { c with stop := some k, seqs := c.seqs.map (Seqr.stop k.saves) }

/-- How a stop asked for later ranks against one already asked for: the abort of a task and a fault outrank a mere stop. -/
def StopKind.rank : StopKind → Nat
  | .trap | .forced | .yield => 0
  | .suspend => 1
  | .abort | .killed => 2
  | .fault => 3
  | .dead => 4

/-- A stop asked for from outside the core's own words. In handler mode it waits for `resume` or `exit.abort`, and a core that
is stopping for a trap takes the trap first (R329, R333), but for the abort of its kernel, which lets no handler begin (R310). -/
def Core.askStop (c : Core) (now : Nat) (k : StopKind) : Core :=
  let outranks (old : StopKind) : Bool := old.rank < k.rank
  if c.task.isNone then c
  else if c.stop == some .trap && k == .killed then { c with stop := some k, raised := [], waitingStop := none }
  else if c.inHandler || c.stop == some .trap then
    match c.waitingStop with
    | some old => if outranks old then { c with waitingStop := some k } else c
    | none => { c with waitingStop := some k }
  else match c.stop with
    | none => c.halt now k
    | some old => if outranks old then { c with stop := some k } else c

/-! ### Contexts fault (R328, R329, R331) -/

/-- Every core of a context is asked to stop. -/
def State.stopCores (s : State) (x : Fin 64) (k : StopKind) : State :=
  { s with cores := s.cores.map (fun c =>
      if c.task.isSome && c.ctxId == x then c.askStop (s.cycle c) k else c) }

/-- A break is on its way to the root of every instance of a context (R282); the first one stands. -/
def State.breakCtx (s : State) (x : Fin 64) (reason : BitVec 3) : State :=
  { s with barInsts := s.barInsts.map (fun i => if i.ctx = x then { i with break_ := i.break_.or (some reason) } else i) }

/-- A context faults: a RUNNING one drains, a draining one's outcome becomes FAULTED (R328). One that is not running is FAULTED
at once, and the barriers of its saved tasks break (R282; log 8). -/
def State.faultCtx (s : State) (x : Fin 64) : State :=
  let c := s.ctx x
  match c.state with
  | .running => (s.setCtx x { c with state := .draining, drain := some ⟨false, s.pulse⟩ }).stopCores x .fault
  | .draining => match c.drain with
    | some d => (s.setCtx x { c with drain := some { d with suspend := false } }).stopCores x .fault
    | none => (s.setCtx x { c with drain := some ⟨false, s.pulse⟩ }).stopCores x .fault
  | .bound | .suspended | .created => (s.setCtx x { c with state := .faulted }).breakCtx x 1
  | _ => s

/-- An uncorrectable error that no word takes as a trap: its record, and the context faults (R331, R340). -/
def State.eccFault (s : State) (x : Fin 64) (core : Option Nat) (info : W64) : State :=
  let r : Rec := match core with
    | some id => { (s.core id).record 1 0x10 0 false info 0 [] with ctx := x }
    | none => { ctx := x, kind := 1, code := 0x10, core := 0x3FF, eng := 0, handled := false, stage := 0, lq := 0, info := info
                pc := 0, lqseq := 0, payload := [] }
  (s.postRec r).faultCtx x

/-! ### Taking a trap and returning (R70, R71, R92, R333) -/

/-- Of several traps, that of the lowest fetch index, and the others (R333). -/
def firstTrap : List Trap → Option (Trap × List Trap)
  | [] => none
  | t :: ts => match firstTrap ts with
    | none => some (t, [])
    | some (u, us) => if u.seq.idx.val < t.seq.idx.val then some (u, t :: us) else some (t, u :: us)

/-- Whether a handler can be entered: TRAPVEC names a word inside stream x, and X is not in handler mode already. -/
def Core.handlerReady (c : Core) : Bool :=
  !c.inHandler && c.trapVec != 0xFFFF_FFFF && c.trapVec.toNat < (c.seq .x).streamLen.toNat

/-- TRAPPC of a trap taken. TOKEN_CEILING names the first word its sequencer has not issued, and a word that the stop has given back
is to be issued again (R55, R56). -/
def Core.trapPcOf (c : Core) (t : Trap) : W32 :=
  if t.cause = .tokenCeiling && !c.inHandler then (c.seq t.seq).pc else t.pc

/-- The trap registers take a trap, and the sequencer's PC register its TRAPPC (R65, R72). -/
def Core.takeRegs (c : Core) (u : Trap) (others : List Trap) : Core :=
  let t := { u with pc := c.trapPcOf u }
  let c := { c with trapCause := BitVec.ofNat 8 t.cause.code, trapPc := t.pc, trapEng := BitVec.ofNat 2 t.seq.idx.val
                    trapInfo := t.info, raised := [], pending := others }
  if c.inHandler then c else c.setSeq t.seq { c.seq t.seq with pc := t.pc }

/-- Every tag of the core is free (R56). -/
def Core.freeTags (c : Core) : Core :=
  { c with seqs := c.seqs.map (fun r => { r with tags := Vector.replicate 8 false })
           handlerTags := Vector.replicate 8 false }

/-- X enters the handler: bank cleared, tags free, fetching at TRAPVEC (R70). -/
def Core.enterHandler (c : Core) (now : Nat) : Core :=
  let c := c.freeTags
  let x := c.seq .x
  { c with inHandler := true, stop := none, handlerBank := Vector.replicate 32 0, handlerPc := c.trapVec
           seqs := c.seqs.set Seq.x.idx { x with status := .handler, why := .none, earliest := max x.earliest (now + 1) } }

/-- The time of a task's watchdog has run out (R337). -/
def Task.expired (t : Task) (pulse : Nat) : Bool := !t.fired && decide (t.limitUs * pulsesPerUs ≤ t.elapsed pulse)

/-- The core's watchdog fires in this cycle: a trap taken in the same cycle does not enter the handler (R337). -/
def State.watchdogDue (s : State) (c : Core) : Bool := match c.task with | some t => t.expired s.pulse | none => false

/-- Taking a trap, once the core has stopped for it: the trap registers are written, the KIND 1 record is posted, and X enters
the handler or the context faults (R65, R70, R333). -/
def State.takeTrap (s : State) (id : Nat) : State :=
  let c := s.core id
  match firstTrap c.raised with
  | none => s
  | some (t, others) =>
    let ok := c.handlerReady && !s.watchdogDue c
    let c := c.takeRegs t others
    let s := (s.setCore c).postRec (c.record 1 t.cause.code t.seq.idx.val ok t.info c.trapPc [])
    let c := s.core id
    if ok then s.setCore (c.enterHandler (s.cycle c))
    else (s.setCore { c.stopQueues with stop := some .dead, inHandler := false }).faultCtx c.ctxId

/-- A sequencer that was stopped runs on from its PC register in the next cycle, under R46 (R92); one that had ended is ENDED again. -/
def Seqr.go (now : Nat) (r : Seqr) : Seqr :=
  match r.status with
  | .stopped | .handler => { r with status := if r.ended then .ended else .running, why := .none, ended := false
                                    earliest := max r.earliest (now + 1) }
  | _ => r

/-- The return from a trap: X back to its normal bank, every stopped sequencer at its PC register, tags free. A trap held
pending is taken, or a waiting pre-emption served, before any sequencer issues (R92, R333); a task whose kernel was aborted stops
(R310). -/
def Core.leaveHandler (c : Core) (now : Nat) : Core :=
  let c := { c.freeTags with inHandler := false, stop := none, handlerBank := Vector.replicate 32 0 }
  let c := { c with seqs := c.seqs.map (Seqr.go now) }
  if c.waitingStop == some .killed then { c with waitingStop := none, pending := [] }.halt now .killed
  else if !c.pending.isEmpty then
    { c with raised := c.pending, pending := [] }.halt now .trap
  else match c.waitingStop with
    | some k => { c with waitingStop := none }.halt now k
    | none => c

/-! ### Landing and completion (R48 to R54) -/

/-- The message is for ring register `r` of core `id`. -/
def RingMsg.isFor (m : RingMsg) (id : Nat) (r : Ring) : Bool :=
  match m with
  | .ask k q => k == id && q == r
  | .credit k q _ => k == id && q == r

/-- Ring `r` of core `id` is defined anew: a word that has issued and not acted on it yet acts on the old ring, which is gone, so the
new counters stay 0 (R155). `own` says that the word is core `id`'s. An append to it brings nothing (log 33). -/
def Act.forgetRing (own : Bool) (id : Nat) (r : Ring) (a : Act) : Act :=
  match a.body with
  | .rcommit r' n => if own && r' == r then { a with body := .rcommit r' 0 } else { a with body := .rcommit r' n }
  | .rrel r' n => if own && r' == r then { a with body := .rrel r' 0 } else { a with body := .rrel r' n }
  | .rapp p dst k addr len data =>
    if dst == id && k == r then { a with body := .rapp p dst k addr 0 (some []) } else { a with body := .rapp p dst k addr len data }
  | _ => a

/-- One register write at a landing. DESIGN CHOICE (log 68): where landings of two sequencers on a tile meet in one cycle, an element that
the higher one does not write keeps what the lower one has written, though R50 settles such landings by beats; and of a mask, bits that
a compare with Z = 0 keeps take what the lower one has written (R107). -/
def State.applyWrite (s : State) (id : Nat) (q : Seq) (w : Write) : State :=
  let c := s.core id
  match w with
  | .g hb r v => s.setCore (c.wr q hb r v)
  | .tile t hb vals =>
    let n := (vals.length * hb + 1) / 2
    s.setCore (c.setTile t (mergeElems hb (c.tileBytes t n) vals))
  | .mask k en v => s.setCore { c with masks := c.masks.set k ((c.masks[k] &&& ~~~en) ||| (v &&& en)) }
  | .pred p v => s.setCore { c with preds := c.preds.set p v }
  | .handle h v => s.setCore { c with handles := c.handles.set h v }
  | .amax m mag n i => s.setCore { c with amax := c.amax.set m (amaxMerge c.amax[m] mag n i) }
  | .amclr m => s.setCore { c with amax := c.amax.set m 0 }
  | .sysreg i v => s.sysWrite id q i v
  | .leave => s.setCore (c.leaveHandler (s.cycle c))
  | .ring r v =>
    let s := s.setCore { c with rings := c.rings.set r v }
    -- what the register stood for before is forgotten; a proxy asks the ring it stands for (R160)
    { s with ringMsgs := s.ringMsgs.filter (fun m => !m.isFor id r) ++ if v.remote then [.ask id r] else []
             cores := s.cores.map (fun d => { d with acts := d.acts.map (Act.forgetRing (d.id == id) id r) }) }

/-- A word's results land and it completes. -/
def State.land (s : State) (id : Nat) (a : Act) : State :=
  let s := a.writes.foldl (fun s w => s.applyWrite id a.seq w) s
  s.setCore ((s.core id).complete a)

/-- Replaces an issued word's record. -/
def Core.setAct (c : Core) (a : Act) : Core := { c with acts := c.acts.map (fun b => if b.id == a.id then a else b) }

def Core.act? (c : Core) (n : Nat) : Option Act := c.acts.find? (·.id == n)

/-- A word that has issued traps precisely: the sequencer has issued nothing after it, its PC stays at the word, RESTART
records its POP (R393). -/
def Core.trapAct (c : Core) (a : Act) (cause : Cause) (info : W64) (prog : Option Nat) : Core :=
  let c := { c with acts := c.acts.filter (·.id != a.id) }
  let c := if a.handler then { c with handlerPc := a.pc } else c.giveBack a prog
  c.raise a.seq cause a.pc info

/-! ### What happens at the end of a cycle -/

/-- A context in this state is bound to its partition. -/
def CState.isBound : CState → Bool
  | .bound | .running | .suspended | .faulted | .draining => true
  | _ => false

/-- The partition settings that hold a half-die: those of the context bound to it, else its own (R382). -/
def State.partOf (s : State) (hd : Fin 8) : Fin 8 :=
  match s.ctxs.toList.find? (fun c => c.partMask.getLsbD hd.val && c.state.isBound) with
  | some c => partNo c.partMask
  | none => hd

/-- This pulse is swallowed on half-die `hd` (R383). -/
def State.swallowed? (s : State) (hd : Fin 8) : Bool := s.gated[hd]

/-- The core's cycle runs in this pulse. -/
def State.counts (s : State) (c : Core) : Bool := !s.swallowed? (halfDie c.id)

def allSeqs : List Seq := [.x, .l, .c, .s]

/-- The issued words of a core, X's first, each sequencer's in issue order. -/
def Core.ordered (c : Core) : List Act := allSeqs.flatMap (fun q => c.acts.filter (·.seq == q))

/-- `f` for every core whose cycle runs, in ascending id. -/
def State.eachCore (s : State) (f : State → Nat → State) : State :=
  (s.cores.map (·.id)).foldl (fun s id => if s.counts (s.core id) then f s id else s) s

/-- `f` for every issued word of every core whose cycle runs. -/
def State.eachAct (s : State) (f : State → Nat → Act → State) : State :=
  s.eachCore (fun s id => (s.core id).ordered.foldl (fun s a => match (s.core id).act? a.id with
    | some a => f s id a
    | none => s) s)

/-! ### Issue (R46) -/

/-- RESTART is about the next word: it says something, and no word issued since is the one it is about (R73). -/
def Core.takesRestart (c : Core) (q : Seq) : Bool :=
  let r := (c.seq q).restart
  !c.usesHandler q && (r.valid || r.popped) && !c.acts.any (fun a => a.seq == q && a.resumed)

/-- The word at the PC takes up RESTART: its OPC matches (R73). -/
def Core.resumes (c : Core) (q : Seq) (opc : Nat) : Bool := c.takesRestart q && (c.seq q).restart.opc.toNat == opc

/-- RESTART says that the word's POP is already taken (R393). -/
def Core.hasPopped (c : Core) (q : Seq) (opc : Nat) : Bool := c.resumes q opc && (c.seq q).restart.popped

/-- PROGRESS of a word that resumes, else 0 (R73). -/
def Core.progress (c : Core) (q : Seq) (opc : Nat) : Nat :=
  if c.resumes q opc && (c.seq q).restart.valid then (c.seq q).restart.progress.toNat else 0

/-- The sequencer fetches and issues: it runs a task, the core is not stopping, and it has not ended. -/
def Core.issuing (c : Core) (q : Seq) : Bool :=
  c.task.isSome && c.stop.isNone && (match (c.seq q).status with
    | .running | .waiting | .paused => !c.inHandler
    | .handler => q == .x
    | _ => false)

/-- The wait reason of an earlier word that holds the sequencer. -/
def Core.heldBy (c : Core) (q : Seq) : Option Why := (c.acts.find? (fun a => a.seq == q && a.holds.isSome)).bind (·.holds)

/-- The structure among Ports that a word uses (R46; log 16): the tile unit for C's tile words, a memory request port for X's, L's and
S's words through handles, the ring port for ring words. -/
def portOf (q : Seq) (opc : Nat) : Option SharedPort :=
  if 0x44 ≤ opc ∧ opc ≤ 0x4A then some .ring
  else match q with
    | .c => if 0x60 ≤ opc ∧ opc ≤ 0x9C then some .tile else none
    | .x => if 0x61 ≤ opc ∧ opc ≤ 0x64 then some .mem else none
    | .l => if (0x60 ≤ opc ∧ opc ≤ 0x63) ∨ opc = 0x67 then some .mem else none
    | .s => if 0x60 ≤ opc ∧ opc ≤ 0x64 then some .mem else none

/-- The first cycle in which the structure a word uses is free, as it stood at the start of cycle `now`: ring words of several
sequencers may take the ring port in one cycle (R46, R159). -/
def Core.portFree (c : Core) (now : Nat) (q : Seq) (opc : Nat) : Nat :=
  match portOf q opc with
  | none => 0
  | some .tile => c.ports.tile
  | some .mem => c.ports.mem[q.idx]
  | some .ring => if c.ports.ringAt = now then 0 else c.ports.ring

/-- A word that issues in cycle `now` holds its structure until cycle `t`. -/
def Core.holdPort (c : Core) (now : Nat) (q : Seq) (opc t : Nat) : Core :=
  match portOf q opc with
  | none => c
  | some .tile => { c with ports := { c.ports with tile := t } }
  | some .mem => { c with ports := { c.ports with mem := c.ports.mem.set q.idx t } }
  | some .ring => { c with ports := { c.ports with ring := max c.ports.ring t, ringAt := now } }

/-- Why the next word, with header `h` and opcode `opc`, does not issue in cycle `now` (conditions 1 to 4 of R46, and a structure
of Ports in use), or none. -/
def Core.blocked (c : Core) (now : Nat) (h : Hdr) (opc : Nat) : Option Why :=
  let q := h.eng
  if now < (c.seq q).earliest then some .gap
  else match c.heldBy q with
    | some w => some w
    | none =>
      if c.sbwBusy q h.sbw then some .tag
      else if (match h.sba with | some t => c.tagBusy q t | none => false) then some .tag
      else if now < c.portFree now q opc then some .structural
      else if (match h.pop with
          | some a => !c.hasPopped q opc && c.tokens a q == 0
          | none => false) then some .token
      else none

/-- The sequencer's next word did not issue this cycle (R64). A paused one stays PAUSED. -/
def Core.waitFor (c : Core) (q : Seq) (w : Why) : Core :=
  let r := c.seq q
  c.setSeq q { r with status := match r.status with | .running | .waiting => .waiting | st => st
                      why := if r.status = .paused then .none else w }

/-- What a word does when it issues, beyond its header. -/
structure Eff where
  /-- Its results land and it completes at the end of cycle p + lat − 1; none: its own progress decides. -/
  lat    : Option Nat := some 1
  fixed  : Bool := true
  writes : List Write := []
  body   : ActBody := .plain
  holds  : Option Why := none
  /-- The target of a taken branch. -/
  next   : Option W32 := none
  /-- What else changes in its core once it has issued. -/
  after  : Core → Core := id

/-- What judging a word at issue gives, once conditions 1 to 4 of R46 hold. -/
inductive Judged where
  /-- It does not issue this cycle. -/
  | wait (w : Why)
  /-- It traps precisely, with no effect. -/
  | trap (cause : Cause) (info : W64)
  /-- It traps precisely, after an effect that its chapter gives the trap (R273). -/
  | trapIn (s : State) (cause : Cause) (info : W64)
  /-- It issues: the state with its issue-cycle effects, and the rest. -/
  | go (s : State) (e : Eff)

/-- ILLEGAL with a reason of R57. -/
def Judged.illegal (reason : Nat) : Judged := .trap .illegal (BitVec.ofNat 64 reason)

/-- A word issues: its POP, its tag, the PC, condition 1 for the next word, its record (R46, R79), and its hold on a structure of
Ports, for a free number of cycles (log 16). -/
def State.commit (s : State) (id : Nat) (h : Hdr) (opc : Nat) (e : Eff) : State :=
  let (n, s) := s.draw
  let c := s.core id
  let q := h.eng
  let now := s.cycle c
  let hm := c.usesHandler q
  let pc := c.nextPc q
  let pops := h.pop.isSome && !c.hasPopped q opc
  let act : Act :=
    { id := c.nextAct, seq := q, pc := pc, opc := BitVec.ofNat 8 opc, handler := hm, tag := h.sba, push := h.push
      popped := h.pop.isSome, resumed := c.takesRestart q, holds := e.holds, issued := now
      due := e.lat.map (fun l => now + l - 1), fixed := e.fixed, writes := e.writes, body := e.body }
  let c := if pops then (match h.pop with
      | some a => c.setTokens a q (c.tokens a q - 1)
      | none => c) else c
  let c := match h.sba with
    | some t => c.setTag q hm t true
    | none => c
  let npc := e.next.getD (pc + 1)
  let r := c.seq q
  let st := match e.body with
    | .pause _ _ => if hm then .handler else .paused
    | _ => if hm then .handler else .running
  let r := { r with status := st, why := .none, earliest := now + 1 + h.pd.val + if e.next.isSome then 2 else 0
                    pc := if hm then r.pc else npc }
  let acts := c.acts.map (fun b => if b.seq = q then { b with passed := true } else b)
  let c := { c.setSeq q r with acts := acts ++ [act], nextAct := c.nextAct + 1
                               handlerPc := if hm then npc else c.handlerPc }
  s.setCore (e.after (c.holdPort now q opc (now + 1 + Config.delay n)))

/-- The core whose slot it is. -/
def State.issuer (s : State) : Nat := match s.turn with | .issue c _ => c | .settle _ => 0

/-- What a word that names a POP or a PUSH does in handler mode, once nothing else holds it: it is illegal (R70), with the lower code
0x0C where its shape is too large besides (R57). -/
def Judged.inHandler : Judged → Judged
  | .wait w => .wait w
  | .trap .illegal 0x0C => .illegal 0x0C
  | _ => .illegal 0x0D

/-- A word reaches its issue slot: it waits, traps, or issues as `k` judges (R46, R57). A word that names a POP or a PUSH in
handler mode is illegal (R70). A word that a counter holds shows reason 3 only where nothing else holds it (R69). -/
def State.issue (s : State) (h : Hdr) (opc : Nat) (k : Core → Judged) : Host.Outcome State Fault Refusal :=
  let id := s.issuer
  let c := s.core id
  let q := h.eng
  if !c.issuing q then .next s
  else match c.blocked (s.cycle c) h opc with
    | some .token => .next (s.setCore (c.waitFor q (match k c with | .wait w => w | _ => .token)))
    | some w => .next (s.setCore (c.waitFor q w))
    | none =>
      match (if c.usesHandler q && (h.pop.isSome || h.push.isSome) then (k c).inHandler else k c) with
      | .wait w => .next (s.setCore (c.waitFor q w))
      | .trap cause info => .next (s.setCore (c.raise q cause (c.nextPc q) info))
      | .trapIn s' cause info => .next (s'.setCore ((s'.core id).raise q cause (c.nextPc q) info))
      | .go s' e => .next (s'.commit id h opc e)

/-- A fixed-latency word with one scalar result. -/
def Eff.scalar (c : Core) (q : Seq) (lat : Nat) (d : GReg) (v : W64) : Eff :=
  { lat := some lat, writes := [.g (c.usesHandler q) d v] }

end Sys2Proof.Machine
end

