-- ==== Sys2Proof/Machine/Fetch.lean ====
section
/-! DEFINITION. Fetching a word (R39, R62, R81). -/
namespace Sys2Proof.Machine

/-- The virtual address of word `pc` of a sequencer's stream (R39, R42). -/
def Core.wordVA (c : Core) (q : Seq) (pc : W32) : W64 := (c.seq q).streamVA + BitVec.ofNat 64 (10 * pc.toNat)

/-- The keys of a word's bytes: pages valid and resident. -/
def State.wordKeys (s : State) (c : Core) (q : Seq) : Option (List (Nat × Nat)) :=
  s.vaKeys c.ctxId (fun l => l.res) 3 (c.wordVA q (c.nextPc q)) 10

/-- Bytes read at their homes, piece by piece. -/
def State.readPieces (s : State) : List (Nat × Nat) → List Byte × State
  | [] => ([], s)
  | (k, n) :: t =>
    let (bs, s) := s.homeRead k n
    let (cs, s) := s.readPieces t
    (bs ++ cs, s)

/-- What the issue slot of a sequencer finds. -/
inductive Fetched where
  /-- Nothing to issue: no task, stopped, ended, or the gap after the last word. -/
  | idle
  /-- The word's page is not there: the sequencer waits (log 31). -/
  | away
  /-- The word at the PC is no instruction, or lies past the stream's end. -/
  | illegal (reason : Nat)
  | word (i : Instr)
  deriving DecidableEq, Repr

/-- Fetches for sequencer `q` of core `id`. The state is the one after the lines of the word and of its page-table entries
have had their bins applied (R208). -/
def State.fetch (s : State) (id : Nat) (q : Seq) : Fetched × State :=
  let c := s.core id
  if !c.issuing q then (.idle, s)
  else if s.cycle c < (c.seq q).earliest then (.idle, s.setCore (c.waitFor q .gap))
  else if (c.heldBy q).isSome then (.idle, s.setCore (c.waitFor q ((c.heldBy q).getD .none)))
  else if (c.seq q).streamLen ≤ c.nextPc q then (.illegal 0x0D, s)
  else
    let va := c.wordVA q (c.nextPc q)
    let s := s.readTables c.ctxId [va, va + 9]
    match s.wordKeys c q with
    | none => (.away, s)
    | some ks =>
      let (bs, s) := s.readPieces ks
      match decodeBytes q bs with
      | .ok i => (.word i, s)
      | .error r => (.illegal r.code, s)

end Sys2Proof.Machine
end

