-- ==== Sys2Proof/Machine/Operands.lean ====
section
/-! DEFINITION. The operand forms: shapes, register groups, broadcast operands, predication (R43, R49, R93 to R100), and the
issue of a tile word. -/
namespace Sys2Proof.Machine

/-! ### Shapes (R94, R127) -/

structure Shape where
  rows : Nat
  cols : Nat
  deriving DecidableEq, Repr

def shapeOf (shp : W64) : Shape := ⟨bits shp 0 6 + 1, bits shp 8 8 + 1⟩

def Core.shape (c : Core) (q : Seq) : Shape := shapeOf (c.seq q).shp

/-- The elements of one register. -/
def Shape.elems (p : Shape) : Nat := p.rows * p.cols

/-- A register of elements of `hb` half-bytes fits in 4096 bytes (R94). -/
def Shape.fits (p : Shape) (hb : Nat) : Bool := decide (p.elems * hb ≤ 8192)

/-- Beats of a group of `gl` registers (R49): 1 KiB each, counted per register. -/
def beats (gl : Nat) (p : Shape) (hb : Nat) : Nat := gl * ((p.elems * hb + 2047) / 2048)

/-! ### Groups (R93, R95) -/

/-- The elements of register `k` of the group at `t`. -/
def Core.tileElems (c : Core) (t : TReg) (k n hb : Nat) : List Nat :=
  bytesToElems hb n (c.tileBytes (Fin.ofNat 16 (t.val + k)) ((n * hb + 1) / 2))

/-- The elements of a group of `gl` registers of `n` elements each, in group order. -/
def Core.group (c : Core) (t : TReg) (gl n hb : Nat) : List Nat :=
  (List.range gl).flatMap (fun k => c.tileElems t k n hb)

/-- The writes of a group's elements, register by register; none keeps an element. -/
def tileWrites (t : TReg) (gl n hb : Nat) (vals : List (Option Nat)) : List Write :=
  (List.range gl).map (fun k => .tile (Fin.ofNat 16 (t.val + k)) hb ((vals.drop (k * n)).take n))

/-- Operand B: a group, or the low bits of a scalar register for every element (R99). -/
def Core.bElems (c : Core) (q : Seq) (b : TB) (gl n hb : Nat) : List Nat :=
  match b with
  | .tile t => c.group t gl n hb
  | .g r => List.replicate (gl * n) ((c.rd q r).toNat % 2 ^ (4 * hb))

/-! ### Predication (R96 to R98) -/

/-- Element `i` of any register, of group index `j`, is active. `hb` is the size of the instruction's TY. -/
def Core.isActive (c : Core) (pm : Pm) (hb i j : Nat) : Bool :=
  match pm with
  | .none => true
  | .mask k => c.masks[k].getLsbD (i % 4096)
  | .pred p => decide (j * hb < c.preds[p].n.toNat * 2 ^ (c.preds[p].wc.toNat + 1))

/-- Which elements of a group of `gl` registers of `n` elements are active, in group order. -/
def Core.actives (c : Core) (pm : Pm) (hb gl n : Nat) : List Bool :=
  (List.range (gl * n)).map (fun j => c.isActive pm hb (j % n) j)

/-- The element an active result, an inactive element under Z, or one that keeps its contents gives (R98). -/
def pmPick (z act : Bool) (v : Nat) : Option Nat := if act then some v else if z then some 0 else none

def pmMerge (z : Bool) (acts : List Bool) (vals : List Nat) : List (Option Nat) :=
  (acts.zip vals).map (fun p => pmPick z p.1 p.2)

/-- The values of the active elements. -/
def pmActive {α : Type} (acts : List Bool) (vals : List α) : List α :=
  ((acts.zip vals).filter (·.1)).map (·.2)

/-! ### The issue of a tile word (R48, R49, R94, R102) -/

/-- A fixed-latency tile word: TY, the largest of its operand sizes is `hb`, `base` + beats its latency; `lim` is its own
operand limit (reason 0x0D) and `out` its results. -/
def State.tileWord (s : State) (h : Hdr) (opc base gl hb : Nat) (lim : Core → Shape → Bool)
    (out : Core → Shape → List Write) : Host.Outcome State Fault Refusal :=
  s.issue h opc (fun c =>
    let p := c.shape h.eng
    if !p.fits hb then .illegal 0x0C
    else if lim c p then .illegal 0x0D
    else .go s { lat := some (base + beats gl p hb), writes := out c p })

def noLim (_ : Core) (_ : Shape) : Bool := false

/-- A tile word whose active elements are `f` of its operands' elements, all of TY (R98). -/
def State.tileMap (s : State) (h : Hdr) (opc base : Nat) (m : TMod) (d : TReg)
    (f : Core → Nat → List Nat) : Host.Outcome State Fault Refusal :=
  let hb := m.ty.halfBytes
  let gl := m.gl.val + 1
  s.tileWord h opc base gl hb noLim (fun c p =>
    let n := p.elems
    tileWrites d gl n hb (pmMerge m.z (c.actives m.pm hb gl n) (f c n)))

/-- Elementwise with one, two and three operands. -/
def State.tileUn (s : State) (h : Hdr) (opc base : Nat) (m : TMod) (d a : TReg) (f : Nat → Nat) :
    Host.Outcome State Fault Refusal :=
  s.tileMap h opc base m d (fun c n => (c.group a (m.gl.val + 1) n m.ty.halfBytes).map f)

def State.tileBin (s : State) (h : Hdr) (opc base : Nat) (m : TMod) (d a : TReg) (b : TB) (f : Nat → Nat → Nat) :
    Host.Outcome State Fault Refusal :=
  s.tileMap h opc base m d (fun c n =>
    let hb := m.ty.halfBytes
    let gl := m.gl.val + 1
    List.zipWith f (c.group a gl n hb) (c.bElems h.eng b gl n hb))

def State.tileTer (s : State) (h : Hdr) (opc base : Nat) (m : TMod) (d a : TReg) (b : TB) (e : TReg)
    (f : Nat → Nat → Nat → Nat) : Host.Outcome State Fault Refusal :=
  s.tileMap h opc base m d (fun c n =>
    let hb := m.ty.halfBytes
    let gl := m.gl.val + 1
    List.zipWith (fun g z => g z) (List.zipWith f (c.group a gl n hb) (c.bElems h.eng b gl n hb)) (c.group e gl n hb))

/-! ### Reduction trees (R33) -/

/-- One level of the tree over values that may be absent. -/
def treeLevel {α : Type} (f : α → α → α) : List (Option α) → List (Option α)
  | [] => []
  | [x] => [x]
  | x :: y :: t =>
    (match x, y with
      | some a, some b => some (f a b)
      | some a, none => some a
      | none, b => b) :: treeLevel f t

/-- The tree's root; the fuel is at least the number of levels. -/
def tree {α : Type} (f : α → α → α) : Nat → List (Option α) → Option α
  | 0, xs => (xs.head?).join
  | _ + 1, [] => none
  | _ + 1, [x] => x
  | k + 1, xs => tree f k (treeLevel f xs)

/-- Rows first, each alone, then the row results in order. -/
def treeRows {α : Type} (f : α → α → α) (rows : List (List (Option α))) : Option α :=
  tree f rows.length (rows.map (fun r => tree f r.length r))

end Sys2Proof.Machine
end

