-- ==== Sys2Proof/Machine/Order.lean ====
section
/-! DEFINITION. Ordering (spec 07): which accesses of a sequencer are still to be performed, which of them a later access, a
fence or a token operation waits for. -/
namespace Sys2Proof.Machine

/-! ### Accesses not yet performed -/

/-- The least REACH that takes in the home of a device key (R184). -/
def reachOfKey (key : Nat) : Nat := if key < 2 ^ 52 then 0 else if key < 65 * 2 ^ 52 then 4 else 5

def MemKind.acc : MemKind → AccKind
  | .load => .load
  | .store => .store
  | .amo _ | .cas _ => .atomic

/-- The half-bytes an element takes on its page; `ty` where the page is RAW. -/
def Elem.half (e : Elem) (ty : Ty) : Nat := ((e.leaf.elemTy).getD ty).halfBytes

def Elem.access (e : Elem) (k : AccKind) (ty : Ty) : Access :=
  ⟨k, false, e.pa2, e.pa2 + e.half ty, reachOfKey (e.pa2 / 2)⟩

/-- A comb or accumulator access whose bytes are not told apart. -/
def wholeComb (k : AccKind) : Access := ⟨k, true, 0, 2 * combEnd, 0⟩

/-- Class 0 and no SEM: the order of an access whose word names none (R183). -/
def zeroReach : Order := ⟨0, .plain, 0, 0, 0, 0⟩

/-- The class and order of a word's accesses; class 0 and plain where its MOD gives none (R183). -/
def Act.order (a : Act) : Order :=
  match a.body with
  | .mem _ o _ _ _ _ _ _ _ | .held _ _ _ (.mem _ o _ _ _ _ _ _ _) => o
  | .combLoad _ _ o _ _ _ | .combStore _ o _ _ => o
  | .upd cls _ _ _ | .held _ _ _ (.upd cls _ _ _) => { zeroReach with cls := cls }
  | _ => zeroReach

/-- An access that no comb or accumulator byte is told apart by: it is ordered by its class alone. -/
def someComb (k : AccKind) : Access := ⟨k, true, 0, 0, 0⟩

/-- The comb and accumulator accesses of a word that its record does not list one by one. -/
def wordAccesses : Instr → List Access
  | .stload _ _ _ _ | .grpld _ _ _ => [wholeComb .load]
  | .mma _ _ _ _ _ | .mmas _ _ _ _ _ _ => [wholeComb .load, wholeComb .store]
  | .accinit _ _ _ | .accnorm _ _ | .accwr _ _ _ _ => [wholeComb .store]
  | .accrd _ _ _ _ | .accstat _ _ _ _ => [wholeComb .load]
  | .drain _ _ _ _ _ _ _ _ _ _ => [wholeComb .load, wholeComb .store]
  | .dispclr _ _ _ true => [wholeComb .store]
  | _ => []

/-- The accesses of an issued word that are not yet performed (R181). -/
def Act.accesses (a : Act) : List Access :=
  match a.body with
  | .mem k _ ty todo _ _ _ _ _ | .held _ _ _ (.mem k _ ty todo _ _ _ _ _) => todo.map (fun e => e.access k.acc ty)
  | .combLoad _ _ _ ty addrs _ => addrs.map (fun x => ⟨.load, true, x, x + ty.halfBytes, 0⟩)
  | .combStore _ _ ty items => items.map (fun x => ⟨.store, true, x.1, x.1 + ty.halfBytes, 0⟩)
  | .rcommit _ _ | .rrel _ _ => []
  | .rapp _ _ _ addr len none => [⟨.load, true, 2 * addr, 2 * (addr + len), 0⟩, someComb .store]
  | .rapp _ _ _ _ _ (some _) => [someComb .store]
  | .syncset addr _ _ => [⟨.store, true, 2 * addr, 2 * addr + 32, 0⟩]
  | .upd _ _ todo _ | .held _ _ _ (.upd _ _ todo _) => todo.map (fun e => e.access .update .f32)
  -- a `stload` that has read its whole image has no access left
  | .word (.stload _ _ _ _) [_, _, size] _ _ 1 prog => if size.toNat ≤ prog then [] else [wholeComb .load]
  -- the payload of a record, an item or a launch entry, until it has been read
  | .word (.evpost _ _ _) _ [] _ _ _ | .word (.qput _ _ _) _ [] _ _ _ | .word (.kspawn _ _ _) _ [] _ _ _ => [wholeComb .load]
  | .word i _ _ _ _ _ => wordAccesses i
  | _ => []

/-! ### When an access may be performed (R182, R183, R187) -/

def Order.acquires (o : Order) : Bool := o.sem == .acq || o.sem == .ar
def Order.releases (o : Order) : Bool := o.sem == .rel || o.sem == .ar

def Access.overlaps (x y : Access) : Bool := x.comb == y.comb && decide (x.lo < y.hi) && decide (y.lo < x.hi)

/-- The earlier access `y`, ordered as `oy`, is performed before the later one `x`, ordered as `ox`, whoever looks: bytes that
overlap, one class, or a release before an acquire or a release. -/
def mustPrecede (oy : Order) (y : Access) (ox : Order) (x : Access) : Bool :=
  y.overlaps x || oy.cls == ox.cls || (oy.releases && (ox.acquires || ox.releases))

/-- The same for agents in the SET of the acquire or release that orders them (R186, R187): the entry and its hives. -/
def scopedBy (oy : Order) (y : Access) (ox : Order) : Option (Fin 32 × BitVec 144) :=
  if oy.acquires && oy.cmask.getLsbD ox.cls.val then some (oy.scope, oy.hives)
  else if ox.releases && ox.cmask.getLsbD oy.cls.val && decide (y.need ≤ ox.reach.toNat) then some (ox.scope, ox.hives)
  else none

/-- The access waits for the earlier one. -/
def waitsFor (oy : Order) (y : Access) (ox : Order) (x : Access) : Bool := mustPrecede oy y ox x || (scopedBy oy y ox).isSome

/-- The access of a pair that has left its core: S's, performed when a window has taken it (R181, R207). -/
def Flight.access (f : Flight) : Order × Access :=
  ({ zeroReach with cls := f.cls }, ⟨.update, false, 2 * f.pair.key, 2 * f.pair.key + 16, reachOfKey f.pair.key⟩)

/-- The accesses of words of sequencer `q` numbered below `n` that are not yet performed, with their order. -/
def State.earlier (s : State) (c : Core) (q : Seq) (n : Nat) : List (Order × Access) :=
  ((c.acts.filter (fun b => b.seq == q && b.id < n)).flatMap (fun b => b.accesses.map (fun y => (b.order, y))))
    ++ (if q = .s then (s.flight.filter (fun f => f.core == c.id && f.act < n)).map Flight.access else [])

/-- The acquire or release of a word that makes no access of its own, while it is still to be made: a `bararr` whose arrival is
not asserted (R286), an `evpost` whose record is not posted (R344), a `wlpop` or `wlsteal` the router has not applied, with entry
2's CMASK as captured (R300). -/
def Act.gate (a : Act) : Option Order :=
  match a.body with
  | .word (.bararr _ _) _ _ _ 0 _ | .word (.evpost _ _ _) _ _ _ 0 _ => some { zeroReach with sem := .rel }
  | .word (.wlpop _ _ _ _ _ _) (m :: _) _ _ 0 _ | .word (.wlsteal _ _ _ _ _ _) (m :: _) _ _ 0 _ =>
    some { zeroReach with sem := .acq, cmask := BitVec.ofNat 16 m.toNat }
  | _ => none

/-- An access ordered as `o` of a word numbered `n` waits for no such word before it. -/
def Core.gatesOpen (c : Core) (q : Seq) (n : Nat) (o : Order) : Bool :=
  c.acts.all (fun b => b.seq != q || n ≤ b.id || match b.gate with
    | some g => !((g.acquires && g.cmask.getLsbD o.cls.val) || (g.releases && (o.acquires || o.releases)))
    | none => true)

/-- No earlier access of the sequencer keeps access `x` of a word numbered `n` waiting. -/
def State.mayPerform (s : State) (c : Core) (q : Seq) (n : Nat) (o : Order) (x : Access) : Bool :=
  (s.earlier c q n).all (fun y => !waitsFor y.1 y.2 o x) && c.gatesOpen q n o

/-- No earlier release of the sequencer is still to be made (R187). -/
def State.releasesDone (s : State) (c : Core) (q : Seq) (n : Nat) : Bool :=
  (s.earlier c q n).all (fun y => !y.1.releases)
    && c.acts.all (fun b => b.seq != q || n ≤ b.id || match b.gate with | some g => !g.releases | none => true)

/-- The cycle in which an issued comb load or store does its access. -/
def Act.combAt (a : Act) : Option Nat :=
  match a.body with
  | .combLoad t _ _ _ _ _ | .combStore t _ _ _ => some t
  | _ => none

/-- The earlier comb access `y` of word `b` is performed in time for access `x` of cycle `t`: within a cycle stores come before
loads. A load also follows an earlier store that overlaps it, however late that writes (R142). -/
def Act.inTime (b : Act) (y x : Access) (t : Nat) : Bool :=
  match b.combAt with
  | some u => if y.kind == .load && x.kind != .load then decide (u < t)
      else decide (u ≤ t) || (y.kind == .store && x.kind == .load && y.overlaps x)
  | none => false

/-- Accesses `xs` of sequencer `q`, made in the comb in cycle `t` by the word that would issue now, have earlier accesses to wait
for: the word's structure is in use (R142, R183, R187; log 9). -/
def State.combBusy (s : State) (c : Core) (q : Seq) (o : Order) (xs : List Access) (t : Nat) : Bool :=
  c.acts.any (fun b => b.seq == q && b.accesses.any (fun y => xs.any (fun x => waitsFor b.order y o x && !b.inTime y x t)))
    || (q == .s && s.flight.any (fun f => f.core == c.id && xs.any (fun x => waitsFor f.access.1 f.access.2 o x)))
    || !c.gatesOpen q c.nextAct o

/-- The last cycle in which an earlier comb store that overlaps one of the loads `xs` writes, or `t` if that is later (R142). -/
def Core.combLoadAt (c : Core) (q : Seq) (xs : List Access) (t : Nat) : Nat :=
  c.acts.foldl (fun t b => match b.combAt with
    | some u => if b.seq == q && t < u && b.accesses.any (fun y => y.kind == .store && xs.any y.overlaps) then u else t
    | none => t) t

/-- A comb access of class 0 that would be made now, by a word that reads or writes the comb as it goes, has to wait (R183). -/
def State.combWaits (s : State) (c : Core) (q : Seq) : Bool :=
  s.combBusy c q zeroReach [someComb .store, someComb .load] (s.cycle c)

/-- The same for a word that reads `n` bytes of the comb at `addr` as it goes: an earlier store to them is performed first. -/
def State.readWaits (s : State) (c : Core) (q : Seq) (addr n : Nat) : Bool :=
  s.combBusy c q zeroReach [someComb .load, ⟨.store, true, 2 * addr, 2 * (addr + n), 0⟩] (s.cycle c)

/-- Every acquire of the sequencer numbered below `n` has been performed (R192, R195). -/
def State.acquiresDone (s : State) (c : Core) (q : Seq) (n : Nat) : Bool :=
  (s.earlier c q n).all (fun y => !y.1.acquires)
    && c.acts.all (fun b => b.seq != q || n ≤ b.id || match b.gate with | some g => !g.acquires | none => true)

/-! ### SETs and early accesses (R184, R186) -/

/-- Core `k` lies in the SET of entry `n`, with hives `hv`, as core `id` of the same context names it. -/
def inSet (n : Fin 32) (hv : BitVec 144) (id k : Nat) : Bool :=
  match n.val with
  | 0 => k == id
  | 1 => k / 4 == id / 4
  | 2 => k / 144 == id / 144
  | 3 | 4 | 5 => true
  | _ => hv.getLsbD (k / 4)

/-- The SET of an access's entry lies on this package: no other package and no host is in it. -/
def Order.setHere (o : Order) : Bool := if o.scope.val ≤ 5 then decide (o.scope.val ≤ 3) else decide (o.reach.toNat ≤ 3)

/-- Access `x` of a word numbered `n` may be performed before earlier accesses that only an acquire or a release orders it after,
because a SET does not take in every agent (R186): then agents of that SET do not touch its bytes until those accesses are
performed. The entry whose SET it is. -/
def State.earlyBy (s : State) (c : Core) (q : Seq) (n : Nat) (o : Order) (x : Access) : Option (Fin 32 × BitVec 144) :=
  let ys := s.earlier c q n
  if ys.any (fun y => mustPrecede y.1 y.2 o x) || !c.gatesOpen q n o || !o.setHere then none
  else match ys.filter (fun y => (scopedBy y.1 y.2 o).isSome) with
    | [] => none
    | y :: rest =>
      if y.1.setHere && rest.all (fun z => z.1.setHere && scopedBy z.1 z.2 o == scopedBy y.1 y.2 o) then scopedBy y.1 y.2 o else none

/-- An early access whose earlier accesses are still to be performed. -/
def State.earlyNow (s : State) : Option Early :=
  match s.early with
  | some e => if s.mayPerform (s.core e.core) e.seq e.act e.ord e.acc then none else some e
  | none => none

/-- An access of sequencer `q` (none: a copy queue, or the router) of core `id` for context `x` to bytes that an early access has
touched waits, where the core is in its SET. -/
def State.earlyMeets (s : State) (x : Fin 64) (id : Nat) (q : Option Seq) (y : Access) : Bool :=
  match s.earlyNow with
  | some e => !(e.core == id && q == some e.seq) && (s.core e.core).ctxId == x && inSet e.scope e.hives e.core id && e.acc.overlaps y
  | none => false

def State.earlyHolds (s : State) (c : Core) (q : Option Seq) (x : Access) : Bool := s.earlyMeets c.ctxId c.id q x

/-- Notes that access `x` has been performed early. -/
def State.noteEarly (s : State) (c : Core) (q : Seq) (n : Nat) (o : Order) (x : Access) : State :=
  match s.earlyBy c q n o x with
  | some (e, hv) => { s with early := some ⟨c.id, q, n, o, x, e, hv⟩ }
  | none => s

/-! ### Fences (R188) -/

def fenceCovers (k : FenceKind) (x : AccKind) : Bool :=
  match k, x with
  | .full, _ => true
  | .acq, .load | .acq, .atomic => true
  | .acq, _ => false
  | .rel, .load => false
  | .rel, _ => true

/-- Every access of the sequencer earlier than word `n` of the kinds, classes and homes named has been performed. -/
def State.coveredDone (s : State) (c : Core) (q : Seq) (n : Nat) (k : FenceKind) (cmask : BitVec 16) (reach : BitVec 3) : Bool :=
  (s.earlier c q n).all (fun y => !(fenceCovers k y.2.kind && cmask.getLsbD y.1.cls.val && decide (y.2.need ≤ reach.toNat)))

/-- A fence numbered `n` completes: what it covers has been performed, and every acquire before it (R188, R195, R196). -/
def State.fenceMet (s : State) (c : Core) (q : Seq) (n : Nat) (k : FenceKind) (cmask : BitVec 16) (reach : BitVec 3) : Bool :=
  s.acquiresDone c q n && s.coveredDone c q n k cmask reach

/-- A release that is no access of its own is made, at an entry with this CMASK and REACH (R187, R195). -/
def State.releaseMet (s : State) (c : Core) (q : Seq) (n : Nat) (cmask : BitVec 16) (reach : BitVec 3) : Bool :=
  s.releasesDone c q n && s.coveredDone c q n .full cmask reach

/-! ### Earlier words that other operations wait for (R82, R158, R161, R162) -/

/-- The word writes the comb, its own core's or with `rapp` another's, and is not complete (R161, R180). -/
def Act.writesComb (a : Act) : Bool :=
  match a.body with
  | .combStore _ _ _ _ | .syncset _ _ _ | .rapp _ _ _ _ _ _ => true
  | .word (.drain _ _ _ _ _ _ _ _ _ _) _ _ _ _ _ => true
  | _ => false

/-- An earlier word of the sequencer still writes the comb: a word that reads it at issue waits. -/
def Core.combWriting (c : Core) (q : Seq) : Bool := c.acts.any (fun b => b.seq == q && b.writesComb)

/-- The word reads or writes the comb and is not complete. -/
def Act.usesComb (a : Act) : Bool :=
  a.writesComb || match a.body with
  | .combLoad _ _ _ _ _ _ | .syncwait _ _ _ _ _ => true
  | .word (.evpost _ _ _) _ [] _ _ _ | .word (.qput _ _ _) _ [] _ _ _ | .word (.kspawn _ _ _) _ [] _ _ _ => true
  | .word (.stload _ _ _ _) _ _ _ _ _ | .word (.grpld _ _ _) _ _ _ _ _ | .word (.mma _ _ _ _ _) _ _ _ _ _
  | .word (.mmas _ _ _ _ _ _) _ _ _ _ _ => true
  | _ => false

def Write.shared : Write → Bool
  | .g _ _ _ => false
  | _ => true

def Dest.shared : Dest → Bool
  | .tile _ _ _ _ => true
  | _ => false

/-- The word writes the comb, the accumulator memory or a shared register (R82). -/
def Act.writesShared (a : Act) : Bool :=
  a.writesComb || a.writes.any Write.shared || match a.body with
  | .mem _ _ _ _ _ _ d _ _ | .held _ _ _ (.mem _ _ _ _ _ _ d _ _) | .combLoad _ _ _ _ _ d => d.shared
  | .trans _ => true
  | .word i _ _ _ _ _ => match i with
    | .mma _ _ _ _ _ | .mmas _ _ _ _ _ _ | .accinit _ _ _ | .accnorm _ _ | .accwr _ _ _ _ | .accrd _ _ _ _
    | .wlpop _ _ _ _ _ _ | .wlsteal _ _ _ _ _ _ | .disp _ _ _ _ _ _ _ _ => true
    | _ => false
  | _ => false

/-- No earlier word of the sequencer satisfies `f`. -/
def Core.noneBefore (c : Core) (a : Act) (f : Act → Bool) : Bool :=
  c.acts.all (fun b => b.seq != a.seq || a.id ≤ b.id || !f b)

/-! ### Comb words (R140, R142, R174 to R178, R394) -/

/-- The runs of a comb form, as byte addresses and lengths in half-bytes: the first that passes the comb's end. -/
def combBad : List (W64 × Nat) → Option W64
  | [] => none
  | (a, n2) :: t => if 2 * combEnd < 2 * a.toNat + n2 then some a else combBad t

/-- The accesses of runs. -/
def combAccesses (k : AccKind) (runs : List (W64 × Nat)) : List Access :=
  runs.map (fun r => ⟨k, true, 2 * r.1.toNat, 2 * r.1.toNat + r.2, 0⟩)

/-- A word that accesses `runs` of the comb `dt` cycles from now issues once no earlier access keeps it waiting; its other checks are
then judged (R57), the runs in order. `eff` is its effect, given the cycle in which it accesses the comb. -/
def State.combWord (s : State) (h : Hdr) (opc : Nat) (k : AccKind) (dt : Nat) (o : Core → Order) (pre : Core → Option Judged)
    (runs : Core → List (W64 × Nat)) (eff : Core → State → Nat → Eff × State) : Host.Outcome State Fault Refusal :=
  s.issue h opc (fun c =>
    let xs := combAccesses k (runs c)
    let t := s.cycle c + dt
    if s.combBusy c h.eng (o c) xs t then .wait .structural
    else match pre c with
    | some j => j
    | none => match combBad (runs c) with
      | some a => .trap .combBounds a
      | none =>
        let (e, s) := eff c s (if k = .load then c.combLoadAt h.eng xs t else t)
        .go s e)

end Sys2Proof.Machine
end

