-- ==== Sys2Proof/Machine/Array.lean ====
section
/-! DEFINITION. The orbit array (R232 to R261, R395) and the symmetry groups (R264 to R276): the stationary stores, the
accumulator, the array words, `stload`, `drain` and `grpld`. -/
namespace Sys2Proof.Machine

/-! ### Stationary stores (R232 to R234) -/

def Store.hb (k : Store) : Nat := k.ty.halfBytes
/-- KS: the stored rows. -/
def Store.ks (k : Store) : Nat := if k.sp then k.kf / 2 else k.kf

/-- The limits of R232 on KF for a format. -/
def kfOk (ty : Ty) (mx sp : Bool) (kf : Nat) : Bool :=
  let ks := if sp then kf / 2 else kf
  let lim := if ty.halfBytes = 4 then 128 else if ty.halfBytes = 1 then 512 else 256
  decide (1 ≤ kf) && decide (ks ≤ lim) && (!sp || kf % 8 == 0) && (!mx || ks % 32 == 0)

/-- The bytes of an image's parts (R233): elements, scales, masks. -/
def imageParts (ty : Ty) (mx sp : Bool) (kf : Nat) : Nat × Nat × Nat :=
  let ks := if sp then kf / 2 else kf
  (ks * 128 * ty.halfBytes / 2, if mx then ks / 32 * 128 else 0, if sp then kf / 8 * 128 else 0)

def imageSize (ty : Ty) (mx sp : Bool) (kf : Nat) : Nat :=
  let (e, c, m) := imageParts ty mx sp kf
  e + c + m

/-- The store that an image's bytes give. -/
def storeOf (ty : Ty) (mx sp : Bool) (kf : Nat) (bs : List Byte) : Store :=
  let (e, c, _) := imageParts ty mx sp kf
  { valid := true, ty := ty, mx := mx, sp := sp, kf := kf, g := 0
    elems := ({} : Memory).writeBytes 0 (bs.take e), scales := ({} : Memory).writeBytes 0 ((bs.drop e).take c)
    masks := ({} : Memory).writeBytes 0 (bs.drop (e + c)) }

/-- The value of stored row `k`, column `n`, with its scale. -/
def Store.stored (s : Store) (k n : Nat) : Num :=
  let code := s.elems.readElem ((k * 128 + n) * s.hb) s.hb
  if s.mx then mxDecode s.ty (s.scales.read (k / 32 * 128 + n)).toNat code else tyDecode s.ty code

/-- The stored row of logical row `k` of column `n`, if it is kept: of a mask, the four lowest bits that are set count. -/
def Store.rowOf (s : Store) (k n : Nat) : Option Nat :=
  if !s.sp then some k
  else
    let m := (s.masks.read (k / 8 * 128 + n)).toNat
    let below := onesIn m (k % 8)
    if bitSet m (k % 8) && below < 4 then some (4 * (k / 8) + below) else none
where
  /-- The one bits among the low `i`. -/
  onesIn (m : Nat) : Nat → Nat
    | 0 => 0
    | i + 1 => onesIn m i + m / 2 ^ i % 2

/-- P[k][n], where it is kept. -/
def Store.at_ (s : Store) (k n : Nat) : Option Num := (s.rowOf k n).map (fun r => s.stored r n)

/-- Some mask byte of a store has more than four bits set. -/
def Store.maskErr (s : Store) : Bool :=
  s.sp && (List.range (s.kf / 8 * 128)).any (fun i => decide (4 < Store.rowOf.onesIn (s.masks.read i).toNat 8))

def Core.setFlag (c : Core) (i : Nat) : Core := { c with arrFlag := c.arrFlag ||| BitVec.ofNat 3 (2 ^ i) }

/-- The filter store takes an image. -/
def Core.loadFilter (c : Core) (k : Store) : Core :=
  let c := { c with filter := k }
  if k.maskErr then c.setFlag 1 else c

/-! ### Groups (R264 to R267) -/

/-- An action entry (R266). -/
structure Action where
  a    : Nat
  sa   : Bool
  b    : Nat
  sb   : Bool
  mode : Nat
  w    : Nat
  deriving DecidableEq, Repr

def actionOf (w : W32) : Action :=
  let v := w.toNat
  ⟨fld v 23 9, bitSet v 22, fld v 13 9, bitSet v 12, fld v 10 2, fld v 0 10⟩

def GSlot.entry (s : GSlot) (g k : Nat) : Action := actionOf (s.action.getD (g * s.kg + k) 0)

/-- The slot bound to the array. -/
def Core.boundSlot (c : Core) : Option GSlot := c.slots.toList.find? (·.state == .bound)

/-- A row factor: ±1, or a weight of 1/1024ths, as an exact value. -/
def signed (neg : Bool) (n d : Nat) : Num := if n = 0 then .zero neg else .val neg n d

/-! ### gbuild (R244) -/

/-- Stored row `k` of column `n` holds a kept row: unused slots are ignored (R234). -/
def Store.slotUsed (s : Store) (k n : Nat) : Bool :=
  !s.sp || decide (k % 4 < Store.rowOf.onesIn (s.masks.read (k / 4 * 128 + n)).toNat 8)

/-- V[k][n] of the build under element `g`; an unused slot holds 0. -/
def buildValue (f : Store) (s : Option GSlot) (g k n : Nat) : Num :=
  if g = 0 then (if f.slotUsed k n then f.stored k n else .zero false)
  else match s with
  | none => f.stored k n
  | some s =>
    let e := s.entry g k
    let src (i : Nat) : Num := if f.kf ≤ i then .zero false else f.stored i n
    match e.mode with
    | 0 => (signed e.sa 1 1).mul (src e.a)
    | 1 => ((signed e.sa e.w 1024).mul (src e.a)).add .rne ((signed e.sb (1024 - e.w) 1024).mul (src e.b))
    | _ => .zero false

/-- A column of values rounded into the store's format: codes and scales. -/
def buildColumn (ty : Ty) (mx : Bool) : Nat → List Num → List Nat × List Nat
  | 0, _ => ([], [])
  | n + 1, xs =>
    if xs.isEmpty then ([], [])
    else if mx then
      let (sc, cs) := mxScale ty (xs.take 32)
      let (c', s') := buildColumn ty mx n (xs.drop 32)
      (cs ++ c', sc :: s')
    else (xs.map (tyEncode ty .rne true), [])

/-- The plane built from the filter store under element `g`. -/
def buildPlane (f : Store) (s : Option GSlot) (g : Fin 16) : Store :=
  let cols := (List.range 128).map (fun n => buildColumn f.ty f.mx (f.ks + 1) ((List.range f.ks).map (fun k => buildValue f s g.val k n)))
  let elems := (cols.zipIdx).foldl (fun m p => (p.1.1.zipIdx).foldl (fun m q => m.writeElem ((q.2 * 128 + p.2) * f.hb) f.hb q.1) m)
    ({} : Memory)
  let scales := (cols.zipIdx).foldl (fun m p => (p.1.2.zipIdx).foldl (fun m q => m.writeNat (q.2 * 128 + p.2) 1 q.1) m) ({} : Memory)
  { f with valid := true, g := g, elems := elems, scales := scales }

/-- What a build needs of its group. -/
def Core.canBuild (c : Core) (g : Nat) : Bool :=
  c.filter.valid && (g = 0 || match c.boundSlot with
    | none => false
    | some s => decide (g < s.m) && s.kg == c.filter.kf && !c.filter.sp)

/-- The effect of `gbuild`. -/
def Core.build (c : Core) (g : Nat) : Core :=
  if c.canBuild g then { c with shadow := buildPlane c.filter c.boundSlot (Fin.ofNat 16 g) }
  else { c with shadow := { c.shadow with valid := false } }.setFlag 2

/-- The effect of `stswap` (R245). -/
def Core.swapPlanes (c : Core) : Core := { c with shadow := c.active, active := c.shadow }

/-! ### The accumulator (R28 to R31, R236) -/

def AccRow.zero : AccRow := ⟨Vector.replicate 128 0, 0, false, false⟩

def Core.dirty (c : Core) (i : Nat) : Bool := c.accDirty.getLsbD (i / 64)

/-- Row `i` as it reads. -/
def Core.accRow (c : Core) (i : Nat) : AccRow :=
  if c.dirty i then (match c.acc.find? (·.1 == i) with | some p => p.2 | none => .zero) else .zero

/-- Row `i` written; the first write to a clean block gives the whole block zeros. -/
def Core.setAcc (c : Core) (i : Nat) (r : AccRow) : Core :=
  let old := if c.dirty i then c.acc.filter (·.1 != i) else c.acc.filter (fun p => p.1 / 64 != i / 64)
  { c with acc := old ++ [(i, r)], accDirty := c.accDirty ||| BitVec.ofNat 16 (2 ^ (i / 64)) }

def AccRow.get (r : AccRow) (n : Nat) : Int := (r.a[Fin.ofNat 128 n]).toInt
def AccRow.set (r : AccRow) (n : Nat) (v : Int) : AccRow := { r with a := r.a.set (Fin.ofNat 128 n) (BitVec.ofInt 72 v) }

/-- Add of R248: one product into column `n`. -/
def AccRow.add (r : AccRow) (n : Nat) (p : Num) : AccRow :=
  match p with
  | .nan | .inf _ => { r with nf := true }
  | p => r.set n (r.get n + gridRound p r.e.toInt)

/-- The value of column `n`, NaN in a row with NF (R32, R256). -/
def AccRow.value (r : AccRow) (n : Nat) : Num := if r.nf then .nan else (Num.ofInt (r.get n)).mul (Num.dyadic false 1 r.e.toInt)

/-- A clean row (R28). -/
def AccRow.clean (r : AccRow) : Bool :=
  r.a.toList.all (fun x => x.toNat / 2 ^ 64 == if bitSet x.toNat 63 then 0xFF else 0)

/-- AccNorm (R31, R255). -/
def AccRow.norm (r : AccRow) : AccRow :=
  let xs := r.a.toList.map (fun x => x.toInt)
  let m := xs.foldl (fun m x => max m x.natAbs) 0
  if m = 0 then { r with nerr := false }
  else
    let grid (s : Int) (x : Int) : Int := gridRound (Num.ofInt x) s
    let s : Int := (m.log2 : Int) - 61
    let s := if 0 < s ∧ (xs.any (fun x => 2 ^ 62 ≤ (grid s x).natAbs)) then s + 1 else s
    let e := r.e.toInt + s
    if e < -32768 ∨ 32767 < e then { r with nerr := true }
    else { a := r.a.map (fun x => BitVec.ofInt 72 (grid s x.toInt)), e := BitVec.ofInt 16 e, nf := r.nf, nerr := false }

/-- Every row of a range changed by `f`. -/
def Core.mapAcc (c : Core) (base count : Nat) (f : AccRow → AccRow) : Core :=
  (List.range count).foldl (fun c r => c.setAcc (base + r) (f (c.accRow (base + r)))) c

/-- The row range of an accumulator word, or its trap. -/
def accRange (g : W64) : Except (Cause × W64) (Nat × Nat) :=
  let base := bits g 0 10
  let count := bits g 16 11
  if bits g 10 6 ≠ 0 ∨ bits g 27 37 ≠ 0 ∨ 1024 < count then .error (.illegal, 0x0D)
  else if 1024 < base + count then .error (.accBounds, pack [(base, 0), (count, 16)])
  else .ok (base, count)

/-! ### Array words at issue (R238, R242) -/

/-- An array word issues: it captures `v` and `els` and waits for its start. -/
def arrayEff (c : Core) (q : Seq) (i : Instr) (v : W64) (vs : List W64) (els : List Nat) (prog : Nat) (holds : Bool) : Eff :=
  { lat := none, fixed := false, holds := if holds then some .structural else none
    body := .word i (v :: vs) els (c.seq q).shp 0 prog }

/-- `stload` (R243). -/
def execStload (h : Hdr) (a b : GReg) (m : AMod) (s : State) : Host.Outcome State Fault Refusal :=
  s.issue h 0x65 (fun c =>
    let x := c.rd h.eng a
    let kf := (c.rd h.eng b).toNat
    if s.readWaits c h.eng x.toNat (imageSize m.ty m.mx m.sp kf) then .wait .structural
    else if 2 ^ 11 ≤ kf ∨ !kfOk m.ty m.mx m.sp kf then .illegal 0x0D
    else if x.toNat % 64 ≠ 0 then .trap .misaligned x
    else if combEnd < x.toNat + imageSize m.ty m.mx m.sp kf then .trap .combBounds x
    else .go s (arrayEff c h.eng (.stload h a b m) x [BitVec.ofNat 64 kf] [] 0 false))

def execGbuild (h : Hdr) (a : GReg) (s : State) : Host.Outcome State Fault Refusal :=
  s.issue h 0xC3 (fun c =>
    let g := c.rd h.eng a
    if 16 ≤ g.toNat then .illegal 0x0D else .go s (arrayEff c h.eng (.gbuild h a) g [] [] 0 false))

def execStswap (h : Hdr) (s : State) : Host.Outcome State Fault Refusal :=
  s.issue h 0xC2 (fun c => .go s (arrayEff c h.eng (.stswap h) 0 [] [] 0 false))

def execMma (h : Hdr) (a b c : GReg) (m : AMod) (s : State) : Host.Outcome State Fault Refusal :=
  s.issue h 0xC0 (fun co => .go s
    (arrayEff co h.eng (.mma h a b c m) (co.rd h.eng a) [co.rd h.eng b, co.rd h.eng c] [] (co.progress h.eng 0xC0) true))

def execMmas (h : Hdr) (d a b c : GReg) (m : AMod) (s : State) : Host.Outcome State Fault Refusal :=
  s.issue h 0xC1 (fun co => .go s
    (arrayEff co h.eng (.mmas h d a b c m) (co.rd h.eng d) [co.rd h.eng a, co.rd h.eng b, co.rd h.eng c] []
      (co.progress h.eng 0xC1) true))

/-- `accinit` (R254). -/
def execAccinit (h : Hdr) (a b : GReg) (s : State) : Host.Outcome State Fault Refusal :=
  s.issue h 0xC6 (fun c =>
    let e := c.rd h.eng b
    if 2 ^ 16 ≤ e.toNat then .illegal 0x0D
    else match accRange (c.rd h.eng a) with
      | .error t => .trap t.1 t.2
      | .ok _ => .go s (arrayEff c h.eng (.accinit h a b) (c.rd h.eng a) [e] [] 0 false))

/-- `accnorm` (R255). -/
def execAccnorm (h : Hdr) (a : GReg) (s : State) : Host.Outcome State Fault Refusal :=
  s.issue h 0xC7 (fun c =>
    match accRange (c.rd h.eng a) with
    | .error t => .trap t.1 t.2
    | .ok _ => .go s (arrayEff c h.eng (.accnorm h a) (c.rd h.eng a) [] [] 0 false))

/-- The checks that `accrd` and `accwr` share (R256). -/
def Core.accTile (c : Core) (q : Seq) (g : W64) (gl hb : Nat) : Option Judged :=
  let p := c.shape q
  if !p.fits hb then some (.illegal 0x0C)
  else if 1024 ≤ g.toNat ∨ 128 < p.cols then some (.illegal 0x0D)
  else if 1024 < g.toNat + gl * p.rows then some (.trap .accBounds (pack [(g.toNat, 0), (gl * p.rows, 16)]))
  else none

/-- `accrd`: which elements are active is captured at issue. -/
def execAccrd (h : Hdr) (d : TReg) (a : GReg) (m : TMod) (s : State) : Host.Outcome State Fault Refusal :=
  s.issue h 0xC8 (fun c =>
    let gl := m.gl.val + 1
    let g := c.rd h.eng a
    (c.accTile h.eng g gl m.ty.halfBytes).getD
      (.go s (arrayEff c h.eng (.accrd h d a m) g [] ((c.actives m.pm m.ty.halfBytes gl (c.shape h.eng).elems).map b2n) 0 false)))

/-- `accwr`: an active element is captured as its code plus 1, an inactive one as 0. -/
def execAccwr (h : Hdr) (a : GReg) (b : TReg) (m : TMod) (s : State) : Host.Outcome State Fault Refusal :=
  s.issue h 0xC9 (fun c =>
    let gl := m.gl.val + 1
    let hb := m.ty.halfBytes
    let g := c.rd h.eng a
    let n := (c.shape h.eng).elems
    (c.accTile h.eng g gl hb).getD
      (.go s (arrayEff c h.eng (.accwr h a b m) g []
        (((c.actives m.pm hb gl n).zip (c.group b gl n hb)).map (fun p => if p.1 then p.2 + 1 else 0)) 0 false)))

/-- `accstat` (R258). -/
def execAccstat (h : Hdr) (d a : GReg) (sub : Fin 4) (s : State) : Host.Outcome State Fault Refusal :=
  s.issue h 0xCA (fun c =>
    let g := c.rd h.eng a
    if sub ≠ 3 ∧ (960 < g.toNat ∨ g.toNat % 64 ≠ 0) then .illegal 0x0D
    else .go s (arrayEff c h.eng (.accstat h d a sub) g [] [] 0 false))

/-- `grpbind` and `grpstat` (R275, R276). -/
def execGrpbind (h : Hdr) (op : BindOp) (slot : Fin 2) (s : State) : Host.Outcome State Fault Refusal :=
  s.issue h 0xC4 (fun c => .go s (arrayEff c h.eng (.grpbind h op slot) 0 [] [] 0 false))

def execGrpstat (h : Hdr) (d : GReg) (slot : Fin 2) (s : State) : Host.Outcome State Fault Refusal :=
  s.issue h 0xC5 (fun c => .go s (arrayEff c h.eng (.grpstat h d slot) 0 [] [] 0 false))

/-! ### When an array word starts (R238, R239) -/

/-- An array word of C. -/
def isArrayWord : Instr → Bool
  | .stswap _ | .gbuild _ _ | .mma _ _ _ _ _ | .mmas _ _ _ _ _ _ | .accinit _ _ _ | .accnorm _ _ | .accrd _ _ _ _
  | .accwr _ _ _ _ | .accstat _ _ _ _ | .grpbind _ _ _ | .grpstat _ _ _ => true
  | _ => false

/-- It holds the filter store's port while it runs. -/
def holdsPort : Instr → Bool
  | .stload _ _ _ _ | .gbuild _ _ | .mmas _ _ _ _ _ _ => true
  | .mma _ _ _ _ m => m.mode == 1 || m.mode == 2
  | _ => false

def passesBuild : Instr → Bool
  | .mma _ _ _ _ m => m.mode == 0 || m.mode == 3
  | _ => false

def isBuild : Instr → Bool
  | .gbuild _ _ => true
  | _ => false

/-- An issued word of the array, not started. -/
def Act.waits (a : Act) : Option Instr :=
  match a.body with
  | .word i _ _ _ 0 _ => match i with
    | .stload _ _ _ _ => some i
    | i => if isArrayWord i then some i else none
  | _ => none

/-- Another word holds the port. -/
def Core.portHeld (c : Core) : Bool :=
  c.acts.any (fun b => match b.body with | .word i _ _ _ 1 _ => holdsPort i | _ => false)

/-- No access of an earlier word of the sequencer, array words apart, keeps those of array word `i` waiting: C's comb and accumulator
accesses are of class 0 (R182, R183). -/
def Core.classOrder (c : Core) (a : Act) (i : Instr) : Bool :=
  c.noneBefore a (fun b => (match b.body with | .word j _ _ _ _ _ => !isArrayWord j | _ => true)
    && b.accesses.any (fun y => (wordAccesses i).any (waitsFor b.order y zeroReach)))

/-- The word starts now. -/
def Core.arrayReady (c : Core) (a : Act) : Bool :=
  match a.waits with
  | none => false
  | some i =>
    (!holdsPort i || !c.portHeld) &&
    (if isArrayWord i then
      c.acts.all (fun b => a.id ≤ b.id || match b.body with
        | .word j _ _ _ _ _ => !isArrayWord j || (passesBuild i && isBuild j)
        | _ => true) && c.classOrder a i
    else c.noneBefore a Act.writesComb)

/-- The words of a core that can start now, the one that issued first at the front, a `stload` before a C word of its cycle (R239). -/
def Core.readyWords (c : Core) : List Act :=
  let l := c.ordered.filter c.arrayReady
  l.filter (fun a => l.all (fun b => a.issued ≤ b.issued))

/-! ### Streamed rows (R246 to R248) -/

/-- The bytes of a streamed row of L elements. -/
def rowBytes (l : Nat) (ty : Ty) (mx : Bool) : Nat := l * ty.halfBytes / 2 + if mx then l / 32 else 0

/-- A streamed row, decoded with its scales. -/
def streamRow (comb : Memory) (addr l : Nat) (ty : Ty) (mx : Bool) : List Num :=
  let hb := ty.halfBytes
  (List.range l).map (fun k =>
    let code := comb.readElem (2 * addr + k * hb) hb
    if mx then mxDecode ty (comb.read (addr + l * hb / 2 + k / 32)).toNat code else tyDecode ty code)

/-- The products of a row with the stationary plane added into one accumulator row, each times `w`. `cols` columns take part. -/
def addProducts (p : Nat → Nat → Option Num) (w : Num) (xs : List Num) (cols : Nat) (r : AccRow) : AccRow :=
  (List.range cols).foldl (fun r n => (xs.zipIdx).foldl (fun r x =>
    match p x.2 n with
    | some v => r.add n (w.mul (x.1.mul v))
    | none => r) r) r

/-- The first of some rows (start address, bytes) that does not lie wholly in the comb. -/
def firstOut : List W64 → Nat → Option W64
  | [], _ => none
  | a :: t, n => if combEnd < a.toNat + n then some a else firstOut t n

def rowsAt (a pitch : W64) (n : Nat) : List W64 := (List.range n).map (fun r => a + BitVec.ofNat 64 r * pitch)

/-- The stream type suits a plane (R247). -/
def streamOk (k : Store) (ty : Ty) : Bool :=
  if k.mx then ty == k.ty
  else if k.ty == .bf16 || k.ty == .f16 then ty == .bf16 || ty == .f16
  else ty == .e4m3 || ty == .e5m2 || ty == .t8 || ty == .t6 || ty == .i8 || ty == .n8

/-- What an `mma` works with at its start. -/
structure MmaPlan where
  nr    : Nat
  base  : Nat
  g     : Nat
  /-- m of the bound slot where the word sweeps, else 1. -/
  n     : Nat
  store : Store
  slot  : Option GSlot
  len   : Nat
  deriving DecidableEq, Repr

def Core.mmaPlan (c : Core) (m : AMod) (gc : W64) : MmaPlan :=
  let slot := if m.mode = 0 then none else c.boundSlot
  let k := if m.mode = 1 ∨ m.mode = 2 then c.filter else c.active
  { nr := bits gc 0 11, base := bits gc 16 10, g := if m.mode = 0 then 0 else bits gc 32 4
    n := if m.sweep then (match slot with | some s => s.m | none => 1) else 1
    store := k, slot := slot, len := if m.mode = 2 then 128 else k.kf }

/-- The accumulator rows an `mma` asks for (R248). -/
def MmaPlan.rows (p : MmaPlan) (mode : Fin 4) : Nat :=
  if mode = 3 then (match p.slot with | some s => s.kg | none => 0) else if mode = 1 then p.n * p.nr else p.nr

/-- The checks of R246, in order. DESIGN CHOICE (log 13): TRAPINFO of a misaligned pitch gB is the pitch. -/
def Core.mmaCheck (m : AMod) (ga gb gc : W64) (p : MmaPlan) : Option (Cause × W64) :=
  let k := p.store
  let ill : Option (Cause × W64) := some (.illegal, 0x0D)
  if bits gc 11 5 ≠ 0 ∨ bits gc 26 6 ≠ 0 ∨ bits gc 36 28 ≠ 0 ∨ 1024 < p.nr then ill
  else if p.nr ≠ 0 ∧ ga.toNat % 16 ≠ 0 then some (.misaligned, ga)
  else if p.nr ≠ 0 ∧ gb.toNat % 16 ≠ 0 then some (.misaligned, gb)
  else if !k.valid then ill
  else match p.slot with
    | none => if m.mode ≠ 0 then ill else rest ill k
    | some s =>
      if !m.sweep ∧ s.m ≤ p.g then ill
      else if (m.mode = 1 ∨ m.mode = 2) ∧ (s.kg ≠ k.kf ∨ k.sp) then ill
      else if m.mode = 2 ∧ (k.mx ∨ 128 < k.kf) then ill
      else if m.mode = 3 ∧ s.kg < p.nr then ill
      else rest ill k
where
  /-- The type check and the two bounds checks. -/
  rest (ill : Option (Cause × W64)) (k : Store) : Option (Cause × W64) :=
    if !streamOk k m.ty then ill
    else if p.nr = 0 then none
    else match firstOut (rowsAt ga gb (if m.mode = 2 then p.n * p.nr else p.nr)) (rowBytes p.len m.ty k.mx) with
      | some a => some (.combBounds, a)
      | none =>
        if 1024 < p.base + p.rows m.mode then some (.accBounds, pack [(p.base, 0), (p.rows m.mode, 16)]) else none

/-- B and F of R249. -/
def buildCycles (ks : Nat) : Nat := 2 + (ks + 15) / 16
def fillCycles (mode : Fin 4) : Nat := if mode = 2 then 160 else 136

/-- The cycle in which an `mma` reads row `k` of its stream, having started in cycle `s` from row `from_` (R249, R250). -/
def mmaRowAt (m : AMod) (p : MmaPlan) (s from_ k : Nat) : Nat :=
  let builds := m.mode == 1 || m.mode == 2
  let b := buildCycles p.store.ks
  let t0 := s + if builds then b else 0
  let g0 := from_ / p.nr
  let r0 := from_ % p.nr
  if k / p.nr = g0 then t0 + (k % p.nr - r0)
  else t0 + max (p.nr - r0) b + (k / p.nr - g0 - 1) * max p.nr b + k % p.nr

/-- The last cycle of an `mma` (R249). -/
def mmaEnd (m : AMod) (p : MmaPlan) (s from_ : Nat) : Nat :=
  let last := p.n * p.nr - 1
  (if last < from_ then s else mmaRowAt m p s from_ last) + fillCycles m.mode

/-- The builds of an `mma` of MODE 1 or 2 that has started at row `from_`: the cycle by whose end each plane is built, and by whose
end it is exchanged (R249). The planes of a sweep are built ahead, each while the one before it streams. -/
def mmaBuilds (m : AMod) (p : MmaPlan) (s from_ : Nat) : List (Nat × Nat) :=
  if (m.mode != 1 && m.mode != 2) || p.n * p.nr ≤ from_ then []
  else
    let b := buildCycles p.store.ks
    let g0 := from_ / p.nr
    let first (j : Nat) : Nat := mmaRowAt m p s from_ (if j = 0 then from_ else (g0 + j) * p.nr)
    (List.range (p.n - g0)).map (fun j => (if j = 0 then s + b - 1 else first (j - 1) + b - 1, first j - 1))

/-- The group element that streams row `k`. -/
def mmaElement (m : AMod) (p : MmaPlan) (k : Nat) : Nat := if m.sweep then k / p.nr else p.g

/-- The row of its stream that an `mma` reads as row `k`. -/
def mmaStreamRow (m : AMod) (p : MmaPlan) (k : Nat) : Nat :=
  if m.mode = 2 then (if m.sweep then mmaElement m p k * p.nr else 0) + k % p.nr else k % p.nr

/-- Row `k` of an `mma`'s stream, read from the comb as it stood before this cycle: its products (R248). -/
def Core.mmaRow (c : Core) (comb : Memory) (m : AMod) (ga gb : W64) (p : MmaPlan) (k : Nat) : Core :=
  let g := mmaElement m p k
  let r := k % p.nr
  let xs := streamRow comb (ga + BitVec.ofNat 64 (mmaStreamRow m p k) * gb).toNat p.len m.ty c.active.mx
  let pl := c.active
  let one := signed false 1 1
  let into (c : Core) (i : Nat) (w : Num) (f : Nat → Nat → Option Num) (cols : Nat) : Core :=
    c.setAcc i (addProducts f w xs cols (c.accRow i))
  match m.mode with
  | 0 => into c (p.base + r) one pl.at_ 128
  | 1 => into c (p.base + (if m.sweep then g * p.nr else 0) + r) one pl.at_ 128
  | 2 => into c (p.base + r) one (fun j n => pl.at_ n j) pl.kf
  | 3 => match p.slot with
    | none => c
    | some s =>
      let e := s.entry p.g r
      match e.mode with
      | 0 => into c (p.base + e.a) (signed e.sa 1 1) pl.at_ 128
      | 1 => into (into c (p.base + e.a) (signed e.sa e.w 1024) pl.at_ 128) (p.base + e.b) (signed e.sb (1024 - e.w) 1024) pl.at_ 128
      | _ => c

/-! ### Segments (R251 to R253) -/

/-- A streaming segment: its index, its first stream row and its rows, its image and accumulator row. -/
structure Segment where
  ix    : Nat
  r0    : Nat
  n     : Nat
  faddr : Nat
  abase : Nat
  deriving DecidableEq, Repr

/-- A table entry. -/
structure SegEntry where
  nrows : Nat
  faddr : Nat
  abase : Nat
  okBits : Bool
  deriving DecidableEq, Repr

def Core.segEntry (c : Core) (table i : Nat) : SegEntry :=
  let w (j : Nat) : Nat := c.comb.readNat (table + 16 * i + 4 * j) 4
  ⟨fld (w 0) 0 11, fld (w 1) 0 21, fld (w 2) 0 10,
    fld (w 0) 11 21 == 0 && fld (w 1) 21 11 == 0 && fld (w 2) 10 22 == 0 && w 3 == 0 && decide (fld (w 0) 0 11 ≤ 1024)⟩

/-- The segments that stream, with row bound `rb`. -/
def streaming (rb : Nat) : Nat → Nat → List SegEntry → List Segment
  | _, _, [] => []
  | ix, r0, e :: t =>
    let rest := streaming rb (ix + 1) (r0 + e.nrows) t
    if e.nrows = 0 ∨ rb ≤ r0 then rest else ⟨ix, r0, min e.nrows (rb - r0), e.faddr, e.abase⟩ :: rest

/-- What an `mmas` works with. -/
structure MmasPlan where
  rb   : Nat
  kf   : Nat
  segs : List Segment
  sum  : Nat
  deriving DecidableEq, Repr

/-- The checks of R252: the trap, or the plan. TRAPINFO of a misaligned pitch gB is the pitch (log 13). -/
def Core.mmasCheck (c : Core) (m : AMod) (gd ga gb gc : W64) : Except (Cause × W64) MmasPlan :=
  let rb := bits gc 0 11
  let nseg := bits gc 16 9
  let kf := bits gc 32 11
  if bits gc 11 5 ≠ 0 ∨ bits gc 25 7 ≠ 0 ∨ bits gc 43 21 ≠ 0 ∨ 1024 < rb ∨ 256 < nseg ∨ !kfOk m.ty m.mx m.sp kf then
    .error (.illegal, 0x0D)
  else if ga.toNat % 16 ≠ 0 then .error (.misaligned, ga)
  else if gb.toNat % 16 ≠ 0 then .error (.misaligned, gb)
  else if combEnd < ga.toNat + nseg * 16 then .error (.combBounds, ga)
  else
    let es := (List.range nseg).map (c.segEntry ga.toNat)
    let segs := streaming rb 0 0 es
    let sum := es.foldl (fun t e => t + e.nrows) 0
    let row := rowBytes kf m.ty m.mx
    if !es.all (·.okBits) then .error (.illegal, 0x0D)
    else match es.find? (fun e => e.faddr % 64 != 0) with
      | some e => .error (.misaligned, BitVec.ofNat 64 e.faddr)
      | none => match segs.findSome? (fun g =>
          if combEnd < g.faddr + imageSize m.ty m.mx m.sp kf then some (BitVec.ofNat 64 g.faddr)
          else firstOut ((rowsAt gd gb (g.r0 + g.n)).drop g.r0) row) with
        | some a => .error (.combBounds, a)
        | none => match segs.find? (fun g => decide (1024 < g.abase + g.n)) with
          | some g => .error (.accBounds, pack [(g.abase, 0), (g.n, 16), (g.ix, 32)])
          | none =>
            if m.strict ∧ rb < sum then .error (.groupBounds, pack [(rb, 0), (sum, 32)]) else .ok ⟨rb, kf, segs, sum⟩

/-- The segments with rows still to stream after `from_`, the first cut to them. -/
def remaining (from_ : Nat) : List Segment → List Segment
  | [] => []
  | g :: t => if g.r0 + g.n ≤ from_ then remaining from_ t
    else { g with r0 := max g.r0 from_, n := g.r0 + g.n - max g.r0 from_, abase := g.abase + (max g.r0 from_ - g.r0) } :: t

/-- The cycles of a segment's load, and of its build (L and B of R253). -/
def segLoad (m : AMod) (kf : Nat) : Nat := 8 + (imageSize m.ty m.mx m.sp kf + 511) / 512
def segBuild (m : AMod) (kf : Nat) : Nat := buildCycles (if m.sp then kf / 2 else kf)
def segPrep (m : AMod) (kf : Nat) : Nat := segLoad m kf + segBuild m kf

/-- The cycle in which each remaining segment reads its first row, the first at `t`. -/
def segStarts (prep : Nat) : Nat → List Segment → List (Nat × Segment)
  | _, [] => []
  | t, g :: gs => (t, g) :: segStarts prep (t + max g.n prep) gs

def mmasEnd (starts : List (Nat × Segment)) (s : Nat) : Nat :=
  match starts.getLast? with
  | some (t, g) => t + g.n + 135
  | none => s

/-- Stream row `k` of an `mmas`, in segment `g`: its products. -/
def Core.mmasRow (c : Core) (comb : Memory) (m : AMod) (gd gb : W64) (kf : Nat) (g : Segment) (k : Nat) : Core :=
  let xs := streamRow comb (gd + BitVec.ofNat 64 k * gb).toNat kf m.ty m.mx
  let i := g.abase + (k - g.r0)
  c.setAcc i (addProducts c.active.at_ (signed false 1 1) xs 128 (c.accRow i))

/-- A running `mmas` as its record holds it: its start, KF, how many segments are loaded, built and made active, the segments, and
the bytes read of the image being loaded. -/
structure MmasRun where
  start  : Nat
  kf     : Nat
  loaded : Nat
  built  : Nat
  active : Nat
  segs   : List Segment
  bytes  : List Nat
  deriving DecidableEq, Repr

def MmasRun.toList (r : MmasRun) : List Nat :=
  [r.start, r.kf, r.loaded, r.built, r.active, r.segs.length] ++ r.segs.flatMap (fun g => [g.ix, g.r0, g.n, g.faddr, g.abase]) ++ r.bytes

/-- The segments in a record. -/
def segsOf : List Nat → List Segment
  | ix :: r0 :: n :: f :: ab :: t => ⟨ix, r0, n, f, ab⟩ :: segsOf t
  | _ => []

def MmasRun.ofList : List Nat → Option MmasRun
  | s :: kf :: l :: b :: a :: n :: t => some ⟨s, kf, l, b, a, segsOf (t.take (5 * n)), t.drop (5 * n)⟩
  | _ => none

/-- The segments with the cycles in which they begin to load and to stream. -/
def MmasRun.times (r : MmasRun) (m : AMod) : List (Nat × Nat × Segment) :=
  let ts := segStarts (segPrep m r.kf) (r.start + segPrep m r.kf) r.segs
  ((r.start :: ts.map (·.1)).zip ts).map (fun p => (p.1, p.2.1, p.2.2))

/-- One cycle of an `mmas` but for its rows: the image of the next segment is read, loaded and built while the one before streams, and
made active as that ends (R253; log 38). -/
def MmasRun.prepare (r : MmasRun) (c : Core) (comb : Memory) (m : AMod) (now : Nat) : MmasRun × Core :=
  let size := imageSize m.ty m.mx m.sp r.kf
  let (r, c) := match (r.times m)[r.loaded]? with
    | some (t, _, g) =>
      let r := if t ≤ now ∧ r.bytes.length < size then
          { r with bytes := r.bytes ++ (comb.readBytes (g.faddr + r.bytes.length) (min 512 (size - r.bytes.length))).map BitVec.toNat }
        else r
      if r.bytes.length = size ∧ t + segLoad m r.kf ≤ now + 1 then
        ({ r with loaded := r.loaded + 1, bytes := [] },
          c.loadFilter (storeOf m.ty m.mx m.sp r.kf (r.bytes.map (BitVec.ofNat 8))))
      else (r, c)
    | none => (r, c)
  match (r.times m)[r.built]? with
  | some (t, _, _) =>
    if r.built < r.loaded ∧ t + segLoad m r.kf + segBuild m r.kf ≤ now + 1 then ({ r with built := r.built + 1 }, c.build 0) else (r, c)
  | none => (r, c)

/-- The next segment's plane is made active. -/
def MmasRun.exchange (r : MmasRun) (c : Core) (m : AMod) (now : Nat) : MmasRun × Core :=
  match (r.times m)[r.active]? with
  | some (_, t, _) => if r.active < r.built ∧ t ≤ now + 1 then ({ r with active := r.active + 1 }, c.swapPlanes) else (r, c)
  | none => (r, c)

/-! ### Starts -/

/-- The value of `accrd` for one element (R256), and its code. -/
def accElem (c : Core) (m : TMod) (i col : Nat) : Num × Nat :=
  let r := c.accRow i
  match m.sub.val with
  | 0 => (r.value col, tyEncode m.ty m.rm m.sat (r.value col))
  | 1 => (.zero false, natOf 64 (r.get col))
  | 2 => (.zero false, natOf 72 (r.get col) / 2 ^ 64)
  | _ => (.zero false, r.e.toNat)

/-- The writes of an `accrd` at its start. -/
def Core.accrdWrites (c : Core) (d : TReg) (m : TMod) (base : Nat) (acts : List Nat) (shp : W64) : List Write :=
  let p := shapeOf shp
  let gl := m.gl.val + 1
  let n := p.elems
  let vals := (List.range (gl * n)).map (fun j => accElem c m (base + j / p.cols) (j % p.cols))
  let act := acts.map (fun x => x != 0)
  let ws := tileWrites d gl n m.ty.halfBytes (pmMerge m.z act (vals.map (·.2)))
  match m.amx with
  | some r => let (mag, nn, ii) := amaxShadow ((pmActive act vals).map (·.1)); ws ++ [.amax r mag nn ii]
  | none => ws

/-- One element of an `accwr` (R257). -/
def Core.accWrite (c : Core) (m : TMod) (i col code : Nat) : Core :=
  let r := c.accRow i
  match m.sub.val % 4 with
  | 0 => match tyDecode m.ty code with
    | .nan | .inf _ => c.setAcc i { r with nf := true }
    | x =>
      let q := max (-(2 ^ 71 : Int)) (min (2 ^ 71 - 1) (gridRound x r.e.toInt))
      c.setAcc i (r.set col (if m.sub.val / 8 = 1 then r.get col + q else q))
  | 1 => c.setAcc i (r.set col (signedOf 64 code))
  | 2 => c.setAcc i (r.set col ((natOf 64 (r.get col) + code % 256 * 2 ^ 64 : Nat) : Int))
  | _ => if col = 0 then c.setAcc i { r with e := BitVec.ofNat 16 code, nerr := false } else c

/-- The value of `accstat`. -/
def Core.accstat (c : Core) (sub : Fin 4) (first : Nat) : W64 :=
  let bit (f : AccRow → Bool) : W64 := pack ((List.range 64).map (fun j => (b2n (f (c.accRow (first + j))), j)))
  let any (f : AccRow → Bool) : Bool := (List.range 1024).any (fun i => f (c.accRow i))
  match sub with
  | 0 => bit (fun r => !r.clean)
  | 1 => bit (·.nf)
  | 2 => bit (·.nerr)
  | 3 => pack [((c.arrFlag.toNat) % 2, 0), (b2n (any (·.nf)), 1), (b2n (any (·.nerr)), 2), (b2n (any (fun r => !r.clean)), 3)]

/-- A slot emptied of its group. -/
def GSlot.drop (g : GSlot) (st : GState) : GSlot := { g with state := st, m := 0, kg := 0, inexact := false, cayley := [], action := [] }

/-- The effect of `grpbind` in cycle `now` (R275), by the slot's state at the start of the cycle, as core `b` has it, or as LOADING where
a `grpld` into it has issued in this cycle, whatever has become of that since (R268, R269). -/
def Core.bindSlot (c b : Core) (now : Nat) (op : BindOp) (k : Fin 2) : Core :=
  let st := (b.slots[k]).state
  let unbind (g : GSlot) : GSlot := if g.state = .bound then { g with state := .checked } else g
  let setState (c : Core) (st : GState) : Core := { c with slots := c.slots.set k { c.slots[k] with state := st } }
  let loading := b.loading k || c.grpAt[k] == now + 1
  match op with
  | .bind =>
    let c' := { c with slots := c.slots.map unbind }
    if !loading && (st == .checked || st == .bound) then setState c' .bound else { c' with grpBerr := true }
  | .unbind => if !loading && st == .bound then setState c .checked else c
  | .rel =>
    if loading then { c with grpBerr := true }
    else match st with
      | .checked | .bound | .faulted => { c with slots := c.slots.set k ((c.slots[k]).drop .released) }
      | _ => c

/-- `grpstat`'s result: GRPSTAT, and GRPFAIL bits 24:0 in bits 56:32. -/
def Core.grpstatWord (c : Core) (k : Fin 2) : W64 := pack [((c.slotWord k).toNat % 2 ^ 32, 0), ((c.slots[k]).fail.toNat % 2 ^ 25, 32)]

/-- A started word: its phase is 1, its `prog` the cycle it completes. -/
def Act.run (a : Act) (i : Instr) (v : List W64) (els : List Nat) (shp : W64) (until_ : Nat) : Act :=
  { a with body := .word i v els shp 1 until_ }

/-- A word starts in this cycle `now` (R238). DESIGN CHOICE (log 38): R240 makes each row's access one step and the spec fixes when the word
completes, not in which cycle of its run it touches each row or plane; `accinit`, `accnorm`, `accwr`, `accrd`, `accstat` and `gbuild` act
on all of theirs at the word's start, and `mma` adds a row in the cycle in which it reads it.
`b` is the core as it stood at the start of the cycle; a `stload` keeps its image's size. -/
def Core.startWord (c b : Core) (now : Nat) (a : Act) (i : Instr) (v : List W64) (els : List Nat) (shp : W64) (prog : Nat) : Core :=
  let v0 := v.headD 0
  let go (c : Core) (n : Nat) : Core := c.setAct (a.run i v els shp (now + n))
  match i with
  | .stload _ _ _ m => c.setAct (a.run i (v ++ [BitVec.ofNat 64 (imageSize m.ty m.mx m.sp (v.getD 1 0).toNat)]) [now] shp 0)
  | .gbuild _ _ =>
    let ok := c.canBuild v0.toNat
    go (c.build v0.toNat) (if ok then buildCycles c.filter.ks else 0)
  | .stswap _ => go c.swapPlanes 0
  | .mma _ _ _ _ m =>
    match v with
    | [ga, gb, gc] =>
      let p := c.mmaPlan m gc
      match Core.mmaCheck m ga gb gc p with
      | some t => c.trapAct a t.1 t.2 none
      | none => c.setAct { a with body := .word i v [now, prog, 0, 0] shp 1 prog }
    | _ => c
  | .mmas _ _ _ _ _ m =>
    match v with
    | [gd, ga, gb, gc] =>
      match c.mmasCheck m gd ga gb gc with
      | .error t => c.trapAct a t.1 t.2 none
      | .ok p =>
        let c := if p.rb < p.sum then c.setFlag 0 else c
        let gs := remaining prog p.segs
        c.setAct { a with body := .word i v (MmasRun.toList ⟨now, p.kf, 0, 0, 0, gs, []⟩) shp 1 prog }
    | _ => c
  | .accinit _ _ _ =>
    let n := bits v0 16 11
    let e := BitVec.ofNat 16 (v.getD 1 0).toNat
    go (c.mapAcc (bits v0 0 10) n (fun _ => { AccRow.zero with e := e })) (if n = 0 then 0 else 2 + (n + 15) / 16)
  | .accnorm _ _ =>
    let n := bits v0 16 11
    go (c.mapAcc (bits v0 0 10) n AccRow.norm) (if n = 0 then 0 else 4 + n)
  | .accrd _ d _ m =>
    c.setAct { a.run i v [] shp 0 with due := some (now + 11 + beats (m.gl.val + 1) (shapeOf shp) m.ty.halfBytes)
                                       writes := c.accrdWrites d m v0.toNat els shp }
  | .accwr _ _ _ m =>
    let p := shapeOf shp
    let c' := (els.zipIdx).foldl (fun c e => if e.1 = 0 then c else c.accWrite m (v0.toNat + e.2 / p.cols) (e.2 % p.cols) (e.1 - 1)) c
    go c' (2 + beats (m.gl.val + 1) p m.ty.halfBytes)
  | .accstat _ d _ sub => c.setAct { a.run i v [] shp 0 with due := some (now + 5), writes := [.g a.handler d (c.accstat sub v0.toNat)] }
  | .grpbind _ op k => go (c.bindSlot b now op k) 1
  | .grpstat _ d k => c.setAct { a.run i v [] shp 0 with due := some (now + 5), writes := [.g a.handler d (b.grpstatWord k)] }
  | _ => c

def execArrayWordStart (core act : Nat) (s : State) : Host.Outcome State Fault Refusal :=
  let c := s.core core
  match c.act? act with
  | some a =>
    if c.arrayReady a then
      match a.body with
      | .word i v els shp 0 prog => .next (s.setCore (c.startWord (s.atStart.core core) (s.cycle c) a i v els shp prog))
      | _ => .next s
    else .next s
  | none => .next s

/-! ### Running words, cycle by cycle -/

/-- A `stload` or `grpld` reads its image 512 bytes a cycle; `els` holds what it has read, after a `stload`'s start. -/
def Core.loadChunk (c : Core) (a : Act) (i : Instr) (v : List W64) (els : List Nat) (shp : W64) (prog size : Nat) : Core :=
  let at_ := (v.headD 0).toNat + prog
  let bs := c.comb.readBytes at_ (min 512 (size - prog))
  c.setAct { a with body := .word i v (els ++ bs.map (·.toNat)) shp 1 (prog + bs.length) }

/-- One cycle of an `mma`: the next plane is built, the next row streamed, the next plane made active (R249). -/
def State.runMma (s : State) (id : Nat) (a : Act) : State :=
  let c := s.core id
  let now := s.cycle c
  match a.body with
  | .word (.mma h x y z m) [ga, gb, gc] [st, from_, built, active] shp 1 k =>
    let p := c.mmaPlan m gc
    let bs := mmaBuilds m p st from_
    let g := from_ / p.nr
    let next (b : Nat) : Nat := if m.sweep then g + b else p.g
    let (built, c) := match bs[built]? with
      | some (t, _) => if t ≤ now then (built + 1, c.build (next built)) else (built, c)
      | none => (built, c)
    let (k, c) := if k < p.n * p.nr ∧ mmaRowAt m p st from_ k ≤ now then (k + 1, c.mmaRow (s.atStart.core id).comb m ga gb p k) else (k, c)
    let (active, c) := match bs[active]? with
      | some (_, t) => if active < built ∧ t ≤ now then (active + 1, c.swapPlanes) else (active, c)
      | none => (active, c)
    s.setCore (c.setAct { a with body := .word (.mma h x y z m) [ga, gb, gc] [st, from_, built, active] shp 1 k })
  | _ => s

/-- One cycle of an `mmas`. -/
def State.runMmas (s : State) (id : Nat) (a : Act) : State :=
  let c := s.core id
  let now := s.cycle c
  let comb := (s.atStart.core id).comb
  match a.body with
  | .word (.mmas h w x y z m) [gd, ga, gb, gc] els shp 1 k =>
    match MmasRun.ofList els with
    | none => s
    | some r =>
      let (r, c) := r.prepare c comb m now
      let (k, c) := match (r.times m).find? (fun g => k < g.2.2.r0 + g.2.2.n) with
        | some (_, t, g) =>
          let k := max k g.r0
          if t + (k - g.r0) ≤ now then (k + 1, c.mmasRow comb m gd gb r.kf g k) else (k, c)
        | none => (k, c)
      let (r, c) := r.exchange c m now
      s.setCore (c.setAct { a with body := .word (.mmas h w x y z m) [gd, ga, gb, gc] r.toList shp 1 k })
  | _ => s

/-- One cycle of a word that reads the comb while it runs: `stload`, `mma`, `mmas`. -/
def State.runArray (s : State) (id : Nat) (a : Act) : State :=
  let c := s.core id
  match a.body with
  | .word (.stload h x y m) v els shp 1 prog =>
    let size := imageSize m.ty m.mx m.sp (v.getD 1 0).toNat
    if prog < size then s.setCore (c.loadChunk a (.stload h x y m) v els shp prog size) else s
  | .word (.mma _ _ _ _ _) _ _ _ 1 _ => s.runMma id a
  | .word (.mmas _ _ _ _ _ _) _ _ _ 1 _ => s.runMmas id a
  | _ => s

/-- The running `mma` or `mmas` of a core, its PROGRESS, and the comb address of the row it reads next. -/
def Core.streamingWord (c : Core) : Option (Act × Nat × W64) :=
  c.acts.findSome? (fun a => match a.body with
    | .word (.mma _ _ _ _ m) [ga, gb, gc] _ _ 1 k =>
      let p := c.mmaPlan m gc
      if k < p.n * p.nr then some (a, k, ga + BitVec.ofNat 64 (mmaStreamRow m p k) * gb) else none
    | .word (.mmas _ _ _ _ _ m) [gd, _, gb, _] els _ 1 k =>
      (MmasRun.ofList els).bind (fun r => ((r.times m).find? (fun g => k < g.2.2.r0 + g.2.2.n)).map
        (fun g => (a, k, gd + BitVec.ofNat 64 (max k g.2.2.r0) * gb)))
    | _ => none)

/-- The cycle in which a started word completes, if it runs without landing a result. -/
def Core.arrayEnd (c : Core) (i : Instr) (v : List W64) (els : List Nat) (prog : Nat) : Option Nat :=
  match i with
  | .stload _ _ _ m =>
    let size := imageSize m.ty m.mx m.sp (v.getD 1 0).toNat
    some (els.headD 0 + 8 + (size + 511) / 512)
  | .gbuild _ _ | .stswap _ | .accinit _ _ _ | .accnorm _ _ | .accwr _ _ _ _ | .grpbind _ _ _ => some prog
  | .mma _ _ _ _ m =>
    let p := c.mmaPlan m (v.getD 2 0)
    let st := els.headD 0
    if p.nr = 0 then some st
    else if prog < p.n * p.nr then none else some (mmaEnd m p st (els.getD 1 0))
  | .mmas _ _ _ _ _ m =>
    match MmasRun.ofList els with
    | some r =>
      if r.segs.any (fun g => prog < g.r0 + g.n) then none
      else some (mmasEnd (segStarts (segPrep m r.kf) (r.start + segPrep m r.kf) r.segs) r.start)
    | none => none
  | _ => none

/-- The word completes in cycle `now`. -/
def Core.arrayOver (c : Core) (now : Nat) (a : Act) : Bool :=
  match a.body with
  | .word i v els _ 1 prog => (match c.arrayEnd i v els prog with | some t => decide (t ≤ now) | none => false)
  | _ => false

/-- It completes; a `stload`'s image is now in the filter store. -/
def execArrayWordComplete (core act : Nat) (s : State) : Host.Outcome State Fault Refusal :=
  let c := s.core core
  match c.act? act with
  | some a =>
    if c.arrayOver (s.cycle c) a then
      match a.body with
      | .word (.stload _ _ _ m) v els _ _ _ =>
        let k := storeOf m.ty m.mx m.sp (v.getD 1 0).toNat (els.tail.map (BitVec.ofNat 8))
        .next (s.setCore ((c.loadFilter k).complete a))
      | _ => .next (s.setCore (c.complete a))
    else .next s
  | none => .next s

/-! ### drain (R259 to R261) -/

/-- DESIGN CHOICE (log 13): TRAPINFO of a misaligned pitch, which is no address, is the pitch. -/
def execDrain (h : Hdr) (a b c : GReg) (ty : Ty) (rm : Rm) (sat : Bool) (amx : Option MReg) (clr : Bool) (lay : Lay)
    (s : State) : Host.Outcome State Fault Refusal :=
  s.issue h 0x66 (fun co =>
    let ga := co.rd h.eng a
    let gb := co.rd h.eng b
    let gc := co.rd h.eng c
    let count := bits gc 0 11
    let base := bits gc 16 10
    let nc := bits gc 32 7 + 1
    let hb := ty.halfBytes
    let al := if lay = .mxb then 1 else hb / 2
    let runs := if lay = .trn then rowsAt ga gb (if count = 0 then 0 else nc) else rowsAt ga gb count
    let len := if lay = .trn then count * hb / 2 else (nc * hb + 1) / 2 + if lay = .mxb then nc / 32 else 0
    if s.combBusy co h.eng zeroReach [wholeComb .store] (s.cycle co) then .wait .structural
    else if bits gc 11 5 ≠ 0 ∨ bits gc 26 6 ≠ 0 ∨ bits gc 39 25 ≠ 0 ∨ 1024 < count ∨ (lay = .mxb ∧ nc % 32 ≠ 0) then .illegal 0x0D
    else if ga.toNat % al ≠ 0 then .trap .misaligned ga
    else if gb.toNat % al ≠ 0 then .trap .misaligned gb
    else match firstOut runs len with
      | some x => .trap .combBounds x
      | none =>
        if 1024 < base + count then .trap .accBounds (pack [(base, 0), (count, 16)])
        else .go s { lat := none, fixed := false
                     body := .word (.drain h a b c ty rm sat amx clr lay) [ga, gb, gc] [] 0 0 0 })

/-- The comb with the elements of a drained row in place. -/
def drainRow (m : Memory) (lay : Lay) (ty : Ty) (rm : Rm) (sat : Bool) (at_ nc : Nat) (vals : List Num) : Memory :=
  let hb := ty.halfBytes
  match lay with
  | .mxb => (List.range (nc / 32)).foldl (fun m j =>
      let (sc, cs) := mxScale ty ((vals.drop (32 * j)).take 32)
      let m := (cs.zipIdx).foldl (fun m q => m.writeElem (2 * at_ + (32 * j + q.2) * hb) hb q.1) m
      m.writeNat (at_ + nc * hb / 2 + j) 1 sc) m
  | _ => (vals.zipIdx).foldl (fun m q => m.writeElem (2 * at_ + q.2 * hb) hb (tyEncode ty rm sat q.1)) m

/-- One row of a drain, from cycle p + 11 on; a transposed one keeps its codes until its end. -/
def State.runDrain (s : State) (id : Nat) (a : Act) : State :=
  let c := s.core id
  let now := s.cycle c
  match a.body with
  | .word (.drain h x y z ty rm sat amx clr lay) [ga, gb, gc] els shp 0 r =>
    let count := bits gc 0 11
    let nc := bits gc 32 7 + 1
    if r < count ∧ a.issued + 11 + r ≤ now then
      let i := bits gc 16 10 + r
      let row := c.accRow i
      let vals := (List.range nc).map row.value
      let c := if clr then c.setAcc i { AccRow.zero with e := row.e } else c
      let ws := match amx with
        | some m => let (mag, n, inf) := amaxShadow vals; [Write.amax m mag n inf]
        | none => []
      let at_ := (ga + BitVec.ofNat 64 r * gb).toNat
      let c := if lay = .trn then c else { c with comb := drainRow c.comb lay ty rm sat at_ nc vals }
      let els := if lay = .trn then els ++ vals.map (tyEncode ty rm sat) else els
      s.setCore (c.setAct { a with writes := a.writes ++ ws
                                   body := .word (.drain h x y z ty rm sat amx clr lay) [ga, gb, gc] els shp 0 (r + 1) })
    else if r = count ∧ a.due.isNone ∧ a.issued + (if lay = .trn then 140 else 12) + count ≤ now then
      let hb := ty.halfBytes
      let put (m : Memory) (col row : Nat) : Memory :=
        m.writeElem (2 * (ga + BitVec.ofNat 64 col * gb).toNat + row * hb) hb (els.getD (row * nc + col) 0)
      let c := if lay = .trn then
          { c with comb := (List.range nc).foldl (fun m col => (List.range count).foldl (fun m row => put m col row) m) c.comb }
        else c
      s.setCore (c.setAct { a with due := some now })
    else s
  | _ => s

/-! ### grpld (R265 to R274) -/

/-- TRAPINFO of GROUP_CHECK, which GRPFAIL also holds less its SLOT (R272, R280). -/
def groupInfo (code slot g h k : Nat) : W64 := pack [(code, 0), (slot, 4), (g, 8), (h, 12), (k, 16)]

/-- Test 1 on the two header words. -/
def headerOk (w0 w1 : Nat) : Bool :=
  let m := fld w0 0 5
  let kg := fld w0 8 10
  decide (1 ≤ m) && decide (m ≤ 16) && fld w0 5 3 == 0 && decide (1 ≤ kg) && decide (kg ≤ 512) && fld w0 18 46 == 0 && w1 == 0

/-- The bytes of the largest group image (R265). -/
def groupMax : Nat := 144 + 4 * 16 * 512

/-- The header is read in the issue cycle: every earlier store to the image has been performed, those of the cycle before too, which
write at the end of this one (R182, R273). -/
def execGrpld (h : Hdr) (a : GReg) (slot : Fin 2) (s : State) : Host.Outcome State Fault Refusal :=
  s.issue h 0x66 (fun c =>
    let x := c.rd h.eng a
    let g := c.slots[slot]
    let w0 := c.comb.readNat x.toNat 8
    let w1 := c.comb.readNat (x.toNat + 8) 8
    let issued (c : Core) : Core := { c with grpAt := c.grpAt.set slot (s.cycle c + 1) }
    if c.combWriting h.eng || s.readWaits c h.eng x.toNat groupMax then .wait .structural
    else if g.state = .bound ∨ c.loading slot then .illegal 0x0D
    else if x.toNat % 64 ≠ 0 then .trap .misaligned x
    else if combEnd < x.toNat + 16 then .trap .combBounds x
    else if !headerOk w0 w1 then
      .trapIn (s.setCore { issued c with slots := c.slots.set slot { g.drop .faulted with fail := groupInfo 1 0 0 0 0 } }) .groupCheck
        (groupInfo 1 slot.val 0 0 0)
    else
      let size := 144 + 4 * fld w0 0 5 * fld w0 8 10
      if combEnd < x.toNat + size then .trap .combBounds x
      else .go s { lat := none, fixed := false, holds := some .structural, after := issued
                   body := .word (.grpld h a slot) [x, BitVec.ofNat 64 (fld w0 0 5), BitVec.ofNat 64 (fld w0 8 10)] [] 0 0 0 })

/-- One cycle of a `grpld`: LOADING at its issue cycle's end, then a chunk of 512 bytes a cycle. -/
def State.runGrpld (s : State) (id : Nat) (a : Act) : State :=
  let c := s.core id
  match a.body with
  | .word (.grpld h x k) v els shp 0 p => s.setCore (c.setAct { a with body := .word (.grpld h x k) v els shp 1 p })
  | .word (.grpld h x k) [ga, m, kg] els shp 1 p =>
    let size := 144 + 4 * m.toNat * kg.toNat
    if p < size then s.setCore (c.loadChunk a (.grpld h x k) [ga, m, kg] els shp p size) else s
  | _ => s

/-- A group image as read: M, KG, the Cayley nibbles, the action words. -/
structure GImage where
  m      : Nat
  kg     : Nat
  cayley : List Nat
  action : List W32
  deriving DecidableEq, Repr

def groupImage (m kg : Nat) (bs : List Nat) : GImage :=
  let byte (i : Nat) : Nat := bs.getD i 0
  { m := m, kg := kg, cayley := (List.range (m * m)).map (fun i => byte (16 + i / 2) / 16 ^ (i % 2) % 16)
    action := (List.range (m * kg)).map (fun i =>
      let o := 144 + 4 * i
      BitVec.ofNat 32 (byte o + byte (o + 1) * 2 ^ 8 + byte (o + 2) * 2 ^ 16 + byte (o + 3) * 2 ^ 24)) }

def GImage.entry (t : GImage) (g k : Nat) : Action := actionOf (t.action.getD (g * t.kg + k) 0)
def GImage.cay (t : GImage) (g h : Nat) : Nat := t.cayley.getD (g * t.m + h) 0

/-- A well-formed action entry (R266). -/
def Action.ok (e : Action) (kg : Nat) : Bool :=
  match e.mode with
  | 0 => e.b == 0 && !e.sb && e.w == 0 && decide (e.a < kg)
  | 1 => decide (e.a < kg) && decide (e.b < kg)
  | 2 => e.a == 0 && !e.sa && e.b == 0 && !e.sb && e.w == 0
  | _ => false

/-- A table with an inexact-pair or zero-row entry is inexact; so T counts it too (R266, R271). -/
def GImage.inexact (t : GImage) : Bool := t.action.any (fun w => let m := (actionOf w).mode; m == 1 || m == 2)

/-- A cell of a test. -/
structure Cell where
  g : Nat
  h : Nat
  k : Nat
  deriving DecidableEq, Repr

def cellsGK (t : GImage) : List Cell := (List.range t.m).flatMap (fun g => (List.range t.kg).map (fun k => ⟨g, 0, k⟩))
def cellsGH (t : GImage) : List Cell := (List.range t.m).flatMap (fun g => (List.range t.m).map (fun h => ⟨g, h, 0⟩))
def cellsK (t : GImage) : List Cell := (List.range t.kg).map (fun k => ⟨0, 0, k⟩)
def cellsUnit (t : GImage) : List Cell :=
  (List.range t.m).map (fun h => ⟨0, h, 0⟩) ++ (List.range t.m).map (fun g => ⟨g, 0, 0⟩)
def cellsGHK (t : GImage) : List Cell :=
  (cellsGH t).flatMap (fun c => (List.range t.kg).map (fun k => { c with k := k }))

/-- Whether test `code` fails at a cell (R270). -/
def GImage.fails (t : GImage) (code : Nat) (c : Cell) : Bool :=
  match code with
  | 2 => !(t.entry c.g c.k).ok t.kg
  | 3 => decide (t.m ≤ t.cay c.g c.h)
  | 4 => let e := t.entry 0 c.k; !(e.mode == 0 && e.a == c.k && !e.sa)
  | 5 => t.cay c.g c.h != c.g + c.h
  | 6 => let v := t.cay c.g c.h
    (List.range c.h).any (fun j => t.cay c.g j == v) || (List.range c.g).any (fun j => t.cay j c.h == v)
  | 7 => t.cay c.g c.h == 0 && t.cay c.h c.g != 0
  | _ =>
    let e := t.entry (t.cay c.g c.h) c.k
    let f := t.entry c.g c.k
    let f' := t.entry c.h f.a
    e.a != f'.a || e.sa != (f.sa != f'.sa)

/-- The tests after the header, each with its cells. -/
def GImage.tests (t : GImage) : List (Nat × List Cell) :=
  [(2, cellsGK t), (3, cellsGH t), (4, cellsK t), (5, cellsUnit t), (6, cellsGH t), (7, cellsGH t)]
    ++ if t.inexact then [] else [(8, cellsGHK t)]

/-- The first failing cell of the first failing test. -/
def GImage.check (t : GImage) : Option (Nat × Cell) :=
  t.tests.findSome? (fun p => (p.2.find? (t.fails p.1)).map (fun c => (p.1, c)))

/-- T of R271. -/
def GImage.time (t : GImage) : Nat :=
  let s := 144 + 4 * t.m * t.kg
  8 + (s + 511) / 512 + (t.m * t.kg + 15) / 16 + t.m + if t.inexact then 0 else (t.m * t.m * t.kg + 15) / 16

/-- A `grpld`'s image, once it is read whole. -/
def Act.image (a : Act) : Option (Fin 2 × GImage) :=
  match a.body with
  | .word (.grpld _ _ k) [_, m, kg] els _ 1 p =>
    if p = 144 + 4 * m.toNat * kg.toNat then some (k, groupImage m.toNat kg.toNat els) else none
  | _ => none

/-- The check of a `grpld` ends in cycle `now`. -/
def Act.checkOver (a : Act) (now : Nat) : Bool := match a.image with | some (_, t) => decide (a.issued + t.time ≤ now) | none => false

/-- The check is done: the slot holds the group, or is FAULTED and the word traps. -/
def execGrpldCheckDone (core act : Nat) (s : State) : Host.Outcome State Fault Refusal :=
  let c := s.core core
  match c.act? act with
  | some a =>
    match a.image with
    | some (k, t) =>
      if !a.checkOver (s.cycle c) then .next s
      else match t.check with
        | none =>
          let g : GSlot := { state := .checked, m := t.m, kg := t.kg, inexact := t.inexact, cayley := t.cayley, action := t.action
                             fail := 0 }
          .next (s.setCore ({ c with slots := c.slots.set k g }.complete a))
        | some (code, x) =>
          let g := { (c.slots[k]).drop .faulted with fail := groupInfo code 0 x.g x.h x.k }
          .next (s.setCore ({ c with slots := c.slots.set k g }.trapAct a .groupCheck (groupInfo code k.val x.g x.h x.k) none))
    | none => .next s
  | none => .next s

end Sys2Proof.Machine
end

