-- ==== Sys2Proof/Machine/Barriers.lean ====
section
/-! DEFINITION. Barriers (R281 to R290): instances and their participants, the four words, and what the root decides. -/
namespace Sys2Proof.Machine

/-! ### SETs (R184) -/

/-- The packages of the pod, one bit each (R354). -/
def State.podPkgs (s : State) : W64 := BitVec.ofNat 64 (2 ^ (fld s.podCfg.toNat 8 6 + 1) - 1)

/-- The SET of scope entry `n` as core `c` names it: the cores it holds on a package, and the packages. -/
def State.setOf (s : State) (c : Core) (n : Fin 32) : List Nat × W64 :=
  let all := partCores (s.ctx c.ctxId).partMask
  let own := BitVec.ofNat 64 (2 ^ s.pkg)
  match n.val with
  | 0 => ([c.id], own)
  | 1 => (all.filter (fun k => k / 4 == c.id / 4), own)
  | 2 => (all.filter (fun k => k / 144 == c.id / 144), own)
  | 3 => (all, own)
  | 4 | 5 => (all, s.podPkgs)
  | _ =>
    let e := c.scopes[n]
    (all.filter (fun k => e.hives.getLsbD (k / 4)), if e.reach = 4 ∨ e.reach = 5 then e.pkgs else own)

/-- The most cores that a SET can hold (R285): those of the partition here; on another package any core of the hives. -/
def State.setLimit (s : State) (c : Core) (n : Fin 32) : Nat :=
  let (cs, ps) := s.setOf c n
  let there := if n.val ≤ 5 then 576 else ((List.range 144).filter (fun k => (c.scopes[n]).hives.getLsbD k)).length * 4
  let others := ((List.range 64).filter (fun p => ps.getLsbD p && p != s.pkg)).length
  (if ps.getLsbD s.pkg then cs.length else 0) + others * there

/-- Two SETs overlap. -/
def setsMeet (a b : List Nat × W64) : Bool := (a.2 &&& b.2) != 0 && a.1.any (fun k => b.1.contains k)

/-! ### Views and instances -/

def Core.setBar (c : Core) (a : Bar) (v : BarView) : Core := { c with bars := c.bars.set a v }

def State.inst? (s : State) (no : Nat) : Option BarInst := s.barInsts.find? (·.no == no)

def State.setInst (s : State) (i : BarInst) : State :=
  { s with barInsts := s.barInsts.map (fun j => if j.no == i.no then i else j) }

/-- The packages of an instance's SETs. -/
def BarInst.pkgs (i : BarInst) : W64 := i.parts.foldl (fun w p => w ||| p.set.2) 0

/-- A participant whose arrival no longer stands. -/
def BarPart.gone (p : BarPart) : BarPart := { p with here := false }

def BarView.of (v : BarView) (i : BarInst) : Bool := v.state != .unconfigured && v.inst == i.no

def Core.mapBar (c : Core) (i : BarInst) (f : BarView → BarView) : Core :=
  if (c.bars[i.bar]).of i then c.setBar i.bar (f c.bars[i.bar]) else c

/-- Changes every participant's view of an instance, those of saved tasks too (R283). -/
def State.mapViews (s : State) (i : BarInst) (f : BarView → BarView) : State :=
  let x := s.ctx i.ctx
  let s := { s with cores := s.cores.map (fun (c : Core) => c.mapBar i f) }
  s.setCtx i.ctx { x with saved := x.saved.map (fun (v : Saved) => { v with core := v.core.mapBar i f }) }

/-- A `bararr` at barrier `a` that has issued and whose arrival is not asserted. -/
def Act.arrives (x : Act) (a : Bar) : Bool :=
  match x.body with
  | .word (.bararr _ b) _ _ _ _ _ => b == a
  | _ => false

/-- Such words complete without arriving anywhere. -/
def Core.dropArrivals (c : Core) (a : Bar) : Core := (c.acts.filter (·.arrives a)).foldl Core.complete c

/-- A break on its way to the root of an instance; the first one stands (R282). -/
def State.breakInst (s : State) (no : Nat) (reason : BitVec 3) : State :=
  match s.inst? no with
  | some i => s.setInst { i with break_ := if i.break_.isSome then i.break_ else some reason }
  | none => s

/-- Changes one participant's view. -/
def State.mapPart (s : State) (i : BarInst) (key : Nat) (f : BarView → BarView) : State :=
  if key < 576 then s.setCore ((s.core key).mapBar i f)
  else
    let x := s.ctx i.ctx
    s.setCtx i.ctx { x with saved := x.saved.map (fun (v : Saved) =>
      if 576 + v.slot = key then { v with core := v.core.mapBar i f } else v) }

/-- Of some participants, those whose SETs hang together with those of `ps`, and the rest. The fuel is at least their number. -/
def hangTogether : Nat → List BarPart → List BarPart → List BarPart × List BarPart
  | 0, ps, rest => (ps, rest)
  | k + 1, ps, rest =>
    let (near, far) := rest.partition (fun p => ps.any (fun q => setsMeet q.set p.set))
    if near.isEmpty then (ps, rest) else hangTogether k (ps ++ near) far

/-- An instance whose participants' SETs no longer hang together parts into several, each as the one was (R281). -/
def State.splitInst : Nat → Nat → State → State
  | 0, _, s => s
  | k + 1, no, s => match s.inst? no with
    | none => s
    | some i => match i.parts with
      | [] => s
      | p :: t =>
        let (near, far) := hangTogether t.length [p] t
        if far.isEmpty then s
        else
          let (m, s) := s.newNo
          let s := far.foldl (fun s q => s.mapPart i q.key (fun v => { v with inst := m })) s
          let s := s.setInst { i with parts := near }
          { s with barInsts := s.barInsts ++ [{ i with no := m, parts := far }] }.splitInst k m

/-- A participant leaves an instance (R282): while an arrival stands for a phase not released, the instance breaks. An instance
without participants is gone. -/
def State.removePart (s : State) (no key : Nat) : State :=
  match s.inst? no with
  | none => s
  | some i =>
    let j := { i with parts := i.parts.filter (·.key != key) }
    if j.parts.isEmpty then { s with barInsts := s.barInsts.filter (·.no != no) }
    else
      let s := s.setInst j
      (if i.parts.any (·.here) then s.breakInst no 4 else s).splitInst j.parts.length no

/-- Core `id` deconfigures barrier `a`. -/
def State.leaveBar (s : State) (id : Nat) (a : Bar) : State :=
  let c := s.core id
  let v := c.bars[a]
  if v.state = .unconfigured then s
  else (s.setCore ((c.dropArrivals a).setBar a BarView.reset)).removePart v.inst id

/-- The view of a core that has just configured. -/
def BarInst.view (i : BarInst) (scope : Fin 32) (p : BitVec 16) : BarView := ⟨.armed, 0, scope, p, i.phase, i.no⟩

/-- A participant's view: of a core, or of the task saved in slot n (576 + n). -/
def State.partView (s : State) (i : BarInst) (key : Nat) : Option BarView :=
  if key < 576 then some (s.core key).bars[i.bar]
  else ((s.ctx i.ctx).saved.find? (fun v => 576 + v.slot == key)).map (fun v => v.core.bars[i.bar])

/-- The views of an instance's participants but `id`. -/
def State.otherViews (s : State) (i : BarInst) (id : Nat) : List BarView :=
  (i.parts.filter (·.key != id)).filterMap (fun p => s.partView i p.key)

/-- Those that have configured since the last break (R284). -/
def armedViews (vs : List BarView) : List BarView := vs.filter (fun v => v.state != .broken)

/-- The packages of an instance's SETs but this one. -/
def State.othersOfInst (s : State) (i : BarInst) : Nat := ((List.range 64).filter (fun p => i.pkgs.getLsbD p && p != s.pkg)).length

/-- Core `id` configures instance `i` anew, as a participant of it. Where no other has configured it since a break, its entry and P
hold from now on. -/
def State.armIn (s : State) (i : BarInst) (id : Nat) (n : Fin 32) (p : BitVec 16) : State :=
  let i := if (armedViews (s.otherViews i id)).isEmpty then { i with scope := n, p := p } else i
  (s.setInst i).setCore ((s.core id).setBar i.bar (i.view n p))

/-- The instances of a context and barrier that a SET overlaps. -/
def State.instsOver (s : State) (x : Fin 64) (a : Bar) (set : List Nat × W64) : List BarInst :=
  s.barInsts.filter (fun i => i.ctx == x && i.bar == a && i.parts.any (fun p => setsMeet p.set set))

/-- Instances that a SET joins become one, the first of them (R281). -/
def State.mergeInsts (s : State) (i : BarInst) (rest : List BarInst) : State :=
  let s := rest.foldl (fun s j => s.mapViews j (fun v => { v with inst := i.no })) s
  let s := { s with barInsts := s.barInsts.filter (fun j => !rest.any (·.no == j.no)) }
  s.setInst { i with parts := i.parts ++ rest.flatMap (·.parts), break_ := i.break_.or (rest.findSome? (·.break_)) }

/-- The phase of an instance that is new here: 0, unless its SET reaches other packages, which may have released phases of it (log 27). -/
def State.firstPhase (s : State) (set : List Nat × W64) : W32 × State :=
  if set.2 &&& ~~~(BitVec.ofNat 64 (2 ^ s.pkg)) = 0 then (0, s)
  else
    let (n, s) := s.draw
    (if Config.pick n % 2 = 0 then 0 else BitVec.ofNat 32 (Config.word n).toNat, s)

/-- Core `id`, a participant of instance `i`, has configured it with entry `n` and `p` (R281, R284, R285): it and the instances `rest`,
which its SET overlaps, become one. It breaks with MISMATCH where another participant, BROKEN or not, holds another entry or P, or P
others have configured it since a break. -/
def State.enterInst (s : State) (i : BarInst) (rest : List BarInst) (id : Nat) (n : Fin 32) (p : BitVec 16) : State :=
  let s := s.mergeInsts i rest
  match s.inst? i.no with
  | none => s
  | some i =>
    let vs := s.otherViews i id
    let clash := vs.any (fun v => v.scope != n || v.p != p) || decide (p.toNat ≤ (armedViews vs).length)
    let s := s.armIn i id n p
    if clash then s.breakInst i.no 3 else s

/-- Core `id` configures barrier `a` with entry `n` and `p`, and joins the instances that its SET overlaps, or a new one. -/
def State.joinBar (s : State) (id : Nat) (a : Bar) (n : Fin 32) (p : BitVec 16) : State :=
  let c := s.core id
  let set := s.setOf c n
  match s.instsOver c.ctxId a set with
  | [] =>
    let (no, s) := s.newNo
    let (ph, s) := s.firstPhase set
    let i : BarInst := { no := no, ctx := c.ctxId, bar := a, scope := n, p := p, phase := ph
                         parts := [⟨id, false, set⟩], break_ := none }
    ({ s with barInsts := s.barInsts ++ [i] }).setCore ((s.core id).setBar a (i.view n p))
  | i :: rest => (s.setInst { i with parts := i.parts ++ [⟨id, false, set⟩] }).enterInst
      { i with parts := i.parts ++ [⟨id, false, set⟩] } rest id n p

/-- A core whose view is BROKEN configures its instance again, with the SET of its entry as it now is: it stays in the part of its
instance that this SET hangs together with (R281, R282, R284). -/
def State.rejoin (s : State) (i : BarInst) (id : Nat) (n : Fin 32) (p : BitVec 16) : State :=
  let set := s.setOf (s.core id) n
  let s := s.setInst { i with parts := i.parts.map (fun q => if q.key = id then ⟨id, false, set⟩ else q) }
  let s := s.splitInst i.parts.length i.no
  match s.inst? (s.core id).bars[i.bar].inst with
  | none => s
  | some j => s.enterInst j ((s.instsOver i.ctx i.bar set).filter (·.no != j.no)) id n p

/-- A break that has reached the root of an instance (R282). -/
def State.breakNow (s : State) (no : Nat) : State :=
  match s.inst? no with
  | none => s
  | some i => match i.break_ with
    | none => s
    | some r =>
      let s := { s with cores := s.cores.map (fun (c : Core) => if (c.bars[i.bar]).of i then c.dropArrivals i.bar else c) }
      let s := s.mapViews i (fun (v : BarView) => if v.state = .broken then v else { v with state := .broken, breason := r })
      s.setInst { i with break_ := none, parts := i.parts.map BarPart.gone }

/-- `barset` (R285): a matching configuration that is not BROKEN changes nothing; a BROKEN one rejoins; another one is left first, and
where that breaks the instance, its participants see that break before what the new configuration does. -/
def State.configure (s : State) (id : Nat) (a : Bar) (n : Fin 32) (p : BitVec 16) : State :=
  let c := s.core id
  let v : BarView := c.bars[a]
  if v.state = .unconfigured then s.joinBar id a n p
  else if v.scope = n ∧ v.p = p then
    if v.state = .broken then
      match s.inst? v.inst with
      | some i => s.rejoin i id n p
      | none => s.joinBar id a n p
    else s
  else
    let t := s.leaveBar id a
    let left := t.barInsts.filter (fun i => i.no == v.inst || decide (s.nextNo ≤ i.no))
    (left.foldl (fun t i => t.breakNow i.no) t).joinBar id a n p

/-! ### Words -/

/-- The acknowledgement of a barset; its cycles are open up to the bound of R289 (log 3). -/
def execBarset (h : Hdr) (a : Bar) (b : GReg) (dis : Bool) (s : State) : Host.Outcome State Fault Refusal :=
  s.issue h 0x65 (fun c =>
    let (d, s) := s.draw
    if dis then .go (s.leaveBar c.id a) { lat := some (1 + Config.delay d), fixed := false }
    else
      let w := c.rd h.eng b
      let n : Fin 32 := Fin.ofNat 32 (bits w 0 5)
      let p := bits w 16 16
      if bits w 5 11 ≠ 0 ∨ bits w 32 32 ≠ 0 ∨ p = 0 ∨ !(c.scopes[n]).valid ∨ s.setLimit c n < p then .illegal 0x0D
      else .go (s.configure c.id a n (BitVec.ofNat 16 p)) { lat := some (1 + Config.delay d), fixed := false })

/-- `bararr` (R284, R286). After an arrival whose phase is not released it issues, and holds X until the release; it then arrives for
the next phase. Phase 2 of its record is that wait. -/
def execBararr (h : Hdr) (a : Bar) (s : State) : Host.Outcome State Fault Refusal :=
  s.issue h 0x66 (fun c =>
    let v := c.bars[a]
    let e := c.scopes[v.scope]
    let go (wait : Bool) : Judged := .go s
      { lat := none, fixed := false, holds := if wait then some .barrier else none
        body := .word (.bararr h a) [BitVec.ofNat 64 e.cmask.toNat, BitVec.ofNat 64 e.reach.toNat] [] 0 (if wait then 2 else 0) 0 }
    match v.state with
    | .unconfigured => .illegal 0x0D
    | .broken => .go s {}
    | .partly => go true
    | .armed | .released => go (c.acts.any (·.arrives a)))

/-- The arrival is asserted once every earlier access that the release waits for is performed; a word that waits for a release goes on
after it. -/
def State.runBararr (s : State) (id : Nat) (x : Act) : State :=
  let c := s.core id
  match x.body with
  | .word (.bararr _ a) [cm, re] _ _ 0 _ =>
    if s.releaseMet c x.seq x.id (BitVec.ofNat 16 cm.toNat) (BitVec.ofNat 3 re.toNat) then
      let v : BarView := c.bars[a]
      let s := s.setCore ((c.complete x).setBar a { v with state := .partly })
      match s.inst? v.inst with
      | some i => s.setInst { i with parts := i.parts.map (fun p => if p.key = id then { p with here := true } else p) }
      | none => s
    else s
  | .word (.bararr h a) v els shp _ _ =>
    match (c.bars[a]).state with
    | .partly => s
    | .broken | .unconfigured => s.setCore (c.complete x)
    | .armed | .released =>
      if c.noneBefore x (·.arrives a) then
        s.setCore (c.setAct { x with holds := none, body := .word (.bararr h a) v els shp 0 0 })
      else s
  | _ => s

/-- The tests of R287 but for the timeout: a status, or none while the arrival's phase is not released. -/
def Core.barTest (c : Core) (a : Bar) : Option Nat :=
  match (c.bars[a]).state with
  | .unconfigured => some 4
  | .broken => some 2
  | .partly => none
  | .armed => if c.acts.any (·.arrives a) then none else some 3
  | .released => if c.acts.any (·.arrives a) then none else some 0

/-- The result's layout. -/
def barResult (c : Core) (a : Bar) (st : Nat) : W64 := pack [(st, 0), ((c.bars[a]).phase.toNat, 32)]

def execBarwait (h : Hdr) (d : GReg) (a : Bar) (b : GReg) (s : State) : Host.Outcome State Fault Refusal :=
  s.issue h 0x67 (fun c =>
    .go s { lat := none, fixed := false, holds := some .barrier, body := .word (.barwait h d a b) [c.rd h.eng b] [] 0 0 0 })

/-- A `barwait` decides: it lands no earlier than p + 7 (R52). -/
def State.endBarwait (s : State) (id : Nat) (x : Act) (d : GReg) (a : Bar) (st : Nat) : State :=
  let c := s.core id
  s.setCore (c.setAct { x with due := some (max (s.cycle c) (x.issued + 7)), body := .plain
                               writes := [.g x.handler d (barResult c a st)] })

/-- A `barwait` tests (R287). An OK is an acquire, made after every earlier release of X (R187, R289). -/
def State.runBarwait (s : State) (id : Nat) (x : Act) : State :=
  let c := s.core id
  match x.body with
  | .word (.barwait _ d a _) _ _ _ 0 _ =>
    match c.barTest a with
    | some 0 => if s.releasesDone c x.seq x.id then s.endBarwait id x d a 0 else s
    | some st => s.endBarwait id x d a st
    | none => s
  | _ => s

/-- A `barwait` whose timeout has come while its phase is not released. -/
def State.barwaitOver (s : State) (c : Core) (x : Act) : Bool :=
  match x.body with
  | .word (.barwait _ _ a _) [t] _ _ 0 _ => (c.barTest a).isNone && decide (t.toNat ≤ s.cycle c - x.issued)
  | _ => false

/-- The timeout of a `barwait`; the arrival stands. -/
def execBarwaitTimeout (core act : Nat) (s : State) : Host.Outcome State Fault Refusal :=
  let c := s.core core
  match c.act? act with
  | some x => match x.body with
    | .word (.barwait _ d a _) _ _ _ _ _ => if s.barwaitOver c x then .next (s.endBarwait core x d a 1) else .next s
    | _ => .next s
  | none => .next s

/-- `bartry` tests once, at issue, and lands at p + 7. -/
def execBartry (h : Hdr) (d : GReg) (a : Bar) (s : State) : Host.Outcome State Fault Refusal :=
  s.issue h 0x68 (fun c =>
    let st := (c.barTest a).getD 1
    if st = 0 ∧ !s.releasesDone c h.eng c.nextAct then .wait .structural
    else .go s (Eff.scalar c h.eng 8 d (barResult c a st)))

/-! ### The root (R282, R284)

The participants of an instance on other packages are not in the state: what they do reaches the root at a free time (log 27). -/

/-- At most P participants configure an instance, so the rest of P may have arrived elsewhere only once all that have configured it here
since a break have arrived. -/
def State.othersArrive (s : State) (i : BarInst) : Bool :=
  let here := i.parts.filter (fun p => match s.partView i p.key with | some v => v.state != .broken | none => false)
  here.all (·.here) && !here.isEmpty && decide (i.p.toNat ≤ here.length + 576 * s.othersOfInst i)

/-- A participant elsewhere may break an instance that is not yet broken here. -/
def State.othersBreak (s : State) (i : BarInst) : Bool :=
  decide (0 < s.othersOfInst i) && i.break_.isNone
    && i.parts.any (fun p => match s.partView i p.key with | some v => v.state != .broken | none => false)

/-- Their break is on its way to the root: a context fault, a PEERLIVE bit that cleared there, a mismatch, or a participant that left. -/
def State.breakElsewhere (s : State) (i : BarInst) : State :=
  let (n, s) := s.draw
  s.breakInst i.no (BitVec.ofNat 3 (1 + Config.pick n % 4))

/-- Whether the root has something to decide. -/
def BarInst.ready (i : BarInst) : Bool := i.break_.isSome || decide (i.p.toNat ≤ (i.parts.filter (·.here)).length)

/-- The root decides a phase: a break wins over a release. -/
def execBarrierRelease (inst : Nat) (s : State) : Host.Outcome State Fault Refusal :=
  match s.inst? inst with
  | none => .next s
  | some i =>
    if i.break_.isSome then .next (s.breakNow inst)
    else if i.ready || s.othersArrive i then
      let s := s.mapViews i (fun (v : BarView) =>
        { v with phase := i.phase + 1, state := if v.state = .partly then .released else v.state })
      .next (s.setInst { i with phase := i.phase + 1, parts := i.parts.map BarPart.gone })
    else .next s

/-- Deconfigures every barrier of a core whose task ends (R282). -/
def State.leaveBars (s : State) (id : Nat) : State := (List.finRange 64).foldl (fun s a => s.leaveBar id a) s

/-- A saved task that is discarded leaves its instances. -/
def State.leaveSaved (s : State) (v : Saved) : State :=
  v.core.bars.toList.foldl (fun s (b : BarView) => if b.state = .unconfigured then s else s.removePart b.inst (576 + v.slot)) s

/-- A task's participation moves from one key to another, as it is saved or restored. -/
def State.moveParts (s : State) (x : Fin 64) (old new : Nat) : State :=
  { s with barInsts := s.barInsts.map (fun i =>
      if i.ctx == x then { i with parts := i.parts.map (fun p => if p.key = old then { p with key := new } else p) } else i) }

end Sys2Proof.Machine
end

