-- ==== Sys2Proof/Machine/Clock.lean ====
section
/-! DEFINITION. Device time (R342, R343, R349): the measurements that correct it, and the host's time commands. -/
namespace Sys2Proof.Machine

/-- The largest offset that is slewed, in ns (R343). -/
def slewLimit : Nat := 1000

/-- OFFSET holds a signed 32-bit count of ns; for a larger offset the spec states no value (log 39). -/
def State.noteOffset (s : State) (off : Int) : State :=
  if -(2 ^ 31) ≤ off ∧ off < 2 ^ 31 then { s with timeOff := BitVec.ofInt 32 off }
  else
    let (n, s) := s.draw
    { s with timeOff := (Config.word n).truncate 32 }

/-- The contexts that exist, which take an event posted to every context. -/
def State.liveCtxs (s : State) : List (Fin 64) :=
  (List.finRange 64).filter (fun x => (s.ctx x).state != .free && (s.ctx x).state != .destroyed)

/-- DTIME `off` ns on, modulo 2^64 ns. -/
def dtimePlus (d9 : Nat) (off : Int) : Nat := (((d9 : Int) + 9 * off) % (9 * 2 ^ 64)).toNat

/-- An offset of DTIME from its reference is corrected: slewed, or stepped with event 0x09 (R343). -/
def State.correct (s : State) (off : Int) : State :=
  let s := s.noteOffset off
  if off.natAbs ≤ slewLimit then { s with slew9 := 9 * off }
  else
    let s := { s with dtime9 := dtimePlus s.dtime9 off, slew9 := 0, stepped := true }
    s.liveCtxs.foldl (fun s x => s.postEvent x 0x09 (BitVec.ofInt 64 off)) s

/-- A time source is in use: its LOCK bit, and no holdover. -/
def State.lockTo (s : State) (bit : BitVec 2) : State := { s with timeLock := s.timeLock ||| bit, holdover := false }

/-- PPSDELAY, signed ns (R349). -/
def State.ppsDelay (s : State) : Int := signedOf 32 (bits s.timeCtl 32 32)

/-- How far DTIME is behind the nearest time at which a 1PPS edge arrives: a whole TAI second and the cable delay. -/
def State.ppsOffset (s : State) : Int :=
  let d := (s.ppsDelay - (s.dtime.toNat : Int)) % 1000000000
  if d < 500000000 then d else d - 1000000000

def execPpsEdge (s : State) : Host.Outcome State Fault Refusal :=
  .next (if bitSet s.timeCtl.toNat 1 then (s.lockTo 2).correct s.ppsOffset else s)

/-- A PTM exchange on link A: TAI less DTIME, in ns. -/
def execPtmMeasurement (offset : Int) (s : State) : Host.Outcome State Fault Refusal :=
  .next (if bitSet s.timeCtl.toNat 0 then (s.lockTo 1).correct offset else s)

def execTimeSourceLoss (s : State) : Host.Outcome State Fault Refusal :=
  .next { s with timeLock := 0, holdover := true, slew9 := 0 }

/-- TIMESET is taken only while LOCK is 0 (R349). -/
def State.setTime (s : State) (v : W64) : State := if s.timeLock = 0 then { s with dtime9 := 9 * v.toNat, slew9 := 0 } else s

def execTimeset (v : W64) (s : State) : Host.Outcome State Fault Refusal := .next (s.setTime v)

def State.clearStep (s : State) : State := { s with stepped := false }

def execStepclr (s : State) : Host.Outcome State Fault Refusal := .next s.clearStep

/-- A pulse is 4 ninths of a ns. While an offset is being slewed, DTIME gains or loses a further ninth in at most one of 2500
pulses: up to 100 ppm (R343; log 3). -/
def State.passTime (s : State) : State :=
  let s := { s with dtime9 := (s.dtime9 + 4) % (9 * 2 ^ 64) }
  if s.slew9 = 0 ∨ s.pulse % 2500 ≠ 0 ∨ Config.pick s.free % 2 = 0 then s
  else if 0 < s.slew9 then { s with dtime9 := (s.dtime9 + 1) % (9 * 2 ^ 64), slew9 := s.slew9 - 1 }
  else { s with dtime9 := s.dtime9 - 1, slew9 := s.slew9 + 1 }

end Sys2Proof.Machine
end

