-- ==== Sys2Proof/Machine/Scalar.lean ====
section
/-! DEFINITION. Scalar arithmetic of every sequencer (R75 to R78). -/
namespace Sys2Proof.Machine

/-- The low six bits of a shift count. -/
def shiftOf (b : W64) : Nat := b.toNat % 64

def flag (b : Bool) : W64 := if b then 1 else 0

def wMin (a b : W64) : W64 := if a.slt b then a else b
def wMax (a b : W64) : W64 := if a.slt b then b else a
def wMinu (a b : W64) : W64 := if a.ult b then a else b
def wMaxu (a b : W64) : W64 := if a.ult b then b else a
def wMulh (a b : W64) : W64 := BitVec.ofInt 64 (a.toInt * b.toInt / 2 ^ 64)
def wMulhu (a b : W64) : W64 := BitVec.ofNat 64 (a.toNat * b.toNat / 2 ^ 64)

/-- Leading zeros: 64 for 0 (R75). -/
def wClz (a : W64) : W64 := BitVec.ofNat 64 (if a = 0 then 64 else 63 - a.toNat.log2)

/-- The number of one bits among the low n. -/
def onesBelow (v : Nat) : Nat → Nat
  | 0 => 0
  | n + 1 => onesBelow v n + v / 2 ^ n % 2

def wPopc (a : W64) : W64 := BitVec.ofNat 64 (onesBelow a.toNat 64)

/-- `bfx` (R78). -/
def fieldOut (a : W64) (pos wid : Nat) (sx : Bool) : W64 :=
  let f := a.toNat / 2 ^ pos % 2 ^ wid
  if sx then BitVec.ofInt 64 (signedOf wid f) else BitVec.ofNat 64 f

/-- `bfi` (R78). -/
def fieldIn (a b : W64) (pos wid : Nat) : W64 :=
  let m := BitVec.ofNat 64 ((2 ^ wid - 1) * 2 ^ pos)
  (a &&& ~~~m) ||| (BitVec.ofNat 64 (b.toNat * 2 ^ pos) &&& m)

/-- IMM32 sign-extended (R41). -/
def sx32 (i : W32) : W64 := i.signExtend 64

/-- A fixed-latency word that writes gD from its operands. -/
def State.scalar1 (s : State) (h : Hdr) (opc lat : Nat) (d a : GReg) (f : W64 → W64) : Host.Outcome State Fault Refusal :=
  s.issue h opc (fun c => .go s (Eff.scalar c h.eng lat d (f (c.rd h.eng a))))

def State.scalar2 (s : State) (h : Hdr) (opc lat : Nat) (d a b : GReg) (f : W64 → W64 → W64) :
    Host.Outcome State Fault Refusal :=
  s.issue h opc (fun c => .go s (Eff.scalar c h.eng lat d (f (c.rd h.eng a) (c.rd h.eng b))))

def State.scalar3 (s : State) (h : Hdr) (opc lat : Nat) (d a b e : GReg) (f : W64 → W64 → W64 → W64) :
    Host.Outcome State Fault Refusal :=
  s.issue h opc (fun c => .go s (Eff.scalar c h.eng lat d (f (c.rd h.eng a) (c.rd h.eng b) (c.rd h.eng e))))

/-! ### Register forms (R75): ALU latency 1, multiplies 4 (R48) -/

def execAdd (h : Hdr) (d a b : GReg) (s : State) := s.scalar2 h 0x04 1 d a b (fun x y => x + y)
def execSub (h : Hdr) (d a b : GReg) (s : State) := s.scalar2 h 0x05 1 d a b (fun x y => x - y)
def execMul (h : Hdr) (d a b : GReg) (s : State) := s.scalar2 h 0x06 4 d a b (fun x y => x * y)
def execMulh (h : Hdr) (d a b : GReg) (s : State) := s.scalar2 h 0x07 4 d a b wMulh
def execMulhu (h : Hdr) (d a b : GReg) (s : State) := s.scalar2 h 0x08 4 d a b wMulhu
def execMadd (h : Hdr) (d a b c : GReg) (s : State) := s.scalar3 h 0x16 4 d a b c (fun x y z => x * y + z)
def execAnd (h : Hdr) (d a b : GReg) (s : State) := s.scalar2 h 0x09 1 d a b (fun x y => x &&& y)
def execOr (h : Hdr) (d a b : GReg) (s : State) := s.scalar2 h 0x0A 1 d a b (fun x y => x ||| y)
def execXor (h : Hdr) (d a b : GReg) (s : State) := s.scalar2 h 0x0B 1 d a b (fun x y => x ^^^ y)
def execShl (h : Hdr) (d a b : GReg) (s : State) := s.scalar2 h 0x0C 1 d a b (fun x y => x <<< shiftOf y)
def execShr (h : Hdr) (d a b : GReg) (s : State) := s.scalar2 h 0x0D 1 d a b (fun x y => x >>> shiftOf y)
def execSar (h : Hdr) (d a b : GReg) (s : State) := s.scalar2 h 0x0E 1 d a b (fun x y => x.sshiftRight (shiftOf y))
def execMin (h : Hdr) (d a b : GReg) (s : State) := s.scalar2 h 0x0F 1 d a b wMin
def execMax (h : Hdr) (d a b : GReg) (s : State) := s.scalar2 h 0x10 1 d a b wMax
def execMinu (h : Hdr) (d a b : GReg) (s : State) := s.scalar2 h 0x11 1 d a b wMinu
def execMaxu (h : Hdr) (d a b : GReg) (s : State) := s.scalar2 h 0x12 1 d a b wMaxu
def execSlt (h : Hdr) (d a b : GReg) (s : State) := s.scalar2 h 0x13 1 d a b (fun x y => flag (x.slt y))
def execSltu (h : Hdr) (d a b : GReg) (s : State) := s.scalar2 h 0x14 1 d a b (fun x y => flag (x.ult y))
def execSeq (h : Hdr) (d a b : GReg) (s : State) := s.scalar2 h 0x15 1 d a b (fun x y => flag (x == y))
def execSel (h : Hdr) (d a b c : GReg) (s : State) :=
  s.scalar3 h 0x17 1 d a b c (fun x y z => if z ≠ 0 then x else y)
def execClz (h : Hdr) (d a : GReg) (s : State) := s.scalar1 h 0x22 1 d a wClz
def execPopc (h : Hdr) (d a : GReg) (s : State) := s.scalar1 h 0x23 1 d a wPopc

/-! ### Immediate forms (R76, R77) -/

def execAddi (h : Hdr) (d a : GReg) (imm : W32) (s : State) := s.scalar1 h 0x18 1 d a (fun x => x + sx32 imm)
def execAndi (h : Hdr) (d a : GReg) (imm : W32) (s : State) := s.scalar1 h 0x19 1 d a (fun x => x &&& sx32 imm)
def execOri (h : Hdr) (d a : GReg) (imm : W32) (s : State) := s.scalar1 h 0x1A 1 d a (fun x => x ||| sx32 imm)
def execXori (h : Hdr) (d a : GReg) (imm : W32) (s : State) := s.scalar1 h 0x1B 1 d a (fun x => x ^^^ sx32 imm)
def execShli (h : Hdr) (d a : GReg) (imm : Fin 64) (s : State) := s.scalar1 h 0x1C 1 d a (fun x => x <<< imm.val)
def execShri (h : Hdr) (d a : GReg) (imm : Fin 64) (s : State) := s.scalar1 h 0x1D 1 d a (fun x => x >>> imm.val)
def execSari (h : Hdr) (d a : GReg) (imm : Fin 64) (s : State) := s.scalar1 h 0x1E 1 d a (fun x => x.sshiftRight imm.val)
def execSlti (h : Hdr) (d a : GReg) (imm : W32) (s : State) := s.scalar1 h 0x1F 1 d a (fun x => flag (x.slt (sx32 imm)))

def execLdi (h : Hdr) (d : GReg) (imm : BitVec 42) (s : State) := s.scalar1 h 0x20 1 d 0 (fun _ => imm.signExtend 64)
def execOrhi (h : Hdr) (d : GReg) (imm : BitVec 22) (s : State) :=
  s.scalar1 h 0x21 1 d d (fun x => (x &&& 0x3FF_FFFF_FFFF) ||| (imm.setWidth 64 <<< 42))

/-! ### Fields (R78) -/

def execBfx (h : Hdr) (d a : GReg) (pos : Fin 64) (wid : Nat) (sx : Bool) (s : State) :=
  s.scalar1 h 0x24 1 d a (fun x => fieldOut x pos.val wid sx)
def execBfi (h : Hdr) (d a b : GReg) (pos : Fin 64) (wid : Nat) (s : State) :=
  s.scalar2 h 0x25 1 d a b (fun x y => fieldIn x y pos.val wid)

end Sys2Proof.Machine
end

