-- ==== Sys2Proof/Machine/Control.lean ====
section
/-! DEFINITION. Control flow, tokens, sysregs, pause, software traps, fences, nop, end, exit and resume (R79 to R92), and the
steps that complete them: landings, sysreg writes with a step of their own, handler entry and token deadlock. -/
namespace Sys2Proof.Machine

/-! ### nop and end (R90, R66) -/

def execNop (h : Hdr) (s : State) : Host.Outcome State Fault Refusal := s.issue h 0x00 (fun _ => .go s {})

/-- `exit` holds X until the task can end (R67). Its PUSH counts at issue (R54) and is carried by a record of its own. -/
def State.exitWord (s : State) (h : Hdr) (opc : Nat) : Host.Outcome State Fault Refusal :=
  s.issue { h with push := none } opc (fun c =>
    let pc := c.nextPc h.eng
    if c.inHandler then .illegal 0x0D
    else
      .go s { lat := none, fixed := false, body := .exit, holds := some .exit
              after := fun c => match h.push with
                | none => c
                | some b =>
                  let a : Act := { id := c.nextAct, seq := h.eng, pc := pc, opc := 0, handler := false, tag := none, push := some b
                                   popped := false, resumed := false, holds := none, issued := s.cycle c
                                   due := some (s.cycle c), fixed := true, writes := [], body := .plain }
                  { c with acts := c.acts ++ [a], nextAct := c.nextAct + 1 } })

/-- `end` ends L, C and S; in X it is `exit` (R66). -/
def execEndW (h : Hdr) (s : State) : Host.Outcome State Fault Refusal :=
  if h.eng = .x then s.exitWord h 0x01
  else s.issue h 0x01 (fun _ => .go s { after := fun c => c.setSeq h.eng { c.seq h.eng with status := .ended, why := .none } })

/-! ### Branches (R42, R79 to R81) -/

/-- A branch: taken to `target` (an index, perhaps outside the stream), or not. A taken branch outside the stream is illegal
and has no effect (R81). -/
def State.branch (s : State) (h : Hdr) (opc : Nat) (taken : Core → Bool) (target : Core → Int) (writes : Core → List Write) :
    Host.Outcome State Fault Refusal :=
  s.issue h opc (fun c =>
    if taken c then
      let t := target c
      if t < 0 ∨ ((c.seq h.eng).streamLen.toNat : Int) ≤ t then .illegal 0x0D
      else .go s { writes := writes c, next := some (BitVec.ofNat 32 t.toNat) }
    else .go s { writes := writes c })

/-- The branch's own index plus OFF32 (R42). -/
def relTarget (q : Seq) (off : W32) (c : Core) : Int := ((c.nextPc q).toNat : Int) + off.toInt

/-- A compare and branch. -/
def State.branchIf (s : State) (h : Hdr) (opc : Nat) (a b : GReg) (off : W32) (p : W64 → W64 → Bool) :
    Host.Outcome State Fault Refusal :=
  s.branch h opc (fun c => p (c.rd h.eng a) (c.rd h.eng b)) (relTarget h.eng off) (fun _ => [])

def execBeq (h : Hdr) (a b : GReg) (off : W32) (s : State) := s.branchIf h 0x28 a b off (fun x y => x == y)
def execBne (h : Hdr) (a b : GReg) (off : W32) (s : State) := s.branchIf h 0x29 a b off (fun x y => x != y)
def execBlt (h : Hdr) (a b : GReg) (off : W32) (s : State) := s.branchIf h 0x2A a b off (fun x y => x.slt y)
def execBge (h : Hdr) (a b : GReg) (off : W32) (s : State) := s.branchIf h 0x2B a b off (fun x y => !x.slt y)
def execBltu (h : Hdr) (a b : GReg) (off : W32) (s : State) := s.branchIf h 0x2C a b off (fun x y => x.ult y)
def execBgeu (h : Hdr) (a b : GReg) (off : W32) (s : State) := s.branchIf h 0x2D a b off (fun x y => !x.ult y)

def execJmp (h : Hdr) (off : W32) (s : State) : Host.Outcome State Fault Refusal :=
  s.branch h 0x2E (fun _ => true) (relTarget h.eng off) (fun _ => [])

def execJal (h : Hdr) (a : GReg) (off : W32) (s : State) : Host.Outcome State Fault Refusal :=
  s.branch h 0x2F (fun _ => true) (relTarget h.eng off)
    (fun c => [.g (c.usesHandler h.eng) a (BitVec.ofNat 64 ((c.nextPc h.eng).toNat + 1))])

def execLoop (h : Hdr) (a : GReg) (off : W32) (s : State) : Host.Outcome State Fault Refusal :=
  s.branch h 0x31 (fun c => c.rd h.eng a - 1 != 0) (relTarget h.eng off)
    (fun c => [.g (c.usesHandler h.eng) a (c.rd h.eng a - 1)])

/-- `jr`: the target is gA, unsigned (R80). -/
def execJr (h : Hdr) (a : GReg) (s : State) : Host.Outcome State Fault Refusal :=
  s.branch h 0x30 (fun _ => true) (fun c => ((c.rd h.eng a).toNat : Int)) (fun _ => [])

/-! ### Token instructions (R82 to R84) -/

/-- n = gA + IMM32 of `tsig` and `twait`, as a signed 64-bit value. -/
def tokenCount (c : Core) (q : Seq) (a : GReg) (imm : W32) : Int := (c.rd q a + sx32 imm).toInt

def execTsig (h : Hdr) (q : Seq) (a : GReg) (imm : W32) (s : State) : Host.Outcome State Fault Refusal :=
  s.issue h 0x34 (fun c =>
    let n := tokenCount c h.eng a imm
    if c.usesHandler h.eng || n < 0 || 15 < n then .illegal 0x0D
    else .go s { lat := none, fixed := false, body := .tsig q n.toNat, holds := some .fence })

/-- A waiting `tsig` completes: with a PUSH to the same queue, both or neither count (R82). -/
def Core.finishTsig (c : Core) (a : Act) (q : Seq) (n : Nat) : Core :=
  if a.push = some q then (c.complete { a with push := none }).pushTokens a.seq q (n + 1) a.pc true
  else (c.complete a).pushTokens a.seq q n a.pc true

def execTwait (h : Hdr) (q : Seq) (a : GReg) (imm : W32) (s : State) : Host.Outcome State Fault Refusal :=
  s.issue h 0x35 (fun c =>
    let n := tokenCount c h.eng a imm
    if c.usesHandler h.eng || n < 0 || 15 < n || ((c.ceiling q h.eng : Nat) : Int) < n then .illegal 0x0D
    else
      let pops := if h.pop = some q && !c.hasPopped h.eng 0x35 then 1 else 0
      if c.tokens q h.eng < n.toNat + pops then .wait .token
      else .go (s.setCore (c.setTokens q h.eng (c.tokens q h.eng - n.toNat))) {})

def execTqrd (h : Hdr) (d : GReg) (a b : Seq) (s : State) : Host.Outcome State Fault Refusal :=
  s.issue h 0x36 (fun c => .go s (Eff.scalar c h.eng 1 d (BitVec.ofNat 64 (nib c.tqSnap (queueNo a b)))))

/-! ### Sysregs (R85) -/

/-- The sysreg index gA + IMM32, or none outside 0x000 to 0xFFF. -/
def sysIndex (c : Core) (q : Seq) (a : GReg) (imm : W32) : Option Nat :=
  let i := (c.rd q a + sx32 imm).toNat
  if i ≤ 0xFFF then some i else none

def execSysr (h : Hdr) (d a : GReg) (imm : W32) (s : State) : Host.Outcome State Fault Refusal :=
  s.issue h 0x38 (fun c =>
    match sysIndex c h.eng a imm with
    | none => .illegal 0x0D
    | some i =>
      if c.sysDenied h.eng i then .trap .permission 0
      else .go s (Eff.scalar c h.eng 4 d (s.atStart.sysRead (s.atStart.core c.id) h.eng i)))

def execSysw (h : Hdr) (d a : GReg) (imm : W32) (s : State) : Host.Outcome State Fault Refusal :=
  s.issue h 0x39 (fun c =>
    match sysIndex c h.eng a imm with
    | none => .illegal 0x0D
    | some i =>
      if c.sysDenied h.eng i then .trap .permission 0
      else if writeIsEvent i then .go s { body := .sysw i (c.rd h.eng d) }
      else .go s { writes := [.sysreg i (c.rd h.eng d)] })

/-- An issued `sysw` of core `id` whose write is due, if its index is one of `ok`. -/
def State.dueSysw (s : State) (id act : Nat) (ok : Nat → Bool) : Option (Act × Nat × W64) :=
  match (s.core id).act? act with
  | some a => match a.body with
    | .sysw i v => if ok i then some (a, i, v) else none
    | _ => none
  | none => none

/-- The write of such a `sysw`, and the word's completion. -/
def State.sysEvent (s : State) (id act : Nat) (ok : Nat → Bool) (f : State → Nat → W64 → State) :
    Host.Outcome State Fault Refusal :=
  match s.dueSysw id act ok with
  | some (a, i, v) =>
    let s := f s i v
    .next (s.setCore ((s.core id).complete a))
  | none => .next s

/-- TQCEIL (R153). -/
def execTqceilWrite (core act : Nat) (s : State) : Host.Outcome State Fault Refusal :=
  s.sysEvent core act (· == 0x300) (fun s _ v =>
    let c := s.core core
    s.setCore { c with tqceil := ceilWrite c.tqceil v 16 })

/-- TQCNT, a handler's (R153). -/
def execTqcntWrite (core act : Nat) (s : State) : Host.Outcome State Fault Refusal :=
  s.sysEvent core act (· == 0x301) (fun s _ v =>
    let c := s.core core
    s.setCore { c with tqcnt := cntWrite c.tqcnt v 16 })

/-- An amax register, before merges of the same cycle (R126). -/
def execAmaxWrite (core act : Nat) (s : State) : Host.Outcome State Fault Refusal :=
  s.sysEvent core act (fun i => 0x118 ≤ i && i ≤ 0x11B) (fun s i v =>
    let c := s.core core
    s.setCore { c with amax := c.amax.set (Fin.ofNat 4 (i - 0x118)) (amaxMask v) })

/-! ### Writes that spread (R185, R221) -/

/-- The pulses a write takes to reach another core or the units: at most 256 cycles (R185, R221). -/
def spreadLimit : Nat := 256

/-- The two write one register. -/
def Spreading.same : Spreading → Spreading → Bool
  | .dcf i _, .dcf k _ => i == k
  | .scope i j _, .scope k l _ => i == k && j == l
  | _, _ => false

/-- Sends a write to core `k`, or to the units (none), from core `src`. It arrives after every write sent there before it (DEDUCED,
log 65). -/
def State.spread (s : State) (x : Fin 64) (src : Nat) (w : Spreading) (k : Option Nat) : State :=
  let (n, s) := s.draw
  let (no, s) := s.newNo
  let ahead := (s.props.filter (fun p => p.ctx == x && p.core == k)).foldl (fun t p => max t p.due) 0
  { s with props := s.props ++ [⟨no, x, k, w, src, max ahead (s.pulse + Config.delay n % (spreadLimit + 1))⟩] }

/-- A core's own write takes the place of those sent to it before. -/
def State.outdate (s : State) (id : Nat) (w : Spreading) : State :=
  { s with props := s.props.filter (fun p => p.core != some id || !w.same p.what) }

/-- The other cores that run tasks of context `x`. -/
def State.othersOf (s : State) (x : Fin 64) (id : Nat) : List Nat :=
  (s.cores.filter (fun c => c.task.isSome && c.ctxId == x && c.id != id)).map (·.id)

/-- A spread write arrives at a core of its context. -/
def Core.takeSpread (c : Core) : Spreading → Core
  | .dcf i v => { c with dcf := c.dcf.set i v }
  | .scope i j v => { c with scopes := c.scopes.set i ((c.scopes[i]).sysWrite i j v) }

/-- A spreading write arrives: at the units, or at its core while that runs a task of the context. -/
def State.arrive (s : State) (k : Nat) (ok : Spreading → Bool) : State :=
  match s.props.find? (fun p => p.no == k && ok p.what) with
  | none => s
  | some p =>
    let s := { s with props := s.props.filter (·.no != k) }
    match p.core with
    | some id =>
      let c := s.core id
      if c.task.isSome && c.ctxId == p.ctx then s.setCore (c.takeSpread p.what) else s
    | none => match p.what with
      | .dcf i v => s.setCtx p.ctx { s.ctx p.ctx with unitDcf := (s.ctx p.ctx).unitDcf.set i v }
      | .scope _ _ _ => s

def Spreading.isDcf : Spreading → Bool
  | .dcf _ _ => true
  | .scope _ _ _ => false

/-- A melt factor (R221): a value outside (0, 1] is dropped. -/
def execDcfWrite (core : Nat) (sp : Spread) (s : State) : Host.Outcome State Fault Refusal :=
  match sp with
  | .own act => s.sysEvent core act (fun i => 0x590 ≤ i && i ≤ 0x59F) (fun s i v =>
      let k : Fin 16 := Fin.ofNat 16 (i - 0x590)
      let f : W32 := BitVec.ofNat 32 v.toNat
      if factorOk f then
        let c := s.core core
        let x := c.ctxId
        let s := (s.outdate core (.dcf k f)).setCore { c with dcf := c.dcf.set k f }
        let s := s.setCtx x { s.ctx x with dcf := (s.ctx x).dcf.set k f }
        let s := (s.othersOf x core).foldl (fun s o => s.spread x core (.dcf k f) (some o)) s
        s.spread x core (.dcf k f) none
      else s)
  | .arrive k => .next (s.arrive k Spreading.isDcf)

/-- A scope entry (R185). -/
def execScopeEntryWrite (core : Nat) (sp : Spread) (s : State) : Host.Outcome State Fault Refusal :=
  match sp with
  | .own act => s.sysEvent core act (fun i => 0x400 ≤ i && i ≤ 0x4FF) (fun s i v =>
      let k : Fin 32 := Fin.ofNat 32 ((i - 0x400) / 8)
      let c := s.core core
      let x := c.ctxId
      let w : Spreading := .scope k ((i - 0x400) % 8) v
      let s := (s.outdate core w).setCore (c.takeSpread w)
      let s := s.setCtx x { s.ctx x with scopes := (s.ctx x).scopes.set k (((s.ctx x).scopes[k]).sysWrite k ((i - 0x400) % 8) v) }
      (s.othersOf x core).foldl (fun s o => s.spread x core w (some o)) s)
  | .arrive k => .next (s.arrive k (fun w => !w.isDcf))

/-! ### pause and trap (R86, R87) -/

def execPause (h : Hdr) (a : GReg) (imm : W32) (tok : Bool) (s : State) : Host.Outcome State Fault Refusal :=
  s.issue h 0x3A (fun c =>
    let n := (c.rd h.eng a + sx32 imm).toNat % 2 ^ 32
    .go s { lat := none, fixed := false, body := .pause (s.cycle c + n) tok, holds := some .none })

/-- Some token counter into sequencer `q` was nonzero at the start of this cycle. -/
def Core.tokensFor (c : Core) (q : Seq) : Bool :=
  [Seq.x, Seq.l, Seq.c, Seq.s].any (fun a => a != q && nib c.tqSnap (queueNo a q) != 0)

/-- A pause ends in this cycle. -/
def Core.pauseOver (c : Core) (now : Nat) (a : Act) : Bool :=
  match a.body with
  | .pause e tok => decide (e ≤ now) || (tok && c.tokensFor a.seq)
  | _ => false

/-- A pause ends: it completes, and the next word's earliest cycle counts from here (R86). -/
def execPauseEnd (core act : Nat) (s : State) : Host.Outcome State Fault Refusal :=
  let c := s.core core
  match c.act? act with
  | some a =>
    if c.pauseOver (s.cycle c) a then
      let r := c.seq a.seq
      let r := { r with status := if r.status = .paused then .running else r.status
                        earliest := r.earliest + (s.cycle c - a.issued) }
      .next (s.setCore ((c.setSeq a.seq r).complete a))
    else .next s
  | none => .next s

def execTrap (h : Hdr) (a : GReg) (imm : W32) (s : State) : Host.Outcome State Fault Refusal :=
  s.issue h 0x3B (fun c =>
    let info := BitVec.ofNat 64 ((c.rd h.eng a + sx32 imm).toNat % 2 ^ 32)
    .go s { after := fun c => c.raise h.eng .software (c.nextPc h.eng) info })

/-! ### Fences (R88, R89) -/

def execFence (h : Hdr) (kind : FenceKind) (scope : Fin 32) (cmask : BitVec 16) (s : State) :
    Host.Outcome State Fault Refusal :=
  s.issue h 0x3C (fun c =>
    let e := c.scopes[scope]
    if !e.valid then .illegal 0x0D
    else .go s { lat := none, fixed := false, holds := some .fence
                 body := .fence kind (if cmask = 0 then 0xFFFF else cmask) e.reach })

def execQfence (h : Hdr) (inq outq : Bool) (s : State) : Host.Outcome State Fault Refusal :=
  s.issue h 0x3D (fun c => .go s { lat := none, fixed := false, holds := some .fence
                                   body := .qfence (if inq then c.inQ.posted else 0) (if outq then c.outQ.posted else 0) })

/-- Every chain of a queue posted before number `n` has completed. -/
def CopyQueue.doneUpTo (k : CopyQueue) (n : Nat) : Bool := k.chains.all (fun ch => n ≤ ch.no)

/-! ### exit and resume (R91, R92) -/

def execExit (h : Hdr) (s : State) : Host.Outcome State Fault Refusal := s.exitWord h 0x60

/-- Posted chains that have not begun an entry are discarded; of a chain that has, only the entry begun goes on (R68). A FENCE that waits
moves nothing, and is discarded (log 63). -/
def CopyQueue.discard (k : CopyQueue) : CopyQueue :=
  { k with chains := k.chains.filter (·.moving), stopping := true }

/-- `exit.abort` (R68): L, C and S stop, issued words complete, copy entries not begun are discarded. -/
def execExitAbort (h : Hdr) (s : State) : Host.Outcome State Fault Refusal :=
  s.issue h 0x60 (fun c => .go s { after := fun d =>
    let d := d.halt (s.cycle c) .abort
    { d with inQ := d.inQ.discard, outQ := d.outQ.discard } })

/-- `resume` is legal in handler mode only. The core leaves the handler at the end of its cycle, and runs on in the next. -/
def execResume (h : Hdr) (s : State) : Host.Outcome State Fault Refusal :=
  s.issue h 0x79 (fun c =>
    if !c.inHandler then .illegal 0x0D
    else .go s { writes := [.leave] })

/-! ### Handler entry and token deadlock (R65, R69, R70) -/

/-- Every issued word is complete and the core stops for a trap: the trap is taken. -/
def execHandlerEntry (core : Nat) (s : State) : Host.Outcome State Fault Refusal :=
  let c := s.core core
  if c.stop == some .trap && c.acts.isEmpty then .next (s.takeTrap core) else .next s

/-- A sequencer is token-blocked: held only by a POP or `twait` counter (R69). -/
def Core.tokenBlocked (c : Core) (q : Seq) : Bool := (c.seq q).status == .waiting && (c.seq q).why == .token

/-- X waits with reason EXIT. -/
def Core.exitWaits (c : Core) : Bool := c.acts.any (fun a => a.seq == .x && a.body == .exit)

/-- The deadlock condition in this cycle (R69). -/
def Core.deadlocked (c : Core) : Bool :=
  c.task.isSome && c.stop.isNone && !c.inHandler
    && allSeqs.all (fun q => (c.seq q).status == .ended || c.tokenBlocked q || (q == .x && c.exitWaits))
    && allSeqs.any c.tokenBlocked
    && c.acts.all (fun a => a.push.isNone && (match a.body with | .tsig _ _ => false | _ => true))

/-- The queue that the blocked word of `q` waits for: its POP's source if that counter is 0, else its `twait`'s. -/
def State.blockedSource (s : State) (core : Nat) (q : Seq) : Seq :=
  match (s.fetch core q).1 with
  | .word i =>
    let c := s.core core
    match i with
    | .twait h w _ _ => match h.pop with
      | some a => if !c.hasPopped q 0x35 && c.tokens a q == 0 then a else w
      | none => w
    | i => (i.hdr?.bind (·.pop)).getD .x
  | _ => .x

/-- TRAPINFO of TOKEN_DEADLOCK. -/
def State.deadlockInfo (s : State) (core : Nat) : W64 :=
  let c := s.core core
  pack ((allSeqs.map (fun q => (b2n (c.tokenBlocked q), q.idx.val)))
    ++ (allSeqs.map (fun q => (if c.tokenBlocked q then 4 + (s.blockedSource core q).idx.val else 0, 8 + 4 * q.idx.val))))

/-- The condition has held for 256 consecutive cycles (R69). -/
def execTokenDeadlock (core : Nat) (s : State) : Host.Outcome State Fault Refusal :=
  let c := s.core core
  if c.deadlocked && 256 ≤ c.deadlock then
    match allSeqs.find? c.tokenBlocked with
    | some q => .next (s.setCore { c.raise q .tokenDeadlock (c.seq q).pc (s.deadlockInfo core) with deadlock := 0 })
    | none => .next s
  else .next s

/-! ### Landings (R48 to R54) -/

/-- A word of core `id` whose landing cycle has come. -/
def State.dueAct (s : State) (id act : Nat) (fixed : Bool) : Option Act :=
  let c := s.core id
  match c.act? act with
  | some a => match a.due with
    | some d => if d ≤ s.cycle c && a.fixed == fixed then some a else none
    | none => none
  | none => none

def execResultLanding (core act : Nat) (s : State) : Host.Outcome State Fault Refusal :=
  match s.dueAct core act true with
  | some a => .next (s.land core a)
  | none => .next s

def execVariableResultLanding (core act : Nat) (s : State) : Host.Outcome State Fault Refusal :=
  match s.dueAct core act false with
  | some a => .next (s.land core a)
  | none => .next s

end Sys2Proof.Machine
end

