-- ==== Sys2Proof/Machine/Flags.lean ====
section
/-! DEFINITION. Comparisons, classes and orders: the condition codes of the compares (R107), the classes of `fclass` (R106),
and the orders of minima, maxima and the sorting stage (R33, R104, R121). -/
namespace Sys2Proof.Machine

/-- A compare's condition by its SUB code (R107). −0 and +0 are equal; a NaN or NaR makes all but NE and UN false. -/
def condHolds (sub : Nat) (a b : Num) : Bool :=
  let un := a == .nan || b == .nan
  match sub with
  | 0 => Num.numEq a b
  | 1 => !Num.numEq a b
  | 2 => Num.lt false a b
  | 3 => Num.lt false a b || Num.numEq a b
  | 4 => Num.lt false b a
  | 5 => Num.lt false b a || Num.numEq a b
  | 6 => un
  | _ => !un

/-- A format's value is subnormal: nonzero and below its least normal magnitude. -/
def subnormal (f : Fmt) (code : Nat) : Bool := code % f.signBit / 2 ^ f.mb == 0

/-- The class bit of a float or tapered element (R106). -/
def fclassOf (t : Ty) (code : Nat) : Nat :=
  let sub := match tyFmt t with | some f => subnormal f code | none => false
  match tyDecode t code with
  | .nan => 256
  | .inf s => if s then 1 else 128
  | .zero s => if s then 8 else 16
  | .val s _ _ => if s then (if sub then 4 else 2) else if sub then 32 else 64

/-- The larger and the smaller of two values, −0 below +0; NaN if either is (R33, R104). -/
def maxNum (a b : Num) : Num := if a == .nan || b == .nan then .nan else if Num.lt true a b then b else a
def minNum (a b : Num) : Num := if a == .nan || b == .nan then .nan else if Num.lt true b a then b else a

/-- Above(a, b) of the sorting stage (R121): −0 below +0, NaN above +Inf, all NaNs equal. -/
def above (t : Ty) (a b : Nat) : Bool :=
  match tyDecode t a, tyDecode t b with
  | .nan, .nan => false
  | .nan, _ => true
  | _, .nan => false
  | x, y => Num.lt true y x

end Sys2Proof.Machine
end

