-- ==== Sys2Proof/Machine/TileFloat.lean ====
section
/-! DEFINITION. Floating-point tile words (R103 to R108): latency 6 + beats (R48). -/
namespace Sys2Proof.Machine

/-- A result rounded into the word's type under its RM and SAT (R103). -/
def fround (m : TMod) (x : Num) : Nat := tyEncode m.ty m.rm m.sat x

/-- A result that is a value of the word's type, but for its sign: the rounding changes nothing, whatever SAT says (R104). -/
def fexact (m : TMod) (x : Num) : Nat := tyEncode m.ty m.rm false x

/-- Float words of one, two and three operands: exact, then rounded once. -/
def State.floatUn (s : State) (h : Hdr) (opc : Nat) (d a : TReg) (m : TMod) (f : Num → Num) : Host.Outcome State Fault Refusal :=
  s.tileUn h opc 6 m d a (fun x => fround m (f (tyDecode m.ty x)))

def State.floatBin (s : State) (h : Hdr) (opc : Nat) (d a : TReg) (b : TB) (m : TMod) (f : Num → Num → Num) :
    Host.Outcome State Fault Refusal :=
  s.tileBin h opc 6 m d a b (fun x y => fround m (f (tyDecode m.ty x) (tyDecode m.ty y)))

def State.floatTer (s : State) (h : Hdr) (opc : Nat) (d a : TReg) (b : TB) (c : TReg) (m : TMod) (f : Num → Num → Num → Num) :
    Host.Outcome State Fault Refusal :=
  s.tileTer h opc 6 m d a b c (fun x y z => fround m (f (tyDecode m.ty x) (tyDecode m.ty y) (tyDecode m.ty z)))

def execFadd (h : Hdr) (d a : TReg) (b : TB) (m : TMod) (s : State) := s.floatBin h 0x60 d a b m (Num.add m.rm)
/-- `fsub` adds −B to A. DESIGN CHOICE (log 18): the operands whose zero signs R11 compares are A and −B, so that (−0) − (+0) is −0 under
RNE, and (+0) − (+0) is +0; R11 may also be read on A and B themselves. The same of `fms`'s product and C. -/
def execFsub (h : Hdr) (d a : TReg) (b : TB) (m : TMod) (s : State) :=
  s.floatBin h 0x61 d a b m (fun x y => x.add m.rm y.neg)
def execFmul (h : Hdr) (d a : TReg) (b : TB) (m : TMod) (s : State) := s.floatBin h 0x62 d a b m Num.mul
def execFma (h : Hdr) (d a : TReg) (b : TB) (c : TReg) (m : TMod) (s : State) :=
  s.floatTer h 0x63 d a b c m (fun x y z => (x.mul y).add m.rm z)
def execFms (h : Hdr) (d a : TReg) (b : TB) (c : TReg) (m : TMod) (s : State) :=
  s.floatTer h 0x64 d a b c m (fun x y z => (x.mul y).add m.rm z.neg)
def execFnma (h : Hdr) (d a : TReg) (b : TB) (c : TReg) (m : TMod) (s : State) :=
  s.floatTer h 0x65 d a b c m (fun x y z => (x.mul y).neg.add m.rm z)
def execFmin (h : Hdr) (d a : TReg) (b : TB) (m : TMod) (s : State) :=
  s.tileBin h 0x66 6 m d a b (fun x y => fexact m (minNum (tyDecode m.ty x) (tyDecode m.ty y)))
def execFmax (h : Hdr) (d a : TReg) (b : TB) (m : TMod) (s : State) :=
  s.tileBin h 0x67 6 m d a b (fun x y => fexact m (maxNum (tyDecode m.ty x) (tyDecode m.ty y)))
def execFabs (h : Hdr) (d a : TReg) (m : TMod) (s : State) :=
  s.tileUn h 0x68 6 m d a (fun x => fexact m (tyDecode m.ty x).abs)
def execFneg (h : Hdr) (d a : TReg) (m : TMod) (s : State) :=
  s.tileUn h 0x69 6 m d a (fun x => fexact m (tyDecode m.ty x).neg)
def execFdiv (h : Hdr) (d a : TReg) (b : TB) (m : TMod) (s : State) := s.floatBin h 0x6A d a b m Num.div
def execFsqrt (h : Hdr) (d a : TReg) (m : TMod) (s : State) := s.floatUn h 0x6B d a m fsqrtNum
def execFrsq (h : Hdr) (d a : TReg) (m : TMod) (s : State) := s.floatUn h 0x6C d a m frsqNum
def execFrcp (h : Hdr) (d a : TReg) (m : TMod) (s : State) :=
  s.floatUn h 0x6D d a m (fun x => (Num.val false 1 1).div x)
def execFexp2 (h : Hdr) (d a : TReg) (m : TMod) (s : State) := s.floatUn h 0x6E d a m exp2Num
def execFlog2 (h : Hdr) (d a : TReg) (m : TMod) (s : State) := s.floatUn h 0x6F d a m log2Num
def execFtanh (h : Hdr) (d a : TReg) (m : TMod) (s : State) := s.floatUn h 0x70 d a m tanhNum

/-- DecayPow of a factor and an i32 exponent; the canonical NaN outside 0 to 2^15 − 1 (R105). -/
def powi (f k : Nat) : Nat := if k % 2 ^ 32 < 2 ^ 15 then decayPow f (k % 2 ^ 32) else 0x7FC00000

def execFpowi (h : Hdr) (d a : TReg) (b : TB) (m : TMod) (s : State) : Host.Outcome State Fault Refusal :=
  s.tileBin h 0x71 6 m d a b powi

/-- `fclass`: n16 classes of TY elements (R106). -/
def execFclass (h : Hdr) (d a : TReg) (m : TMod) (s : State) : Host.Outcome State Fault Refusal :=
  let hb := m.ty.halfBytes
  let gl := m.gl.val + 1
  s.tileWord h 0x72 6 gl (max hb 4) noLim (fun c p =>
    tileWrites d gl p.elems 4 (pmMerge m.z (c.actives m.pm hb gl p.elems) ((c.group a gl p.elems hb).map (fclassOf m.ty))))

/-! ### Compares (R107) -/

/-- Bits of a list, bit i the i-th. -/
def bitsOf : List Bool → Nat
  | [] => 0
  | b :: t => (if b then 1 else 0) + 2 * bitsOf t

/-- The mask write of a compare of `n` elements: active bits take the results, inactive ones 0 under Z, and bits n up 0. -/
def maskResult (k : KReg) (n : Nat) (z : Bool) (acts res : List Bool) : Write :=
  let keep := bitsOf (acts.map (fun a => !a && !z))
  let en := BitVec.ofNat 4096 (2 ^ 4096 - 1 - keep % 2 ^ n)
  .mask k en (BitVec.ofNat 4096 (bitsOf ((acts.zip res).map (fun p => p.1 && p.2))))

/-- A compare word: GL is 1 and the shape has at most 4096 elements. -/
def State.compareWord (s : State) (h : Hdr) (opc base : Nat) (d : KReg) (a : TReg) (b : TB) (m : TMod) :
    Host.Outcome State Fault Refusal :=
  let hb := m.ty.halfBytes
  s.tileWord h opc base 1 hb (fun _ p => decide (4096 < p.elems)) (fun c p =>
    let n := p.elems
    [maskResult d n m.z (c.actives m.pm hb 1 n)
      (List.zipWith (fun x y => condHolds m.sub.val (tyDecode m.ty x) (tyDecode m.ty y)) (c.group a 1 n hb)
        (c.bElems h.eng b 1 n hb))])

def execFcmp (h : Hdr) (d : KReg) (a : TReg) (b : TB) (m : TMod) (s : State) := s.compareWord h 0x73 6 d a b m

/-! ### Selection (R108) -/

def execFsel (h : Hdr) (d a : TReg) (b : TB) (c : KReg) (m : TMod) (s : State) : Host.Outcome State Fault Refusal :=
  s.tileMap h 0x74 6 m d (fun co n =>
    let hb := m.ty.halfBytes
    let gl := m.gl.val + 1
    let sel := (List.range (gl * n)).map (fun j => co.masks[c].getLsbD (j % n % 4096))
    List.zipWith (fun (b : Bool) (p : Nat × Nat) => if b then p.1 else p.2) sel
      ((co.group a gl n hb).zip (co.bElems h.eng b gl n hb)))

end Sys2Proof.Machine
end

