-- ==== Sys2Proof/Machine/TileInt.lean ====
section
/-! DEFINITION. Integer tile words (R107, R109, R110): latency 4 + beats (R48). -/
namespace Sys2Proof.Machine

/-- Integer words: exact on the values of the elements, then wrapped or clamped (R109). -/
def State.intBin (s : State) (h : Hdr) (opc : Nat) (d a : TReg) (b : TB) (m : TMod) (f : Int → Int → Int) :
    Host.Outcome State Fault Refusal :=
  s.tileBin h opc 4 m d a b (fun x y => tyFit m.ty m.sat (f (tyInt m.ty x) (tyInt m.ty y)))

/-- Words on the elements' bits. -/
def State.bitBin (s : State) (h : Hdr) (opc : Nat) (d a : TReg) (b : TB) (m : TMod) (f : Nat → Nat → Nat) :
    Host.Outcome State Fault Refusal :=
  s.tileBin h opc 4 m d a b f

def execIadd (h : Hdr) (d a : TReg) (b : TB) (m : TMod) (s : State) := s.intBin h 0x78 d a b m (fun x y => x + y)
def execIsub (h : Hdr) (d a : TReg) (b : TB) (m : TMod) (s : State) := s.intBin h 0x79 d a b m (fun x y => x - y)
def execImul (h : Hdr) (d a : TReg) (b : TB) (m : TMod) (s : State) := s.intBin h 0x7A d a b m (fun x y => x * y)
def execImad (h : Hdr) (d a : TReg) (b : TB) (c : TReg) (m : TMod) (s : State) : Host.Outcome State Fault Refusal :=
  s.tileTer h 0x7B 4 m d a b c (fun x y z => tyFit m.ty m.sat (tyInt m.ty x * tyInt m.ty y + tyInt m.ty z))
def execIand (h : Hdr) (d a : TReg) (b : TB) (m : TMod) (s : State) := s.bitBin h 0x7C d a b m (fun x y => x &&& y)
def execIor (h : Hdr) (d a : TReg) (b : TB) (m : TMod) (s : State) := s.bitBin h 0x7D d a b m (fun x y => x ||| y)
def execIxor (h : Hdr) (d a : TReg) (b : TB) (m : TMod) (s : State) := s.bitBin h 0x7E d a b m (fun x y => x ^^^ y)

/-- A × 2^s, with s limited to where the result no longer depends on it (R110). -/
def shlInt (t : Ty) (sat : Bool) (x y : Nat) : Nat := tyFit t sat (tyInt t x * 2 ^ min y (tyBits t))

/-- floor(A / 2^s) with A read as signed whatever TY says (R110). -/
def sarBits (t : Ty) (x y : Nat) : Nat :=
  tyWrap t (signedOf (tyBits t) x / 2 ^ min y (tyBits t))

def execIshl (h : Hdr) (d a : TReg) (b : TB) (m : TMod) (s : State) := s.bitBin h 0x7F d a b m (shlInt m.ty m.sat)
def execIshr (h : Hdr) (d a : TReg) (b : TB) (m : TMod) (s : State) :=
  s.bitBin h 0x80 d a b m (fun x y => x / 2 ^ min y (tyBits m.ty))
def execIsar (h : Hdr) (d a : TReg) (b : TB) (m : TMod) (s : State) := s.bitBin h 0x81 d a b m (sarBits m.ty)
def execImin (h : Hdr) (d a : TReg) (b : TB) (m : TMod) (s : State) := s.intBin h 0x82 d a b m (fun x y => if y < x then y else x)
def execImax (h : Hdr) (d a : TReg) (b : TB) (m : TMod) (s : State) := s.intBin h 0x83 d a b m (fun x y => if x < y then y else x)
def execIcmp (h : Hdr) (d : KReg) (a : TReg) (b : TB) (m : TMod) (s : State) := s.compareWord h 0x84 4 d a b m
def execIabs (h : Hdr) (d a : TReg) (m : TMod) (s : State) : Host.Outcome State Fault Refusal :=
  s.tileUn h 0x85 4 m d a (fun x => tyFit m.ty m.sat ((tyInt m.ty x).natAbs : Int))

end Sys2Proof.Machine
end

