-- ==== Sys2Proof/Machine/TileMove.lean ====
section
/-! DEFINITION. Conversions (R111 to R114), movement (R115 to R119), reductions and the sorting stage (R120, R121). -/
namespace Sys2Proof.Machine

/-! ### Conversions -/

/-- The amax write of a converting word: the shadow of its active source values (R26). -/
def amaxWrites (m : Option MReg) (xs : List Num) : List Write :=
  match m with
  | none => []
  | some r => let (mag, n, i) := amaxShadow xs; [.amax r mag n i]

/-- Source elements of type `src` decoded. -/
def Core.groupNums (c : Core) (a : TReg) (gl n : Nat) (src : Ty) : List Num :=
  (c.group a gl n src.halfBytes).map (tyDecode src)

def execCvt (h : Hdr) (d a : TReg) (src : Ty) (m : TMod) (s : State) : Host.Outcome State Fault Refusal :=
  let gl := m.gl.val + 1
  let hb := m.ty.halfBytes
  s.tileWord h 0x88 6 gl (max hb src.halfBytes) noLim (fun c p =>
    let n := p.elems
    let acts := c.actives m.pm hb gl n
    let xs := c.group a gl n src.halfBytes
    tileWrites d gl n hb (pmMerge m.z acts (xs.map (convert src m.ty m.rm m.sat)))
      ++ amaxWrites m.amx (pmActive acts (xs.map (tyDecode src))))

/-- Consecutive runs of 32. -/
def chunks32 {α : Type} : Nat → List α → List (List α)
  | 0, _ => []
  | k + 1, xs => xs.take 32 :: chunks32 k (xs.drop 32)

def colsNot32 (_ : Core) (p : Shape) : Bool := p.cols % 32 != 0

/-- `cvtmx`: each run of 32 elements of a row becomes one MX block (R112). -/
def execCvtmx (h : Hdr) (d a b : TReg) (src : Ty) (m : TMod) (s : State) : Host.Outcome State Fault Refusal :=
  let gl := m.gl.val + 1
  let hb := m.ty.halfBytes
  s.tileWord h 0x89 6 gl (max hb src.halfBytes) colsNot32 (fun c p =>
    let n := p.elems
    let acts := c.actives m.pm hb gl n
    let xs := c.groupNums a gl n src
    let ins := (acts.zip xs).map (fun q => if q.1 then q.2 else .zero false)
    let blks := (chunks32 (gl * n / 32) ins).map (mxScale m.ty)
    tileWrites d gl n hb (pmMerge m.z acts (blks.flatMap (·.2)))
      ++ [.tile b 2 (blks.map (fun q => some q.1))] ++ amaxWrites m.amx (pmActive acts xs))

/-- `dqmx`: MX blocks expanded (R113). -/
def execDqmx (h : Hdr) (d a b : TReg) (src : Ty) (m : TMod) (s : State) : Host.Outcome State Fault Refusal :=
  let gl := m.gl.val + 1
  let hb := m.ty.halfBytes
  s.tileWord h 0x8A 6 gl (max hb src.halfBytes) colsNot32 (fun c p =>
    let n := p.elems
    let acts := c.actives m.pm hb gl n
    let scales := bytesToElems 2 (gl * n / 32) (c.tileBytes b (gl * n / 32))
    let blks := scales.zip (chunks32 (gl * n / 32) (c.group a gl n src.halfBytes))
    let xs := blks.flatMap (fun q => q.2.map (mxDecode src q.1))
    tileWrites d gl n hb (pmMerge m.z acts (xs.map (fround m))) ++ amaxWrites m.amx (pmActive acts xs))

/-- `cvtfx`: to or from fixed point of exponent X = gB[15:0] (R114). -/
def execCvtfx (h : Hdr) (d a : TReg) (b : GReg) (src : Ty) (m : TMod) (s : State) : Host.Outcome State Fault Refusal :=
  let gl := m.gl.val + 1
  let hb := m.ty.halfBytes
  s.tileWord h 0x8B 6 gl (max hb src.halfBytes) noLim (fun c p =>
    let n := p.elems
    let acts := c.actives m.pm hb gl n
    let x := signedOf 16 (c.rd h.eng b).toNat
    let xs := c.groupNums a gl n src
    let sc := Num.dyadic false 1 (if m.ty.isInt then -x else x)
    tileWrites d gl n hb (pmMerge m.z acts (xs.map (fun v => fround m (v.mul sc)))) ++ amaxWrites m.amx (pmActive acts xs))

/-! ### Movement -/

/-- `tmov` copies element codes. DESIGN CHOICE (log 67): of a t6 byte this and the other words that only move elements copy all eight bits,
where R22 has bits 7:6 written 0. -/
def execTmov (h : Hdr) (d a : TReg) (m : TMod) (s : State) : Host.Outcome State Fault Refusal := s.tileUn h 0x90 4 m d a id

/-- `tbcast`: from a scalar, from row 0 or from column 0 of each register (R115). -/
def execTbcast (h : Hdr) (d a : TReg) (b : GReg) (m : TMod) (s : State) : Host.Outcome State Fault Refusal :=
  let gl := m.gl.val + 1
  let hb := m.ty.halfBytes
  s.tileWord h 0x91 4 gl hb noLim (fun c p =>
    let n := p.elems
    let vals := match m.sub with
      | 0 => c.bElems h.eng (.g b) gl n hb
      | 1 => (List.range gl).flatMap (fun k => let xs := c.tileElems a k n hb
          (List.range p.rows).flatMap (fun _ => xs.take p.cols))
      | _ => (List.range gl).flatMap (fun k => let xs := c.tileElems a k n hb
          (List.range p.rows).flatMap (fun r => List.replicate p.cols (xs.getD (r * p.cols) 0)))
    tileWrites d gl n hb (pmMerge m.z (c.actives m.pm hb gl n) vals))

/-- `ttrn` (R116). -/
def execTtrn (h : Hdr) (d a : TReg) (m : TMod) (s : State) : Host.Outcome State Fault Refusal :=
  let gl := m.gl.val + 1
  let hb := m.ty.halfBytes
  s.tileWord h 0x92 4 gl hb noLim (fun c p =>
    let n := p.elems
    tileWrites d gl n hb ((List.range gl).flatMap (fun k =>
      let xs := c.tileElems a k n hb
      (List.range n).map (fun i => some (xs.getD (i % p.rows * p.cols + i / p.rows) 0)))))

/-- `tshuf`: B holds n16 indices (R117). -/
def execTshuf (h : Hdr) (d a : TReg) (b : TB) (m : TMod) (s : State) : Host.Outcome State Fault Refusal :=
  let gl := m.gl.val + 1
  let hb := m.ty.halfBytes
  s.tileWord h 0x93 4 gl (max hb 4) noLim (fun c p =>
    let n := p.elems
    let xs := c.group a gl n hb
    tileWrites d gl n hb (pmMerge m.z (c.actives m.pm hb gl n) ((c.bElems h.eng b gl n 4).map (fun i => xs.getD i 0))))

/-- An element as a scalar: sign-extended for a signed integer type (R118, R141). -/
def elemToG (t : Ty) (v : Nat) : W64 :=
  if tySigned t then BitVec.ofInt 64 (tyInt t v) else BitVec.ofNat 64 v

def execText (h : Hdr) (d : GReg) (a : TReg) (b : GReg) (m : TMod) (s : State) : Host.Outcome State Fault Refusal :=
  let gl := m.gl.val + 1
  let hb := m.ty.halfBytes
  s.tileWord h 0x94 4 gl hb noLim (fun c p =>
    let i := (c.rd h.eng b).toNat
    let n := p.elems
    let v : W64 := if gl * n ≤ i then 0 else elemToG m.ty ((c.tileElems a (i / n) n hb).getD (i % n) 0)
    [.g (c.usesHandler h.eng) d v])

def execTins (h : Hdr) (d : TReg) (a b : GReg) (m : TMod) (s : State) : Host.Outcome State Fault Refusal :=
  let gl := m.gl.val + 1
  let hb := m.ty.halfBytes
  s.tileWord h 0x95 4 gl hb noLim (fun c p =>
    let i := (c.rd h.eng b).toNat
    let n := p.elems
    let v := (c.rd h.eng a).toNat % 2 ^ (4 * hb)
    tileWrites d gl n hb (((c.group d gl n hb).zipIdx).map (fun q => some (if q.2 = i then v else q.1))))

/-- `tiota`: gA + j × gB, exact and then converted (R119). -/
def execTiota (h : Hdr) (d : TReg) (a b : GReg) (m : TMod) (s : State) : Host.Outcome State Fault Refusal :=
  s.tileMap h 0x96 4 m d (fun c n =>
    let x := (c.rd h.eng a).toInt
    let y := (c.rd h.eng b).toInt
    (List.range ((m.gl.val + 1) * n)).map (fun (j : Nat) =>
      let v := x + (j : Int) * y
      if m.ty.isInt then tyFit m.ty m.sat v else fround m (Num.ofInt v)))

/-! ### Reductions (R33, R120) -/

inductive RedOp where
  | sum | max | min | amax
  deriving DecidableEq, Repr

/-- One combination of the tree: FP32 sums of floats, exact sums of integers, and the extrema. -/
def RedOp.comb (o : RedOp) (t : Ty) (a b : Num) : Num :=
  match o with
  | .sum => if t.isInt then a.add .rne b else ofF32 (f32 (a.add .rne b))
  | .max | .amax => maxNum a b
  | .min => minNum a b

/-- What a span with no active element gives (R33, R120): the infinity whatever SAT says, of a type that has one. -/
def RedOp.empty (o : RedOp) (m : TMod) : Nat :=
  let ext (neg : Bool) : Nat :=
    match m.ty with
    | .t8 => if neg then 0x81 else 0x7F
    | .t6 => if neg then 0x21 else 0x1F
    | .e4m3 => tyEncode .e4m3 .rne true (.inf neg)
    | t => tyEncode t m.rm false (.inf neg)
  match o with
  | .sum | .amax => 0
  | .max => ext true
  | .min => ext false

/-- A span's root in its type. -/
def RedOp.root (o : RedOp) (m : TMod) : Option Num → Nat
  | none => o.empty m
  | some x => if m.ty.isInt then tyFit m.ty m.sat (roundInt .rne x) else fround m x

/-- A list cut into `k` pieces of `n`. -/
def pieces {α : Type} (n : Nat) : Nat → List α → List (List α)
  | 0, _ => []
  | k + 1, xs => xs.take n :: pieces n k (xs.drop n)

/-- A result in the first place of `n`, the rest kept. -/
def firstOf (v n : Nat) : List (Option Nat) := some v :: List.replicate (n - 1) none

/-- The results of a reduction by its span (SUB), for the registers' leaves row by row. -/
def redSpans (o : RedOp) (m : TMod) (p : Shape) (regs : List (List (List (Option Num)))) : List (Option Nat) :=
  let f := o.comb m.ty
  match m.sub.val with
  | 0 => regs.flatMap (fun rows => rows.flatMap (fun r => firstOf (o.root m (tree f r.length r)) p.cols))
  | 1 => regs.flatMap (fun rows => firstOf (o.root m (treeRows f rows)) p.elems)
  | 2 => firstOf (o.root m (treeRows f (regs.flatMap id))) (regs.length * p.elems)
  | _ => regs.flatMap (fun rows =>
      ((List.range p.cols).map (fun c => some (o.root m (tree f p.rows (rows.map (fun r => (r.getD c none)))))))
        ++ List.replicate (p.elems - p.cols) none)

def State.reduceWord (s : State) (h : Hdr) (opc : Nat) (d a : TReg) (m : TMod) (o : RedOp) :
    Host.Outcome State Fault Refusal :=
  let gl := m.gl.val + 1
  let hb := m.ty.halfBytes
  s.tileWord h opc 6 gl hb noLim (fun c p =>
    let n := p.elems
    let xs := c.groupNums a gl n m.ty
    let xs := match o with | .amax => xs.map Num.abs | _ => xs
    let leaves := ((c.actives m.pm hb gl n).zip xs).map (fun q => if q.1 then some q.2 else none)
    let regs := (pieces n gl leaves).map (pieces p.cols p.rows)
    tileWrites d gl n hb (redSpans o m p regs))

def execRsum (h : Hdr) (d a : TReg) (m : TMod) (s : State) := s.reduceWord h 0x98 d a m .sum
def execRmax (h : Hdr) (d a : TReg) (m : TMod) (s : State) := s.reduceWord h 0x99 d a m .max
def execRmin (h : Hdr) (d a : TReg) (m : TMod) (s : State) := s.reduceWord h 0x9A d a m .min
def execRamax (h : Hdr) (d a : TReg) (m : TMod) (s : State) := s.reduceWord h 0x9B d a m .amax

/-! ### The sorting stage (R121) -/

def isPow2 (n : Nat) : Bool := n != 0 && n == 2 ^ n.log2

/-- gB breaks the limits of J, K and DESC. -/
def cmpxBad (w : W64) (p : Shape) : Bool :=
  let j := bits w 0 3
  let k := bits w 3 4
  w.toNat / 256 != 0 || k ≤ j || 8 < k || !isPow2 p.cols || p.cols < 2 ^ (j + 1)

/-- For one row: the column each column takes its element from. -/
def cmpxFrom (t : Ty) (j k : Nat) (desc : Bool) (row : List Nat) : List Nat :=
  (List.range row.length).map (fun i =>
    let lo := if i / 2 ^ j % 2 = 0 then i else i - 2 ^ j
    let hi := lo + 2 ^ j
    let up := (lo / 2 ^ k % 2 == 0) != desc
    let x := row.getD lo 0
    let y := row.getD hi 0
    let swap := if up then above t x y else above t y x
    if swap then (if i = lo then hi else lo) else i)

/-- One stage of a sorting network (R121). DESIGN CHOICE (log 18): where the D group and the payload group overlap, the payload stays. -/
def execCmpx (h : Hdr) (d a : TReg) (b : GReg) (c : TReg) (m : TMod) (s : State) : Host.Outcome State Fault Refusal :=
  let gl := m.gl.val + 1
  let hb := m.ty.halfBytes
  let pay := m.sub.val % 2 == 1
  s.tileWord h 0x9C 6 gl (if pay then max hb 8 else hb) (fun co p => cmpxBad (co.rd h.eng b) p) (fun co p =>
    let n := p.elems
    let w := co.rd h.eng b
    let rows := pieces p.cols (gl * p.rows) (co.group a gl n hb)
    let froms := rows.map (cmpxFrom m.ty (bits w 0 3) (bits w 3 4) (bits w 7 1 == 1))
    let move (rs : List (List Nat)) : List (Option Nat) :=
      (rs.zip froms).flatMap (fun q => q.2.map (fun i => some (q.1.getD i 0)))
    tileWrites d gl n hb (move rows)
      ++ (if pay then tileWrites c gl n 8 (move (pieces p.cols (gl * p.rows) (co.group c gl n 8))) else []))

end Sys2Proof.Machine
end

