-- ==== Sys2Proof/Machine/Handles.lean ====
section
/-! DEFINITION. Handles (R133 to R137, R147): binding, revoking and reading them, and the checks a memory word makes at issue. -/
namespace Sys2Proof.Machine

/-! ### Binding (R135) -/

/-- The leaves of consecutive pages of size `sz` from virtual address `va` (a page's start) up to `stop`, at most `fuel`. -/
def State.bindPages (s : State) (x : Fin 64) (sz : Fin 3) : Nat → Nat → Nat → List Leaf
  | 0, _, _ => []
  | k + 1, va, stop =>
    if stop ≤ va ∨ 2 ^ 64 ≤ va then []
    else match s.walk x (BitVec.ofNat 64 va) with
      | some l => if l.size = sz then l :: s.bindPages x sz k (va + l.bytes) stop else []
      | none => []

/-- The handle that a walk from `va` over `len` bytes binds: INVALID never, else UNMAPPED, READY or PARTIAL. DESIGN CHOICE (log 62): a
handle of length 0 shows SIZE 0, and a range is cut where it passes 2^64 or leaves the canonical half. -/
def State.bindWalk (s : State) (x : Fin 64) (va len : W64) : Handle :=
  let unmapped : Handle := { Handle.reset with state := .unmapped, base := va, ctx := x, final := .unmapped }
  if !canonicalVA va then unmapped
  else if len = 0 then { Handle.reset with state := .ready, base := va, ctx := x, final := .ready }
  else match s.walk x va with
    | none => unmapped
    | some l =>
      let first := va.toNat - (va.toNat % 2 ^ 57 - l.base)
      let ls := s.bindPages x l.size 64 first (va.toNat + len.toNat)
      let bound := min len.toNat (first + ls.length * l.bytes - va.toNat)
      let st : HState := if bound = len.toNat then .ready else .partly
      { state := st, base := va, size := l.size, len := bound, leaves := ls, ctx := x, final := st, walkEnd := 0 }

/-- `trans` captures the range and lands at the end of p + 23; a walk that has not ended by then leaves the handle PENDING. The
time of the walk is open (log 3). -/
def execTrans (h : Hdr) (d : HReg) (a b : GReg) (s : State) : Host.Outcome State Fault Refusal :=
  s.issue h 0x40 (fun c =>
    let hd := s.bindWalk c.ctxId (c.rd h.eng a) (c.rd h.eng b)
    let s := s.readTables c.ctxId (c.rd h.eng a :: hd.leaves.map (fun l => canonOf l.base))
    let (n, s) := s.draw
    let t := Config.delay n
    let hd := if 23 < t && !hd.leaves.isEmpty
      then { hd with state := .pending, walkEnd := s.cycle c + t } else hd
    .go s { lat := some 24, writes := [.handle d hd], body := .trans d })

/-! ### Shootdown (R136) -/

def Leaf.covers (l : Leaf) (va57 : Nat) : Bool := decide (l.base ≤ va57) && decide (va57 < l.base + l.bytes)

/-- A shootdown of the page at `va57` reaches a handle. -/
def Handle.shoot (hd : Handle) (x : Fin 64) (va57 : Nat) : Handle :=
  match hd.state with
  | .ready | .partly | .pending =>
    if hd.ctx = x ∧ hd.leaves.any (·.covers va57) then { hd with state := .revoked, final := .revoked } else hd
  | _ => hd

def Write.shoot (w : Write) (x : Fin 64) (va57 : Nat) : Write :=
  match w with
  | .handle h hd => .handle h (hd.shoot x va57)
  | w => w

/-- The elements that a word has still to perform, or pairs to send, changed by `f`. -/
def ActBody.mapElems (f : Elem → Elem) : ActBody → ActBody
  | .mem k o ty todo got st d m t => .mem k o ty (todo.map f) got st d m t
  | .upd cls tpl todo n => .upd cls tpl (todo.map f) n
  | .held h t trap inner => .held h t trap (inner.mapElems f)
  | b => b

/-- A shootdown of the page at `va57` reaches a request not performed yet (R145). -/
def Elem.shoot (va57 : Nat) (e : Elem) : Elem :=
  if e.fate = .same ∧ e.leaf.covers va57 then { e with fate := .shot } else e

def Flight.shoot (x : Fin 64) (va57 : Nat) (f : Flight) : Flight :=
  if f.pair.ctx = x ∧ f.fate = .same ∧ f.pair.leaf.covers va57 then { f with fate := .shot } else f

/-- Every handle of the context that covers the page becomes REVOKED, also one still to land, and the requests of its words to the
page are noted. -/
def Core.shoot (c : Core) (x : Fin 64) (va57 : Nat) : Core :=
  { c with handles := c.handles.map (·.shoot x va57)
           acts := c.acts.map (fun a => { a with writes := a.writes.map (·.shoot x va57)
                                                 body := if c.ctxId = x then a.body.mapElems (Elem.shoot va57) else a.body }) }

/-- A shootdown reaches every core, the pairs that have left them, and the handles of the context's saved tasks (R136, R335). -/
def State.shoot (s : State) (x : Fin 64) (va : Nat) : State :=
  let c := s.ctx x
  let s := s.setCtx x { c with saved := c.saved.map (fun q => { q with core := q.core.shoot x (va % 2 ^ 57) }) }
  { s with cores := s.cores.map (·.shoot x (va % 2 ^ 57)), flight := s.flight.map (Flight.shoot x (va % 2 ^ 57)) }

/-- The page of context `x` with its bytes at key `old` is no longer there: a request with that translation finds it moved (R150). -/
def State.depart (s : State) (x : Fin 64) (old : Nat) : State :=
  let gone (e : Elem) : Elem := if e.leaf.dataKey s.pkg = old then { e with fate := .moved } else e
  { s with cores := s.cores.map (fun (c : Core) => if c.ctxId = x then
             { c with acts := c.acts.map (fun a => { a with body := a.body.mapElems gone }) } else c)
           flight := s.flight.map (fun f => if f.pair.ctx = x ∧ f.pair.leaf.dataKey s.pkg = old then { f with fate := .moved } else f) }

def execShootdown (ctx : Nat) (va : W64) (s : State) : Host.Outcome State Fault Refusal :=
  .next (s.shoot (Fin.ofNat 64 ctx) va.toNat)

/-! ### hstat and hinv (R147) -/

/-- The value of `hstat` for a handle whose walk has ended. -/
def Handle.done (hd : Handle) : Handle := if hd.state = .pending then { hd with state := hd.final } else hd

def execHstat (h : Hdr) (d : GReg) (a : HReg) (s : State) : Host.Outcome State Fault Refusal :=
  s.issue h 0x41 (fun c =>
    let hd := c.handles[a]
    let (n, s) := s.draw
    .go s { lat := if hd.state = .pending then none else some (2 + Config.delay n), fixed := false
            writes := [.g (c.usesHandler h.eng) d hd.done.word], body := .hstat d a hd })

/-- `hinv` lands at p + 1. -/
def execHinv (h : Hdr) (d : HReg) (s : State) : Host.Outcome State Fault Refusal :=
  s.issue h 0x42 (fun _ => .go s { lat := some 2, fixed := false, writes := [.handle d Handle.reset] })

/-! ### A walk ends (R134, R137, R147) -/

/-- The handle's walk is over at cycle `now`. -/
def Handle.walked (hd : Handle) (now : Nat) : Bool := hd.state == .pending && decide (hd.walkEnd ≤ now)

/-- `mscat` issues nothing after it until it completes (R144), nor does a load from stamped pages until it lands (R223). -/
def ActBody.ownHold : ActBody → Bool → Option Why
  | .mem .store _ _ _ _ _ _ _ _, scatter => if scatter then some .structural else none
  | .mem .load _ _ todo _ _ _ _ _, _ => if todo.any (fun e => e.leaf.isStamped) then some .structural else none
  | .upd _ _ _ _, _ => some .structural
  | _, _ => none

/-- A word waiting for the walk of handle `h` goes on, or traps. -/
def Core.releaseHeld (c : Core) (now : Nat) (h : HReg) (a : Act) : Core :=
  match a.body with
  | .held h' t trap inner =>
    if h' = h ∧ t ≤ now then
      match trap with
      | some (cause, info) => c.trapAct a cause info none
      | none => c.setAct { a with body := inner, holds := inner.ownHold (a.opc == 0x63 && a.seq == .s) }
    else c
  | .hstat _ h' hd => if h' = h ∧ hd.walked now ∧ a.due = none then c.setAct { a with due := some now } else c
  | _ => c

/-- A walk that has ended, or a word that waits for one that has. -/
def Core.walkDue (c : Core) (now : Nat) (h : HReg) : Bool :=
  (c.handles[h]).walked now || c.acts.any (fun a => match a.body with
    | .held h' t _ _ => h' == h && decide (t ≤ now)
    | .hstat _ h' hd => h' == h && hd.walked now && a.due.isNone
    | _ => false)

def execWalkEnd (core : Nat) (h : HReg) (s : State) : Host.Outcome State Fault Refusal :=
  let c := s.core core
  let now := s.cycle c
  if c.walkDue now h then
    let c := if (c.handles[h]).walked now then { c with handles := c.handles.set h (c.handles[h]).done } else c
    .next (s.setCore (c.acts.foldl (fun c a => c.releaseHeld now h a) c))
  else .next s

/-! ### Checks (R137, R138) -/

/-- An element a memory word names: its group index, its offset in half-bytes, whether it begins a run (R141), the value to
store. -/
structure Ref where
  idx  : Nat
  off2 : Nat
  run  : Bool
  val  : Nat
  deriving DecidableEq, Repr

/-- The size in half-bytes of the elements of a page for accesses of type `ty`. -/
def Leaf.size2 (l : Leaf) (ty : Ty) : Nat := ((l.elemTy).getD ty).halfBytes

/-- s of R141, in half-bytes. -/
def Handle.stride2 (hd : Handle) (ty : Ty) : Nat := match hd.leaves with | [] => ty.halfBytes | l :: _ => l.size2 ty

/-- An in-bounds element with its page. -/
structure Placed where
  ref  : Ref
  leaf : Leaf
  va2  : Nat
  deriving DecidableEq, Repr

/-- The page of an element, or none where the element is out of bounds (R138). -/
def Handle.place (hd : Handle) (ty : Ty) (r : Ref) : Option Placed :=
  if 2 * hd.len ≤ r.off2 then none
  else
    let va2 := 2 * hd.base.toNat + r.off2
    match hd.leaves.find? (·.covers (va2 / 2 % 2 ^ 57)) with
    | none => none
    | some l => if 2 * hd.len < r.off2 + l.size2 ty then none else some ⟨r, l, va2 % 2 ^ 58⟩

/-- The element's offset from the start of its view, for a page read through one. -/
def State.viewOffset (s : State) (x : Fin 64) (ty : Ty) (p : Placed) : Option Nat :=
  s.viewAt x p.leaf (p.va2 / 2) (p.leaf.size2 ty)

/-- The element of a placed reference: where its bytes lie, and its block. DESIGN CHOICE (log 70): an element outside its view's
layout, whose check is still to fail, counts as at the view's start; so a store to an MX page of another element size has reason 5
before reason 8. -/
def State.elemOf (s : State) (x : Fin 64) (ty : Ty) (p : Placed) : Elem :=
  let l := p.leaf
  let start2 := s.start2 x l
  let off2 := if l.vw then 2 * (s.viewOffset x ty p).getD 0 else p.va2 - 2 * l.base
  { idx := p.ref.idx, va2 := p.va2, leaf := l, pa2 := start2 + off2, base2 := start2, blk := off2 / l.blockTy.halfBytes / l.block
    val := p.ref.val, tries := 0, notBefore := 0, sent := 0 }

/-- Whether an access loads, stores, or both. -/
structure Rw where
  rd : Bool
  wr : Bool
  deriving DecidableEq, Repr

/-- Two elements of one block of stamped or MX pages: a view may show it over several virtual pages (R131, R132). -/
def Elem.sameBlock (e f : Elem) : Bool :=
  e.leaf.block != 0 && f.base2 == e.base2 && f.blk == e.blk && f.leaf.fmt == e.leaf.fmt && f.leaf.geom == e.leaf.geom
    && f.leaf.plane == e.leaf.plane && f.leaf.home == e.leaf.home && f.leaf.peer == e.leaf.peer

/-- The block of an MX page that a store covers only in part (reason 5). -/
def partialBlock (es : List Elem) (e : Elem) : Bool :=
  e.leaf.isMx && decide (((es.filter e.sameBlock).map (·.pa2)).eraseDups.length < e.leaf.block)

/-- The checks 4 to 9 of R137, in the table's order: whether check `k` fails for an element. -/
def State.checkFails (s : State) (x : Fin 64) (ty : Ty) (rw : Rw) (all : List Elem) (k : Nat) (p : Placed) : Bool :=
  let l := p.leaf
  let sz := l.size2 ty
  match k with
  | 4 => p.ref.off2 % sz != 0 || p.va2 % sz != 0 || (l.isMx && sz == 1 && p.ref.run && p.ref.off2 % 2 == 1)
  | 5 => rw.wr && partialBlock all (s.elemOf x ty p)
  | 6 => rw.rd && !l.r
  | 7 => rw.wr && !l.w
  | 8 => l.vw && (s.viewOffset x ty p).isNone
  | _ => rw.wr && !l.res

def checkCause (k : Nat) : Cause :=
  match k with
  | 4 | 5 => .misaligned
  | 9 => .notResidentStore
  | _ => .permission

/-- TRAPINFO of R137. -/
def checkInfo (k va2 : Nat) : W64 := pack [(k, 0), (va2 / 2 % 2 ^ 57, 4)]

/-- The first failing check from number `k` on; `n` are left. -/
def State.firstCheck (s : State) (x : Fin 64) (ty : Ty) (rw : Rw) (all : List Elem) (ps : List Placed) :
    Nat → Nat → Option (Cause × W64)
  | _, 0 => none
  | k, n + 1 =>
    match ps.find? (s.checkFails x ty rw all k) with
    | some p => some (checkCause k, checkInfo k p.va2)
    | none => s.firstCheck x ty rw all ps (k + 1) n

/-- Checks 1 to 3 on the handle itself. `r` is the first active element: DESIGN CHOICE (log 61): reason 3 reports its address, out of
bounds or not, and the base where no element is active. -/
def Handle.check (hd : Handle) (r : Option Ref) : Option (Cause × W64) :=
  match hd.state with
  | .invalid => some (.permission, 1)
  | .unmapped => some (.permission, 2)
  | .revoked => some (.handleRevoked,
      checkInfo 3 ((2 * hd.base.toNat + (match r with | some r => r.off2 | none => 0)) % 2 ^ 58))
  | _ => none

/-- The elements in bounds of a word whose active elements are `refs`. -/
def State.placedElems (s : State) (x : Fin 64) (hd : Handle) (ty : Ty) (refs : List Ref) : List Elem :=
  (refs.filterMap (hd.place ty)).map (s.elemOf x ty)

/-- The failure among the checks of a word on the pages of `hd` alone, as far as a walk has reached those of `full`. Whether a store
covers a block whole is judged on all its elements, those on pages not yet reached too: a view may show one block over several pages
(R131, R137). -/
def State.checkReached (s : State) (x : Fin 64) (full hd : Handle) (ty : Ty) (rw : Rw) (refs : List Ref) : Option (Cause × W64) :=
  match hd.check refs.head? with
  | some t => some t
  | none => s.firstCheck x ty rw (s.placedElems x full ty refs) (refs.filterMap (hd.place ty)) 4 6

/-- Every check of a word whose active elements are `refs`: the failure, and the elements in bounds. -/
def State.checkRefs (s : State) (x : Fin 64) (hd : Handle) (ty : Ty) (rw : Rw) (refs : List Ref) :
    Option (Cause × W64) × List Elem :=
  (s.checkReached x hd hd ty rw refs, match hd.check refs.head? with | some _ => [] | none => s.placedElems x hd ty refs)

end Sys2Proof.Machine
end

