-- ==== Sys2Proof/Machine/MemWords.lean ====
section
/-! DEFINITION. Memory words at issue (R138 to R142, R144, R178, R197, R198): loads and stores through handles, and the comb
forms. Their elements are performed at their homes by the steps of Homes.lean. -/
namespace Sys2Proof.Machine

/-! ### Ordering fields (R45, R184) -/

/-- The class and order a memory MOD names, with the scope entry captured at issue. -/
def Core.orderOf (c : Core) (m : MMod) : Order :=
  let e := c.scopes[m.scope]
  { cls := m.oc, sem := m.sem, cmask := e.cmask, reach := e.reach, scope := m.scope, hives := e.hives }

/-! ### The comb (R140, R142, R178, R394) -/

/-- The half-byte addresses of `n` elements of `hb` half-bytes in a run from a byte address. -/
def runElems (a : W64) (n hb : Nat) : List Nat := (List.range n).map (fun j => 2 * a.toNat + j * hb)

/-- The issue reason of a tile access's shape. -/
def Core.shapeBad (c : Core) (q : Seq) (hb : Nat) : Option Judged :=
  if (c.shape q).fits hb then none else some (.illegal 0x0C)

/-- `cld` reads at the end of p + 1 and lands at p + 5; `cst` writes at the end of p + 1 (R178). -/
def State.combAlign (c : Core) (q : Seq) (a b : GReg) (ty : Ty) : Option Judged :=
  let x := c.rd q a + c.rd q b
  if 2 * x.toNat % ty.halfBytes ≠ 0 then some (.trap .misaligned x) else none

/-- How much later than at the end of p + 1 a comb load reads. -/
def State.combLate (s : State) (c : Core) (t : Nat) : Nat := t - (s.cycle c + 1)

def execCld (h : Hdr) (d a b : GReg) (m : MMod) (s : State) : Host.Outcome State Fault Refusal :=
  s.combWord h 0x50 .load 1 (fun c => c.orderOf m) (fun c => State.combAlign c h.eng a b m.ty)
    (fun c => [(c.rd h.eng a + c.rd h.eng b, m.ty.halfBytes)])
    (fun c s t => ({ lat := none, fixed := false
                     body := .combLoad t (6 + s.combLate c t) (c.orderOf m) m.ty [2 * (c.rd h.eng a + c.rd h.eng b).toNat]
                       (.g d) }, s))

def execCst (h : Hdr) (d a b : GReg) (m : MMod) (s : State) : Host.Outcome State Fault Refusal :=
  s.combWord h 0x51 .store 1 (fun c => c.orderOf m) (fun c => State.combAlign c h.eng a b m.ty)
    (fun c => [(c.rd h.eng a + c.rd h.eng b, m.ty.halfBytes)])
    (fun c s t => ({ lat := none, fixed := false
                     body := .combStore t (c.orderOf m) m.ty
                       [(2 * (c.rd h.eng a + c.rd h.eng b).toNat, (c.rd h.eng d).toNat % 2 ^ (4 * m.ty.halfBytes))] }, s))

/-- The runs of the comb form of `tld` and `tst`: the whole group. -/
def groupRun (c : Core) (q : Seq) (a b : GReg) (gl hb : Nat) : List (W64 × Nat) :=
  [(c.rd q a + c.rd q b, gl * (c.shape q).elems * hb)]

/-- The elements of `tldx` and `tstx` in the comb: element (k, r, c) at A + gB + (k × rows + r) × gC + c × s. -/
def stridedRuns (c : Core) (q : Seq) (a b e : GReg) (gl hb : Nat) : List (W64 × Nat) :=
  let p := c.shape q
  (List.range (gl * p.rows)).flatMap (fun r => (List.range p.cols).map (fun i =>
    (c.rd q a + c.rd q b + BitVec.ofNat 64 r * c.rd q e + BitVec.ofNat 64 (i * hb / 2), if hb = 1 then 1 + i % 2 else hb)))

/-- Their half-byte addresses. -/
def stridedElems (c : Core) (q : Seq) (a b e : GReg) (gl hb : Nat) : List Nat :=
  let p := c.shape q
  (List.range (gl * p.rows)).flatMap (fun r => (List.range p.cols).map (fun i =>
    2 * (c.rd q a + c.rd q b + BitVec.ofNat 64 r * c.rd q e).toNat + i * hb))

/-- A comb tile load of addresses `addrs`: it lands 8 + beats cycles after issue (R142). -/
def State.combTld (s : State) (h : Hdr) (opc : Nat) (d : TReg) (gl : Fin 6) (m : MMod)
    (runs : Core → List (W64 × Nat)) (addrs : Core → List Nat) : Host.Outcome State Fault Refusal :=
  let g := gl.val + 1
  let hb := m.ty.halfBytes
  s.combWord h opc .load 1 (fun c => c.orderOf m) (fun c => c.shapeBad h.eng hb) runs (fun c s t =>
    let p := c.shape h.eng
    ({ lat := none, fixed := false
       body := .combLoad t (8 + beats g p hb + s.combLate c t) (c.orderOf m) m.ty (addrs c)
         (.tile d g p.elems (List.replicate (g * p.elems) none)) }, s))

/-- A comb tile store; the cycle in which it writes is open (log 3). -/
def State.combTst (s : State) (h : Hdr) (opc : Nat) (d : TReg) (gl : Fin 6) (m : MMod)
    (runs : Core → List (W64 × Nat)) (addrs : Core → List Nat) : Host.Outcome State Fault Refusal :=
  let g := gl.val + 1
  let hb := m.ty.halfBytes
  s.combWord h opc .store 1 (fun c => c.orderOf m) (fun c => c.shapeBad h.eng hb) runs (fun c s t =>
    let p := c.shape h.eng
    let (n, s) := s.draw
    ({ lat := none, fixed := false
       body := .combStore (t + Config.delay n) (c.orderOf m) m.ty ((addrs c).zip (c.group d g p.elems hb)) }, s))

/-! ### Device loads and stores through a handle -/

/-- Offsets are 64-bit byte addresses: in half-bytes, modulo 2^65. -/
def wrap65 (i : Int) : Nat := (i % (2 ^ 65 : Int)).toNat

/-- The outcome of the checks `bad` that a word makes on its handle: a trap, or its issue with body `body`. A PENDING handle holds
the word: at issue only the pages the walk has reached are checked, the first at least (how far it has come is a free value), the
rest when it ends (R137; log 20). The type test of `upd`, which comes after every check of every element, waits till then (R203). -/
def State.handleGo (s : State) (c : Core) (hr : HReg) (bad : Handle → Option (Cause × W64)) (ws : List Write) (body : ActBody)
    (scatter : Bool) : Judged :=
  let hd := c.handles[hr]
  if hd.state = .pending then
    let (n, s) := s.draw
    let hold : Judged :=
      .go s { lat := none, fixed := false, writes := ws, holds := some .structural, body := .held hr hd.walkEnd (bad hd) body }
    match bad { hd with leaves := hd.leaves.take (1 + Config.pick n % hd.leaves.length) } with
    | some (cause, info) => if cause = .illegal then hold else .trapIn s cause info
    | none => hold
  else match bad hd with
    | some (cause, info) => .trap cause info
    | none => .go s { lat := none, fixed := false, writes := ws, holds := body.ownHold scatter, body := body }

/-- A device word issues: SCOPE must name a valid entry (R184). -/
def State.handleWord (s : State) (h : Hdr) (opc : Nat) (m : MMod) (pre : Core → Option Judged) (k : Core → Judged) :
    Host.Outcome State Fault Refusal :=
  s.issue h opc (fun c =>
    match pre c with
    | some j => j
    | none => if !(c.scopes[m.scope]).valid then .illegal 0x0D else k c)

/-- A load of `refs` (active ones) into a destination whose elements are numbered by group index. `base` gives what inactive
elements get; an element out of bounds gets OOBFILL, one not resident 0 (R138, R139). -/
def State.loadBody (s : State) (c : Core) (q : Seq) (hr : HReg) (m : MMod) (refs : List Ref) (base : List (Option Nat))
    (min : Nat) (dest : List (Option Nat) → Dest) : (Handle → Option (Cause × W64)) × List Elem × ActBody :=
  let hd := c.handles[hr]
  let bad (hd : Handle) := (s.checkRefs c.ctxId hd m.ty ⟨true, false⟩ refs).1
  let es := (s.checkRefs c.ctxId hd m.ty ⟨true, false⟩ refs).2
  let oob := (c.seq q).oobfill.toNat % 2 ^ (4 * m.ty.halfBytes)
  let away := es.filter (fun e => !e.leaf.res)
  let here := es.filter (fun e => e.leaf.res)
  let outs := refs.filter (fun r => (hd.place m.ty r).isNone)
  let fill := base.zipIdx.map (fun p =>
    if outs.any (fun r => r.idx == p.2) then some oob else if away.any (fun e => e.idx == p.2) then some 0 else p.1)
  (bad, away, .mem .load (c.orderOf m) m.ty here [] [] (dest fill) min base.length)

/-- A tile load through a handle: `refs` are its active elements, `acts` tells which are active (R98, R139). -/
def State.tileLoad (s : State) (h : Hdr) (opc : Nat) (d : TReg) (hr : HReg) (gl : Fin 6) (rm : Option KReg) (z : Bool)
    (m : MMod) (minLat shapeHb : Nat) (refs : Core → Shape → List Ref) (pm : Pm) : Host.Outcome State Fault Refusal :=
  let g := gl.val + 1
  let hb := m.ty.halfBytes
  s.handleWord h opc m (fun c => c.shapeBad h.eng (max hb shapeHb)) (fun c =>
    let p := c.shape h.eng
    let n := p.elems
    let acts := c.actives pm hb g n
    let base := acts.map (fun a => if a then none else if z then some 0 else none)
    let rs := pmActive acts (refs c p)
    let (bad, away, body) := s.loadBody c h.eng hr m rs base minLat (fun fill => .tile d g n fill)
    let ws := match rm with
      | none => []
      | some k =>
        let en := 2 ^ min n 4096 - 1
        let ok := (List.range (min n 4096)).map (fun i => !away.any (fun e => e.idx % n % 4096 == i))
        [Write.mask k (BitVec.ofNat 4096 en) (BitVec.ofNat 4096 (bitsOf ok))]
    s.handleGo c hr bad ws body false)

/-- Group element j at gB + j × s. -/
def seqRefs (c : Core) (q : Seq) (hr : HReg) (b : GReg) (ty : Ty) (count : Nat) (vals : List Nat) : List Ref :=
  let st := (c.handles[hr]).stride2 ty
  (List.range count).map (fun j => ⟨j, (2 * (c.rd q b).toNat + j * st) % 2 ^ 65, j == 0, vals.getD j 0⟩)

/-- Element (k, r, c) at gB + (k × rows + r) × gC + c × s. -/
def stridedRefs (c : Core) (q : Seq) (hr : HReg) (b e : GReg) (ty : Ty) (p : Shape) (gl : Nat) (vals : List Nat) : List Ref :=
  let st := (c.handles[hr]).stride2 ty
  (List.range (gl * p.rows)).flatMap (fun r => (List.range p.cols).map (fun i =>
    ⟨r * p.cols + i, wrap65 (2 * (c.rd q b).toNat + (r : Int) * (2 * (c.rd q e).toInt) + (i * st : Nat)), i == 0,
      vals.getD (r * p.cols + i) 0⟩))

/-- Element j at B[j] × s. -/
def indexRefs (c : Core) (hr : HReg) (b : TReg) (ty : Ty) (gl n : Nat) (vals : List Nat) : List Ref :=
  let st := (c.handles[hr]).stride2 ty
  ((c.group b gl n 8).zipIdx).map (fun p => ⟨p.2, p.1 * st, true, vals.getD p.2 0⟩)

def execLds (h : Hdr) (d : GReg) (a : HReg) (b c : GReg) (res : Bool) (m : MMod) (s : State) :
    Host.Outcome State Fault Refusal :=
  s.handleWord h 0x61 m (fun _ => none) (fun co =>
    let (bad, away, body) := s.loadBody co h.eng a m (seqRefs co h.eng a b m.ty 1 []) [none] 96 (fun fill =>
      match fill with
      | [some v] => .tile 0 0 0 [some v]
      | _ => .g d)
    -- an element out of bounds or not resident has its value already
    let hm := co.usesHandler h.eng
    let (ws, body) := match body with
      | .mem k o ty todo got st (.tile _ _ _ [some v]) mn t =>
        ([Write.g hm d (elemToG m.ty v)], ActBody.mem k o ty todo got st .none mn t)
      | b => ([], b)
    let ws := if res then ws ++ [Write.g hm c (if away.isEmpty then 1 else 0)] else ws
    s.handleGo co a bad ws body false)

def execTld (h : Hdr) (d : TReg) (a : Base) (b : GReg) (gl : Fin 6) (rm : Option KReg) (m : MMod) (s : State) :
    Host.Outcome State Fault Refusal :=
  let g := gl.val + 1
  match a with
  | .comb r => s.combTld h 0x60 d gl m (fun c => groupRun c h.eng r b g m.ty.halfBytes)
      (fun c => runElems (c.rd h.eng r + c.rd h.eng b) (g * (c.shape h.eng).elems) m.ty.halfBytes)
  | .handle hr => s.tileLoad h 0x60 d hr gl rm false m 96 0 (fun c p => seqRefs c h.eng hr b m.ty (g * p.elems) []) .none

def execTldx (h : Hdr) (d : TReg) (a : Base) (b c : GReg) (gl : Fin 6) (rm : Option KReg) (m : MMod) (s : State) :
    Host.Outcome State Fault Refusal :=
  let g := gl.val + 1
  match a with
  | .comb r => s.combTld h 0x61 d gl m (fun co => stridedRuns co h.eng r b c g m.ty.halfBytes)
      (fun co => stridedElems co h.eng r b c g m.ty.halfBytes)
  | .handle hr => s.tileLoad h 0x61 d hr gl rm false m 96 0 (fun co p => stridedRefs co h.eng hr b c m.ty p g []) .none

def execMld (h : Hdr) (d : TReg) (a : HReg) (b : GReg) (pm : Pm) (gl : Fin 6) (rm : Option KReg) (z : Bool) (m : MMod)
    (s : State) : Host.Outcome State Fault Refusal :=
  s.tileLoad h 0x62 d a gl rm z m 96 0 (fun c p => seqRefs c h.eng a b m.ty ((gl.val + 1) * p.elems) []) pm

def execMgath (h : Hdr) (d : TReg) (a : HReg) (b : TReg) (pm : Pm) (gl : Fin 6) (rm : Option KReg) (z : Bool) (m : MMod)
    (s : State) : Host.Outcome State Fault Refusal :=
  s.tileLoad h 0x63 d a gl rm z m 128 8 (fun c p => indexRefs c a b m.ty (gl.val + 1) p.elems []) pm

/-! ### Stores -/

/-- A store of active `refs`: an element out of bounds is dropped (R138). `from_` drops the group indices a stopped `mscat` has
already sent (R144). -/
def State.storeGo (s : State) (c : Core) (hr : HReg) (m : MMod) (refs : List Ref) (total from_ : Nat) (scatter : Bool) : Judged :=
  let hd := c.handles[hr]
  let bad (hd' : Handle) := s.checkReached c.ctxId hd hd' m.ty ⟨false, true⟩ refs
  let es := (s.checkRefs c.ctxId hd m.ty ⟨false, true⟩ refs).2.filter (fun e => from_ ≤ e.idx)
  s.handleGo c hr bad [] (.mem .store (c.orderOf m) m.ty es [] [] .none 0 total) scatter

def execSts (h : Hdr) (d : GReg) (a : HReg) (b : GReg) (m : MMod) (s : State) : Host.Outcome State Fault Refusal :=
  s.handleWord h 0x62 m (fun _ => none) (fun c =>
    s.storeGo c a m (seqRefs c h.eng a b m.ty 1 [(c.rd h.eng d).toNat % 2 ^ (4 * m.ty.halfBytes)]) 1 0 false)

/-- A tile store through a handle. -/
def State.tileStore (s : State) (h : Hdr) (opc : Nat) (d : TReg) (hr : HReg) (gl : Fin 6) (m : MMod) (shapeHb : Nat)
    (refs : Core → Shape → List Nat → List Ref) (pm : Pm) (scatter : Bool) : Host.Outcome State Fault Refusal :=
  let g := gl.val + 1
  let hb := m.ty.halfBytes
  s.handleWord h opc m (fun c => c.shapeBad h.eng (max hb shapeHb)) (fun c =>
    let p := c.shape h.eng
    let rs := pmActive (c.actives pm hb g p.elems) (refs c p (c.group d g p.elems hb))
    s.storeGo c hr m rs (g * p.elems) (if scatter then c.progress h.eng opc else 0) scatter)

def execTst (h : Hdr) (d : TReg) (a : Base) (b : GReg) (gl : Fin 6) (m : MMod) (s : State) :
    Host.Outcome State Fault Refusal :=
  let g := gl.val + 1
  match a with
  | .comb r => s.combTst h 0x60 d gl m (fun c => groupRun c h.eng r b g m.ty.halfBytes)
      (fun c => runElems (c.rd h.eng r + c.rd h.eng b) (g * (c.shape h.eng).elems) m.ty.halfBytes)
  | .handle hr => s.tileStore h 0x60 d hr gl m 0 (fun c p vs => seqRefs c h.eng hr b m.ty (g * p.elems) vs) .none false

def execTstx (h : Hdr) (d : TReg) (a : Base) (b c : GReg) (gl : Fin 6) (m : MMod) (s : State) :
    Host.Outcome State Fault Refusal :=
  let g := gl.val + 1
  match a with
  | .comb r => s.combTst h 0x61 d gl m (fun co => stridedRuns co h.eng r b c g m.ty.halfBytes)
      (fun co => stridedElems co h.eng r b c g m.ty.halfBytes)
  | .handle hr => s.tileStore h 0x61 d hr gl m 0 (fun co p vs => stridedRefs co h.eng hr b c m.ty p g vs) .none false

def execMst (h : Hdr) (d : TReg) (a : HReg) (b : GReg) (pm : Pm) (gl : Fin 6) (m : MMod) (s : State) :
    Host.Outcome State Fault Refusal :=
  s.tileStore h 0x62 d a gl m 0 (fun c p vs => seqRefs c h.eng a b m.ty ((gl.val + 1) * p.elems) vs) pm false

def execMscat (h : Hdr) (d : TReg) (a : HReg) (b : TReg) (pm : Pm) (gl : Fin 6) (m : MMod) (s : State) :
    Host.Outcome State Fault Refusal :=
  s.tileStore h 0x63 d a gl m 8 (fun c p vs => indexRefs c a b m.ty (gl.val + 1) p.elems vs) pm true

/-! ### Atomics (R197, R198) -/

/-- The page takes no atomic: a format of another type, a geometry, a view, or a home that has no such operation. -/
def atomicDenied (ty : Ty) (k : MemKind) (e : Elem) : Bool :=
  let l := e.leaf
  (match l.elemTy with | none => false | some t => t != ty) || l.geom != 0 || l.vw
    || (match l.home with
      | 2 => (match k with | .amo .add | .amo .swap | .cas _ => false | _ => true)
      | 3 => true
      | _ => false)

def State.atomicWord (s : State) (h : Hdr) (opc : Nat) (d : GReg) (a : HReg) (b c : GReg) (m : MMod) (kind : Core → MemKind) :
    Host.Outcome State Fault Refusal :=
  s.handleWord h opc m (fun _ => none) (fun co =>
    let hd := co.handles[a]
    let w := 4 * m.ty.halfBytes
    let k := kind co
    let refs := seqRefs co h.eng a b m.ty 1 [(co.rd h.eng c).toNat % 2 ^ w]
    let bad (hd : Handle) := match s.checkRefs co.ctxId hd m.ty ⟨true, true⟩ refs with
      | (some t, _) => some t
      | (none, es) => (es.find? (atomicDenied m.ty k)).map (fun e => (Cause.permission, checkInfo 0xC e.va2))
    let es := (s.checkRefs co.ctxId hd m.ty ⟨true, true⟩ refs).2
    let ws := if es.isEmpty
      then [Write.g (co.usesHandler h.eng) d (elemToG m.ty ((co.seq h.eng).oobfill.toNat % 2 ^ w))] else []
    s.handleGo co a bad ws (.mem k (co.orderOf m) m.ty es [] [] (.g d) 160 1) false)

def execAmo (h : Hdr) (d : GReg) (a : HReg) (b c : GReg) (op : Aop) (m : MMod) (s : State) :
    Host.Outcome State Fault Refusal :=
  s.atomicWord h 0x63 d a b c m (fun _ => .amo op)

def execCas (h : Hdr) (d : GReg) (a : HReg) (b c : GReg) (m : MMod) (s : State) : Host.Outcome State Fault Refusal :=
  s.atomicWord h 0x64 d a b c m (fun co => .cas (BitVec.ofNat 64 ((co.rd h.eng d).toNat % 2 ^ (4 * m.ty.halfBytes))))

/-! ### pref (R146) -/

def execPref (h : Hdr) (_a : HReg) (_b _c : GReg) (s : State) : Host.Outcome State Fault Refusal := s.issue h 0x67 (fun _ => .go s {})

end Sys2Proof.Machine
end

