-- ==== Sys2Proof/Machine/Homes.lean ====
section
/-! DEFINITION. Accesses performed at their homes (R131, R137, R139, R142 to R145, R181, R197, R222 to R224, R227, R340, R357), and
the completion of memory words. -/
namespace Sys2Proof.Machine

/-! ### Where an element can be performed -/

/-- The migration that locks a page, if any (R149, R150). -/
def State.lockOn (s : State) (l : Leaf) : Option Migration :=
  s.migrations.find? (fun m => m.leaf.dataKey s.pkg == l.dataKey s.pkg)

/-- A peer refuses a request to the byte at a key of a page it is home to (R356). -/
def State.peerSays (s : State) (l : Leaf) (key : Nat) : Bool :=
  match l.peerOf s.pkg with
  | some p => Config.peerRefuses s.pulse p.val key
  | none => false

/-- The home refuses the element: its page is being moved or has been, or a peer says so (R145, R150, R356). -/
def State.refuses (s : State) (e : Elem) : Bool :=
  (s.lockOn e.leaf).isSome || e.fate == .moved || s.peerSays e.leaf (e.pa2 / 2)

/-- Requests to this peer are not sent (R357). -/
def State.peerDown (s : State) (x : Fin 64) (l : Leaf) : Bool :=
  match l.peerOf s.pkg with
  | some p => !(s.livePeers x).getLsbD p.val
  | none => false

/-- A port of partition `part` carries its traffic (R324, R349, R354). -/
def State.portUsable (s : State) (part : Fin 8) (n : Nat) : Bool :=
  decide (n < 12) && s.ports[Fin.ofNat 12 n].up && (s.portPart[Fin.ofNat 12 n]).toNat == part.val + 1

/-- The ROUTE entry of a partition for a package (R349). -/
def State.routeTo (s : State) (part : Fin 8) (pkg : Fin 64) : BitVec 9 := s.route[64 * part.val + pkg.val]

/-- A usable route of the partition to the package: its primary port, else its alternate (R354). -/
def State.routePort (s : State) (part : Fin 8) (pkg : Fin 64) : Option Nat :=
  let r := (s.routeTo part pkg).toNat
  if !bitSet r 8 then none
  else if s.portUsable part (fld r 0 4) then some (fld r 0 4)
  else if s.portUsable part (fld r 4 4) then some (fld r 4 4) else none

/-- A flit of this package waits for its port (R353, R354). Which requests and responses a flit packs, and in which traffic class it
goes, the spec leaves open: DESIGN CHOICE (log 52): each goes in a flit of its own, its class a free value. Without a usable route there
is none to wait for. -/
def State.transmit (s : State) (part : Fin 8) (to_ : Fin 64) (tag : Byte) (ops : List RemoteOp) (answers : List PeerAnswer) : State :=
  if (s.routePort part to_).isNone then s
  else
    let (n, s) := s.draw
    let f : Flit := ⟨0, 0, Fin.ofNat 4 (Config.pick n), to_, Fin.ofNat 64 s.pkg, 0, tag, true, ops, answers⟩
    { s with outgoing := s.outgoing ++ [(part, f)] }

/-- A request of context `x` to a package goes out. -/
def State.request (s : State) (x : Fin 64) (to_ : Fin 64) (op : RemoteOp) : State :=
  s.transmit (partNo (s.ctx x).partMask) to_ (s.ctx x).podCtx [op] []

/-- The page of an element, as a request names it. -/
def Elem.page (e : Elem) : RemotePage :=
  ⟨e.leaf.fmt, e.leaf.geom, e.leaf.size, e.base2 / 2 % 2 ^ 52, e.leaf.plane, e.leaf.base⟩

/-- The request that an element of a memory word sends to its page's home (R355). -/
def Elem.request (e : Elem) (k : MemKind) (ty : Ty) : RemoteOp :=
  let pa := e.pa2 / 2 % 2 ^ 52
  let v := BitVec.ofNat 64 e.val
  let wide := ty.halfBytes == 16
  match k with
  | .amo op => .atomic op wide pa v
  | .cas x => .cas wide pa x v
  | .load => if e.leaf.elemTy.isNone then .load pa ((ty.halfBytes + 1) / 2) else .loadElem e.page (e.pa2 - e.base2) ty
  | .store => if e.leaf.elemTy.isNone && ty.halfBytes != 1 then .store pa (leBytes ((ty.halfBytes + 1) / 2) e.val)
    else .storeElems e.page ty [(e.pa2 - e.base2, e.val)]

/-- The partition of a context reaches the package (R356). -/
def State.reaches (s : State) (x : Fin 64) (pkg : Fin 64) : Bool := (s.routePort (partNo (s.ctx x).partMask) pkg).isSome

/-- The way to the home carries traffic, or its peer is down and the request ends at once (R347, R354, R357; log 32). -/
def State.linkUp (s : State) (x : Fin 64) (l : Leaf) : Bool :=
  match l.home with
  | 0 => true
  | 1 => match l.peerOf s.pkg with
    | some p => s.peerDown x l || s.reaches x p
    | none => true
  | 2 => s.linkA
  | 3 => s.linkB && s.cxlB

/-- The issued memory word of core `id`, once its port has let it go. -/
def Core.memAct (c : Core) (n : Nat) : Option Act :=
  match c.act? n with
  | some a => match a.body with
    | .mem _ _ _ _ _ _ _ _ _ => some a
    | _ => none
  | none => none

def ActBody.todo : ActBody → List Elem
  | .mem _ _ _ todo _ _ _ _ _ => todo
  | .upd _ _ todo _ => todo
  | _ => []

/-- The elements performed with `e`: those of its block on a stamped or MX page, else itself. -/
def together (todo : List Elem) (e : Elem) : List Elem := if e.leaf.block = 0 then [e] else todo.filter e.sameBlock

/-- Element `e` of word `a` may go to its home now: it is not waiting out a hint, its link carries traffic, no earlier access of its
sequencer must come first for an agent that can tell, no early access holds it (R186), and no earlier element of its own word that
overlaps it is still to come, but for those performed with it (R142). -/
def State.elemFree (s : State) (c : Core) (a : Act) (e : Elem) : Bool :=
  match a.body with
  | .mem k o ty todo _ _ _ _ _ =>
    let x := e.access k.acc ty
    e.notBefore == 0 && s.linkUp c.ctxId e.leaf
      && (s.mayPerform c a.seq a.id o x || (e.leaf.block == 0 && s.earlyNow.isNone && (s.earlyBy c a.seq a.id o x).isSome))
      && !s.earlyHolds c (some a.seq) x
      && todo.all (fun f => e.idx ≤ f.idx || e.sameBlock f || !(f.access k.acc ty).overlaps x)
  | _ => false

/-- Element `e` may be performed now: it may go to its home, and where that is a live peer it has been sent. -/
def State.elemReady (s : State) (c : Core) (a : Act) (e : Elem) : Bool :=
  s.elemFree c a e && (e.sent != 0 || (e.leaf.peerOf s.pkg).isNone || s.peerDown c.ctxId e.leaf)

/-- A hint of h × 256 ns, h an 8-bit value the home chooses (R149, R356), in pulses. -/
def hintPulses (n : Nat) : Nat := (Config.pick n % 256) * 576

/-- The element is held and re-sent after a hint. -/
def Elem.refused (e : Elem) (pulse n : Nat) : Elem :=
  { e with tries := e.tries + 1, notBefore := pulse + hintPulses n + 1, sent := 0 }

def Act.mapTodo (a : Act) (f : List Elem → List Elem) : Act :=
  match a.body with
  | .mem k o ty todo got st d m t => { a with body := .mem k o ty (f todo) got st d m t }
  | _ => a

/-- The peer of a page is treated as unreachable in this cycle (R356). -/
def State.abandonPeer (s : State) (x : Fin 64) (l : Leaf) : State :=
  match l.peerOf s.pkg with
  | some p => { s with inputs := s.inputs ++ [(s.pulse, .peerTimeout (partNo (s.ctx x).partMask) p)] }
  | none => s

/-- The home refuses an element, with those of its block. At the 64th refusal in a row its peer is given up (R356). -/
def State.refuse (s : State) (c : Core) (a : Act) (e : Elem) : State :=
  let (n, s) := s.draw
  let es := together a.body.todo e
  let s := s.setCore (c.setAct (a.mapTodo (fun t => t.map (fun f => if es.any (·.idx == f.idx) then f.refused s.pulse n else f))))
  if 63 ≤ e.tries then s.abandonPeer c.ctxId e.leaf else s

/-- Elements are sent to their peers, those of a block in one request, and have 100 µs to be answered (R356). -/
def State.markSent (s : State) (id : Nat) (a : Act) : State :=
  let c := s.core id
  match a.body with
  | .mem k _ ty todo _ _ _ _ _ =>
    let goes (e : Elem) : Bool := e.sent == 0 && (e.leaf.peerOf s.pkg).isSome && !s.peerDown c.ctxId e.leaf && s.elemFree c a e
    let t := (todo.filter goes).foldl (fun t e => match e.leaf.peerOf s.pkg with
      | some p => match k, (together todo e).filter goes with
        | .store, f :: es => if f.idx != e.idx then t
          else if es.isEmpty then t.request c.ctxId p (e.request k ty)
          else t.request c.ctxId p (.storeElems e.page ty ((f :: es).map (fun g => (g.pa2 - g.base2, g.val))))
        | _, _ => t.request c.ctxId p (e.request k ty)
      | none => t) s
    if todo.any goes then t.setCore (c.setAct (a.mapTodo (fun l => l.map (fun e =>
      if goes e then { e with sent := s.pulse + 1 } else e)))) else s
  | _ => s

/-- 100 µs: the time a peer has to answer (R356). -/
def answerLimit : Nat := 100 * pulsesPerUs

/-- The peer has not answered the element in time. -/
def Elem.silent (e : Elem) (pkg pulse : Nat) : Bool :=
  (e.leaf.peerOf pkg).isSome && e.sent != 0 && decide (e.sent + answerLimit ≤ pulse)

/-- One request to a peer is lost (R357). -/
def State.loseRequest (s : State) : State := { s with linkLost := satInc s.linkLost 1 }

/-- One request is denied by package `p` (R355). -/
def State.deny (s : State) (x : Fin 64) (p : Fin 64) : State :=
  ({ s with linkDenied := satInc s.linkDenied 1 }).postEvent x 0x0B (BitVec.ofNat 64 p.val)

/-- A request is lost and its peer treated as unreachable in this cycle (R356). -/
def State.giveUp (s : State) (x : Fin 64) (l : Leaf) : State :=
  if (l.peerOf s.pkg).isSome then s.loseRequest.abandonPeer x l else s

/-- A request to a package at the byte of this key would be taken: its peer is live and admits it (R355, R357). -/
def State.peerTakes (s : State) (x p : Fin 64) (key : Nat) : Bool :=
  (s.livePeers x).getLsbD p.val && Config.admits s.pulse p.val (s.ctx x).podCtx.toNat key

/-- A request to a package at the byte of this key comes to nothing: the peer is down, or denies it (R355, R357). -/
def State.lostTo (s : State) (x p : Fin 64) (key : Nat) : Option State :=
  if !(s.livePeers x).getLsbD p.val then some s.loseRequest
  else if Config.admits s.pulse p.val (s.ctx x).podCtx.toNat key then none else some (s.deny x p)

/-- A request to a page comes to nothing. -/
def State.lostAt (s : State) (x : Fin 64) (l : Leaf) (key : Nat) : Option State :=
  match l.peerOf s.pkg with
  | some p => s.lostTo x p key
  | none => none

/-! ### Loads (R131, R139, R222, R223) -/

/-- A loaded value joins the word's results; a stale element is noted. -/
def Act.got (a : Act) (e : Elem) (v : Nat) (stale : Bool) : Act :=
  match a.body with
  | .mem k o ty todo got st d m t =>
    { a with body := .mem k o ty (todo.filter (·.idx != e.idx)) (got ++ [(e.idx, v)])
                (if stale then st ++ [(e.idx, e.va2)] else st) d m t }
  | _ => a

/-- The last requests of a memory word have come to nothing: it completes in this cycle, as far as its minimum latency lets it (R357). -/
def Act.endsLost (a : Act) : Act :=
  match a.body with
  | .mem _ _ _ [] _ _ _ _ _ => { a with lost := true }
  | _ => a

/-- A line of the element, or of the side plane that holds its block's stamp word or scale, is poisoned (R340). -/
def State.poisonedAt (s : State) (e : Elem) (ty : Ty) : Bool :=
  s.poisoned.any (fun l => l * 128 < e.pa2 + e.half ty && e.pa2 < l * 128 + 128)
    || (e.leaf.block != 0 && (blockAt s.pkg e.leaf e.blk e.block2).planeLines.any s.poisoned.contains)

/-- An element among some to be stored whose block is read and merged from a poisoned line: the block's elements and scale where they are
not all written anew, the stamp word always (R227, R340). -/
def State.mergePoisoned (s : State) (es : List Elem) : Option Elem :=
  es.find? (fun e => e.leaf.block != 0 && (
    let k := blockAt s.pkg e.leaf e.blk e.block2
    let own := es.filter e.sameBlock
    let whole := (List.range k.n).all (fun i => own.any (fun f => f.pa2 == k.data2 + i * k.hb))
    (!whole && s.poisonedBlock k) || (k.stamp.isSome && k.planeLines.any s.poisoned.contains)))

/-- What an element of a word meets at its home: its peer comes to nothing, the home refuses it, or it is performed by `go`. An
element that a SET lets go ahead is noted (R186). A word whose last requests come to nothing completes in this cycle (R357). -/
def State.atHome (s : State) (c : Core) (a : Act) (k : AccKind) (o : Order) (ty : Ty) (e : Elem) (lost : Act)
    (go : State → State) : State :=
  match s.lostAt c.ctxId e.leaf (e.pa2 / 2) with
  | some s => s.setCore (c.setAct lost.endsLost)
  | none => if s.refuses e then s.refuse c a e else go (s.noteEarly c a.seq a.id o (e.access k ty))

/-- A read of a poisoned line is a trap of its word where that can be precise, its sequencer having issued no later word; else the
word goes on with 0 and the context faults (R331, R340). Otherwise `go`. -/
def State.unlessPoisoned (s : State) (c : Core) (a : Act) (e : Elem) (ty : Ty) (go : State → State) : State :=
  let info := eccInfo 3 (e.va2 / 2)
  if !s.poisonedAt e ty then go s
  else if a.passed then (s.setCore (c.setAct (a.got e 0 false))).eccFault c.ctxId (some c.id) info
  else s.setCore (c.trapAct a .eccUncorrectable info none)

/-- One element of a load is performed at its home. -/
def State.performLoad (s : State) (id : Nat) (a : Act) (o : Order) (e : Elem) (ty : Ty) : State :=
  let c := s.core id
  s.atHome c a .load o ty e (a.got e 0 false) (fun s => s.unlessPoisoned c a e ty (fun s =>
    let ((v, stale), s) := s.loadElem c.ctxId e ty
    s.setCore ((s.core id).setAct (a.got e v stale))))

def execHomeLoad (core act elem : Nat) (s : State) : Host.Outcome State Fault Refusal :=
  let c := s.core core
  match c.memAct act with
  | some a => match a.body with
    | .mem .load o ty todo _ _ _ _ _ =>
      match todo.find? (·.idx == elem) with
      | some e => if s.elemReady c a e then .next (s.performLoad core a o e ty) else .next s
      | none => .next s
    | _ => .next s
  | none => .next s

/-! ### Stores (R131, R142, R227) -/

/-- A store notes the ranges it has written (half-byte key, half-bytes). -/
def Act.stored (a : Act) (rs : List (Nat × Nat)) : Act :=
  match a.body with
  | .mem .store o ty todo got st d m t => { a with body := .mem .store o ty todo (got ++ rs) st d m t }
  | _ => a

def State.performStore (s : State) (id : Nat) (a : Act) (o : Order) (e : Elem) (ty : Ty) : State :=
  let c := s.core id
  let es := together a.body.todo e
  let done := (a.mapTodo (fun t => t.filter (fun f => !es.any (·.idx == f.idx)))).stored (es.map (fun f => (f.pa2, f.half ty)))
  s.atHome c a .store o ty e done (fun s =>
    let s := if e.leaf.block = 0 then s.storeElem e ty else s.storeBlock c.ctxId es ty
    s.setCore ((s.core id).setAct done))

def execHomeStore (core act elem : Nat) (s : State) : Host.Outcome State Fault Refusal :=
  let c := s.core core
  match c.memAct act with
  | some a => match a.body with
    | .mem .store o ty todo _ _ _ _ _ =>
      match todo.find? (·.idx == elem) with
      | some e =>
        if (together todo e).all (s.elemReady c a) then .next (s.performStore core a o e ty) else .next s
      | none => .next s
    | _ => .next s
  | none => .next s

/-! ### Atomics (R197) -/

/-- The new value of an `amo`. -/
def aopApply (op : Aop) (w old v : Nat) : Nat :=
  match op with
  | .add => (old + v) % 2 ^ w
  | .and => old &&& v
  | .or => old ||| v
  | .xor => old ^^^ v
  | .min => if signedOf w v < signedOf w old then v else old
  | .max => if signedOf w old < signedOf w v then v else old
  | .minu => min old v
  | .maxu => max old v
  | .swap => v

/-- The read and write of an atomic at its home, one indivisible step; the old value. -/
def State.atomicAt (s : State) (k : MemKind) (key w v : Nat) : Nat × State :=
  let (old, s) := s.homeNat key (w / 8)
  match k with
  | .amo op => (old, s.homeWrite key (leBytes (w / 8) (aopApply op w old v)))
  | .cas expect => (old, if old = expect.toNat % 2 ^ w then s.homeWrite key (leBytes (w / 8) v) else s)
  | _ => (old, s)

def State.performAtomic (s : State) (id : Nat) (a : Act) (k : MemKind) (o : Order) (e : Elem) (ty : Ty) : State :=
  let c := s.core id
  s.atHome c a .atomic o ty e (a.got e 0 false) (fun s => s.unlessPoisoned c a e ty (fun s =>
    let (old, s) := s.atomicAt k (e.pa2 / 2) (4 * ty.halfBytes) e.val
    s.setCore ((s.core id).setAct (a.got e old false))))

def execHomeAtomic (core act : Nat) (s : State) : Host.Outcome State Fault Refusal :=
  let c := s.core core
  match c.memAct act with
  | some a => match a.body with
    | .mem k o ty (e :: _) _ _ _ _ _ =>
      if k.acc == .atomic && s.elemReady c a e then .next (s.performAtomic core a k o e ty) else .next s
    | _ => .next s
  | none => .next s

/-! ### A held request is sent again (R145) -/

/-- The element with its address translated by the page table as it stands: none where no valid leaf is found. -/
def State.retranslate (s : State) (x : Fin 64) (ty : Ty) (e : Elem) : Option Elem :=
  (s.walk x (canonOf (e.va2 / 2))).map (fun l => { s.elemOf x ty ⟨⟨e.idx, 0, false, e.val⟩, l, e.va2⟩ with tries := e.tries })

/-- The elements `es` of a word translated again; those with no valid leaf read 0 or are dropped, and PGSTAT counts them:
one count for the context, which saturates (DESIGN CHOICE, log 69). -/
def State.retranslateAll (s : State) (c : Core) (a : Act) (k : MemKind) (ty : Ty) (es : List Elem) : State :=
  let s := s.readTables c.ctxId (es.map (fun e => canonOf (e.va2 / 2)))
  let new := es.filterMap (s.retranslate c.ctxId ty)
  let gone := es.filter (fun e => (s.retranslate c.ctxId ty e).isNone)
  let a := a.mapTodo (fun t => t.map (fun f => (new.find? (·.idx == f.idx)).getD f))
  let a := if k.acc == .store then a.mapTodo (fun t => t.filter (fun f => !gone.any (·.idx == f.idx)))
    else gone.foldl (fun a e => a.got e 0 false) a
  let s := s.setCore (c.setAct a)
  if gone.isEmpty then s else s.setCtx c.ctxId { s.ctx c.ctxId with pgLost := satInc (s.ctx c.ctxId).pgLost gone.length }

/-- The hint is over: the element, with those of its block, is sent again, to where its address now leads if a shootdown has reached it
or its page has moved (R145). -/
def execRetryAfterHint (core act elem : Nat) (s : State) : Host.Outcome State Fault Refusal :=
  let c := s.core core
  match c.memAct act with
  | some a => match a.body with
    | .mem k _ ty todo _ _ _ _ _ =>
      match todo.find? (·.idx == elem) with
      | some e =>
        if e.notBefore = 0 ∨ s.pulse < e.notBefore then .next s
        else
          let es := together todo e
          if e.fate ≠ .same then .next (s.retranslateAll c a k ty es)
          else .next (s.setCore (c.setAct (a.mapTodo (fun t => t.map (fun f =>
            if es.any (·.idx == f.idx) then { f with notBefore := 0 } else f)))))
      | none => .next s
    | _ => .next s
  | none => .next s

/-! ### Completion (R51, R139, R142, R223) -/

/-- The values of a group's elements: the loaded ones in place. -/
def fillGot (fill : List (Option Nat)) (got : List (Nat × Nat)) : List (Option Nat) :=
  fill.zipIdx.map (fun p => match got.find? (·.1 == p.2) with | some q => some q.2 | none => p.1)

/-- The register writes of a load's results. -/
def Dest.writes (d : Dest) (handler : Bool) (ty : Ty) (got : List (Nat × Nat)) : List Write :=
  match d with
  | .none => []
  | .g r => match got with | [] => [] | q :: _ => [.g handler r (elemToG ty q.2)]
  | .tile t gl per fill => tileWrites t gl per ty.halfBytes (fillGot fill got)

/-- The stale element of the lowest group index. -/
def lowestStale : List (Nat × Nat) → Option (Nat × Nat)
  | [] => none
  | p :: t => match lowestStale t with
    | none => some p
    | some q => if q.1 < p.1 then some q else some p

/-- Every element of a memory word is performed: a stale load traps, a load or atomic lands once its minimum latency and the
way back are over (log 3), a store is complete. No way back follows requests that have come to nothing (R357). -/
def State.finishMem (s : State) (id : Nat) (a : Act) : State :=
  let c := s.core id
  match a.body with
  | .mem k _ ty [] got stale d mn _ =>
    if a.due.isSome then s
    else match lowestStale stale with
      | some (_, va2) => s.setCore (c.trapAct a .stampStale (pack [(0xF, 0), (va2 / 2 % 2 ^ 57, 4)]) none)
      | none =>
        let (n, s) := s.draw
        let now := s.cycle c
        let s := if k.acc == .store then s.unpoisonBy got else s
        let due := match k with | .store => now | _ => max (a.issued + mn - 1) (if a.lost then now else now + Config.delay n)
        let a := { a with due := some due, holds := if k.acc == .store then a.holds else none
                          writes := a.writes ++ d.writes a.handler ty got }
        if a.lost && due ≤ now then s.land id a else s.setCore (c.setAct a)
  | _ => s

/-! ### Comb loads and stores (R142, R178) -/

/-- Comb bytes with elements written at half-byte addresses, in order. -/
def Core.storeComb (c : Core) (hb : Nat) (items : List (Nat × Nat)) : Core :=
  { c with comb := items.foldl (fun m p => m.writeElem p.1 hb p.2) c.comb }

/-- A comb store whose cycle has come writes and completes. -/
def State.runCombStore (s : State) (id : Nat) (a : Act) : State :=
  let c := s.core id
  match a.body with
  | .combStore t _ ty items =>
    if t ≤ s.cycle c then s.setCore ((c.storeComb ty.halfBytes items).complete a) else s
  | _ => s

/-- A comb load whose cycle has come reads, and lands that much later. -/
def State.runCombLoad (s : State) (id : Nat) (a : Act) : State :=
  let c := s.core id
  match a.body with
  | .combLoad t lat o ty addrs d =>
    let now := s.cycle c
    if a.due.isNone && t ≤ now then
      let vals := addrs.map (fun x => c.comb.readElem x ty.halfBytes)
      s.setCore (c.setAct { a with due := some (a.issued + lat - 1 + (now - t))
                                   body := .combLoad t lat o ty [] .none
                                   writes := a.writes ++ d.writes a.handler ty (vals.zipIdx.map (fun p => (p.2, p.1))) })
    else s
  | _ => s

end Sys2Proof.Machine
end

