-- ==== Sys2Proof/Machine/Rings.lean ====
section
/-! DEFINITION. Comb rings and sync words (R154 to R161, R172 to R177). -/
namespace Sys2Proof.Machine

/-! ### Ring registers (R154) -/

inductive RingMode where
  | invalid | localRing | accepting | proxy
  deriving DecidableEq, Repr

def RingReg.mode (r : RingReg) : RingMode :=
  if !r.valid then .invalid else if r.remote then .proxy else if r.accept then .accepting else .localRing

/-- 2^LOG2N. -/
def RingReg.size (r : RingReg) : Nat := 2 ^ r.log2n.toNat
def RingReg.filled (r : RingReg) : Nat := (r.tail - r.head).toNat
/-- 2^LOG2N − (CLAIMED − HEAD), modulo 2^32. An accepting ring has no claims: its entries are taken as they arrive, up to TAIL (R154, R160;
DEDUCED, log 33). -/
def RingReg.free (r : RingReg) : Nat := (BitVec.ofNat 32 r.size - ((if r.accept then r.tail else r.claimed) - r.head)).toNat
/-- The comb address of entry number `n`. -/
def RingReg.entry (r : RingReg) (n : W32) : Nat := r.base.toNat + n.toNat % r.size * 64 * r.esz.toNat

def Core.setRing (c : Core) (r : Ring) (v : RingReg) : Core := { c with rings := c.rings.set r v }

/-- A core of the same hive, by its number in it. -/
def hiveMate (id n : Nat) : Nat := id / 4 * 4 + n

/-! ### ringdef (R155, R160) -/

/-- The ring register that gA and gB of `ringdef` describe, or none where they break a limit. A proxy ignores gA and LOG2N: its BASE and
LOG2N read 0 (DESIGN CHOICE, log 72). -/
def ringOf (own : Nat) (a b : W64) : Option RingReg :=
  let remote := bits b 11 1 == 1
  let accept := bits b 18 1 == 1
  let esz := bits b 4 7
  let log2n := bits b 0 4
  let rcore := bits b 12 2
  let asrc := bits b 19 2
  let shared : RingReg :=
    { RingReg.reset with valid := true, esz := BitVec.ofNat 7 esz, remote := remote, rcore := BitVec.ofNat 2 rcore
                         rring := BitVec.ofNat 4 (bits b 14 4), accept := accept, asrc := BitVec.ofNat 2 asrc }
  if bits b 21 43 ≠ 0 ∨ (remote && accept) ∨ esz = 0 ∨ 64 < esz then none
  else if remote then (if rcore = own then none else some shared)
  else if log2n = 0 ∨ 12 < log2n ∨ (accept ∧ asrc = own) ∨ a.toNat % 64 ≠ 0
      ∨ combEnd < a.toNat + 2 ^ log2n * 64 * esz then none
  else some { shared with base := BitVec.ofNat 21 a.toNat, log2n := BitVec.ofNat 4 log2n }

def execRingdef (h : Hdr) (d : Ring) (a b : GReg) (s : State) : Host.Outcome State Fault Refusal :=
  s.issue h 0x44 (fun c =>
    match ringOf (c.id % 4) (c.rd h.eng a) (c.rd h.eng b) with
    | none => .illegal 0x0D
    | some r => .go s { writes := [.ring d r] })

/-! ### rclaim, rwaite, rwaitf, rcommit, rrel (R156 to R159) -/

/-- TRAPINFO of RING_MISUSE. -/
def ringInfo (r : Ring) (instr : Nat) : W64 := pack [(r.val, 0), (instr, 4)]

/-- n of a ring word: an IMM32 from 0 to 4096. -/
def ringCount (n : W32) : Option Nat := if 4096 < n.toNat then none else some n.toNat

/-- A waiting ring word: `instr` its number in TRAPINFO, `ok` the modes it admits, `avail` the count it waits for, `res` its
result, `upd` what it changes in its issue cycle. -/
def State.ringWait (s : State) (h : Hdr) (opc instr : Nat) (d : GReg) (r : Ring) (n : W32) (ok : RingMode → Bool)
    (avail : RingReg → Nat) (res : RingReg → W64) (upd : RingReg → Nat → RingReg) : Host.Outcome State Fault Refusal :=
  s.issue h opc (fun c =>
    match ringCount n with
    | none => .illegal 0x0D
    | some k =>
      let x := c.rings[r]
      if !ok x.mode || x.size < k then .trap .ringMisuse (ringInfo r instr)
      else if 0 < k ∧ avail x < k then .wait .ring
      else .go (s.setCore (c.setRing r (upd x k)))
        { lat := some 2, fixed := false, writes := [.g (c.usesHandler h.eng) d (res x)] })

def RingMode.isLocal (m : RingMode) : Bool := m == .localRing
def RingMode.consumes (m : RingMode) : Bool := m == .localRing || m == .accepting

/-- `rclaim`: free ≥ n; CLAIMED rises by n; the entry at the old CLAIMED. -/
def execRclaim (h : Hdr) (d : GReg) (a : Ring) (n : W32) (s : State) : Host.Outcome State Fault Refusal :=
  s.ringWait h 0x47 0 d a n (·.isLocal) RingReg.free (fun x => pack [(x.entry x.claimed, 0), (x.claimed.toNat, 32)])
    (fun x k => { x with claimed := x.claimed + BitVec.ofNat 32 k })

def execRwaite (h : Hdr) (d : GReg) (a : Ring) (n : W32) (s : State) : Host.Outcome State Fault Refusal :=
  s.ringWait h 0x46 1 d a n (·.isLocal) RingReg.free (fun x => BitVec.ofNat 64 x.free) (fun x _ => x)

def execRwaitf (h : Hdr) (d : GReg) (a : Ring) (n : W32) (s : State) : Host.Outcome State Fault Refusal :=
  s.ringWait h 0x45 2 d a n (·.consumes) RingReg.filled (fun x => pack [(x.entry x.head, 0), (x.filled, 32)]) (fun x _ => x)

/-- n of every `rcommit` (or `rrel`) on the ring issued and not yet applied. -/
def Core.ringPending (c : Core) (r : Ring) (commit : Bool) : Nat :=
  c.acts.foldl (fun t a => t + match a.body with
    | .rcommit r' n => if commit && r' == r then n else 0
    | .rrel r' n => if !commit && r' == r then n else 0
    | _ => 0) 0

def execRcommit (h : Hdr) (a : Ring) (n : W32) (s : State) : Host.Outcome State Fault Refusal :=
  s.issue h 0x48 (fun c =>
    match ringCount n with
    | none => .illegal 0x0D
    | some k =>
      let x := c.rings[a]
      if !x.mode.isLocal || (x.claimed - x.tail).toNat < k + c.ringPending a true then .trap .ringMisuse (ringInfo a 3)
      else .go s { lat := none, fixed := false, body := .rcommit a k })

def execRrel (h : Hdr) (a : Ring) (n : W32) (s : State) : Host.Outcome State Fault Refusal :=
  s.issue h 0x49 (fun c =>
    match ringCount n with
    | none => .illegal 0x0D
    | some k =>
      let x := c.rings[a]
      if !x.mode.consumes || x.filled < k + c.ringPending a false then .trap .ringMisuse (ringInfo a 4)
      else .go s { lat := none, fixed := false, body := .rrel a k })

def Act.isRing (a : Act) : Bool := match a.body with | .rcommit _ _ | .rrel _ _ => true | _ => false

/-- The update of an `rcommit` or `rrel` can be applied (R158). -/
def Core.ringReady (c : Core) (a : Act) : Bool :=
  match a.body with
  | .rcommit _ _ => c.noneBefore a (fun b => b.writesComb || b.isRing)
  | .rrel _ _ => c.noneBefore a (fun b => b.usesComb || b.isRing)
  | _ => false

def execRcommitApply (core act : Nat) (s : State) : Host.Outcome State Fault Refusal :=
  let c := s.core core
  match c.act? act with
  | some a => match a.body with
    | .rcommit r n =>
      if c.ringReady a then
        let x := c.rings[r]
        .next (s.setCore ((c.setRing r { x with tail := x.tail + BitVec.ofNat 32 n }).complete a))
      else .next s
    | _ => .next s
  | none => .next s

/-- The proxy on core `src` that stands for ring `r` of core `id`, if any. -/
def Core.proxyFor (src : Core) (id : Nat) (r : Ring) : Option Ring :=
  (List.finRange 16).find? (fun k =>
    let p := src.rings[k]
    p.mode == .proxy && !p.err && hiveMate src.id p.rcore.toNat == id && p.rring.toNat == r.val)

/-- HEAD rises; an accepting ring's proxy is sent the credits (R160). -/
def execRrelApply (core act : Nat) (s : State) : Host.Outcome State Fault Refusal :=
  let c := s.core core
  match c.act? act with
  | some a => match a.body with
    | .rrel r n =>
      if c.ringReady a then
        let x := c.rings[r]
        let s := s.setCore ((c.setRing r { x with head := x.head + BitVec.ofNat 32 n }).complete a)
        let src := hiveMate core x.asrc.toNat
        match x.mode, (s.core src).proxyFor core r with
        | .accepting, some p => .next { s with ringMsgs := s.ringMsgs ++ [.credit src p n] }
        | _, _ => .next s
      else .next s
    | _ => .next s
  | none => .next s

/-! ### Remote append (R160, R161) -/

/-- The answer to a proxy's question arrives: its ROOM, or ERR. It counts what has been released so far, so credits under way for
that count no more (R160). -/
def execRoomAnswer (core : Nat) (ring : Ring) (s : State) : Host.Outcome State Fault Refusal :=
  if s.ringMsgs.contains (.ask core ring) then
    let s := { s with ringMsgs := s.ringMsgs.erase (.ask core ring) }
    let c := s.core core
    let p : RingReg := c.rings[ring]
    let t : RingReg := (s.core (hiveMate core p.rcore.toNat)).rings[Fin.ofNat 16 p.rring.toNat]
    if p.mode ≠ .proxy then .next s
    else if t.mode = .accepting ∧ t.asrc.toNat = core % 4 ∧ t.esz = p.esz then
      .next ({ s with ringMsgs := s.ringMsgs.filter (fun m => !m.isFor core ring) }.setCore
        (c.setRing ring { p with room := BitVec.ofNat 13 t.free }))
    else .next (s.setCore (c.setRing ring { p with err := true }))
  else .next s

/-- Credits arrive at a proxy. ROOM stays 0 while its question is not answered, the answer counting them too, and with ERR (R160). -/
def execCreditArrival (core : Nat) (ring : Ring) (n : Nat) (s : State) : Host.Outcome State Fault Refusal :=
  if s.ringMsgs.contains (.credit core ring n) then
    let s := { s with ringMsgs := s.ringMsgs.erase (.credit core ring n) }
    let c := s.core core
    let p : RingReg := c.rings[ring]
    if p.mode = .proxy ∧ !p.err ∧ !s.ringMsgs.contains (.ask core ring) then
      .next (s.setCore (c.setRing ring { p with room := p.room + BitVec.ofNat 13 n }))
    else .next s
  else .next s

def execRapp (h : Hdr) (d : Ring) (a : GReg) (s : State) : Host.Outcome State Fault Refusal :=
  s.issue h 0x4A (fun c =>
    let p := c.rings[d]
    let x := c.rd h.eng a
    if p.mode ≠ .proxy ∨ p.err then .trap .ringMisuse (ringInfo d 5)
    else if x.toNat % 64 ≠ 0 ∨ combEnd < x.toNat + 64 * p.esz.toNat then .trap .combBounds x
    else if p.room = 0 then .wait .ring
    else .go (s.setCore (c.setRing d { p with room := p.room - 1 }))
      { lat := none, fixed := false
        body := .rapp d (hiveMate c.id p.rcore.toNat) (Fin.ofNat 16 p.rring.toNat) x.toNat (64 * p.esz.toNat) none })

/-- The entry's data is read once every earlier comb write of the sequencer has completed and every access it must follow is
performed. -/
def State.readRapp (s : State) (id : Nat) (a : Act) : State :=
  let c := s.core id
  match a.body with
  | .rapp r dst k addr len none =>
    if c.noneBefore a Act.writesComb && s.mayPerform c a.seq a.id zeroReach ⟨.load, true, 2 * addr, 2 * (addr + len), 0⟩ then
      s.setCore (c.setAct { a with body := .rapp r dst k addr len (some (c.comb.readBytes addr len)) })
    else s
  | _ => s

/-- The entry lands: after every append through the same proxy that issued before it. -/
def Core.rappReady (c : Core) (a : Act) : Bool :=
  match a.body with
  | .rapp r _ _ _ _ (some _) =>
    c.acts.all (fun b => a.id ≤ b.id || match b.body with | .rapp r' _ _ _ _ _ => r' != r | _ => true)
  | _ => false

/-- It is written into the receiver's entry at TAIL, TAIL rises, and the word completes. A ring that accepts no longer, or only from
another core, takes nothing (R154; log 33), nor does one that was defined anew while the append was on its way. -/
def execRappArrival (core act : Nat) (s : State) : Host.Outcome State Fault Refusal :=
  let c := s.core core
  match c.act? act with
  | some a => match a.body with
    | .rapp _ dst k _ _ (some bs) =>
      if c.rappReady a then
        let t := s.core dst
        let x := t.rings[k]
        let s := if x.mode = .accepting ∧ x.asrc.toNat = core % 4 ∧ !bs.isEmpty then
            s.setCore { t with comb := t.comb.writeBytes (x.entry x.tail) bs, rings := t.rings.set k { x with tail := x.tail + 1 } }
          else s
        .next (s.setCore ((s.core core).complete a))
      else .next s
    | _ => .next s
  | none => .next s

/-! ### Sync words (R172 to R177) -/

structure SyncWord where
  target : W32
  count  : W32
  gen    : W32
  status : W32
  deriving DecidableEq, Repr

def SyncWord.ofBytes (bs : List Byte) : SyncWord :=
  ⟨BitVec.ofNat 32 (leNat (bs.take 4)), BitVec.ofNat 32 (leNat ((bs.drop 4).take 4)),
    BitVec.ofNat 32 (leNat ((bs.drop 8).take 4)), BitVec.ofNat 32 (leNat ((bs.drop 12).take 4))⟩

def SyncWord.bytes (w : SyncWord) : List Byte :=
  leBytes 4 w.target.toNat ++ leBytes 4 w.count.toNat ++ leBytes 4 w.gen.toNat ++ leBytes 4 w.status.toNat

/-- An arrival of delivered bytes (R172). -/
def SyncWord.arrive (w : SyncWord) (n : Nat) : SyncWord :=
  let c := (w.count.toNat + n) % 2 ^ 32
  let t := w.target.toNat
  if t = 0 then { w with count := BitVec.ofNat 32 c }
  else { w with gen := w.gen + BitVec.ofNat 32 (c / t), count := BitVec.ofNat 32 (c % t) }

/-- A status joins a sync word (R173): the first failure stays, NONRES and STALE are ORed in. -/
def SyncWord.join (w : SyncWord) (code reason : Nat) (nonres stale : Bool) : SyncWord :=
  let st := w.status.toNat
  let st := if fld st 0 8 = 0 ∧ code ≠ 0 then st / 2 ^ 14 * 2 ^ 14 + fld st 8 2 * 2 ^ 8 + code + reason * 2 ^ 10 else st
  { w with status := BitVec.ofNat 32 (st ||| (b2n nonres * 2 ^ 8) ||| (b2n stale * 2 ^ 9)) }

def Core.sync (c : Core) (addr : Nat) : SyncWord := SyncWord.ofBytes (c.comb.readBytes addr 16)
def Core.setSync (c : Core) (addr : Nat) (w : SyncWord) : Core := { c with comb := c.comb.writeBytes addr w.bytes }

/-- The trap of a sync word's address (R177). -/
def syncBad (a : W64) : Option Judged :=
  if a.toNat % 16 ≠ 0 then some (.trap .misaligned a)
  else if combEnd < a.toNat + 16 then some (.trap .combBounds a) else none

/-- `syncset`, a comb store of class 0 that takes effect at the end of its issue cycle. -/
def execSyncset (h : Hdr) (a b c : GReg) (s : State) : Host.Outcome State Fault Refusal :=
  s.combWord h 0x4C .store 0 (fun _ => zeroReach) (fun co => syncBad (co.rd h.eng a)) (fun co => [(co.rd h.eng a, 32)])
    (fun co s _ => ({ lat := none, body := .syncset (co.rd h.eng a).toNat (BitVec.ofNat 32 (co.rd h.eng b).toNat)
                                     (BitVec.ofNat 32 (co.rd h.eng c).toNat) }, s))

/-- `syncset` takes effect at the end of its issue cycle. -/
def State.runSyncset (s : State) (id : Nat) (a : Act) : State :=
  match a.body with
  | .syncset addr t g => s.setCore (((s.core id).setSync addr ⟨t, 0, g, 0⟩).complete a)
  | _ => s

/-- `syncwait`, an acquire of the comb: it tests from its issue cycle on, after every access it must follow, a store to its word that
writes later than in that cycle too (R182). -/
def execSyncwait (h : Hdr) (d a b c : GReg) (pl : Bool) (s : State) : Host.Outcome State Fault Refusal :=
  s.combWord h 0x4D .load 0 (fun _ => { zeroReach with sem := .acq }) (fun co => syncBad (co.rd h.eng a))
    (fun co => [(co.rd h.eng a, 32)])
    (fun co s _ => ({ lat := none, fixed := false, holds := some .sync
                      body := .syncwait d (co.rd h.eng a).toNat (BitVec.ofNat 32 (co.rd h.eng b).toNat) (co.rd h.eng c).toNat
                        (if pl then some false else none) }, s))

/-- The result of a `syncwait`'s test but for its timeout: CODE, OK or PEER_LOST. -/
def Core.syncTest (c : Core) (addr : Nat) (v : W32) (lost : Option Bool) : Option Nat :=
  let w := c.sync addr
  let code := fld w.status.toNat 0 8
  if code ≠ 0 then some code
  else if !(w.gen - v).msb then some 0
  else if lost == some true then some 2 else none

/-- A PEERLIVE bit of the core's partition has cleared (R175, R357). -/
def Act.peerCleared (a : Act) : Act :=
  match a.body with
  | .syncwait d addr v t (some _) => { a with body := .syncwait d addr v t (some true) }
  | _ => a

/-- The word's access to a sync word comes after every earlier comb store of its sequencer to it (R182). -/
def Core.syncReady (c : Core) (a : Act) (addr : Nat) : Bool :=
  c.noneBefore a (fun b => b.accesses.any (fun y => y.kind == .store && y.overlaps ⟨.load, true, 2 * addr, 2 * addr + 32, 0⟩))

/-- A `syncwait` has its result: it lands no earlier than the end of p + 3. -/
def State.syncDone (s : State) (id : Nat) (a : Act) (d : GReg) (addr res : Nat) : State :=
  let c := s.core id
  s.setCore (c.setAct { a with due := some (max (a.issued + 3) (s.cycle c)), body := .plain
                               writes := [.g a.handler d (pack [(res, 0), ((c.sync addr).gen.toNat, 32)])] })

/-- Its test in one cycle. -/
def State.runSyncwait (s : State) (id : Nat) (a : Act) : State :=
  match a.body with
  | .syncwait d addr v _ lost =>
    if !(s.core id).syncReady a addr then s
    else match (s.core id).syncTest addr v lost with
      | some r => s.syncDone id a d addr r
      | none => s
  | _ => s

/-- Its timeout has come with no other result (R175). -/
def State.syncOver (s : State) (id : Nat) (a : Act) : Bool :=
  let c := s.core id
  match a.body with
  | .syncwait _ addr v t lost => c.syncReady a addr && (c.syncTest addr v lost).isNone && decide (t ≤ s.cycle c - a.issued)
  | _ => false

def execSyncwaitTimeout (core act : Nat) (s : State) : Host.Outcome State Fault Refusal :=
  match (s.core core).act? act with
  | some a => match a.body with
    | .syncwait d addr _ _ _ => if s.syncOver core a then .next (s.syncDone core a d addr 1) else .next s
    | _ => .next s
  | none => .next s

/-- `syncrd`, a comb load of class 0: it samples at the end of its issue cycle and lands at the end of p + 3 (R176). -/
def execSyncrd (h : Hdr) (d a : GReg) (field : Fin 4) (s : State) : Host.Outcome State Fault Refusal :=
  s.combWord h 0x4E .load 0 (fun _ => zeroReach) (fun c => syncBad (c.rd h.eng a)) (fun c => [(c.rd h.eng a, 32)])
    (fun c s t => ({ lat := none, fixed := false
                     body := .combLoad t (4 + (t - s.cycle c)) zeroReach .n32 [2 * (c.rd h.eng a).toNat + 8 * field.val] (.g d) },
      s))

end Sys2Proof.Machine
end

