-- ==== Sys2Proof/Machine/Copies.lean ====
section
/-! DEFINITION. The copy queues (R162 to R173): posting, walking a chain, and what its entries do. An entry is one step (log 34). -/
namespace Sys2Proof.Machine

/-! ### Queues -/

def Core.cq (c : Core) (q : CopyQ) : CopyQueue := match q with | .inbound => c.inQ | .outbound => c.outQ
def Core.setCq (c : Core) (q : CopyQ) (k : CopyQueue) : Core :=
  match q with | .inbound => { c with inQ := k } | .outbound => { c with outQ := k }
def otherQ (q : CopyQ) : CopyQ := match q with | .inbound => .outbound | .outbound => .inbound

/-- A post issues (R162): posts not yet in effect count towards the 16 chains. -/
def State.post (s : State) (h : Hdr) (opc : Nat) (a : GReg) (q : CopyQ) : Host.Outcome State Fault Refusal :=
  s.issue h opc (fun c =>
    let x := c.rd h.eng a
    let waiting := (c.acts.filter (fun b => match b.body with | .copyPost q' _ => q' == q | _ => false)).length
    if x.toNat % 128 ≠ 0 then .trap .misaligned x
    else if combEnd ≤ x.toNat then .trap .combBounds x
    else if 16 ≤ (c.cq q).chains.length + waiting then .wait .structural
    else .go s { lat := none, fixed := false, body := .copyPost q x.toNat })

def execCopyin (h : Hdr) (a : GReg) (s : State) : Host.Outcome State Fault Refusal := s.post h 0x64 a .inbound
def execCopyout (h : Hdr) (a : GReg) (s : State) : Host.Outcome State Fault Refusal := s.post h 0x67 a .outbound

/-- The post takes effect once every earlier comb write of its sequencer has completed, and every acquire has been performed
(R162, R192). -/
def State.runPost (s : State) (id : Nat) (a : Act) : State :=
  let c := s.core id
  match a.body with
  | .copyPost q addr =>
    if c.noneBefore a (fun b => b.writesComb || (match b.body with | .copyPost q' _ => q' == q | _ => false))
        && s.acquiresDone c a.seq a.id then
      let k := c.cq q
      let ch : Chain := ⟨k.posted, addr, none, 0, false, [], 0, 0, 0, 0, []⟩
      s.setCore ((c.setCq q { k with chains := k.chains ++ [ch], posted := k.posted + 1, nextAt := s.cycle c + 1 }).complete a)
    else s
  | _ => s

/-! ### A COPY slot (R165) -/

structure Level where
  count : Nat
  sext  : Nat
  dext  : Nat
  ss    : Int
  ds    : Int
  deriving DecidableEq, Repr

def levelOf (b : List Byte) (l : Nat) : Level :=
  let o := 32 + 16 * l
  ⟨slotNat b o 4, slotNat b (o + 4) 2, slotNat b (o + 6) 2, signedOf 32 (slotNat b (o + 8) 4), signedOf 32 (slotNat b (o + 12) 4)⟩

def levelsOf (b : List Byte) : List Level := (List.range 6).map (levelOf b)

/-- Reserved bits, format codes, RCORE and SYNCOFF as R169 wants them. -/
def copyFormed (b : List Byte) : Bool :=
  let w0 := slotNat b 0 8
  let w1 := slotNat b 8 8
  fld w0 19 5 == 0 && fld w0 30 2 == 0 && fld w0 42 22 == 0 && fld w1 53 11 == 0
    && decide (fld w0 8 5 ≤ 17) && decide (fld w0 13 5 ≤ 17)
    && (fld w0 5 2 != 2 || decide (fld w0 32 10 ≤ 575))
    && (!bitSet w0 7 || fld w1 32 21 % 16 == 0)

/-- One index tuple (R167): its offsets in elements, its level-0 index, whether it is filled and dropped. -/
structure Tup where
  s    : Int
  d    : Int
  i0   : Nat
  fill : Bool
  drop : Bool
  deriving DecidableEq, Repr

/-- The index tuples of levels (level 0 first), level 0 varying fastest. -/
def tuples : List Level → List Tup
  | [] => [⟨0, 0, 0, false, false⟩]
  | l :: t => (tuples t).flatMap (fun u => (List.range l.count).map (fun (i : Nat) =>
      { s := u.s + (i : Int) * l.ss, d := u.d + (i : Int) * l.ds, i0 := i, fill := u.fill || (l.sext != 0 && l.sext ≤ i)
        drop := u.drop || (l.dext != 0 && l.dext ≤ i) }))

/-! ### The two sides (R165, R166) -/

inductive Ground where
  | comb (core : Nat)
  /-- Another package's comb, whose byte 0 has this key in State.peerCombs. -/
  | peer (key : Nat)
  | va
  | host
  deriving DecidableEq, Repr

/-- A side: where it lies, its start, its element type and whether its elements are MX. -/
structure Side where
  ground : Ground
  base   : W64
  ty     : Ty
  mx     : Bool
  deriving DecidableEq, Repr

/-- The type and MX mark of a format code of R130. RAW moves bytes. -/
def fmtTy (f : Nat) : Ty × Bool :=
  if f = 16 then (.e4m3, true) else if f = 17 then (.e2m1, true) else if f = 0 then (.n8, false) else (Ty.ofCode (f - 1), false)

/-- The key of host bus address `a` in State.mem (HOME 2's keys where the address fits a page's). -/
def hostKey (a : Nat) : Nat := if a < 2 ^ 52 then 65 * 2 ^ 52 + a else 2 ^ 70 + a

/-- The format of a side at a virtual address: its page's, unless that is RAW or absent. Of a side over pages of several formats it is that
of the page at its base (DESIGN CHOICE, log 72). -/
def State.sideFmt (s : State) (x : Fin 64) (g : Ground) (base : W64) (slot : Nat) : Nat :=
  match g with
  | .va => match s.walk x base with
    | some l => if l.fmt = 0 then slot else l.fmt.val
    | none => slot
  | _ => slot

/-- The sides of a COPY on core `id`, with the address steps of its LOOP pass. -/
def State.sides (s : State) (id : Nat) (b : List Byte) (sadd dadd : W64) : Side × Side :=
  let x := (s.core id).ctxId
  let w0 := slotNat b 0 8
  let src := BitVec.ofNat 64 (slotNat b 16 8) + sadd
  let dst := BitVec.ofNat 64 (slotNat b 24 8) + dadd
  let sg : Ground := if bitSet w0 4 then .va else .comb id
  let rpkg := fld w0 24 6
  let rcore := fld w0 32 10
  let dg : Ground := match fld w0 5 2 with
    | 0 => .comb id
    | 1 => .va
    | 2 => if rpkg = s.pkg then .comb rcore else .peer ((rpkg * 1024 + rcore) * 2 ^ 21)
    | _ => .host
  let a := s.sideFmt x sg src (fld w0 8 5)
  let d := s.sideFmt x dg dst (fld w0 13 5)
  let (st, sm) := fmtTy (if a = 0 then d else a)
  let (dt, dm) := fmtTy (if d = 0 then a else d)
  (⟨sg, src, st, sm⟩, ⟨dg, dst, dt, dm⟩)

/-- Where an element of a side lies, in half-bytes of its ground. -/
inductive Loc where
  | comb (core a2 : Nat)
  | peer (k2 : Nat)
  | host (k2 : Nat)
  | page (e : Elem)
  deriving DecidableEq, Repr

/-- The half-byte address of an offset in elements. -/
def Side.at_ (d : Side) (off : Int) : Nat := wrap65 (2 * d.base.toNat + off * d.ty.halfBytes)

def Side.onVa (d : Side) : Bool := d.ground == .va

/-- The virtual addresses at which a side on device memory is translated. -/
def Side.vas (d : Side) (wr : Bool) (ts : List Tup) : List W64 :=
  if d.onVa then d.base :: ts.map (fun t => BitVec.ofNat 64 (d.at_ (if wr then t.d else t.s) / 2)) else []

/-- An element's place, or the FAULT reason (R169). `wr`: it is written; `run`: it begins a run of level 0. -/
def State.locate (s : State) (x : Fin 64) (d : Side) (wr run : Bool) (off : Int) : Except Nat Loc :=
  let a2 := d.at_ off
  let past := 2 * combEnd < a2 + d.ty.halfBytes
  match d.ground with
  | .comb c => if past then .error 0xA else .ok (.comb c a2)
  | .peer k => if past then .error 0xA else .ok (.peer (2 * k + a2))
  | .host => .ok (.host (2 * hostKey (a2 / 2) + a2 % 2))
  | .va => match s.walk x (BitVec.ofNat 64 (a2 / 2)) with
    | none => .error 0xB
    | some l =>
      let p : Placed := ⟨⟨0, 0, false, 0⟩, l, a2 % 2 ^ 58⟩
      if a2 % l.size2 d.ty ≠ 0 ∨ (l.isMx ∧ l.size2 d.ty = 1 ∧ run ∧ a2 % 2 = 1) then .error 4
      else if !wr ∧ !l.r then .error 6
      else if wr ∧ !l.w then .error 7
      else if l.vw ∧ (s.viewOffset x d.ty p).isNone then .error 8
      else if wr ∧ !l.res then .error 9
      else .ok (.page (s.elemOf x d.ty p))

/-- The byte address of the scale of tuple `i0`'s block on a comb, peer-comb or host side: after its run's elements (R166).
`off` is the tuple's offset. -/
def Side.scaleAt (d : Side) (count0 i0 : Nat) (off : Int) : Nat :=
  (d.at_ (off - i0) + count0 * d.ty.halfBytes) / 2 + i0 / 32

/-- The MX requirements of R166 on a side: a count of whole blocks, stride 1, the start of a block, and on a VA side a page
that holds such blocks (log 35). -/
def State.mxFormed (s : State) (x : Fin 64) (d : Side) (count0 : Nat) (stride : Int) : Bool :=
  !d.mx || (count0 % 32 == 0 && stride == 1 && (!d.onVa || match s.walk x d.base with
    | none => true
    | some l => l.isMx && (2 * (d.base.toNat % 2 ^ 57 - l.base) / d.ty.halfBytes) % 32 == 0))

/-! ### Checks and footprints (R168, R169) -/

/-- The least of some reasons: which of several failing checks a COPY reports is a DESIGN CHOICE (log 70), as R169 gives no order. -/
def leastReason : List Nat → Option Nat
  | [] => none
  | r :: t => match leastReason t with | none => some r | some q => some (min r q)

/-- The tuples of a list in blocks of 32. -/
def blocks32 {α : Type} : Nat → List α → List (List α)
  | 0, _ => []
  | n + 1, l => if l.isEmpty then [] else l.take 32 :: blocks32 n (l.drop 32)

/-- An element of a VA side lies at the start of a block. -/
def Loc.blockStart (l : Loc) : Bool := match l with | .page e => !e.leaf.isMx || e.pa2 == e.block2 | _ => true

/-- A side's places: tuple by tuple, none where it does not touch the side. -/
def State.places (s : State) (x : Fin 64) (d : Side) (wr : Bool) (ts : List Tup) : List (Option (Except Nat Loc)) :=
  ts.map (fun t => if (if wr then t.drop else t.fill) then none else some (s.locate x d wr (t.i0 == 0) (if wr then t.d else t.s)))

def reasonsOf (ps : List (Option (Except Nat Loc))) : List Nat :=
  ps.filterMap (fun p => match p with | some (.error r) => some r | _ => none)

def locsOf (ps : List (Option (Except Nat Loc))) : List (Option Loc) :=
  ps.map (fun p => match p with | some (.ok l) => some l | _ => none)

/-- The scale bytes of an MX side that is no VA side, one per block that has an element. -/
def Side.scales (d : Side) (wr : Bool) (count0 : Nat) (ts : List Tup) : List Nat :=
  if !d.mx || d.onVa then []
  else (ts.filter (fun t => !(if wr then t.drop else t.fill))).map (fun t => d.scaleAt count0 t.i0 (if wr then t.d else t.s))

/-- A scale byte past the comb. -/
def Side.scaleOver (d : Side) (sc : List Nat) : Bool :=
  match d.ground with | .comb _ | .peer _ => sc.any (combEnd ≤ ·) | _ => false

/-- A block of an MX destination is dropped in part, or does not start a block of its page (reason 5; log 35). -/
def partDropped (d : Side) (ts : List Tup) (ls : List (Option Loc)) : Bool :=
  d.mx && (blocks32 ts.length (ts.zip ls)).any (fun b =>
    (b.any (·.1.drop) && !b.all (·.1.drop)) || (match b with | (_, some l) :: _ => !l.blockStart | _ => false))

/-- Which space a place lies in, and its half-byte address there. -/
def Loc.space (l : Loc) : Nat × Nat :=
  let ofKey2 (k2 : Nat) : Nat × Nat :=
    if 2 ^ 71 ≤ k2 then (1065, k2 - 2 ^ 71) else (1000 + k2 / 2 ^ 53, k2 % 2 ^ 53)
  match l with
  | .comb c a2 => (c, a2)
  | .peer k2 => (10000 + k2 / 2 ^ 22, k2 % 2 ^ 22)
  | .host k2 => ofKey2 k2
  | .page e => ofKey2 e.pa2

/-- Footprints: per space the lowest and highest half-byte. -/
def widen (fs : List (Nat × Nat × Nat)) (sp lo hi : Nat) : List (Nat × Nat × Nat) :=
  match fs with
  | [] => [(sp, lo, hi)]
  | f :: t => if f.1 = sp then (sp, min f.2.1 lo, max f.2.2 hi) :: t else f :: widen t sp lo hi

def Side.footprint (d : Side) (ls : List (Option Loc)) (sc : List Nat) : List (Nat × Nat × Nat) :=
  let fs := ls.foldl (fun fs l => match l with
    | some l => let (sp, a) := l.space; widen fs sp a (a + d.ty.halfBytes)
    | none => fs) []
  let one (b : Nat) : Loc := match d.ground with
    | .comb c => .comb c (2 * b)
    | .peer k => .peer (2 * (k + b))
    | _ => .host (2 * hostKey b)
  sc.foldl (fun fs b => let (sp, a) := (one b).space; widen fs sp a (a + 2)) fs

def intersects (f g : List (Nat × Nat × Nat)) : Bool :=
  f.any (fun a => g.any (fun b => a.1 == b.1 && decide (a.2.1 < b.2.2) && decide (b.2.1 < a.2.2)))

/-- A plain entry (R168). -/
def plainCopy (sd dd : Side) (ls : List Level) (ts : List Tup) : Bool :=
  sd.ty == dd.ty && !sd.mx && !dd.mx && ls.all (fun l => l.ss == l.ds) && ts.all (fun t => !t.fill && !t.drop)

/-! ### Moving (R166, R167, R172) -/

/-- A source element: its code, its exact value, whether it was not resident, whether it was stale, and the scale code of an MX
element that is read as stored. -/
structure Got where
  code : Nat
  num  : Num
  away : Bool
  old  : Bool
  /-- Its value is not that of its code (a melted or MX element). -/
  own  : Bool
  scale : Option Nat
  deriving DecidableEq, Repr

/-- A source element read. `scale` is its block's scale on a comb side. -/
def State.copyRead (s : State) (x : Fin 64) (d : Side) (scale : Nat) (l : Loc) : Got × State :=
  let ofCode (code : Nat) : Got :=
    ⟨code, if d.mx then mxDecode d.ty scale code else tyDecode d.ty code, false, false, d.mx, if d.mx then some scale else none⟩
  match l with
  | .comb c a2 => (ofCode ((s.core c).comb.readElem a2 d.ty.halfBytes), s)
  | .peer k2 => (ofCode (s.peerCombs.readElem k2 d.ty.halfBytes), s)
  | .host k2 => (ofCode (s.mem.readElem k2 d.ty.halfBytes), s)
  | .page e =>
    if !e.leaf.res then (⟨0, .zero false, true, false, false, none⟩, s)
    else if e.leaf.isStamped then
      let ((v, old), s) := s.loadElem x e .f32
      (⟨tyEncode d.ty .rne false (ofF32 v), ofF32 v, false, old, true, none⟩, s)
    else if e.leaf.isMx then
      let pt := (e.leaf.elemTy).getD d.ty
      let k := blockAt s.pkg e.leaf e.blk e.block2
      let s := (s.touch (e.pa2 / 2) 1).touchPlane k
      let code := s.mem.readElem e.pa2 pt.halfBytes
      let y := mxDecode pt (k.scaleCode s.mem) code
      (if pt == d.ty then ⟨code, y, false, false, true, some (k.scaleCode s.mem)⟩
        else ⟨tyEncode d.ty .rne false y, y, false, false, true, none⟩, s)
    else
      let ((v, _), s) := s.loadElem x e d.ty
      (⟨v, tyDecode d.ty v, false, false, false, none⟩, s)

/-- FILL as a source element (R166, R167). -/
def fillElem (d : Side) (fill : Nat) : Got :=
  let code := if d.ty.halfBytes = 16 then natOf 64 (signedOf 32 fill) else fill % 2 ^ (4 * d.ty.halfBytes)
  ⟨code, if d.mx then mxDecode d.ty 127 code else tyDecode d.ty code, false, false, d.mx, if d.mx then some 127 else none⟩

/-- Convert(v) for a destination that is not MX (R166). -/
def copyConvert (sd dd : Side) (g : Got) : Nat :=
  if sd.ty == dd.ty && !sd.mx then g.code
  else if g.own then tyEncode dd.ty .rne false g.num
  else convert sd.ty dd.ty .rne false g.code

/-- The code of an element for a page of another format than its side's type. -/
def recode (ty pt : Ty) (code : Nat) (y : Num) : Nat :=
  if pt == ty then code else if ty.isInt then convert ty pt .rne false code else tyEncode pt .rne false y

/-- A destination element written: its code in the side's type and its exact value. -/
def State.copyWrite (s : State) (x : Fin 64) (ty : Ty) (l : Loc) (code : Nat) (y : Num) : State :=
  let hb := ty.halfBytes
  match l with
  | .comb c a2 => let k := s.core c; s.setCore { k with comb := k.comb.writeElem a2 hb code }
  | .peer k2 => { s with peerCombs := s.peerCombs.writeElem k2 hb code }
  | .host k2 => let s := s.touch (k2 / 2) ((hb + 1) / 2); { s with mem := s.mem.writeElem k2 hb code }
  | .page e =>
    let pt := (e.leaf.elemTy).getD ty
    if e.leaf.block = 0 then s.storeElem { e with val := code } ty
    else s.storeOver x e [((e.pa2 - e.block2) / pt.halfBytes, recode ty pt code y, y)]

/-- A byte written on a ground that is no page. -/
def State.groundByte (s : State) (g : Ground) (a v : Nat) : State :=
  match g with
  | .comb c => let k := s.core c; s.setCore { k with comb := k.comb.writeNat a 1 v }
  | .peer k => { s with peerCombs := s.peerCombs.writeNat (k + a) 1 v }
  | _ => s.homeWrite (hostKey a) [BitVec.ofNat 8 v]

/-- Scale and codes for a block of 32 elements of an MX destination: those of a source block of the same type as they stand (elements
of equal type move bit for bit), else the values quantised anew (R20, R166; log 35). -/
def blockCodes (sd dd : Side) (gs : List Got) : Nat × List Nat :=
  let keep := sd.mx && sd.ty == dd.ty && (match gs with
    | g :: rest => g.scale.isSome && rest.all (·.scale == g.scale)
    | [] => false)
  if keep then ((gs.head?.bind (·.scale)).getD 127, gs.map (·.code)) else mxScale dd.ty (gs.map (·.num))

/-- A block of 32 elements written to an MX side (R20, R166): all of them, or none. A stamped page merges it (R227). -/
def State.copyBlock (s : State) (x : Fin 64) (sd d : Side) (count0 : Nat) (b : List (Tup × Option Loc × Got)) : State :=
  let (sc, cs) := blockCodes sd d (b.map (·.2.2))
  match b with
  | (_, some (.page e), _) :: _ =>
    let pt := (e.leaf.elemTy).getD d.ty
    if e.leaf.isMx && (e.leaf.isStamped || pt != d.ty) then
      s.storeOver x e (b.zipIdx.map (fun p => (p.2, tyEncode pt .rne true p.1.2.2.num, p.1.2.2.num)))
    else if e.leaf.isMx then
      let k := blockAt s.pkg e.leaf e.blk e.block2
      let s := (s.touch (k.data2 / 2) ((k.n * k.hb + 1) / 2)).touchPlane k
      { s with mem := k.write s.mem sc cs }
    else b.foldl (fun s p => match p.2.1 with
      | some l => s.copyWrite x d.ty l (tyEncode d.ty .rne false p.2.2.num) p.2.2.num
      | none => s) s
  | (t, some _, _) :: _ =>
    let s := (b.zip cs).foldl (fun s p => match p.1.2.1 with
      | some l => s.copyWrite x d.ty l p.2 (.zero false)
      | none => s) s
    s.groundByte d.ground (d.scaleAt count0 t.i0 t.d) sc
  | _ => s

/-- Every source element read, in order. -/
def State.readAll (s : State) (x : Fin 64) (sd : Side) (count0 fill : Nat) : List (Tup × Option Loc) → List Got × State
  | [] => ([], s)
  | (t, l) :: rest =>
    let (g, s) := match l with
      | none => (fillElem sd fill, s)
      | some l =>
        let sc := match sd.ground with
          | .comb c => if sd.mx then ((s.core c).comb.read (sd.scaleAt count0 t.i0 t.s)).toNat else 127
          | _ => 127
        s.copyRead x sd sc l
    let (gs, s) := s.readAll x sd count0 fill rest
    (g :: gs, s)

/-- The sync word of an entry: the comb it lies in and its address (R165). -/
def State.syncPlace (s : State) (id : Nat) (b : List Byte) : Option (Ground × Nat) :=
  let w0 := slotNat b 0 8
  let off := fld (slotNat b 8 8) 32 21
  let rcore := fld w0 32 10
  if !bitSet w0 7 ∨ off % 16 ≠ 0 ∨ combEnd < off + 16 then none
  else if fld w0 5 2 = 2 then
    (if 575 < rcore ∨ (fld w0 24 6 = s.pkg ∧ !inPart (s.ctx (s.core id).ctxId).partMask rcore) then none
     else if fld w0 24 6 = s.pkg then some (.comb rcore, off) else some (.peer ((fld w0 24 6 * 1024 + rcore) * 2 ^ 21), off))
  else some (.comb id, off)

/-- A sync word changed by `f`. -/
def State.mapSync (s : State) (p : Option (Ground × Nat)) (f : SyncWord → SyncWord) : State :=
  match p with
  | some (.comb c, a) => let k := s.core c; s.setCore (k.setSync a (f (k.sync a)))
  | some (.peer k, a) =>
    { s with peerCombs := s.peerCombs.writeBytes (k + a) (f (SyncWord.ofBytes (s.peerCombs.readBytes (k + a) 16))).bytes }
  | _ => s

/-- The arrivals of `n` elements of `hb` half-bytes written one after the other, an odd last half-byte counting whole (R172). -/
def arrivals (n hb : Nat) (w : SyncWord) : SyncWord :=
  if hb = 1 then (List.replicate ((n + 1) / 2) 1).foldl SyncWord.arrive w
  else (List.replicate n (hb / 2)).foldl SyncWord.arrive w

/-- The writes of an entry, in tuple order: the larger index tuple stays. -/
def State.writeAll (s : State) (x : Fin 64) (sd dd : Side) (count0 : Nat) (es : List (Tup × Option Loc × Got)) : State :=
  if dd.mx then (blocks32 es.length es).foldl (fun s b => s.copyBlock x sd dd count0 b) s
  else es.foldl (fun s e => match e.2.1 with
    | some l => let c := copyConvert sd dd e.2.2; s.copyWrite x dd.ty l c (tyDecode dd.ty c)
    | none => s) s

/-! ### Running a COPY -/

/-- How a COPY goes on: it waits for its link or for an earlier access that a SET let go behind it; it is sent to its peer, which is to
answer; its home or peer refuses it with a hint; or it completes with a status. -/
inductive Copied where
  | wait (s : State)
  | sent (s : State)
  | refused (s : State)
  | done (code reason : Nat) (s : State)

/-- The pages an entry touches. -/
def pagesOf (ls : List (Option Loc)) : List Elem := ls.filterMap (fun l => match l with | some (.page e) => some e | _ => none)

/-- A peer that the entry needs is unreachable or denies it: a page's home, or the package of a peer comb (R355, R357). A core of this
package outside the partition takes no request (R324): DESIGN CHOICE (log 66): it is as one that its package denies. -/
def State.copyLost (s : State) (x : Fin 64) (d : Side) (ps : List Elem) : Option State :=
  match ps.findSome? (fun (e : Elem) => s.lostAt x e.leaf (e.pa2 / 2)) with
  | some s => some s
  | none => match d.ground with
    | .peer k => s.lostTo x (Fin.ofNat 64 (k / 2 ^ 31)) k
    | .comb c => if inPart (s.ctx x).partMask c then none else some (s.deny x (Fin.ofNat 64 s.pkg))
    | _ => none

/-- The links and routes of an entry carry traffic; LINKB sends what goes to the host over link B (R165, R347; log 32). -/
def State.copyLinkUp (s : State) (x : Fin 64) (d : Side) (linkB : Bool) (ps : List Elem) : Bool :=
  ps.all (fun e => if e.leaf.home = 2 ∧ linkB then s.linkB else s.linkUp x e.leaf) && (match d.ground with
    | .host => if linkB then s.linkB else s.linkA
    | .peer k => !(s.livePeers x).getLsbD (k / 2 ^ 31) || s.reaches x (Fin.ofNat 64 (k / 2 ^ 31))
    | _ => true)

/-- The packages an entry sends requests to. -/
def State.copyPeers (s : State) (d : Side) (ps : List Elem) : List (Fin 64) :=
  ps.filterMap (fun e => e.leaf.peerOf s.pkg) ++ (match d.ground with | .peer k => [Fin.ofNat 64 (k / 2 ^ 31)] | _ => [])

/-- A home or a peer refuses the entry with a hint (R150, R356). -/
def State.copyRefused (s : State) (d : Side) (ps : List Elem) : Bool :=
  ps.any (fun e => (s.lockOn e.leaf).isSome || s.peerSays e.leaf (e.pa2 / 2))
    || (match d.ground with | .peer k => Config.peerRefuses s.pulse (k / 2 ^ 31 % 64) k | _ => false)

/-- A package's peer is treated as unreachable, one request of it being lost (R356). -/
def State.giveUpPeer (s : State) (x p : Fin 64) : State :=
  { s.loseRequest with inputs := s.inputs ++ [(s.pulse, .peerTimeout (partNo (s.ctx x).partMask) p)] }

/-- The access to a place that is no comb's, an element of type `ty`. -/
def Loc.access (l : Loc) (k : AccKind) (ty : Ty) : Option Access :=
  match l with
  | .page e => some (e.access k ty)
  | .host k2 => some ⟨k, false, k2, k2 + ty.halfBytes, reachOfKey (k2 / 2)⟩
  | _ => none

/-- An access of the entry to bytes that an early access has touched waits, those of a host side and its scales too (R186). -/
def State.copyEarly (s : State) (c : Core) (sd dd : Side) (sl dl : List (Option Loc)) (dsc : List Nat) : Bool :=
  let meets (k : AccKind) (ty : Ty) (l : Option Loc) : Bool := match l.bind (·.access k ty) with
    | some y => s.earlyHolds c none y
    | none => false
  sl.any (meets .load sd.ty) || dl.any (meets .store dd.ty)
    || (dd.ground == .host && dsc.any (fun a => meets .store .i8 (some (.host (2 * hostKey a)))))

/-- The requests of an entry for its source pages at peers go out. -/
def State.copyAsk (s : State) (x : Fin 64) (ty : Ty) (src : List Elem) : State :=
  src.foldl (fun s e => match e.leaf.peerOf s.pkg with
    | some p => s.request x p (e.request .load ty)
    | none => s) s

/-- Elements at a half-byte key of a peer's comb go out: bytes, or half a byte each (R172, R355). -/
def State.combSend (s : State) (x : Fin 64) (k2 hb : Nat) (vals : List Nat) : State :=
  s.request x (Fin.ofNat 64 (k2 / 2 ^ 32)) (if hb = 1 then .combNibbles (k2 / 2 ^ 22 % 1024) (k2 % 2 ^ 22) vals
    else .combWrite (k2 / 2 ^ 22 % 1024) (k2 % 2 ^ 22 / 2) (vals.flatMap (leBytes (hb / 2))) none)

/-- A written element goes out where its place is another package's (R172, R355). -/
def State.copySend (s : State) (x : Fin 64) (ty : Ty) (l : Loc) (code : Nat) : State :=
  match l with
  | .peer k2 => s.combSend x k2 ty.halfBytes [code]
  | .page e => match e.leaf.peerOf s.pkg with
    | some p => s.request x p ({ e with val := code }.request .store ty)
    | none => s
  | _ => s

/-- A written block of an MX side goes out where its place is another package's: its codes and its scale, as State.copyBlock writes them. -/
def State.blockSend (s : State) (x : Fin 64) (sd d : Side) (count0 : Nat) (b : List (Tup × Option Loc × Got)) : State :=
  let (sc, cs) := blockCodes sd d (b.map (·.2.2))
  match b with
  | (_, some (.page e), _) :: _ => match e.leaf.peerOf s.pkg with
    | some p => s.request x p (.storeMx e.page (e.pa2 - e.base2) d.ty sc cs)
    | none => s
  | (t, some (.peer k2), _) :: _ =>
    (s.combSend x k2 d.ty.halfBytes cs).combSend x (k2 / 2 ^ 22 * 2 ^ 22 + 2 * d.scaleAt count0 t.i0 t.d) 2 [sc]
  | _ => s

/-- The writes of an entry to other packages go out. -/
def State.sendAll (s : State) (x : Fin 64) (sd dd : Side) (count0 : Nat) (es : List (Tup × Option Loc × Got)) : State :=
  if dd.mx then (blocks32 es.length es).foldl (fun s b => s.blockSend x sd dd count0 b) s
  else es.foldl (fun s e => match e.2.1 with | some l => s.copySend x dd.ty l (copyConvert sd dd e.2.2) | none => s) s

/-- What a sync word gets: the bytes that arrive in it, as elements written one after the other, and a status (R172, R173). One on another
package is sent it; where that does not take it, it comes to nothing (R355, R357). -/
def State.toSync (s : State) (x : Fin 64) (p : Option (Ground × Nat)) (n hb code reason : Nat) (away old : Bool) : State :=
  let go (s : State) : State := s.mapSync p (fun w => (arrivals n hb w).join code reason away old)
  match p with
  | some (.peer k, a) =>
    let to_ : Fin 64 := Fin.ofNat 64 (k / 2 ^ 31)
    if !s.peerTakes x to_ k then s
    else go (s.request x to_ (.combWrite (k / 2 ^ 21 % 1024) 0 [] (some ⟨a, (n * hb + 1) / 2, code, reason, away, old⟩)))
  | _ => go s

/-- The entry moves its elements. -/
def State.copyMove (s : State) (id : Nat) (b : List Byte) (sd dd : Side) (count0 : Nat) (ts : List Tup)
    (sl dl : List (Option Loc)) : Copied :=
  let x := (s.core id).ctxId
  let sync := s.syncPlace id b
  let (gs, s) := s.readAll x sd count0 (slotNat b 8 4) (ts.zip sl)
  let s := s.writeAll x sd dd count0 (ts.zip (dl.zip gs))
  let s := s.unpoisonBy ((pagesOf dl).map (fun e => (e.pa2, e.half dd.ty)))
  let n := (dl.filter Option.isSome).length
  let used := fun (f : Got → Bool) => (gs.zip sl).any (fun p => p.2.isSome && f p.1)
  let s := s.sendAll x sd dd count0 (ts.zip (dl.zip gs))
  .done 0 0 (s.toSync x sync n dd.ty.halfBytes 0 0 (used (·.away)) (used (·.old)))

/-- The packages a COPY of core `id` sends requests to, from its slot's bytes. -/
def State.slotPeers (s : State) (id : Nat) (b : List Byte) (add : W64 × W64) : List (Fin 64) :=
  let x := (s.core id).ctxId
  let (sd, dd) := s.sides id b add.1 add.2
  let ts := tuples (levelsOf b)
  s.copyPeers dd (pagesOf (locsOf (s.places x sd false ts)) ++ pagesOf (locsOf (s.places x dd true ts)))

/-- A COPY of core `id` from its slot's bytes (R165 to R169). `sent`: it has gone to its peer. -/
def State.copyRun (s : State) (id : Nat) (b : List Byte) (sadd dadd : W64) (tries : Nat) (sent : Bool) (lost : List (Fin 64)) :
    Copied :=
  let x := (s.core id).ctxId
  let w0 := slotNat b 0 8
  let ls := levelsOf b
  let l0 := levelOf b 0
  let (sd, dd) := s.sides id b sadd dadd
  let s := s.readTables x (sd.vas false (tuples ls) ++ dd.vas true (tuples ls))
  let fail := fun (s : State) (code reason : Nat) => Copied.done code reason
    (s.toSync x (s.syncPlace id b) 0 2 code reason false false)
  if !copyFormed b || ((sd.mx || dd.mx) && l0.count % 32 != 0) || !s.mxFormed x sd l0.count l0.ss
      || !s.mxFormed x dd l0.count l0.ds then fail s 5 0
  else
    let ts := tuples ls
    let ps := s.places x sd false ts
    let pd := s.places x dd true ts
    let sl := locsOf ps
    let dl := locsOf pd
    let ssc := sd.scales false l0.count ts
    let dsc := dd.scales true l0.count ts
    let rs := reasonsOf ps ++ reasonsOf pd ++ (if partDropped dd ts dl then [5] else [])
      ++ (if sd.scaleOver ssc || dd.scaleOver dsc || (bitSet w0 7 && decide (combEnd < fld (slotNat b 8 8) 32 21 + 16))
          then [0xA] else [])
    match leastReason rs with
    | some r => fail s 4 r
    | none =>
      let es := pagesOf sl ++ pagesOf dl
      if !plainCopy sd dd ls ts && intersects (sd.footprint sl ssc) (dd.footprint dl dsc) then fail s 3 0
      else if (s.copyPeers dd es).any (lost.contains ·) then fail s 2 0
      else if !s.copyLinkUp x dd (bitSet w0 18) es || s.copyEarly (s.core id) sd dd sl dl dsc then .wait s
      else match s.copyLost x dd es with
      | some s => fail s 2 0
      | none =>
        if !sent && !(s.copyPeers dd es).isEmpty then .sent (s.copyAsk x sd.ty (pagesOf sl))
        else if s.copyRefused dd es then
          match s.copyPeers dd es with
          | p :: _ => if 63 ≤ tries then fail (s.giveUpPeer x p) 2 0 else .refused s
          | [] => .refused s
        else match ((pagesOf sl).find? (fun e => e.leaf.res && s.poisonedAt e sd.ty)).or (s.mergePoisoned (pagesOf dl)) with
          | some e => .done 0 0 (s.eccFault x (some id) (eccInfo 3 (e.va2 / 2)))
          | none => s.copyMove id b sd dd l0.count ts sl dl

/-! ### Walking a chain (R163, R164, R169, R170) -/

/-- The address of a chain's next slot. -/
def Chain.slotAt (ch : Chain) : Nat := match ch.pass with | none => ch.pos | some p => p.at_ - 128 * p.n + 128 * p.i

/-- What the LOOP pass a chain is on adds to an entry's addresses (R170). -/
def Chain.adds (ch : Chain) : W64 × W64 :=
  match ch.pass with
  | some p => (p.sinc * BitVec.ofNat 64 p.j, p.dinc * BitVec.ofNat 64 p.j)
  | none => (0, 0)

/-- The slot at hand: the bytes read when its entry began, else the comb's as they stood at the start of the cycle (R163). -/
def State.slotBytes (s : State) (id : Nat) (ch : Chain) : List Byte :=
  if ch.begun then ch.slot else (s.atStart.core id).comb.readBytes ch.slotAt 128

/-- The chain that may go on this cycle. -/
def State.headChain (s : State) (c : Core) (q : CopyQ) : Option Chain :=
  let k := c.cq q
  match k.chains with
  | [] => none
  | ch :: _ => if !ch.lost.isEmpty || (k.nextAt ≤ s.cycle c && (!k.stopping || ch.moving) && ch.notBefore ≤ s.pulse) then some ch
    else none

/-- The head chain replaced, or dropped; no further slot is read this cycle. -/
def State.setHead (s : State) (id : Nat) (q : CopyQ) (ch : Option Chain) : State :=
  let c := s.core id
  let k := c.cq q
  s.setCore (c.setCq q { k with chains := (match ch with | some x => [x] | none => []) ++ k.chains.tail, nextAt := s.cycle c + 1 })

/-- The chain past the entry at hand. -/
def Chain.next (ch : Chain) : Chain :=
  let ch := { ch with begun := false, slot := [], fence := 0, tries := 0, notBefore := 0, sent := 0, lost := [] }
  match ch.pass with
  | none => { ch with pos := ch.pos + 128 }
  | some p =>
    if p.i + 1 < p.n then { ch with pass := some { p with i := p.i + 1 } }
    else if p.j < p.k then { ch with pass := some { p with i := 0, j := p.j + 1 } }
    else { ch with pass := none }

/-- An entry ends with a status: CQSTAT keeps a failure; FAULT and CHAIN drop the rest of the chain and post event 0x04. -/
def State.entryDone (s : State) (id : Nat) (q : CopyQ) (ch : Chain) (code reason : Nat) : State :=
  let c := s.core id
  let k := c.cq q
  let at_ := ch.slotAt
  let s := if code = 0 then s
    else s.setCore (c.setCq q { k with lastCode := BitVec.ofNat 8 code, lastReason := BitVec.ofNat 4 reason
                                       lastSlot := BitVec.ofNat 21 at_ })
  if code = 4 ∨ code = 5 then
    let r := (s.core id).record 3 0x04 0 false (pack [(at_ % 2 ^ 21, 0), (code, 32), (reason, 40)]) 0 []
    { s with events := s.events ++ [r] }.setHead id q none
  else s.setHead id q (some ch.next)

/-- The chain goes past an entry that an IF passes over; `dest` is where a LINK leads. -/
def Chain.passed (ch : Chain) (dest : Nat) : Chain := { ch with pos := dest, skip := ch.skip - 1 }

def linkAddr (b : List Byte) : Nat := fld (slotNat b 8 8) 0 21
def linkOk (b : List Byte) : Bool := linkAddr b % 128 == 0 && decide (linkAddr b < combEnd)

/-- The entry at hand on queue `q` of core `id`, of kind `ok`, with what it does when it is not passed over. A chain that runs past the
comb's end without a LINK has no slot there: DESIGN CHOICE (log 70): it ends with CHAIN. -/
def State.entry (s : State) (id : Nat) (q : CopyQ) (ok : Nat → Bool) (f : Core → Chain → List Byte → State) :
    Host.Outcome State Fault Refusal :=
  let c := s.core id
  match s.headChain c q with
  | none => .next s
  | some ch =>
    let b := s.slotBytes id ch
    let kind := slotKind b
    if !ok (if combEnd ≤ ch.slotAt then 6 else kind) then .next s
    else if combEnd ≤ ch.slotAt ∨ 6 ≤ kind ∨ (ch.pass.isSome ∧ kind ≠ 1 ∧ kind ≠ 5) then .next (s.entryDone id q ch 5 0)
    else if ch.pass.isNone && ch.skip != 0 && !ch.begun && kind != 0 then
      if kind = 4 then
        (if linkOk b then .next (s.setHead id q (some (ch.passed (linkAddr b)))) else .next (s.entryDone id q ch 5 0))
      else .next (s.setHead id q (some (ch.passed (ch.pos + 128))))
    else .next (f c ch b)

/-- COPY, and a slot of no kind. -/
def execCopyEntry (core : Nat) (q : CopyQ) (s : State) : Host.Outcome State Fault Refusal :=
  s.entry core q (fun k => k == 1 || 6 ≤ k) (fun _ ch b =>
    let cur := { ch with begun := true, slot := b, notBefore := 0, sent := 0, lost := [] }
    match s.copyRun core b ch.adds.1 ch.adds.2 ch.tries (ch.sent != 0) ch.lost with
    | .done code reason s => s.entryDone core q ch code reason
    | .wait s => s.setHead core q (some cur)
    | .sent s => s.setHead core q (some { cur with sent := s.pulse + 1 })
    | .refused s =>
      let (n, s) := s.draw
      s.setHead core q (some { cur with tries := ch.tries + 1, notBefore := s.pulse + hintPulses n + 1 }))

/-- LOOP: the N slots before it in the comb, all COPY or FENCE, run K more times. DESIGN CHOICE (log 64): they are the slots at the N
addresses below it, however the chain came to the LOOP. -/
def execCopyLoop (core : Nat) (q : CopyQ) (s : State) : Host.Outcome State Fault Refusal :=
  s.entry core q (· == 2) (fun _ ch b =>
    let n := fld (slotNat b 0 8) 4 8
    let k := slotNat b 8 4
    if n = 0 ∨ ch.pos < 128 * n ∨ (List.range n).any (fun i =>
        let kd := ((s.atStart.core core).comb.read (ch.pos - 128 * n + 128 * i)).toNat % 16
        kd != 1 && kd != 5) then s.entryDone core q ch 5 0
    else if k = 0 then s.entryDone core q ch 0 0
    else
      s.setHead core q (some { ch.next with pass := some ⟨ch.pos, n, k, BitVec.ofNat 64 (slotNat b 16 8),
        BitVec.ofNat 64 (slotNat b 24 8), 1, 0⟩ }))

/-- IF: passes over N entries while GEN − V is negative. -/
def execCopyIf (core : Nat) (q : CopyQ) (s : State) : Host.Outcome State Fault Refusal :=
  s.entry core q (· == 3) (fun c ch b =>
    let n := fld (slotNat b 0 8) 4 8
    let v : W32 := BitVec.ofNat 32 (slotNat b 8 4)
    let a := fld (slotNat b 8 8) 32 21
    if a % 16 ≠ 0 ∨ combEnd < a + 16 then s.entryDone core q ch 5 0
    else s.setHead core q (some { ch.next with skip := if ((c.sync a).gen - v).msb then n else 0 }))

/-- LINK. -/
def execCopyLink (core : Nat) (q : CopyQ) (s : State) : Host.Outcome State Fault Refusal :=
  s.entry core q (· == 4) (fun _ ch b =>
    if linkOk b then s.setHead core q (some { ch.next with pos := linkAddr b }) else s.entryDone core q ch 5 0)

/-- FENCE: begins, and completes once every chain of the other queue posted before it began has completed. -/
def execCopyFence (core : Nat) (q : CopyQ) (s : State) : Host.Outcome State Fault Refusal :=
  s.entry core q (· == 5) (fun c ch b =>
    let o := otherQ q
    let named := bitSet (slotNat b 0 8) (match o with | .inbound => 4 | .outbound => 5)
    let upTo := if ch.begun then ch.fence else if named then (c.cq o).posted else 0
    if (c.cq o).chains.all (fun x => upTo ≤ x.no) then s.entryDone core q ch 0 0
    else s.setHead core q (some { ch with begun := true, slot := b, fence := upTo }))

/-- END: the chain ends, also one that an IF would pass over. -/
def execCopyEnd (core : Nat) (q : CopyQ) (s : State) : Host.Outcome State Fault Refusal :=
  s.entry core q (· == 0) (fun _ _ _ => s.setHead core q none)

/-- The event of the entry at hand. -/
def State.copyEvent (s : State) (id : Nat) (q : CopyQ) : Option Instr :=
  let c := s.core id
  match s.headChain c q with
  | none => none
  | some ch => some (match (if combEnd ≤ ch.slotAt then 6 else slotKind (s.slotBytes id ch)) with
    | 0 => .copyEnd id q
    | 2 => .copyLoop id q
    | 3 => .copyIf id q
    | 4 => .copyLink id q
    | 5 => .copyFence id q
    | _ => .copyEntry id q)

end Sys2Proof.Machine
end

