-- ==== Sys2Proof/Machine/Migrate.lean ====
section
/-! DEFINITION. Page residency and migration (R136, R148 to R150). -/
namespace Sys2Proof.Machine

/-! ### Pages of a range -/

/-- The pages that overlap addresses from `va` up to `stop`, which past 2^64 are those from 0 (DESIGN CHOICE, log 36); a stretch with no
valid leaf in pieces of 64 KiB aligned to 64 KiB (R211, R229). The fuel is at least the number of pieces. -/
def State.pagesOver (s : State) (x : Fin 64) : Nat → Nat → Nat → List (Nat × Option Leaf)
  | 0, _, _ => []
  | k + 1, va, stop =>
    if stop ≤ va then []
    else match s.walk x (BitVec.ofNat 64 va) with
      | some l => (va, some l) :: s.pagesOver x k (va - (va % 2 ^ 57 - l.base) + l.bytes) stop
      | none => (va, none) :: s.pagesOver x k (va / 2 ^ 16 * 2 ^ 16 + 2 ^ 16) stop

/-- The pieces that a range may have. -/
def piecesOf (len : Nat) : Nat := len / 2 ^ 16 + 2

/-- The entries that translate a range have their bins and pairs applied (R208). -/
def State.readPages (s : State) (x : Fin 64) (va n : Nat) : State :=
  if s.bins.isEmpty && s.window.isEmpty then s
  else s.readTables x ((s.pagesOver x (piecesOf n) va (va + n)).map (fun p => BitVec.ofNat 64 p.1))

/-- The physical address of the entry in which a walk ends; `rd` reads an entry's two words (R128). -/
def entryFrom (rd : Nat → Nat × Nat) (va : Nat) : Nat → Nat → Option Nat
  | n, table =>
    let shift := if n = 0 then 16 else 12 + 9 * n
    let a := table + 16 * fld va shift (if n = 0 then 5 else 9)
    if bitSet (rd a).1 1 then some a
    else match n with
      | 0 => none
      | k + 1 => entryFrom rd va k (fld (rd a).2 13 39 * 2 ^ 13)

/-- The physical address of the leaf entry of a virtual address. -/
def State.leafEntry (s : State) (x : Fin 64) (va : Nat) : Option Nat :=
  entryFrom s.entryAt (va % 2 ^ 57) 4 (fld (s.ctx x).ptRoot.toNat 13 39 * 2 ^ 13)

/-- The leaf entry's two words changed by `f`. -/
def State.setLeaf (s : State) (x : Fin 64) (va : Nat) (f : Nat → Nat → Nat × Nat) : State :=
  let s := s.readTables x [canonOf va]
  match s.leafEntry x va with
  | none => s
  | some a =>
    let (w0, w1) := f (s.entryAt a).1 (s.entryAt a).2
    s.homeWrite a (leBytes 8 w0 ++ leBytes 8 w1)

/-! ### pgreq (R148) -/

def execPgreq (h : Hdr) (a b c : GReg) (s : State) : Host.Outcome State Fault Refusal :=
  s.issue h 0x6E (fun co => .go s
    { lat := none, fixed := false
      body := .word (.pgreq h a b c) [co.rd h.eng a, co.rd h.eng b, co.rd h.eng c] [] 0 0 0 })

/-- Bytes that join a sync word, which must lie in the comb: DESIGN CHOICE (log 36): one misaligned or past its end gains nothing, and the
comb is that of the core that asked, whatever task it runs by then. -/
def State.syncGain (s : State) (core addr n : Nat) : State :=
  if addr % 16 ≠ 0 ∨ combEnd < addr + 16 then s else s.mapSync (some (.comb core, addr)) (fun w => w.arrive n)

/-- One page of a `pgreq`: an event where it has no leaf, its bytes at once where it is resident, else a request. -/
def State.askPage (s : State) (core : Nat) (x : Fin 64) (sync : Nat) (p : Nat × Option Leaf) : State :=
  match p.2 with
  | none => s.postEvent x 0x05 (BitVec.ofNat 64 p.1)
  | some l =>
    if l.res then s.syncGain core sync l.bytes
    else
      let (no, s) := s.newNo
      { s with pageReqs := s.pageReqs ++ [⟨no, core, x, p.1, sync, l, 0, none⟩] }

/-- The request is made, and accepted some time later (log 3). -/
def State.runPgreq (s : State) (id : Nat) (a : Act) : State :=
  match a.body with
  | .word (.pgreq h x y z) [va, len, sync] _ _ 0 _ =>
    let c := s.core id
    let ps := s.pagesOver c.ctxId (piecesOf len.toNat) va.toNat (va.toNat + len.toNat)
    let s := ps.foldl (State.askPage · id c.ctxId sync.toNat) (s.readPages c.ctxId va.toNat len.toNat)
    let (n, s) := s.draw
    s.setCore ((s.core id).setAct { a with due := some (s.cycle c + Config.delay n), body := .word (.pgreq h x y z) [] [] 0 1 0 })
  | _ => s

/-! ### Migration (R149, R150) -/

/-- MIGHYST in pulses. -/
def State.hysteresis (s : State) (x : Fin 64) : Nat := (s.ctx x).mighyst.toNat * pulsesPerUs

/-- HOME and PEER of a destination. -/
def Home.codes : Home → Fin 4 × Fin 64
  | .hbm => (0, 0)
  | .peer p => (1, p)
  | .host => (2, 0)
  | .expander => (3, 0)

/-- The leaf of the page at its new home, where it is resident: its bytes have been copied there (R129; log 37). -/
def Migration.newLeaf (m : Migration) : Leaf :=
  let (h, p) := Home.codes m.dest
  { m.leaf with home := h, peer := p, pfn := m.pfn, plane := m.plane, res := true }

/-- The key of the page at its new home. -/
def Migration.newKey (m : Migration) (pkg : Nat) : Nat := m.newLeaf.dataKey pkg

/-- The migration that a page is in: from its old home, or, its new leaf being written, to its new one (R150). -/
def State.migrating (s : State) (l : Leaf) : Option Migration :=
  s.migrations.find? (fun m => m.leaf.dataKey s.pkg == l.dataKey s.pkg
    || (m.state == .switched && m.newKey s.pkg == l.dataKey s.pkg))

/-- A migration of the page of virtual address `va` begins. -/
def State.beginMigration (s : State) (no : Nat) (x : Fin 64) (va : Nat) (l : Leaf) (dest : Home) (pfn plane : Nat) : State :=
  { s with migrations := s.migrations ++ [⟨no, x, va, l, dest, pfn, plane, .draining⟩] }

/-- The page last completed a migration less than MIGHYST ago. -/
def State.movedLately (s : State) (x : Fin 64) (l : Leaf) : Bool :=
  s.lastMig.any (fun p => p.1 == l.dataKey s.pkg && decide (s.pulse < p.2 + s.hysteresis x))

/-- A request to migrate a page takes its lock; while another holds it the request is sent again after a hint; a page moved too
lately stays where it is. -/
def execMigrationRequest (ctx : Nat) (va : W64) (dest : Home) (pfn plane : Nat) (s : State) :
    Host.Outcome State Fault Refusal :=
  let x : Fin 64 := Fin.ofNat 64 ctx
  let s := s.readTables x [va]
  match s.walk x va with
  | none => .next s
  | some l =>
    if (s.migrating l).isSome then
      let (n, s) := s.draw
      .next { s with inputs := s.inputs ++ [(s.pulse + hintPulses n + 1, .migrationRequest ctx va dest pfn plane)] }
    else if s.movedLately x l then .next s
    else
      let (no, s) := s.newNo
      .next (s.beginMigration no x va.toNat l dest pfn plane)

def State.migration? (s : State) (k : Nat) (st : MState) : Option Migration :=
  s.migrations.find? (fun m => m.no == k && m.state == st)

def State.setMigration (s : State) (m : Migration) : State :=
  { s with migrations := s.migrations.map (fun n => if n.no = m.no then m else n) }

/-- A page not moved gets a mapping where it is: resident there, with the shootdown that follows (R136, R149). -/
def State.mapHere (s : State) (x : Fin 64) (va : Nat) (l : Leaf) : State :=
  if l.res then s else (s.setLeaf x va (fun w0 w1 => (w0 ||| 4, w1))).shoot x va

/-- The home a leaf names. -/
def Leaf.homeOf (l : Leaf) : Home :=
  match l.home with
  | 0 => .hbm
  | 1 => .peer l.peer
  | 2 => .host
  | 3 => .expander

/-- A request for a page may rest: the page is resident, and the request has not been refused, has moved it itself, or finds it where it
was asked for. -/
def PageReq.met (r : PageReq) (pkg : Nat) (l : Leaf) : Bool :=
  l.res && (r.notBefore == 0 || r.mig.isSome || l.dataKey pkg == r.leaf.dataKey pkg)

/-- A page that `pgreq` asks for (R148): once it is resident, it counts. Else the request takes the page's migration lock, is refused with
a hint while another holds it, and, where the page has moved too lately, gets a mapping of it where it is (R149). The page is brought
to the frame that its leaf named when it was asked for: the spec gives no other (DESIGN CHOICE, log 37). -/
def execPageResident (k : Nat) (s : State) : Host.Outcome State Fault Refusal :=
  match s.pageReqs.find? (·.no == k) with
  | none => .next s
  | some r =>
    let s := s.readTables r.ctx [BitVec.ofNat 64 r.va]
    let gone := { s with pageReqs := s.pageReqs.filter (·.no != k) }
    let set (s : State) (f : PageReq → PageReq) : State := { s with pageReqs := s.pageReqs.map (fun q => if q.no = k then f q else q) }
    match s.walk r.ctx (BitVec.ofNat 64 r.va) with
    | none => .next gone
    | some l => match s.migrating l with
      | some m =>
        if r.mig = some m.no then .next s
        else
          let (n, s) := s.draw
          .next (set s (fun q => { q with notBefore := s.pulse + hintPulses n + 1 }))
      | none =>
        if r.met s.pkg l then .next (gone.syncGain r.core r.sync l.bytes)
        else if s.movedLately r.ctx l then
          .next ((gone.mapHere r.ctx r.va l).syncGain r.core r.sync l.bytes)
        else
          let (no, s) := s.newNo
          let s := set s (fun q => { q with mig := some no })
          .next (s.beginMigration no r.ctx r.va l r.leaf.homeOf r.leaf.pfn r.leaf.plane)

/-- Whether a key lies in a leaf's page. -/
def Leaf.holds (pkg : Nat) (l : Leaf) (key : Nat) : Bool :=
  decide (l.dataKey pkg ≤ key) && decide (key < l.dataKey pkg + l.bytes)

/-- Every pending bin of the page is applied. Accesses are performed whole, so none accepted is incomplete. -/
def execMigrationDrained (k : Nat) (s : State) : Host.Outcome State Fault Refusal :=
  match s.migration? k .draining with
  | none => .next s
  | some m =>
    let inPage (line : Nat) : Bool := m.leaf.holds s.pkg (line * 64)
    let s := s.mergeWindow (fun p => m.leaf.holds s.pkg p.key)
    .next ((s.applyBins (fun b => inPage b.line)).setMigration { m with state := .copying })

/-- The bytes of a page's side plane (R130). -/
def Leaf.planeBytes (l : Leaf) : Nat :=
  let nb := l.blocks l.blockTy.halfBytes
  (if l.isStamped then 4 * nb else 0) + (if l.isMx then nb else 0)

/-- A leaf entry with a new home (R129). -/
def leafMoved (l : Leaf) (w0 w1 : Nat) : Nat × Nat :=
  (w0 % 4 + b2n l.res * 4 + l.home.val * 8 + fld w0 5 19 * 32 + l.plane / 2 ^ 12 % 2 ^ 40 * 2 ^ 24,
    w1 % 2 ^ 16 / 64 * 64 + l.peer.val + l.pfn / 2 ^ 16 % 2 ^ 36 * 2 ^ 16)

/-- Bytes moved to other keys, the bins and pairs of either applied first (R208). -/
def State.moveBytes (s : State) (src dst n : Nat) : State :=
  let s := (s.applyOver src n).applyOver dst n
  let s := s.setBytes dst (s.rawBytes src n)
  { s with poisoned := unpoison s.poisoned dst n }

/-- Data and side plane are copied, and the new leaf is written. -/
def execMigrationCopied (k : Nat) (s : State) : Host.Outcome State Fault Refusal :=
  match s.migration? k .copying with
  | none => .next s
  | some m =>
    let l := m.newLeaf
    let s := s.moveBytes (m.leaf.dataKey s.pkg) (l.dataKey s.pkg) m.leaf.bytes
    let s := s.moveBytes (m.leaf.planeKey s.pkg) (l.planeKey s.pkg) m.leaf.planeBytes
    .next ((s.setLeaf m.ctx m.va (leafMoved l)).setMigration { m with state := .switched })

/-- The shootdown is acknowledged: the lock is released and the time recorded, for the page where it is now. A request on its way to
the old home finds the page gone. -/
def execMigrationSwitched (k : Nat) (s : State) : Host.Outcome State Fault Refusal :=
  match s.migration? k .switched with
  | none => .next s
  | some m =>
    let old := m.leaf.dataKey s.pkg
    let new := m.newKey s.pkg
    let s := s.shoot m.ctx m.va
    let s := if old = new then s else s.depart m.ctx old
    .next { s with migrations := s.migrations.filter (·.no != k)
                   lastMig := s.lastMig.filter (fun p => p.1 != old && p.1 != new) ++ [(new, s.pulse)] }

end Sys2Proof.Machine
end

