-- ==== Sys2Proof/Machine/Kernels.lean ====
section
/-! DEFINITION. Kernels and launch queues (R305 to R316): descriptors, stage queues, and what the launch unit decides. -/
namespace Sys2Proof.Machine

/-! ### Device memory by virtual address -/

/-- `n` bytes at a virtual address, if every page is valid and resident; the entries that its walks read, and then its lines, have
their bins and pairs applied (R208). -/
def State.vaRead (s : State) (x : Fin 64) (va : W64) (n : Nat) : Option (List Byte) × State :=
  let s := s.readPages x va.toNat n
  match s.vaKeys x (fun l => l.res) (piecesOf n) va n with
  | some ks => let (bs, s) := s.readPieces ks; (some bs, s)
  | none => (none, s)

/-- Bytes stored piece by piece. -/
def State.writePieces (s : State) : List (Nat × Nat) → List Byte → State
  | [], _ => s
  | (k, n) :: t, bs => (s.homeWrite k (bs.take n)).writePieces t (bs.drop n)

/-- Bytes stored at a virtual address, if its pages are valid, writable and resident; whether they were. -/
def State.vaStore (s : State) (x : Fin 64) (va : W64) (bs : List Byte) : Bool × State :=
  let s := s.readPages x va.toNat bs.length
  match s.vaKeys x (fun l => l.w && l.res) (piecesOf bs.length) va bs.length with
  | some ks => (true, s.writePieces ks bs)
  | none => (false, s)

/-- The same, whether or not they were. -/
def State.vaWrite (s : State) (x : Fin 64) (va : W64) (bs : List Byte) : State := (s.vaStore x va bs).2

/-- The number in `n` bytes from offset `o`. -/
def field (bs : List Byte) (o n : Nat) : Nat := leNat ((bs.drop o).take n)

def zeros (bs : List Byte) (o n : Nat) : Bool := ((bs.drop o).take n).all (· == 0)

/-! ### Kernel descriptors (R305, R306) -/

/-- The stage record in 128 bytes. -/
def stageOf (r : List Byte) : Stage :=
  let v (o : Nat) : W64 := BitVec.ofNat 64 (field r o 8)
  let w (o : Nat) : W32 := BitVec.ofNat 32 (field r o 4)
  let out (o : Nat) : Option (Fin 8) := let b := field r o 1; if bitSet b 7 then some (Fin.ofNat 8 (b % 8)) else none
  { vas := #v[v 0, v 8, v 16, v 24], lens := #v[w 32, w 36, w 40, w 44], ents := #v[w 48, w 52, w 56, w 60]
    imgVA := v 64, imgLen := field r 72 4, live := field r 76 4, out := #v[out 80, out 81], minc := field r 82 2
    maxc := field r 84 2, persist := field r 86 1 == 1, heart := field r 88 4, budget := field r 92 4 }

/-- The record of stage `i` of `n` keeps every limit. -/
def stageOk (r : List Byte) (i n : Nat) : Bool :=
  let k := stageOf r
  let outOk (o : Nat) : Bool :=
    let b := field r o 1
    fld b 3 4 == 0 && (!bitSet b 7 || (decide (i < b % 8) && decide (b % 8 < n)))
  k.vas.toList.all (fun a => a.toNat % 16 == 0) && k.lens.toList.all (· != 0)
    && (k.ents.toList.zip k.lens.toList).all (fun p => decide (p.1.toNat < p.2.toNat))
    && k.imgLen % 64 == 0 && decide (k.imgLen ≤ combEnd) && decide (k.live ≤ combEnd) && outOk 80 && outOk 81
    && decide (1 ≤ k.minc) && decide (k.minc ≤ k.maxc) && decide (k.maxc ≤ 576) && decide (field r 86 1 ≤ 1)
    && field r 87 1 == 0 && zeros r 96 32
    && (if k.persist then k.maxc == k.minc && decide (1 ≤ k.heart) else decide (1 ≤ k.budget))

/-- Queue `q` of a descriptor: its VA and QLOG2. -/
def queueOf (d : List Byte) (q : Nat) : W64 × Nat := (BitVec.ofNat 64 (field d (64 + 16 * q) 8), field d (72 + 16 * q) 4)

/-- Every page of a queue is one that R305 admits. -/
def State.queueOk (s : State) (x : Fin 64) (d : List Byte) (q : Nat) : Bool :=
  let (va, n) := queueOf d q
  va.toNat % 64 == 0 && decide (1 ≤ n) && decide (n ≤ 12) && zeros d (76 + 16 * q) 4
    && (s.vaKeys x Leaf.plain (piecesOf (64 * 2 ^ n)) va (64 * 2 ^ n)).isSome

def stageBytes (d : List Byte) (i : Nat) : List Byte := (d.drop (192 + 128 * i)).take 128

/-- The stages and queues of the descriptor at `va`, or none if it is invalid. -/
def State.descriptor (s : State) (x : Fin 64) (va : W64) : Option (List Stage × List (W64 × Nat)) :=
  if va.toNat % 64 ≠ 0 then none
  else match (s.vaRead x va 1216).1 with
    | none => none
    | some d =>
      let n := field d 0 8
      let is := List.range n
      if n = 0 ∨ 8 < n ∨ !zeros d 8 56 then none
      else if is.all (fun i => stageOk (stageBytes d i) i n) && is.all (s.queueOk x d)
        then some (is.map (fun i => stageOf (stageBytes d i)), is.map (queueOf d))
      else none

/-- Its reading applies the bins and pairs of its lines, and of the entries that the walks to it and to its queues read (R208). -/
def State.readDescriptor (s : State) (x : Fin 64) (va : W64) : State :=
  match s.vaRead x va 1216 with
  | (none, s) => s
  | (some d, s) => (List.range (min 8 (field d 0 8))).foldl (fun s q =>
      let (a, n) := queueOf d q
      if 1 ≤ n ∧ n ≤ 12 then s.readPages x a.toNat (64 * 2 ^ n) else s) s

/-! ### Launch queues (R311, R312, R351) -/

def State.lq (s : State) (x : Fin 64) (k : Fin 16) : LaunchQueue := (s.ctx x).lqs[k]

def State.setLq (s : State) (x : Fin 64) (k : Fin 16) (q : LaunchQueue) : State :=
  s.setCtx x { s.ctx x with lqs := (s.ctx x).lqs.set k q }

def LaunchQueue.size (q : LaunchQueue) : Nat := 2 ^ q.log2n.toNat

/-- The VA of entry number `no`. -/
def LaunchQueue.entryVA (q : LaunchQueue) (no : W32) : W64 := q.ringVA + BitVec.ofNat 64 (128 * ((no - 1).toNat % q.size))

/-- The entries numbered from `no` on, `n` of them, as the ring holds them. -/
def State.takeEntriesFrom (s : State) (x : Fin 64) (q : LaunchQueue) (no : W32) : Nat → List LaunchEntry × State
  | 0 => ([], s)
  | n + 1 =>
    let (bs, s) := s.vaRead x (q.entryVA no) 128
    let (t, s) := s.takeEntriesFrom x q (no + 1) n
    (⟨no, .queued, bs.getD (List.replicate 128 0), 0, false⟩ :: t, s)

/-- The tail word is read (R351): entries up to it are taken, or the queue's context is marked in LQOVF. Only a RUNNING context's
queues are served (R328): the doorbell of another's makes its queue one that is read again once it runs. -/
def State.readTail (s : State) (x : Fin 64) (k : Fin 16) (bell : Bool) : State :=
  let q := s.lq x k
  if !q.valid || (q.refused && !bell) then s
  else if (s.ctx x).state != .running then (if bell then s.setLq x k { q with refused := false } else s)
  else match s.vaRead x (q.doneVA + 4) 4 with
    | (none, s) => s.setLq x k { q with polled := s.pulse }
    | (some bs, s) =>
      let tail : W32 := BitVec.ofNat 32 (leNat bs)
      if q.size < (q.accepted - q.done).toNat + (tail - q.accepted).toNat then
        { s.setLq x k { q with polled := s.pulse, refused := true } with lqOvf := s.lqOvf ||| BitVec.ofNat 64 (2 ^ x.val) }
      else
        let (es, s) := s.takeEntriesFrom x q (q.accepted + 1) (tail - q.accepted).toNat
        s.setLq x k { q with accepted := tail, entries := q.entries ++ es, polled := s.pulse, refused := false }

def execLqbell (ctx : Nat) (lq : Fin 16) (s : State) : Host.Outcome State Fault Refusal :=
  .next (s.readTail (Fin.ofNat 64 ctx) lq true)

def execTailPoll (ctx : Nat) (lq : Fin 16) (s : State) : Host.Outcome State Fault Refusal :=
  .next (s.readTail (Fin.ofNat 64 ctx) lq false)

/-! ### Entries (R312) -/

def LaunchEntry.kdesc (e : LaunchEntry) : W64 := BitVec.ofNat 64 (field e.bytes 0 8)
def LaunchEntry.notBefore (e : LaunchEntry) : Nat := field e.bytes 8 8
def LaunchEntry.depKind (e : LaunchEntry) : Nat := field e.bytes 30 1 % 4
def LaunchEntry.cls (e : LaunchEntry) : Fin 4 := Fin.ofNat 4 (field e.bytes 30 1 / 16)

/-- The dependency is met (R311). -/
def State.depMet (s : State) (x : Fin 64) (e : LaunchEntry) : Bool :=
  let ok (v : Nat) : Bool := decide (0 ≤ (BitVec.ofNat 32 v - BitVec.ofNat 32 (field e.bytes 24 4)).toInt)
  let addr := field e.bytes 16 8
  match e.depKind with
  | 1 => match (s.vaRead x (BitVec.ofNat 64 addr) 4).1 with
    | some bs => ok (leNat bs)
    | none => false
  | 2 =>
    let core := field e.bytes 28 2 % 1024
    inPart (s.ctx x).partMask core && decide (core < 576) && ok (leNat ((s.core core).comb.readBytes (addr % 2 ^ 21 + 8) 4))
  | _ => true

/-- The check of a dependency reads its word, if it is one in device memory (R208). -/
def State.readDep (s : State) (x : Fin 64) (e : LaunchEntry) : State :=
  if e.depKind = 1 then (s.vaRead x (BitVec.ofNat 64 (field e.bytes 16 8)) 4).2 else s

/-- A WAITING entry's time and dependency. -/
def State.entryMet (s : State) (x : Fin 64) (e : LaunchEntry) : Bool := decide (e.notBefore ≤ s.dtime.toNat) && s.depMet x e

/-- The head of a launch queue, if the context runs. -/
def State.headEntry (s : State) (x : Fin 64) (k : Fin 16) : Option LaunchEntry :=
  if (s.ctx x).state = .running then (s.lq x k).entries.head? else none

def State.setEntry (s : State) (x : Fin 64) (k : Fin 16) (e : LaunchEntry) : State :=
  s.setLq x k { s.lq x k with entries := e :: (s.lq x k).entries.tail }

/-- 64 ns: the longest time between two checks of a WAITING entry (R312), in pulses. -/
def checkLimit : Nat := 144

/-- The first entry leaves QUEUED; a WAITING one whose time and dependency are met becomes READY. -/
def execLaunchEntryCheck (ctx : Nat) (lq : Fin 16) (s : State) : Host.Outcome State Fault Refusal :=
  let x : Fin 64 := Fin.ofNat 64 ctx
  match s.headEntry x lq with
  | some e => match e.state with
    | .queued => .next (s.setEntry x lq { e with state := .waiting, since := s.pulse })
    | .waiting => .next ((s.readDep x e).setEntry x lq { e with state := if s.entryMet x e then .ready else .waiting, since := s.pulse })
    | _ => .next s
  | none => .next s

/-- An entry is DONE: RESULT, then LQSTAT.DONE, then the completion word, and the host is signalled (R316, R350). -/
def State.finishEntry (s : State) (x : Fin 64) (k : Fin 16) (no : W32) (aborted fault : Bool) : State :=
  let q := s.lq x k
  let s := s.vaWrite x (q.entryVA no + 48) (leBytes 8 (pack [(no.toNat, 0), (b2n aborted, 32), (b2n fault, 33)]).toNat)
  let s := s.setLq x k { s.lq x k with done := no, entries := (s.lq x k).entries.filter (·.no != no) }
  let s := s.setCtx x { s.ctx x with kernels := (s.ctx x).kernels.filter (·.lq != k) }
  match s.vaStore x q.doneVA (leBytes 4 no.toNat) with
  | (true, s) => s.signal x.val
  | (false, s) => s

/-! ### Kernels and their stages (R307, R309, R313, R314) -/

def State.kernel? (s : State) (x : Fin 64) (k : Fin 16) : Option Kernel := (s.ctx x).kernels.find? (·.lq == k)

def State.setKernel (s : State) (x : Fin 64) (k : Kernel) : State :=
  s.setCtx x { s.ctx x with kernels := (s.ctx x).kernels.map (fun j => if j.lq == k.lq then k else j) }

/-- A task of kernel `k` of context `x`. -/
def Task.of (t : Task) (x : Fin 64) (k : Kernel) : Bool := t.ctx == x && t.lq == k.lq && t.kseq == k.no

def Core.taskOf (c : Core) (x : Fin 64) (k : Kernel) (p : Task → Bool) : Bool :=
  match c.task with
  | some t => t.of x k && p t
  | none => false

/-- How many cores run tasks of a stage. -/
def State.coresOf (s : State) (x : Fin 64) (k : Kernel) (i : Nat) : Nat :=
  (s.cores.filter (fun c => c.taskOf x k (fun t => t.stage.val == i))).length

/-- The saved tasks of a stage. -/
def State.savedOf (s : State) (x : Fin 64) (k : Kernel) (i : Nat) : List Saved :=
  (s.ctx x).saved.filter (fun v => v.core.taskOf x k (fun t => t.stage.val == i))

/-- Items of queue `q` that can be taken in this cycle. -/
def State.takable (s : State) (k : Kernel) (q : Nat) : List Item := (k.queues.getD q []).filter (fun i => i.put < s.pulse)

/-- Whether each of the first `n` stages is drained, lowest first (R307). -/
def State.drained (s : State) (x : Fin 64) (k : Kernel) : Nat → List Bool
  | 0 => []
  | n + 1 =>
    let ds := s.drained x k n
    let open_ := (List.range n).any (fun p => match k.stages[p]? with
      | some st => st.out.toList.any (fun o => match o with | some q => q.val == n | none => false) && !ds.getD p true
      | none => false)
    let left := match k.stages[n]? with
      | some st => st.persist && decide (k.started.getD n 0 < st.minc)
      | none => false
    ds ++ [!open_ && (k.queues.getD n []).isEmpty && s.coresOf x k n == 0 && (s.savedOf x k n).isEmpty && !left]

/-- Queue `q` is closed: every stage that outputs into it is drained. -/
def State.closed (s : State) (x : Fin 64) (k : Kernel) (q : Nat) : Bool :=
  let ds := s.drained x k q
  (List.range q).all (fun p => match k.stages[p]? with
    | some st => !(st.out.toList.any (fun o => match o with | some r => r.val == q | none => false)) || ds.getD p true
    | none => true)

/-- A stage is runnable (R313); one with a pre-empted task is (R315). -/
def State.runnable (s : State) (x : Fin 64) (k : Kernel) (i : Nat) : Bool :=
  match k.stages[i]? with
  | none => false
  | some st =>
    let n := s.coresOf x k i
    !(s.savedOf x k i).isEmpty || (if st.persist then decide (k.started.getD i 0 < st.minc)
      else !(s.takable k i).isEmpty && decide (n < st.maxc))

def State.kernelReady (s : State) (x : Fin 64) (k : Kernel) : Bool :=
  !k.aborted && (List.range k.stages.length).any (s.runnable x k)

/-- A queue's fill fraction at the start of the cycle, in 4096ths (capacities are powers of 2 up to 4096). -/
def Kernel.fraction (k : Kernel) (q : Nat) : Int := (k.fills.getD q 0 * (4096 / 2 ^ k.qlog2.getD q 0) : Nat)

/-- A stage's pressure (R314). -/
def Kernel.pressure (k : Kernel) (i : Nat) : Int :=
  let outs := match k.stages[i]? with
    | some st => st.out.toList.filterMap (fun (o : Option (Fin 8)) => o.map (fun (q : Fin 8) => k.fraction q.val))
    | none => []
  k.fraction i - outs.foldl max 0

/-- The stage with the highest pressure; ties go to the lowest index. -/
def Kernel.highest (k : Kernel) : List Nat → Option Nat
  | [] => none
  | i :: t => match k.highest t with
    | none => some i
    | some j => if k.pressure i < k.pressure j then some j else some i

/-- The stage a core is granted to (R314). -/
def State.chooseStage (s : State) (x : Fin 64) (k : Kernel) : Option Nat :=
  let is := (List.range k.stages.length).filter (s.runnable x k)
  match is.find? (fun i => match k.stages[i]? with | some st => !st.persist && decide (s.coresOf x k i < st.minc) | none => false) with
  | some i => some i
  | none => k.highest is

/-! ### Which work a core takes (R313, R315) -/

/-- Whose reserved core this is: its place from the top among the partition's cores of its die. -/
def reservedFor (x : Ctx) (id : Nat) : Option (Fin 16) :=
  let place := ((List.range 576).filter (fun k => inPart x.partMask k && k / 144 == id / 144 && decide (id < k))).length
  (List.finRange 16).find? (fun q =>
    let before := ((List.finRange 16).filter (· < q)).foldl (fun n p => n + (x.lqs[p]).res.toNat) 0
    decide (before ≤ place) && decide (place < before + (x.lqs[q]).res.toNat))

/-- A class, one higher once it has aged. -/
def agedClass (cls : Fin 4) (aged : Bool) : Nat := cls.val - b2n aged

/-- The class at which launch queue `q` has ready work, and its own class. -/
def State.readyClass (s : State) (x : Fin 64) (q : Fin 16) : Option (Nat × Fin 4) :=
  match s.kernel? x q with
  | some k => if s.kernelReady x k then some (agedClass k.cls k.aged, k.cls) else none
  | none => match s.headEntry x q with
    | some e => if e.state = .ready then some (agedClass e.cls e.aged, e.cls) else none
    | none => none

/-- The launch queues in round-robin order after `last`. -/
def afterLast (last : Fin 16) : List (Fin 16) := (List.range 16).map (fun i => Fin.ofNat 16 (last.val + 1 + i))

/-- Launch queue `q` has ready work that core `id` may take, at class `k`. -/
def State.mayTake (s : State) (x : Fin 64) (id k : Nat) (q : Fin 16) : Bool :=
  match s.readyClass x q with
  | some (aged, own) => aged == k && (match reservedFor (s.ctx x) id with
    | some r => q == r && own == 0
    | none => true)
  | none => false

/-- The launch queue whose work a core takes: the highest class, then round robin within it. -/
def State.pickQueue (s : State) (x : Fin 64) (id : Nat) : Option (Fin 16) :=
  (List.finRange 4).findSome? (fun k => (afterLast (s.ctx x).lastLq[k]).find? (s.mayTake x id k.val))

/-- The RUNNING context whose partition holds a core. -/
def State.servedCtx (s : State) (id : Nat) : Option (Fin 64) :=
  (List.finRange 64).find? (fun x => (s.ctx x).state == .running && inPart (s.ctx x).partMask id)

/-- The core is free: no task, and its partition is not being reset. -/
def State.coreFree (s : State) (id : Nat) : Bool :=
  decide (id < 576) && (s.core id).task.isNone && s.partReset.all (fun p => p.1 != (s.partOf (halfDie id)).val)

/-! ### Forecast (R384) -/

def State.busyCores (s : State) (x : Fin 64) : Nat := (s.cores.filter (fun c => c.task.isSome && c.ctxId == x)).length

/-- 8 µs, in pulses. -/
def forecastLead : Nat := 8 * pulsesPerUs

/-- The cores that the level counts: those that run a task, and the reserved ones always. -/
def State.countedCores (s : State) (x : Fin 64) : Nat :=
  s.busyCores x + ((partCores (s.ctx x).partMask).filter (fun id =>
    (reservedFor (s.ctx x) id).isSome && !((s.core id).task.isSome && (s.core id).ctxId == x))).length

/-- The present level, and the level that one more busy core needs. -/
def State.presentLevel (s : State) (x : Fin 64) : Fin 16 := Config.activity (s.countedCores x)
def State.neededLevel (s : State) (x : Fin 64) : Fin 16 := Config.activity (s.countedCores x + 1)

/-- In FORECAST mode a grant of a core not reserved that raises the level waits until 8 µs after its announcement, a level being announced
until FCAST is written with a lower one (R384). -/
def State.mayRaise (s : State) (x : Fin 64) : Bool :=
  let p := s.parts[partNo (s.ctx x).partMask]
  !p.forecast || decide (s.neededLevel x ≤ s.presentLevel x)
    || (decide (s.neededLevel x ≤ p.level) && decide (p.levelAt[s.neededLevel x] + forecastLead ≤ s.pulse))

/-- A level is announced in FCAST: the levels that it raises it to are announced from now on. -/
def PartPower.announce (p : PartPower) (level : Fin 16) (now : Nat) : PartPower :=
  { p with level := level, levelAt := Vector.ofFn (fun (j : Fin 16) => if p.level < j ∧ j ≤ level then now else p.levelAt[j]) }

/-- The launch unit announces a level in FCAST. -/
def execForecastWrite (part : Fin 8) (level : Fin 16) (s : State) : Host.Outcome State Fault Refusal :=
  let p := s.parts[part]
  if p.forecast then .next { s with parts := s.parts.set part (p.announce level s.pulse) } else .next s

/-! ### Starting tasks (R63, R308) -/

/-- A sequencer at a task's start. -/
def Seqr.start (va : W64) (len ent : W32) (now : Nat) : Seqr :=
  { Seqr.reset with pc := ent, streamLen := len, streamVA := va, status := .running, earliest := now + 1 }

/-- `g1` to `g8` hold eight words. -/
def withItem (r : Seqr) (ws : List W64) : Seqr :=
  { r with g := Vector.ofFn (fun (i : Fin 32) => if 1 ≤ i.val ∧ i.val ≤ 8 then ws.getD (i.val - 1) 0 else r.g[i]) }

/-- The core with a task of stage `st` begun: the state of R63, the image, the context's scope table, factors and step. -/
def Core.startTask (c : Core) (x : Ctx) (t : Task) (st : Stage) (ws : List W64) (img : List Byte) (now : Nat) : Core :=
  let q (i : Fin 4) : Seqr := Seqr.start st.vas[i] st.lens[i] st.ents[i] now
  { c with seqs := #v[withItem (q 0) ws, q 1, q 2, q 3], handlerTags := Vector.replicate 8 false, inHandler := false
           trapVec := x.trapVec, raised := [], pending := [], stop := none, waitingStop := none, deadlock := 0
           amax := Vector.replicate 4 0, handles := Vector.replicate 16 Handle.reset, tqcnt := 0, tqceil := tqceilReset
           rings := Vector.replicate 16 RingReg.reset, inQ := { c.inQ with chains := [], stopping := false }
           outQ := { c.outQ with chains := [], stopping := false }, comb := c.comb.writeBytes 0 img
           filter := { c.filter with valid := false }, shadow := { c.shadow with valid := false }
           active := { c.active with valid := false }, tiles := {}, masks := Vector.replicate 8 0
           preds := Vector.replicate 8 ⟨0, 0⟩, ports := Ports.reset, accDirty := 0, slots := Vector.replicate 2 GSlot.reset
           bars := Vector.replicate 64 BarView.reset, acts := [], task := some t, scopes := x.scopes, dcf := x.dcf, cstep := x.gstep }

/-- The words of an item taken from its queue's memory. -/
def State.itemWords (s : State) (x : Fin 64) (qva : W64) (i : Item) : List W64 × State :=
  match s.vaRead x (qva + BitVec.ofNat 64 (64 * i.slot)) 64 with
  | (some bs, s) => ((List.range 8).map (fun k => BitVec.ofNat 64 (field bs (8 * k) 8)), s)
  | (none, s) => ([], s)

/-- The oldest item of a queue is taken. -/
def Kernel.takeItem (k : Kernel) (q : Nat) : Kernel := { k with queues := k.queues.set q ((k.queues.getD q []).drop 1) }

/-- What was on its way to core `id` before a task takes it finds it no more: the context's tables go with the task (R184, R221). -/
def State.freshCore (s : State) (id : Nat) : State :=
  { s with props := s.props.filter (fun p => p.core != some id)
           ringMsgs := s.ringMsgs.filter (fun m => match m with | .ask k _ | .credit k _ _ => k != id) }

/-- A new task of stage `i` starts on core `id`. -/
def State.beginTask (s : State) (x : Fin 64) (k : Kernel) (i id : Nat) : State :=
  match k.stages[i]? with
  | none => s
  | some st =>
    let (ws, k, s) : List W64 × Kernel × State :=
      if st.persist then ([], k, s)
      else match s.takable k i with
        | it :: _ => let (ws, s) := s.itemWords x (k.qvas.getD i 0) it; (ws, k.takeItem i, s)
        | [] => ([], k, s)
    let (img, s) := if st.imgVA = 0 then ([], s)
      else let (bs, s) := s.vaRead x st.imgVA st.imgLen; (bs.getD (List.replicate st.imgLen 0), s)
    let t : Task := { ctx := x, lq := k.lq, kseq := k.no, stage := Fin.ofNat 8 i, persist := st.persist, out := st.out
                      live := st.live, limitUs := if st.persist then st.heart else st.budget, since := s.pulse, used := 0
                      cls := k.cls, fired := false }
    let c := s.core id
    let s := s.setKernel x { k with started := k.started.set i (k.started.getD i 0 + 1), since := s.pulse, aged := false }
    (s.freshCore id).setCore (c.startTask (s.ctx x) t st ws img (s.cycle c))

/-! ### Saved tasks go on (R315, R328, R335, R336) -/

/-- A saved task runs on core `c`: its live comb bytes are back, its sequencers go on at their PCs with every tag free, a
pending trap is taken first. What it was still to wait, in cycles, it waits by the core's own count (R336). -/
def Core.restored (c : Core) (v : Core) (now pulse : Nat) : Core :=
  let v := v.freeTags
  let task := v.task.map (fun t => { t with since := pulse, used := if t.persist then 0 else t.used })
  let live := match v.task with | some t => t.live | none => 0
  let seqs := v.seqs.map (fun (r : Seqr) => { r with earliest := now + r.earliest }.go now)
  let n := { v with id := c.id, comb := c.comb.writeBytes 0 (v.comb.readBytes 0 live), born := c.born, ports := Ports.reset, task := task, stop := none, waitingStop := none, inHandler := false, deadlock := 0
                    inQ := { v.inQ with stopping := false, nextAt := now }, outQ := { v.outQ with stopping := false, nextAt := now }
                    handlerBank := c.handlerBank, seqs := seqs, grpAt := Vector.replicate 2 0
                    handles := v.handles.map (fun (h : Handle) => { h with walkEnd := now + h.walkEnd }) }
  if n.pending.isEmpty then n
  else { n with raised := n.pending, pending := [], stop := some .trap, seqs := n.seqs.map (Seqr.stop false) }

/-- The saved task of a slot goes on on core `id`; its barriers and copies of its context's tables go with it. -/
def State.restore (s : State) (x : Fin 64) (v : Saved) (id : Nat) : State :=
  let c := s.core id
  let s := s.setCtx x { s.ctx x with saved := (s.ctx x).saved.filter (·.slot != v.slot) }
  let s := (s.freshCore id).setCore { c.restored v.core (s.cycle c) s.pulse with scopes := (s.ctx x).scopes, dcf := (s.ctx x).dcf, cstep := (s.ctx x).gstep }
  s.moveParts x (576 + v.slot) id

/-! ### Grants (R312, R313, R315) -/

/-- A READY entry's first core is granted: its descriptor is checked, its ITEM put into queue 0; an invalid one is DONE with
FAULT and an event. -/
def State.beginKernel (s : State) (x : Fin 64) (lq : Fin 16) (e : LaunchEntry) : State :=
  let s := s.readDescriptor x e.kdesc
  match s.descriptor x e.kdesc with
  | none => (s.postEvent x 0x08 e.kdesc).finishEntry x lq e.no false true
  | some (sts, qs) =>
    let n := sts.length
    let k : Kernel :=
      { lq := lq, no := e.no, cls := e.cls, fault := e.depKind == 3, stages := sts, qvas := qs.map (·.1), qlog2 := qs.map (·.2)
        queues := [⟨s.pulse - 1, 0⟩] :: List.replicate (n - 1) [], puts := 1 :: List.replicate (n - 1) 0
        fills := 1 :: List.replicate (n - 1) 0, started := List.replicate n 0, aborted := false, since := s.pulse, aged := false, wanting := e.since }
    let s := s.setEntry x lq { e with state := .running }
    let s := s.setCtx x { s.ctx x with kernels := (s.ctx x).kernels ++ [k] }
    s.vaWrite x ((qs.headD (0, 0)).1) ((e.bytes.drop 64).take 64)

/-- The core goes to a stage of a running kernel: a pre-empted task of it first, else a new one. -/
def State.grantStage (s : State) (x : Fin 64) (k : Kernel) (id : Nat) : State :=
  match s.chooseStage x k with
  | none => s
  | some i => match s.savedOf x k i with
    | v :: _ => (s.setKernel x { k with since := s.pulse, aged := false }).restore x v id
    | [] => s.beginTask x k i id

/-- Core `id` is granted to launch queue `q` of context `x`. -/
def State.grant (s : State) (x : Fin 64) (q : Fin 16) (id : Nat) : State :=
  let k : Fin 4 := match s.readyClass x q with | some (k, _) => Fin.ofNat 4 k | none => 0
  let s := s.setCtx x { s.ctx x with lastLq := (s.ctx x).lastLq.set k q }
  match s.kernel? x q with
  | some k => s.grantStage x k id
  | none => match s.headEntry x q with
    | some e =>
      let s := s.beginKernel x q e
      match s.kernel? x q with
      | some k => s.grantStage x k id
      | none => s
    | none => s

/-- The work that core `id` is granted to, if any: its context and launch queue. -/
def State.grantFor (s : State) (id : Nat) : Option (Fin 64 × Fin 16) :=
  if !s.coreFree id then none
  else match s.servedCtx id with
    | none => none
    | some x => match s.pickQueue x id with
      | none => none
      | some q => if s.mayRaise x ∨ (reservedFor (s.ctx x) id).isSome then some (x, q) else none

def execCoreGrant (core : Nat) (s : State) : Host.Outcome State Fault Refusal :=
  match s.grantFor core with
  | some (x, q) => .next (s.grant x q core)
  | none => .next s

/-- The AGING of a context, in pulses, has passed since `since`. -/
def State.agedOut (s : State) (x : Fin 64) (since : Nat) : Bool := decide (since + (s.ctx x).aging.toNat * pulsesPerUs < s.pulse)

/-- The work of launch queue `q` has waited longer than AGING. -/
def State.mayAge (s : State) (x : Fin 64) (q : Fin 16) : Bool :=
  (s.readyClass x q).isSome && match s.kernel? x q with
    | some k => !k.aged && s.agedOut x k.since
    | none => match s.headEntry x q with
      | some e => !e.aged && s.agedOut x e.since
      | none => false

def execAgingExpiry (ctx : Nat) (lq : Fin 16) (s : State) : Host.Outcome State Fault Refusal :=
  let x : Fin 64 := Fin.ofNat 64 ctx
  if s.mayAge x lq then
    match s.kernel? x lq with
    | some k => .next (s.setKernel x { k with aged := true })
    | none => match s.headEntry x lq with
      | some e => .next (s.setEntry x lq { e with aged := true })
      | none => .next s
  else .next s

/-- The cores that the runnable stages of a kernel need to reach MINC (R315). -/
def State.kernelNeed (s : State) (x : Fin 64) (k : Kernel) : Nat :=
  if k.aborted then 0
  else (List.range k.stages.length).foldl (fun n i => n + match k.stages[i]? with
    | some st => if s.runnable x k i then st.minc - s.coresOf x k i else 0
    | none => 0) 0

/-- At the start of a cycle: the queues' fills; the wait of a kernel without runnable stages begins anew, and that of one that wants no
core (R313 to R315). -/
def State.snapKernels (s : State) : State :=
  (List.finRange 64).foldl (fun s x =>
    if (s.ctx x).kernels.isEmpty then s
    else s.setCtx x { s.ctx x with kernels := (s.ctx x).kernels.map (fun k =>
      { k with fills := k.queues.map List.length, since := if s.kernelReady x k then k.since else s.pulse
               wanting := if s.kernelNeed x k = 0 then s.pulse else k.wanting }) }) s

/-! ### Completion (R309, R310, R316) -/

/-- No update pair of a kernel is still on its way (R309). -/
def State.pairsDone (s : State) (x : Fin 64) (lq : Fin 16) : Bool := s.flight.all (fun f => f.pair.ctx != x || f.lq != lq)

/-- Every stage of a kernel is drained and every access performed. -/
def State.kernelOver (s : State) (x : Fin 64) (k : Kernel) : Bool :=
  !k.aborted && (s.drained x k k.stages.length).all id && s.pairsDone x k.lq

def execKernelComplete (ctx : Nat) (lq : Fin 16) (s : State) : Host.Outcome State Fault Refusal :=
  let x : Fin 64 := Fin.ofNat 64 ctx
  match s.kernel? x lq with
  | some k => if (s.ctx x).state = .running ∧ s.kernelOver x k then .next (s.finishEntry x lq k.no false k.fault) else .next s
  | none => .next s

/-- No task of an aborted kernel remains. -/
def State.abortOver (s : State) (x : Fin 64) (k : Kernel) : Bool :=
  k.aborted && s.cores.all (fun c => !c.taskOf x k (fun _ => true)) && (s.ctx x).saved.all (fun v => !v.core.taskOf x k (fun _ => true))
    && s.pairsDone x k.lq

def execKernelAbortComplete (ctx : Nat) (lq : Fin 16) (s : State) : Host.Outcome State Fault Refusal :=
  let x : Fin 64 := Fin.ofNat 64 ctx
  match s.kernel? x lq with
  | some k => if (s.ctx x).state = .running ∧ s.abortOver x k then .next (s.finishEntry x lq k.no true k.fault) else .next s
  | none => .next s

end Sys2Proof.Machine
end

