-- ==== Sys2Proof/Machine/Launch.lean ====
section
/-! DEFINITION. The words of kernels and tasks (R317 to R321, R344, R345), how tasks end, are pre-empted and saved, and the
watchdog (R67, R68, R310, R315, R335, R337). -/
namespace Sys2Proof.Machine

/-! ### qtake (R317) -/

def execQtake (h : Hdr) (d : GReg) (s : State) : Host.Outcome State Fault Refusal :=
  s.issue h 0x72 (fun c =>
    match c.task with
    | some t => if !t.persist ∨ (1 ≤ d.val ∧ d.val ≤ 8) then .illegal 0x0D
      else .go s { lat := none, fixed := false, holds := some .time, body := .word (.qtake h d) [] [] 0 0 0 }
    | none => .illegal 0x0D)

/-- The writes of a take: the item's words in `g1` to `g8`, and 0. -/
def takeWrites (handler : Bool) (d : GReg) (ws : List W64) : List Write :=
  (List.range 8).map (fun i => .g handler (Fin.ofNat 32 (i + 1)) (ws.getD i 0)) ++ [.g handler d 0]

/-- A `qtake` takes the oldest item, once the releases before it are performed, since it is an acquire (R187, R195), or finds the queue
closed. Of an aborted kernel nothing is taken (R310). -/
def State.runQtake (s : State) (id : Nat) (a : Act) : State :=
  let c := s.core id
  match a.body, c.task with
  | .word (.qtake _ d) _ _ _ 0 _, some t =>
    match s.kernel? t.ctx t.lq with
    | none => s
    | some k =>
      let q := t.stage.val
      if k.aborted then s
      else match s.takable k q with
        | it :: _ =>
          if !s.releasesDone c a.seq a.id then s
          else
            let (ws, s) := s.itemWords t.ctx (k.qvas.getD q 0) it
            let s := s.setKernel t.ctx (k.takeItem q)
            let (n, s) := s.draw
            s.setCore ((s.core id).setAct { a with body := .plain, due := some (max (a.issued + 29) (s.cycle c + Config.delay n))
                                                   writes := takeWrites a.handler d ws })
        | [] =>
          if (k.queues.getD q []).isEmpty && s.closed t.ctx k q then
            let (n, s) := s.draw
            s.setCore (c.setAct { a with body := .plain, due := some (max (a.issued + 29) (s.cycle c + Config.delay n))
                                         writes := [.g a.handler d 1] })
          else s
  | _, _ => s

/-! ### qput and kspawn (R318, R319, R352) -/

/-- CMASK and REACH of an entry, as a word captures them. -/
def Core.entryOf (c : Core) (e : Fin 32) : List W64 :=
  [BitVec.ofNat 64 (c.scopes[e]).cmask.toNat, BitVec.ofNat 64 (c.scopes[e]).reach.toNat]

/-- A word that reads `n` bytes of the comb at gA, which must be a multiple of `n`, and is a release at entry `e`. -/
def State.combPostWord (s : State) (h : Hdr) (opc : Nat) (a : GReg) (n : Nat) (e : Fin 32) (i : Instr) (holds : Option Why)
    (extra : Core → List W64) (bad : Core → Bool) : Host.Outcome State Fault Refusal :=
  s.issue h opc (fun c =>
    let x := c.rd h.eng a
    if bad c then .illegal 0x0D
    else if x.toNat % n ≠ 0 then .trap .misaligned x
    else if combEnd < x.toNat + n then .trap .combBounds x
    else .go s { lat := none, fixed := false, holds := holds, body := .word i ([x] ++ c.entryOf e ++ extra c) [] 0 0 0 })

def execQput (h : Hdr) (a : GReg) (out : Fin 2) (s : State) : Host.Outcome State Fault Refusal :=
  s.combPostWord h 0x73 a 64 3 (.qput h a out) (some .time) (fun _ => [])
    (fun c => match c.task with | some t => (t.out[out]).isNone | none => true)

def execKspawn (h : Hdr) (a : GReg) (lq : Fin 16) (s : State) : Host.Outcome State Fault Refusal :=
  s.combPostWord h 0x71 a 128 3 (.kspawn h a lq) (some .time) (fun _ => []) (fun c => !(s.lq c.ctxId lq).valid)

/-- An item put into queue `q` of a kernel: its 64 bytes go to the queue's memory. -/
def State.putItem (s : State) (x : Fin 64) (k : Kernel) (q : Nat) (bs : List Byte) : State :=
  let n := k.puts.getD q 0
  let slot := n % 2 ^ k.qlog2.getD q 0
  let s := s.vaWrite x (k.qvas.getD q 0 + BitVec.ofNat 64 (64 * slot)) bs
  s.setKernel x { k with puts := k.puts.set q (n + 1), queues := k.queues.set q (k.queues.getD q [] ++ [⟨s.pulse, slot⟩]) }

/-- The queue has room for one more item. -/
def Kernel.room (k : Kernel) (q : Nat) : Bool := decide ((k.queues.getD q []).length < 2 ^ k.qlog2.getD q 0)

/-- The bytes such a word reads, as a comb load of class 0: once every earlier comb write of X has completed (R183, R318). -/
def State.readPost (s : State) (id : Nat) (a : Act) (n : Nat) : State :=
  let c := s.core id
  match a.body with
  | .word i (x :: v) [] shp 0 p =>
    if c.noneBefore a Act.writesComb
        && s.mayPerform c a.seq a.id zeroReach ⟨.load, true, 2 * x.toNat, 2 * (x.toNat + n), 0⟩ then
      s.setCore (c.setAct { a with body := .word i (x :: v) [leNat (c.comb.readBytes x.toNat n)] shp 0 p })
    else s
  | _ => s

/-- The release of such a word is met (R187). -/
def State.postMet (s : State) (c : Core) (a : Act) (v : List W64) : Bool :=
  match v with
  | _ :: cm :: re :: _ => s.releaseMet c a.seq a.id (BitVec.ofNat 16 cm.toNat) (BitVec.ofNat 3 re.toNat)
  | _ => false

/-- The word has taken effect and completes in this cycle. -/
def State.postDone (s : State) (id : Nat) (a : Act) : State :=
  let c := s.core id
  match a.body with
  | .word i v els shp _ p => s.setCore (c.setAct { a with body := .word i v els shp 1 p, due := some (s.cycle c) })
  | _ => s

/-- One cycle of a `qput`: its item is put once the queue has room and the release is met (log 3). -/
def State.runQput (s : State) (id : Nat) (a : Act) : State :=
  let c := s.core id
  match a.body, c.task with
  | .word (.qput _ _ _) _ [] _ 0 _, _ => s.readPost id a 64
  | .word (.qput _ _ out) v [bs] _ 0 _, some t =>
    match s.kernel? t.ctx t.lq, t.out[out] with
    | some k, some q =>
      let (n, s) := s.draw
      if k.room q.val && s.postMet c a v && Config.pick n % 2 == 1 then (s.putItem t.ctx k q.val (leBytes 64 bs)).postDone id a else s
    | _, _ => s
  | _, _ => s

/-- The tail word of a launch queue, if it can be read. -/
def State.spawnTail (s : State) (x : Fin 64) (q : LaunchQueue) : Option W32 × State :=
  let (bs, s) := s.vaRead x (q.doneVA + 4) 4
  (bs.map (fun bs => BitVec.ofNat 32 (leNat bs)), s)

/-- One cycle of a `kspawn`: the entry and the tail word are written once the ring has room (log 3). -/
def State.runKspawn (s : State) (id : Nat) (a : Act) : State :=
  let c := s.core id
  let x := c.ctxId
  match a.body with
  | .word (.kspawn _ _ _) _ [] _ 0 _ => s.readPost id a 128
  | .word (.kspawn _ _ lq) v [bs] _ 0 _ =>
    let q := s.lq x lq
    match s.spawnTail x q with
    | (none, s) => s
    | (some tail, s) =>
      let (n, s) := s.draw
      if (tail - q.done).toNat < q.size && s.postMet c a v && Config.pick n % 2 == 1 then
        let s := s.vaWrite x (q.entryVA (tail + 1)) (leBytes 128 bs)
        let s := s.vaWrite x (q.doneVA + 4) (leBytes 4 (tail + 1).toNat)
        (s.readTail x lq true).postDone id a
      else s
  | _ => s

/-! ### heart, twaitt, evpost, ctxyield (R320, R321, R344, R345) -/

def execHeart (h : Hdr) (s : State) : Host.Outcome State Fault Refusal :=
  s.issue h 0x6F (fun _ => .go s { after := fun c =>
    { c with task := c.task.map (fun t => if t.persist then { t with since := s.pulse, used := 0 } else t) } })

def execTwaitt (h : Hdr) (a : GReg) (s : State) : Host.Outcome State Fault Refusal :=
  s.issue h 0x70 (fun c =>
    let t := c.rd h.eng a
    if t.toNat ≤ s.dtime.toNat then .go s {}
    else .go s { lat := none, fixed := false, holds := some .time, body := .word (.twaitt h a) [t] [] 0 0 0 })

/-- DTIME has reached the time a `twaitt` waits for. -/
def State.timeReached (s : State) (a : Act) : Bool :=
  match a.body with
  | .word (.twaitt _ _) [t] _ _ 0 _ => a.due.isNone && decide (t.toNat ≤ s.dtime.toNat)
  | _ => false

def execTwaittTimeReached (core act : Nat) (s : State) : Host.Outcome State Fault Refusal :=
  let c := s.core core
  match c.act? act with
  | some a => if s.timeReached a then .next (s.setCore (c.complete a)) else .next s
  | none => .next s

def execEvpost (h : Hdr) (a b : GReg) (s : State) : Host.Outcome State Fault Refusal :=
  s.combPostWord h 0x74 a 32 5 (.evpost h a b) none (fun c => [c.rd h.eng b]) (fun c => bits (c.rd h.eng b) 8 56 != 0)

/-- One cycle of an `evpost`: the record is posted once its release is met. -/
def State.runEvpost (s : State) (id : Nat) (a : Act) : State :=
  let c := s.core id
  match a.body with
  | .word (.evpost _ _ _) _ [] _ 0 _ => s.readPost id a 32
  | .word (.evpost _ _ _) [x, cm, re, code] [bs] _ 0 _ =>
    if s.postMet c a [x, cm, re] then
      (s.postRec (c.record 4 (bits code 0 8) 0 false 0 a.pc (leBytes 32 bs))).postDone id a
    else s
  | _ => s

/-! ### Pre-emption (R315) -/

/-- The cores that launch queue `q`'s class-0 work waiting since before pulse `limit` needs for its stages to reach MINC. -/
def State.queueNeed (s : State) (x : Fin 64) (limit : Nat) (q : Fin 16) : Nat :=
  match s.kernel? x q with
  | some k => if k.cls = 0 ∧ k.wanting ≤ limit then s.kernelNeed x k else 0
  | none => match s.headEntry x q with
    | some e =>
      if e.state = .ready ∧ e.cls = 0 ∧ e.since ≤ limit then
        match s.descriptor x e.kdesc with
        | some (st :: _, _) => st.minc
        | _ => 0
      else 0
    | none => 0

/-- The free cores that are reserved for queue `q`. -/
def State.freeReserved (s : State) (x : Fin 64) (q : Fin 16) : Nat :=
  ((partCores (s.ctx x).partMask).filter (fun id => s.coreFree id && reservedFor (s.ctx x) id == some q)).length

/-- The cores that class-0 work waiting since before pulse `limit` needs beyond those reserved for its queues. -/
def State.classZeroNeed (s : State) (x : Fin 64) (limit : Nat) : Nat :=
  (List.finRange 16).foldl (fun n q => n + (match s.queueNeed x limit q with
    | 0 => 0
    | k + 1 => k + 1 - s.freeReserved x q)) 0

/-- The descriptors of class-0 entries that wait are read for it (R208). -/
def State.readNeeds (s : State) (x : Fin 64) : State :=
  (List.finRange 16).foldl (fun s q => match s.kernel? x q, s.headEntry x q with
    | none, some e => if e.state = .ready ∧ e.cls = 0 then s.readDescriptor x e.kdesc else s
    | _, _ => s) s

/-- Cores of the context that any class may take. -/
def State.freeCores (s : State) (x : Fin 64) : Nat :=
  ((partCores (s.ctx x).partMask).filter (fun id => s.coreFree id && (reservedFor (s.ctx x) id).isNone)).length

/-- The core is being pre-empted. -/
def Core.preempting (c : Core) : Bool :=
  c.stop == some .forced || c.stop == some .yield || c.waitingStop == some .forced

/-- Cores in the order in which they are pre-empted, of those that run on: class 3 first, then 2, then 1, the highest id first. -/
def State.victims (s : State) (x : Fin 64) : List Nat :=
  let of (k : Nat) : List Nat := (s.cores.filter (fun c => c.task.isSome && c.ctxId == x && c.stop.isNone && c.waitingStop.isNone
    && (match c.task with | some t => t.cls.val == k | none => false))).reverse.map (·.id)
  of 3 ++ of 2 ++ of 1

/-- The cores the launch unit asks to give way, of work waiting since before `limit`. -/
def State.asked (s : State) (x : Fin 64) (limit : Nat) : List Nat :=
  let going := (s.cores.filter (fun c => c.ctxId == x && c.preempting)).length
  (s.victims x).take (s.classZeroNeed x limit - s.freeCores x - going)

/-- The slots for tasks pre-empted by force that are free (R335). -/
def State.forcedSlots (s : State) (x : Fin 64) : List Nat :=
  let n := (partCores (s.ctx x).partMask).length
  ((List.range n).map (n + ·)).filter (fun k => (s.ctx x).saved.all (·.slot != k))

/-- `ctxyield`: a requested pre-emption, or a context that drains, stops the task at once (R345). -/
def execCtxyield (h : Hdr) (s : State) : Host.Outcome State Fault Refusal :=
  s.issue h 0x7C (fun c =>
    if c.inHandler then .illegal 0x0D
    else if (s.ctx c.ctxId).state = .draining then .go s { after := fun d => d.halt (s.cycle c) .suspend }
    else if (s.asked c.ctxId s.pulse).contains c.id then .go (s.readNeeds c.ctxId) { after := fun d => d.halt (s.cycle c) .yield }
    else .go (s.readNeeds c.ctxId) {})

/-! ### Saving a core (R335) -/

/-- What sequencers see in a cycle as of its start (R46, R74, R84, R85). -/
def Core.snap (c : Core) : Core := { c with seqSnap := c.seqState, tqSnap := c.tqcnt, ringSnap := c.rings }

/-- The registers that each sequencer has its own of. -/
def banked (i : Nat) : Bool := i ≤ 2 || i == 0x100 || i == 0x101

/-- The sysregs of a save slot: the unbanked ones, then each sequencer's own and its scalar registers. `cause` is TRAPCAUSE's
image. -/
def State.saveRegs (s : State) (c : Core) (cause : Option Nat) : List (Nat × List Byte) :=
  let c := match cause with | some k => { c with trapCause := BitVec.ofNat 8 k } | none => c
  let unbanked := (List.range 0x1000).filterMap (fun i =>
    if banked i then none else some (8 * i, leBytes 8 (s.sysRead { c with inHandler := true } .x i).toNat))
  let own := allSeqs.flatMap (fun q =>
    let at_ := 0x8000 + 0x2000 * q.idx.val
    ([0, 1, 2, 0x100, 0x101].map (fun i => (at_ + 8 * i, leBytes 8 (s.sysRead { c with inHandler := false } q i).toNat)))
      ++ (List.range 32).map (fun r => (at_ + 0x1F00 + 8 * r, leBytes 8 ((c.seq q).g[Fin.ofNat 32 r]).toNat)))
  unbanked ++ own

/-- A dirty accumulator block: its elements, then E, NF and NERR of its rows. -/
def Core.saveBlock (c : Core) (j : Nat) : List Byte :=
  let rows := (List.range 64).map (fun r => c.accRow (64 * j + r))
  rows.flatMap (fun r => r.a.toList.flatMap (fun e => leBytes 9 e.toNat)) ++ rows.flatMap (fun r => leBytes 2 r.e.toNat)
    ++ rows.map (fun r => BitVec.ofNat 8 (b2n r.nf)) ++ rows.map (fun r => BitVec.ofNat 8 (b2n r.nerr))

/-- The parts of a slot: those whose layout R335 gives, and those in the device's own layout, whose bytes are free values (number
`n`; log 49). -/
def State.saveParts (s : State) (c : Core) (cause : Option Nat) (n : Nat) : List (Nat × List Byte) :=
  let live := match c.task with | some t => t.live | none => 0
  let own (at_ len : Nat) : Nat × List Byte := (at_, (List.range len).map (fun i => Config.ownByte n (at_ + i)))
  s.saveRegs c cause ++ [(0x1_0000, c.tiles.readBytes 0 0x1_0000)]
    ++ (List.range 8).map (fun k => (0x2_0000 + 512 * k, leBytes 512 (c.masks[Fin.ofNat 8 k]).toNat))
    ++ [own 0x2_1000 0x2000, own 0x2_4000 0xC000, own 0x3_0000 0x5_0000]
    ++ ((List.range 16).filter (fun j => c.accDirty.getLsbD j)).map (fun j => (0x8_0000 + j * 0x1_2400, c.saveBlock j))
    ++ [(0x1F_0000, c.comb.readBytes 0 live)]

def saveBytes : Nat := 4 * 2 ^ 20

/-- The core without a task. -/
def Core.vacate (c : Core) : Core :=
  { c with task := none, stop := none, waitingStop := none, inHandler := false, raised := [], pending := [], acts := [], deadlock := 0
           inQ := { c.inQ with chains := [], stopping := false }, outQ := { c.outQ with chains := [], stopping := false }
           seqs := c.seqs.map (fun (r : Seqr) => { r with status := .idle, why := .none }) }

/-- Core `id` is saved into slot `k` of its context and is free. -/
def State.saveCore (s : State) (x : Fin 64) (id k : Nat) (cause : Option Nat) : State :=
  let c := s.core id
  let (n, s) := s.draw
  let parts := s.saveParts c.snap cause n
  let now := s.cycle c
  let task := c.task.map (fun t => { t with used := t.elapsed s.pulse })
  -- bounds on core cycles are kept as what is left of them
  let v : Saved := ⟨k, { c with task := task, pending := c.raised ++ c.pending, raised := []
                                seqs := c.seqs.map (fun (r : Seqr) => { r with earliest := r.earliest - now })
                                handles := c.handles.map (fun (h : Handle) => { h with walkEnd := h.walkEnd - now }) }⟩
  let s := parts.foldl (fun s p => s.homeWrite ((s.ctx x).savePA + k * saveBytes + p.1) p.2) s
  let s := s.setCtx x { s.ctx x with saved := (s.ctx x).saved.filter (·.slot != k) ++ [v] }
  (s.moveParts x id (576 + k)).setCore c.vacate

/-- The core has stopped: every issued word is complete, and no handler runs or waits to be entered. -/
def Core.stopped (c : Core) : Bool := c.stop.isSome && c.stop != some .trap && c.acts.isEmpty && !c.inHandler

/-- A message of a ring is on its way to core `id`. -/
def RingMsg.toCore (m : RingMsg) (id : Nat) : Bool := match m with | .ask k _ | .credit k _ _ => k == id

/-- No pair and no ring message of the core is on its way. -/
def State.settled (s : State) (c : Core) : Bool := s.flight.all (fun f => f.core != c.id) && s.ringMsgs.all (fun m => !m.toCore c.id)

/-- The core can be saved: it has stopped, its copy queues stand at an entry's end, and nothing of it is on its way (R171, R206). -/
def State.quiet (s : State) (c : Core) : Bool :=
  c.stopped && c.inQ.chains.all (fun ch => !ch.moving) && c.outQ.chains.all (fun ch => !ch.moving) && s.settled c

/-- PREEMPTWAIT has passed since this pulse or an earlier one. -/
def State.preemptLimit (s : State) (x : Fin 64) : Option Nat :=
  let w := (s.ctx x).preemptWait.toNat * pulsesPerUs
  if w ≤ s.pulse then some (s.pulse - w) else none

/-- The core is to be pre-empted by force now: it is asked, and of those asked it is among the first for which slots are free. -/
def State.forceDue (s : State) (id : Nat) : Bool :=
  let x := (s.core id).ctxId
  (s.ctx x).state == .running && match s.preemptLimit x with
    | some l => ((s.asked x l).take ((s.forcedSlots x).length - (s.cores.filter (fun c => c.ctxId == x && c.preempting)).length)).contains id
    | none => false

/-- The core has stopped for a pre-emption and a slot is free. -/
def State.saveDue (s : State) (c : Core) : Bool :=
  (c.stop == some .forced || c.stop == some .yield) && s.quiet c && s.sweeps.all (fun w => w.core != c.id)
    && !(s.forcedSlots c.ctxId).isEmpty

/-- A task of a lower class is stopped for class 0, and once it has stopped its core is saved and free. -/
def execForcedPreemption (core : Nat) (s : State) : Host.Outcome State Fault Refusal :=
  let c := s.core core
  if c.task.isNone then .next s
  else if s.saveDue c then
    match s.forcedSlots c.ctxId with
    | k :: _ => .next (s.saveCore c.ctxId core k none)
    | [] => .next s
  else if s.forceDue core then .next ((s.readNeeds c.ctxId).setCore (c.askStop (s.cycle c) .forced))
  else .next s

/-! ### A task ends (R67, R68, R282, R310) -/

/-- The drain condition of an `exit`, or a task stopped for an abort whose words and begun copy entries are complete. -/
def Core.taskOver (c : Core) : Bool :=
  c.task.isSome && match c.stop with
  | some .abort | some .killed => c.acts.isEmpty && c.inQ.chains.isEmpty && c.outQ.chains.isEmpty
  | some _ => false
  | none => (match c.acts with | [a] => a.body == .exit | _ => false) && c.inQ.chains.isEmpty && c.outQ.chains.isEmpty
    && [Seq.l, .c, .s].all (fun q => (c.seq q).status == .ended)

/-- A kernel is aborted (R310): its other tasks stop, its saved tasks are discarded. -/
def State.abortKernel (s : State) (x : Fin 64) (k : Kernel) : State :=
  let s := s.setKernel x { k with aborted := true }
  let gone := (s.ctx x).saved.filter (fun v => v.core.taskOf x k (fun _ => true))
  let s := gone.foldl State.leaveSaved s
  let s := s.setCtx x { s.ctx x with saved := (s.ctx x).saved.filter (fun v => !v.core.taskOf x k (fun _ => true)) }
  { s with cores := s.cores.map (fun (c : Core) => if c.taskOf x k (fun _ => true) then c.askStop (s.cycle c) .killed else c) }

/-- A core that stops for an abort discards what its copy queues have not begun (R68). -/
def Core.discardCopies (c : Core) : Core :=
  if c.stop == some .abort || c.stop == some .killed then { c with inQ := c.inQ.discard, outQ := c.outQ.discard } else c

def execTaskComplete (core : Nat) (s : State) : Host.Outcome State Fault Refusal :=
  let c := s.core core
  if !c.taskOver then .next s
  else
    let x := c.ctxId
    let aborts := c.stop == some .abort
    let k := match c.task with | some t => s.kernel? x t.lq | none => none
    -- the exit word completes: its tag frees, its RESTART is cleared
    let c := c.acts.foldl Core.complete c
    let s := (s.setCore c).leaveBars core
    let s := s.setCore (s.core core).vacate
    match k with
    | some k => if aborts ∧ !k.aborted then .next (s.abortKernel x k) else .next s
    | none => .next s

/-! ### The watchdog (R337) -/

def execWatchdog (core : Nat) (s : State) : Host.Outcome State Fault Refusal :=
  let c := s.core core
  match c.task with
  | some t =>
    if t.expired s.pulse then
      let s := s.setCore { c with task := some { t with fired := true } }
      let s := s.postRec (c.record 2 0x0E 0 false (BitVec.ofNat 64 (b2n t.persist)) 0 [])
      .next ((s.bump .watchdogs 1).faultCtx t.ctx)
    else .next s
  | none => .next s

end Sys2Proof.Machine
end

