-- ==== Sys2Proof/Machine/Regions.lean ====
section
/-! DEFINITION. Reduction regions (R199 to R216, R219): updates and their pairs, the glacier's windows, and the words that define,
clear and apply a region. -/
namespace Sys2Proof.Machine

/-! ### Storage of an operator (R200) -/

/-- The storage type of an operator other than STAMPADD. -/
def opTy (op : Nat) : Ty :=
  match op with
  | 0 | 4 | 5 => .f32
  | 2 | 6 | 7 => .i32
  | 10 => .n32
  | _ => .i64

/-- The page takes updates of this operator (reason 0xE). -/
def opPage (op : Nat) (l : Leaf) : Bool :=
  l.u && l.home.val ≤ 1 &&
    if op = 11 then l.isStamped && (l.elemTy == some .f32 || l.elemTy == some .bf16 || l.isMx)
    else l.geom == 0 && !l.vw && (l.elemTy == none || l.elemTy == some (opTy op))

/-- Convert(x, OP): the value, with 2^64 for the NF mark and 2^65 for SAT (R204). -/
def pairValue (op : Nat) (exp : BitVec 16) (ty : Ty) (code : Nat) : Nat :=
  match op with
  | 10 => 1
  | 0 | 4 | 5 | 11 => f32 (tyDecode ty code)
  | 1 => match tyDecode ty code with
    | .nan | .inf _ => 2 ^ 64
    | x =>
      let q := gridRound x exp.toInt
      if 2 ^ 63 - 1 < q then 2 ^ 63 - 1 + 2 ^ 65 else if q < -2 ^ 63 then 2 ^ 63 + 2 ^ 65 else natOf 64 q
  | _ => convert ty (opTy op) .rne false code

/-! ### upd (R202 to R205) -/

/-- The checks 0xD and 0xE. -/
def regionFails (r : RegionReg) (k : Nat) (p : Placed) : Bool :=
  if k = 0xD then
    let va := p.va2 / 2
    let lo := r.base.toNat % 2 ^ 57
    !r.valid || va < lo || lo + r.len ≤ va
  else !opPage r.op.toNat p.leaf

/-- The first failing check among numbers `ks`. -/
def firstFail (fails : Nat → Placed → Bool) (cause : Nat → Cause) (ps : List Placed) : List Nat → Option (Cause × W64)
  | [] => none
  | k :: ks => match ps.find? (fails k) with
    | some p => some (cause k, checkInfo k p.va2)
    | none => firstFail fails cause ps ks

/-- The check 0xD of a word none of whose elements is in bounds: its entry must be valid all the same. -/
def entryFails (r : RegionReg) (hd : Handle) (refs : List Ref) (ps : List Placed) : Option (Cause × W64) :=
  if r.valid || !ps.isEmpty then none
  else some (.permission, checkInfo 0xD ((2 * hd.base.toNat + (match refs with | q :: _ => q.off2 | [] => 0)) % 2 ^ 58))

/-- Every check of `upd` on its active elements. -/
def State.updCheck (s : State) (x : Fin 64) (r : RegionReg) (sty ty : Ty) (refs : List Ref) (hd : Handle) : Option (Cause × W64) :=
  let ps := refs.filterMap (hd.place sty)
  match hd.check refs.head? with
  | some t => some t
  | none => match firstFail (s.checkFails x sty ⟨false, true⟩ []) checkCause ps [4, 9] with
    | some t => some t
    | none => match (entryFails r hd refs ps).or (firstFail (regionFails r) (fun _ => .permission) ps [0xD, 0xE]) with
      | some t => some t
      | none =>
        let op := r.op.toNat
        if !ty.isInt && (op = 2 || op = 3 || (6 ≤ op && op ≤ 9)) then some (.illegal, 0x0D) else none

/-- The leaf as a unit sees a page on which it has placed the elements: what is read through a view begins at the view (R132). -/
def State.plainLeaf (s : State) (x : Fin 64) (l : Leaf) : Leaf :=
  if l.vw then { l with vw := false, pfn := ((s.ctx x).views[l.view]).pbase.toNat } else l

def execUpd (h : Hdr) (d : Region) (a : HReg) (b : UpdIdx) (c : TReg) (gl : Fin 6) (pm : Pm) (ty : Ty) (oc : Fin 16)
    (s : State) : Host.Outcome State Fault Refusal :=
  s.issue h 0x64 (fun co =>
    let g := gl.val + 1
    let hb := ty.halfBytes
    let p := co.shape h.eng
    let n := p.elems
    if !p.fits (match b with | .tile _ => max hb 8 | .cont _ => hb) then .illegal 0x0C
    else
      let x := co.ctxId
      let r := (s.ctx x).regions[d]
      let op := r.op.toNat
      let hd := co.handles[a]
      let sty := if op = 11 then (match hd.leaves with | l :: _ => (l.elemTy).getD ty | [] => ty) else opTy op
      let st := if op = 11 then hd.stride2 ty else (opTy op).halfBytes
      let vals := co.group c g n hb
      let ixs := match b with
        | .tile t => co.group t g n 8
        | .cont r => (List.range (g * n)).map (fun j => (co.rd h.eng r + BitVec.ofNat 64 j).toNat)
      let from_ := co.progress h.eng 0x64
      let refs : List Ref := ((ixs.zip vals).zipIdx).map (fun q =>
        ⟨q.2, q.1.1 * st % 2 ^ 65, false, pairValue op r.exp ty q.1.2⟩)
      let refs := (pmActive (co.actives pm hb g n) refs).filter (fun q => from_ ≤ q.idx)
      let ps := refs.filterMap (hd.place sty)
      let tpl : Pair := { ctx := x, reg := d, gen := r.gen, op := r.op, exp := r.exp, key := 0
                          leaf := ⟨0, 0, false, 0, false, false, false, 0, 0, false, 0, false, 0, 0, 0⟩, va := 0, v := 0
                          step := BitVec.ofNat 16 co.cstep.toNat, nf := false, sat := false }
      s.handleGo co a (s.updCheck x r sty ty refs) [] (.upd oc tpl (ps.map (s.elemOf x sty)) (g * n)) false)

/-- Where the element of a pair at virtual address `va` lies by the page table as it stands, with the leaf that its unit sees (R132,
R207): none where no valid leaf, or no element of its view, holds it. -/
def State.pairPlace (s : State) (x : Fin 64) (op : BitVec 4) (va : Nat) : Option (Nat × Leaf) :=
  (s.walk x (canonOf va)).bind (fun l =>
    let ty := if op = 11 then (l.elemTy).getD .f32 else opTy op.toNat
    let p : Placed := ⟨⟨0, 0, false, 0⟩, l, 2 * (va % 2 ^ 57)⟩
    if l.vw && (s.viewOffset x ty p).isNone then none else some ((s.elemOf x ty p).pa2 / 2, s.plainLeaf x l))

/-- The pair of an element. -/
def State.pairOf (s : State) (tpl : Pair) (e : Elem) : Pair :=
  { tpl with key := e.pa2 / 2, leaf := s.plainLeaf tpl.ctx e.leaf, va := e.va2 / 2, v := e.val % 2 ^ 64, nf := bitSet e.val 64
             sat := bitSet e.val 65 }

/-- DROPS of a region counts a pair dropped. -/
def State.countDrop (s : State) (x : Fin 64) (r : Region) : State :=
  let c := s.ctx x
  let e : RegionReg := c.regions[r]
  s.setCtx x { c with regions := c.regions.set r { e with drops := satInc e.drops 1 } }

/-- A pair dropped: DROPS counts it, and with STALETRAP an event is posted at most once per region in 4096 cycles. -/
def State.dropPair (s : State) (x : Fin 64) (r : Region) : State :=
  let c := s.ctx x
  let e : RegionReg := c.regions[r]
  let s := s.countDrop x r
  let recent := c.lastDrop.any (fun p => p.1 == r.val && decide (s.pulse < p.2 + 4096))
  if e.staletrap && !recent then
    let c := s.ctx x
    let s := s.setCtx x { c with lastDrop := c.lastDrop.filter (·.1 != r.val) ++ [(r.val, s.pulse)] }
    s.postEvent x 0x03 (BitVec.ofNat 64 r.val)
  else s

/-- A pair leaves core `id` for its home; one for a package whose PEERLIVE bit is 0 ends at once, counted and with no event (R357). -/
def State.sendPair (s : State) (id : Nat) (lq : Fin 16) (cls : Fin 16) (act : Nat) (tpl : Pair) (e : Elem) : State :=
  if s.peerDown tpl.ctx e.leaf then (s.countDrop tpl.ctx tpl.reg).loseRequest
  else { s with flight := s.flight ++ [⟨id, lq, cls, act, e.idx, s.pairOf tpl e, 0, 0, 0, e.fate⟩] }

/-- One cycle of an `upd`: up to 16 pairs leave the core, as many as the glacier accepts (R205; log 3). -/
def State.runUpd (s : State) (id : Nat) (a : Act) : State :=
  match a.body with
  | .upd cls tpl todo total =>
    if a.due.isSome then s
    else
      let (n, s) := s.draw
      let k := Config.pick n % 17
      let out := todo.take k
      let rest := todo.drop k
      let lq := match (s.core id).task with | some t => t.lq | none => 0
      let s := out.foldl (fun s e => s.sendPair id lq cls a.id tpl e) s
      let c := s.core id
      s.setCore (c.setAct { a with body := .upd cls tpl rest total, due := if rest.isEmpty then some (s.cycle c) else none })
  | _ => s

/-! ### Pairs arrive (R207, R210, R213, R219) -/

def State.setRegion (s : State) (x : Fin 64) (r : Region) (v : RegionReg) : State :=
  s.setCtx x { s.ctx x with regions := (s.ctx x).regions.set r v }

/-- The unit of a pair's line has taken 32 pairs in this cycle: the pair waits on its way (R207). One for a peer's unit waits there. -/
def State.unitFull (s : State) (p : Pair) : Bool := p.leaf.isHere s.pkg && decide (32 ≤ s.taken[unitOfLine (lineOf p.key)])

/-- A unit of this package takes a pair into its window, or drops it. -/
def State.acceptPair (s : State) (p : Pair) : State :=
  let c := s.ctx p.ctx
  let r : RegionReg := c.regions[p.reg]
  if !r.valid || r.gen != p.gen || r.op != p.op || r.exp != p.exp then s.dropPair p.ctx p.reg
  else
    let g := BitVec.ofNat 16 c.unitStep.toNat
    let lead := (p.step - g).toNat
    let ahead := p.op == 11 && 1 ≤ lead && lead < 2 ^ 15
    let s := if ahead then s.setCtx p.ctx { c with stepAhead := true } else s
    let s := if p.nf || p.sat then s.setRegion p.ctx p.reg { r with nf := r.nf || p.nf, sat := r.sat || p.sat } else s
    let u := unitOfLine (lineOf p.key)
    { s with window := s.window ++ [if ahead then { p with step := g } else p], taken := s.taken.set u (s.taken[u] + 1) }

/-- A pair is performed at a peer's unit, under the region table there, for which a free value stands: it is dropped, and counted
there, or merged. A read of its line applies it first, so it does so at once (R207, R209, R210, R213, R355; log 51). -/
def State.peerPair (s : State) (p : Pair) : State :=
  let (n, s) := s.draw
  if Config.pick n % 2 = 0 then s
  else s.applyBin ⟨lineOf p.key, p.ctx, p.reg, p.gen, p.op, p.exp, p.leaf, [⟨p.key, p.v, p.step⟩], [], 1, s.pulse⟩

def State.flight? (s : State) (core act elem : Nat) : Option Flight :=
  s.flight.find? (fun f => f.core == core && f.act == act && f.elem == elem)

def Flight.same (f g : Flight) : Bool := f.core == g.core && f.act == g.act && f.elem == g.elem

def State.dropFlight (s : State) (f : Flight) : State := { s with flight := s.flight.filter (fun g => !f.same g) }

/-- A pair may arrive: its hint is over, no earlier access of S must come first, and no early access holds it (R186, R193). -/
def State.flightReady (s : State) (f : Flight) : Bool :=
  f.notBefore ≤ s.pulse && s.mayPerform (s.core f.core) .s f.act f.access.1 f.access.2
    && !s.earlyMeets f.pair.ctx f.core (some .s) f.access.2

/-- The pair as it reaches its home, with its address translated again where a shootdown has reached it or its page has moved and it was
refused (R145): none where no valid leaf, or no element of its view, holds it (R210; DESIGN CHOICE, log 70: R203 checks no view). -/
def State.pairNow (s : State) (f : Flight) : Option Pair :=
  (s.pairPlace f.pair.ctx f.pair.op f.pair.va).map (fun q =>
    if f.fate = .same ∨ f.tries = 0 then f.pair else { f.pair with key := q.1, leaf := q.2 })

/-- The request that sends a pair to its page's home (R355). -/
def Pair.request (p : Pair) : RemoteOp :=
  .update p.reg (Fin.ofNat 16 p.gen.toNat) (Fin.ofNat 16 p.op.toNat) p.exp (canonOf p.va) (BitVec.ofNat 64 p.v) p.step p.nf p.sat

/-- A pair for a live peer that may arrive is sent, and has 100 µs to be answered (R356). -/
def State.markPair (s : State) (f : Flight) : State :=
  match f.pair.leaf.peerOf s.pkg with
  | none => s
  | some p =>
    if f.sent != 0 || !s.flightReady f || s.peerDown f.pair.ctx f.pair.leaf || !s.linkUp f.pair.ctx f.pair.leaf then s
    else
      let t := s.request f.pair.ctx p f.pair.request
      { t with flight := t.flight.map (fun g => if f.same g then { g with sent := s.pulse + 1 } else g) }

/-- A pair is refused with a hint: it is held, and sent again after it. -/
def State.refusePair (s : State) (f : Flight) : State :=
  let (n, s) := s.draw
  let t := s.pulse + hintPulses n + 1
  { s with flight := s.flight.map (fun g => if f.same g then { g with tries := g.tries + 1, notBefore := t, sent := 0 } else g) }

/-- A pair that has left its core arrives at its home: it is performed, dropped, or held for a hint; at the 64th refusal in a row its
peer is given up (R356). -/
def execUpdatePairArrival (core act elem : Nat) (s : State) : Host.Outcome State Fault Refusal :=
  match s.flight? core act elem with
  | none => .next s
  | some f =>
    let s := s.readTables f.pair.ctx [canonOf f.pair.va]
    if !s.flightReady f then .next s
    else match s.pairNow f with
    | none => .next ((s.dropFlight f).dropPair f.pair.ctx f.pair.reg)
    | some p =>
      if s.unitFull p || !s.linkUp p.ctx p.leaf || (f.sent == 0 && (f.pair.leaf.peerOf s.pkg).isSome && !s.peerDown f.pair.ctx f.pair.leaf) then .next s
      else match s.lostAt p.ctx p.leaf p.key with
      | some t => .next (if s.peerDown p.ctx p.leaf then (t.dropFlight f).countDrop p.ctx p.reg else (t.dropFlight f).dropPair p.ctx p.reg)
      | none =>
        if (s.lockOn p.leaf).isSome || (f.fate == .moved && f.tries == 0) || s.peerSays p.leaf p.key then
          if (p.leaf.peerOf s.pkg).isSome && decide (63 ≤ f.tries) then
            .next (((s.dropFlight f).dropPair p.ctx p.reg).giveUp p.ctx p.leaf)
          else .next (s.refusePair f)
        else .next (if (p.leaf.peerOf s.pkg).isSome then (s.dropFlight f).peerPair p else (s.dropFlight f).acceptPair p)

/-- The window closes (R207): its pairs are combined and merged into bins, which may need room (R208). -/
def execWindowClose (s : State) : Host.Outcome State Fault Refusal := .next (s.mergeWindow (fun _ => true))

/-! ### ufence (R206) -/

def execUfence (h : Hdr) (s : State) : Host.Outcome State Fault Refusal :=
  s.issue h 0x65 (fun _ => .go s { lat := none, fixed := false, holds := some .fence, body := .ufence })

/-- Every pair of every earlier `upd` of S is performed; one for an unreachable peer no longer counts. -/
def State.updatesDone (s : State) (c : Core) (a : Act) : Bool :=
  c.noneBefore a (fun b => match b.body with | .upd _ _ _ _ | .held _ _ _ (.upd _ _ _ _) => true | _ => false)
    && s.flight.all (fun f => f.core != c.id || a.id ≤ f.act || s.peerDown f.pair.ctx f.pair.leaf)

/-! ### regdef, regclr, regapply (R211, R214 to R216) -/

/-- A range that `regdef` would give entry `d` overlaps another valid entry. -/
def State.regionClash (s : State) (x : Fin 64) (d : Region) (va len : W64) : Bool :=
  let lo := va.toNat % 2 ^ 57
  len != 0 && (List.finRange 64).any (fun k =>
    let r : RegionReg := (s.ctx x).regions[k]
    k != d && r.valid && decide (r.base.toNat % 2 ^ 57 < lo + len.toNat) && decide (lo < r.base.toNat % 2 ^ 57 + r.len))

def execRegdef (h : Hdr) (d : Region) (a b c : GReg) (s : State) : Host.Outcome State Fault Refusal :=
  s.issue h 0x6B (fun co =>
    let va := co.rd h.eng a
    let len := co.rd h.eng b
    let cfg := co.rd h.eng c
    if 12 ≤ bits cfg 0 4 ∨ bits cfg 21 43 ≠ 0 ∨ va.toNat % 64 ≠ 0 ∨ !canonicalVA va ∨ len.toNat % 64 ≠ 0
        ∨ 2 ^ 48 < len.toNat ∨ s.regionClash co.ctxId d va len then .illegal 0x0D
    else .go s { lat := none, fixed := false, holds := some .fence, body := .word (.regdef h d a b c) [va, len, cfg] [] 0 0 0 })

/-- A word on a valid region. -/
def State.regionWord (s : State) (h : Hdr) (opc : Nat) (d : Region) (i : Instr) : Host.Outcome State Fault Refusal :=
  s.issue h opc (fun c =>
    if !((s.ctx c.ctxId).regions[d]).valid then .illegal 0x0D
    else .go s { lat := none, fixed := false, holds := some .fence, body := .word i [] [] 0 0 0 })

def execRegclr (h : Hdr) (d : Region) (s : State) : Host.Outcome State Fault Refusal :=
  s.regionWord h 0x6C d (.regclr h d)

def execRegapply (h : Hdr) (d : Region) (s : State) : Host.Outcome State Fault Refusal :=
  s.regionWord h 0x6D d (.regapply h d)

/-- No pair that carries generation `g` of a region is still in flight, nor on its way out of a core. -/
def State.genFree (s : State) (x : Fin 64) (r : Region) (g : BitVec 4) : Bool :=
  s.flight.all (fun f => !(f.pair.ctx == x && f.pair.reg == r && f.pair.gen == g))
    && s.cores.all (fun c => c.acts.all (fun a => match a.body with
      | .upd _ t _ _ | .held _ _ _ (.upd _ t _ _) => !(t.ctx == x && t.reg == r && t.gen == g)
      | _ => true))

/-- Bins and window pairs of a region. -/
def Bin.ofRegion (b : Bin) (x : Fin 64) (r : Region) : Bool := b.ctx == x && b.reg == r
def Pair.ofRegion (p : Pair) (x : Fin 64) (r : Region) : Bool := p.ctx == x && p.reg == r

/-- Every bin of a region is applied, its window pairs merged first. -/
def State.applyRegion (s : State) (x : Fin 64) (r : Region) : State :=
  let s := s.mergeWindow (·.ofRegion x r)
  s.applyBins (·.ofRegion x r)

/-- The blocks of a stamped page that a range of bytes from `lo` to `hi` of the page overlaps are rewritten: +0 inside the range, the
rest melted (R211, R227). -/
def State.clearBlocks (s : State) (x : Fin 64) (l : Leaf) (lo hi : Nat) : State :=
  let hb := l.blockTy.halfBytes
  let start2 := s.start2 x l
  let es := s.elemsOver x l hb lo hi
  (s.blocksOver x l hb lo hi).foldl (fun s b =>
    let d2 := start2 + b * l.block * hb
    let k := blockAt s.pkg l b d2
    let s := (s.touch (d2 / 2) (l.block * hb / 2)).touchPlane k
    let inside := (List.range l.block).filter (fun j => es.contains (b * l.block + j))
    let f := ((s.ctx x).unitDcf[dclassOf (k.stampWord s.mem)]).toNat
    let g := (s.ctx x).unitStep
    let (m, st) := k.apply s.mem f g (some (BitVec.ofNat 16 g.toNat)) [] (inside.map (fun j => (j, 0, .zero false)))
    { s with mem := m }.staleAt st x l k.va) s

/-- The elements of bytes `lo` to `hi` of a page that has no stamps are written with a region's identity, through its view if it has one
(R132, R211); those that the view cannot place are not (DESIGN CHOICE, log 70). -/
def State.clearElems (s : State) (x : Fin 64) (op : BitVec 4) (l : Leaf) (lo hi : Nat) : State :=
  let hb := if op = 11 then l.size2 .f32 else opHb op
  let zero := leBytes (hb / 2) (identity op)
  if l.vw then (s.elemsOver x l hb lo hi).foldl (fun s i => s.homeWrite ((s.start2 x l + i * hb) / 2) zero) s
  else if hb = 1 then s.homeWrite (l.dataKey s.pkg + lo) (List.replicate (hi - lo) 0)
  else s.homeWrite (l.dataKey s.pkg + lo) ((List.replicate (2 * (hi - lo) / hb) zero).flatten)

/-- One page of a region cleared (step 4 of R211). `stop` ends the region. -/
def State.clearPage (s : State) (x : Fin 64) (op : BitVec 4) (stop : Nat) (p : Nat × Option Leaf) : State :=
  match p.2 with
  | none => s.postEvent x 0x06 (BitVec.ofNat 64 p.1)
  | some l =>
    if !l.res then s.postEvent x 0x06 (BitVec.ofNat 64 p.1)
    else if !l.isHere s.pkg then s
    else
      let lo := p.1 % 2 ^ 57 - l.base
      let hi := min l.bytes (lo + (stop - p.1))
      if op = 11 ∧ l.isStamped then s.clearBlocks x l lo hi
      else s.clearElems x op l lo hi

/-- A page of the region is being migrated. -/
def State.regionLocked (s : State) (x : Fin 64) (r : RegionReg) : Bool :=
  s.migrations.any (fun m => m.ctx == x && decide (m.leaf.base < r.base.toNat % 2 ^ 57 + r.len)
    && decide (r.base.toNat % 2 ^ 57 < m.leaf.base + m.leaf.bytes))

/-- No factor of this core is still spreading (R221). -/
def State.factorsSpread (s : State) (id : Nat) : Bool := s.props.all (fun p => !(p.src == id && p.what.isDcf))

/-- The waits of steps 1 and 2 of R211: a full fence of scope 3, and no pair of the generation to come. -/
def State.clearReady (s : State) (c : Core) (a : Act) (d : Region) : Bool :=
  let x := c.ctxId
  let r : RegionReg := (s.ctx x).regions[d]
  s.fenceMet c .x a.id .full 0xFFFF (c.scopes[3]).reach && s.genFree x d (r.gen + 1) && !s.regionLocked x r

/-- The word has taken effect; it completes once its acknowledgements are in (log 3), and every earlier factor has spread. -/
def State.acked (s : State) (id : Nat) (a : Act) : State :=
  let (n, s) := s.draw
  match a.body with
  | .word i v els shp _ _ =>
    let c := s.core id
    s.setCore (c.setAct { a with body := .word i v els shp 1 (s.cycle c + Config.delay n) })
  | _ => s

/-- The entry that `regdef` writes. -/
def regionOf (old : RegionReg) (va len cfg : W64) : RegionReg :=
  { old with valid := len != 0, base := va, len := len.toNat, op := BitVec.ofNat 4 (bits cfg 0 4), gen := old.gen + 1
             exp := if bits cfg 0 4 = 1 then BitVec.ofNat 16 (bits cfg 4 16) else 0, staletrap := bits cfg 20 1 == 1
             nf := false, sat := false }

/-- The region mirror of the context descriptor (R326). -/
def State.mirrorRegion (s : State) (x : Fin 64) (d : Region) : State :=
  let r : RegionReg := (s.ctx x).regions[d]
  s.homeWrite ((s.ctx x).desc + 0x400 + 16 * d.val) (leBytes 8 r.base.toNat ++ leBytes 8 r.len)

/-- The mirror that a region word writes when it completes. -/
def State.mirrorFor (s : State) (x : Fin 64) (i : Instr) : State :=
  match i with
  | .regdef _ d _ _ _ => s.mirrorRegion x d
  | _ => s

/-- One cycle of a region word: its effect once its waits are over, its completion once acknowledged. -/
def State.runRegion (s : State) (id : Nat) (a : Act) : State :=
  let c := s.core id
  let x := c.ctxId
  if a.due.isSome then s
  else match a.body with
  | .word i _ _ _ 1 t => match i with
    | .regdef _ _ _ _ _ | .regclr _ _ | .regapply _ _ | .stsweep _ _ _ _ =>
      if t ≤ s.cycle c && s.factorsSpread id then
        let s := s.mirrorFor x i
        s.setCore ((s.core id).setAct { a with due := some (s.cycle c) })
      else s
    | _ => s
  | .word (.regdef _ d _ _ _) [va, len, cfg] _ _ 0 _ =>
    -- another core's `regdef` may have taken effect since this one issued (R199, R214)
    if s.regionClash x d va len then s.setCore (c.trapAct a .illegal 0x0D none)
    else if s.clearReady c a d then
      let r : RegionReg := (s.ctx x).regions[d]
      let s := if r.valid then s.applyRegion x d else s
      (s.setRegion x d (regionOf (s.ctx x).regions[d] va len cfg)).acked id a
    else s
  | .word (.regclr _ d) _ _ _ 0 _ =>
    if s.clearReady c a d then
      let r : RegionReg := (s.ctx x).regions[d]
      let s := s.setRegion x d { r with gen := r.gen + 1 }
      let s := { s with bins := s.bins.filter (fun b => !b.ofRegion x d), window := s.window.filter (fun p => !p.ofRegion x d) }
      let stop := r.base.toNat + r.len
      let ps := s.pagesOver x (piecesOf r.len) r.base.toNat stop
      let s := ps.foldl (State.clearPage · x r.op stop) (s.readTables x (ps.map (fun p => BitVec.ofNat 64 p.1)))
      let r : RegionReg := (s.ctx x).regions[d]
      (s.setRegion x d { r with nf := false, sat := false }).acked id a
    else s
  | .word (.regapply _ d) _ _ _ 0 _ => (s.applyRegion x d).acked id a
  | _ => s

end Sys2Proof.Machine
end

