-- ==== Sys2Proof/Machine/Contexts.lean ====
section
/-! DEFINITION. Contexts (R325 to R330, R335, R337 to R340): the host's commands, draining, partition and device resets, soft
errors. -/
namespace Sys2Proof.Machine

/-! ### Descriptors (R326) -/

/-- A launch queue's descriptor entry keeps every limit. -/
def lqEntryOk (e : List Byte) : Bool :=
  if field e 0 8 = 0 then zeros e 8 24
  else field e 0 8 % 128 == 0 && decide (field e 8 1 ≤ 15) && field e 9 1 == 0 && field e 12 4 == 0 && field e 16 8 % 8 == 0
    && zeros e 24 8

def lqBytes (d : List Byte) (n : Nat) : List Byte := (d.drop (0x100 + 32 * n)).take 32

/-- The reserved cores fit on every die of the partition (R315). -/
def reservesOk (mask : Byte) (d : List Byte) : Bool :=
  let sum := (List.range 16).foldl (fun n k => n + field (lqBytes d k) 10 2) 0
  (List.range 4).all (fun die =>
    let n := 72 * (b2n (mask.getLsbD (2 * die)) + b2n (mask.getLsbD (2 * die + 1)))
    n == 0 || decide (sum ≤ n))

/-- The descriptor keeps every limit of R326. -/
def descOk (d : List Byte) (mask : Byte) : Bool :=
  let root := field d 8 8
  zeros d 1 7 && fld root 0 13 == 0 && fld root 52 12 == 0 && field d 0x20 8 % 64 == 0 && decide (4 ≤ field d 0x28 4)
    && decide (field d 0x28 4 ≤ 15) && field d 0x30 8 % 4 == 0 && field d 0x38 8 % saveBytes == 0 && zeros d 0x48 0xB8
    && (List.range 16).all (fun n => lqEntryOk (lqBytes d n)) && zeros d 0x300 0x100 && zeros d 0x800 0x800 && reservesOk mask d

/-- The descriptor's bytes at a physical address: a multiple of 4 KiB inside the HBM. -/
def State.readDesc (s : State) (pa : Nat) : Option (List Byte × State) :=
  if pa % 4096 = 0 ∧ pa + 4096 ≤ hbmEnd then some (s.homeRead pa 4096) else none

/-- A launch queue as its descriptor entry sets it up; its numbers go on. -/
def lqOf (q : LaunchQueue) (e : List Byte) : LaunchQueue :=
  { q with valid := field e 0 8 != 0, ringVA := BitVec.ofNat 64 (field e 0 8), log2n := BitVec.ofNat 4 (field e 8 1)
           res := BitVec.ofNat 10 (field e 10 2), doneVA := BitVec.ofNat 64 (field e 16 8) }

/-- A view entry in 24 bytes, with only its fields (R151). -/
def viewOf (b : List Byte) : View :=
  ⟨BitVec.ofNat 64 (field b 0 8 % 2 ^ 57), BitVec.ofNat 64 (field b 8 8 % 2 ^ 52),
    BitVec.ofNat 64 (field b 16 8 % 2 ^ 42 + fld (field b 16 8) 63 1 * 2 ^ 63)⟩

/-- The fields that SET rereads, PARTMASK excepted (R327). -/
def Ctx.withDesc (c : Ctx) (pa : Nat) (d v : List Byte) : Ctx :=
  { c with desc := pa, ptRoot := BitVec.ofNat 64 (field d 8 8), trapVec := BitVec.ofNat 32 (field d 0x10 4)
           mighyst := BitVec.ofNat 32 (field d 0x14 4), aging := BitVec.ofNat 32 (field d 0x18 4)
           preemptWait := BitVec.ofNat 32 (field d 0x1C 4), fqVA := BitVec.ofNat 64 (field d 0x20 8)
           fqLog2 := BitVec.ofNat 4 (field d 0x28 4), fqHead := BitVec.ofNat 32 (field d 0x2C 4)
           fqTailVA := BitVec.ofNat 64 (field d 0x30 8), savePA := field d 0x38 8, viewPA := field d 0x40 8
           views := Vector.ofFn (fun (i : Fin 64) => viewOf ((v.drop (24 * i.val)).take 24))
           lqs := Vector.ofFn (fun (i : Fin 16) => lqOf c.lqs[i] (lqBytes d i.val)) }

/-! ### Commands (R327, R328, R349) -/

inductive CmdStatus where
  | ok | badState | busy | badDesc
  deriving DecidableEq, Repr

def CmdStatus.code : CmdStatus → Nat
  | .ok => 0 | .badState => 1 | .busy => 2 | .badDesc => 3

/-- A command ends: STATUS, CTX and DONE. -/
def State.cmdDone (s : State) (x : Fin 64) (st : CmdStatus) : State :=
  { s with cmd := none, ctxRes := pack [(st.code, 0), (x.val, 8), (bits s.ctxRes 62 1, 62), (1, 63)] }

/-- The command `code` on context `ctx` runs, if it is the one in progress: `f` gives its status and effect. -/
def State.command (s : State) (code ctx : Nat) (f : Fin 64 → Nat → CmdStatus × State) : Host.Outcome State Fault Refusal :=
  match s.cmd with
  | some (k, x, pa) =>
    if k = code ∧ x.val = ctx then
      let (st, t) := f x pa
      .next ((if st = .ok then t else s).cmdDone x st)
    else .next s
  | none => .next s

/-- Another context of the partition is RUNNING or DRAINING (R325). -/
def State.partBusy (s : State) (x : Fin 64) : Bool :=
  (List.finRange 64).any (fun y => y != x && (s.ctx y).partMask == (s.ctx x).partMask
    && ((s.ctx y).state == .running || (s.ctx y).state == .draining))

/-- The PARTMASK overlaps a different partition (R324). -/
def State.partClash (s : State) (x : Fin 64) : Bool :=
  (List.finRange 64).any (fun y => y != x && (s.ctx y).state.isBound && (s.ctx y).partMask != (s.ctx x).partMask
    && ((s.ctx y).partMask &&& (s.ctx x).partMask) != 0)

/-- The descriptor at `pa` read into a context of PARTMASK `mask`, if it keeps every limit. -/
def State.loadDesc (s : State) (c : Ctx) (pa : Nat) (mask? : Option Byte) : Option (Ctx × State) :=
  match s.readDesc pa with
  | none => none
  | some (d, s) =>
    let mask := mask?.getD (BitVec.ofNat 8 (field d 0 1))
    if mask = 0 ∨ !descOk d mask then none
    else
      let (v, s) := s.homeRead (field d 0x40 8) (64 * 24)
      some (({ c with partMask := mask }).withDesc pa d v, s)

/-- CREATE: the descriptor read, everything else of the context at its reset; CTXPOD is the host's (R349). -/
def execCtxCreate (ctx : Nat) (s : State) : Host.Outcome State Fault Refusal :=
  s.command 1 ctx (fun x pa =>
    if (s.ctx x).state ≠ .free then (.badState, s)
    else match s.loadDesc { Ctx.reset with podCtx := (s.ctx x).podCtx, fqReread := s.pulse } pa none with
      | none => (.badDesc, s)
      | some (c, s) => (.ok, s.setCtx x { c with state := .created }))

def execCtxSet (ctx : Nat) (s : State) : Host.Outcome State Fault Refusal :=
  s.command 2 ctx (fun x pa =>
    let c := s.ctx x
    if c.state = .free ∨ c.state = .destroyed then (.badState, s)
    else match s.loadDesc c pa (some c.partMask) with
      | none => (.badDesc, s)
      | some (c, s) => (.ok, s.setCtx x c))

/-- The hive objects of a context are gone (R292, R328). -/
def Hive.without (h : Hive) (x : Fin 64) : Hive :=
  ⟨h.lists.map (fun (l : ListReg) => if l.ctx = x then ListReg.reset else l),
    h.tables.map (fun (t : DispTable) => if t.ctx = x then DispTable.reset else t)⟩

def State.dropHives (s : State) (x : Fin 64) : State :=
  ({ s with hives := s.hives.map (fun (h : Hive) => h.without x) }).setCtx x { s.ctx x with savedHives := [] }

/-- The context's hive objects are saved (R291). -/
def State.saveHives (s : State) (x : Fin 64) : State :=
  let own (h : Hive) : Hive :=
    ⟨h.lists.map (fun (l : ListReg) => if l.ctx = x then l else ListReg.reset),
      h.tables.map (fun (t : DispTable) => if t.ctx = x then t else DispTable.reset)⟩
  let hs := (List.finRange 144).map (fun k => (k.val, own (s.hive k)))
  ({ s with hives := s.hives.map (fun (h : Hive) => h.without x) }).setCtx x
    { s.ctx x with savedHives := hs.filter (fun p => p.2 != Hive.reset) }

/-- The objects of `saved` in the places they had. -/
def Hive.withSaved (h saved : Hive) : Hive :=
  ⟨Vector.ofFn (fun (i : Fin 16) => if (saved.lists[i]).state = .undefined then h.lists[i] else saved.lists[i]),
    Vector.ofFn (fun (i : Fin 4) => if (saved.tables[i]).valid then saved.tables[i] else h.tables[i])⟩

def State.restoreHives (s : State) (x : Fin 64) : State :=
  let hs := (s.ctx x).savedHives
  let s := hs.foldl (fun s p => s.setHive (Fin.ofNat 144 p.1) ((s.hive (Fin.ofNat 144 p.1)).withSaved p.2)) s
  s.setCtx x { s.ctx x with savedHives := [] }

/-- BIND: the partition's cap and mode take effect (R382). -/
def execCtxBind (ctx : Nat) (s : State) : Host.Outcome State Fault Refusal :=
  s.command 3 ctx (fun x _ =>
    if (s.ctx x).state ≠ .created then (.badState, s)
    else if s.partClash x then (.busy, s)
    else
      let k := partNo (s.ctx x).partMask
      let p := s.parts[k]
      let s := s.dropHives x
      let s := s.setCtx x { s.ctx x with state := .bound }
      (.ok, { s with parts := s.parts.set k { p with cap := p.nextCap, forecast := p.nextFc } }))

def execCtxStart (ctx : Nat) (s : State) : Host.Outcome State Fault Refusal :=
  s.command 4 ctx (fun x _ =>
    if (s.ctx x).state ≠ .bound then (.badState, s)
    else if s.partBusy x then (.busy, s)
    else
      let s := s.restoreHives x
      (.ok, s.setCtx x { s.ctx x with state := .running }))

/-- SUSPEND begins the suspension steps of R329. -/
def execCtxSuspend (ctx : Nat) (s : State) : Host.Outcome State Fault Refusal :=
  s.command 5 ctx (fun x _ =>
    if (s.ctx x).state ≠ .running then (.badState, s)
    else (.ok, (s.setCtx x { s.ctx x with state := .draining, drain := some ⟨true, s.pulse⟩ }).stopCores x .suspend))

/-- RESUME restores every core saved at the suspension; tasks pre-empted by force wait for a grant. Tasks of a kernel aborted
meanwhile are discarded (R310). -/
def execCtxResume (ctx : Nat) (s : State) : Host.Outcome State Fault Refusal :=
  s.command 6 ctx (fun x _ =>
    if (s.ctx x).state ≠ .suspended then (.badState, s)
    else if s.partBusy x then (.busy, s)
    else
      let s := s.restoreHives x
      let s := s.setCtx x { s.ctx x with state := .running }
      let cores := partCores (s.ctx x).partMask
      let dead (v : Saved) : Bool := (s.ctx x).kernels.any (fun k => k.aborted && v.core.taskOf x k (fun _ => true))
      let gone := (s.ctx x).saved.filter dead
      let s := gone.foldl State.leaveSaved s
      let s := s.setCtx x { s.ctx x with saved := (s.ctx x).saved.filter (fun v => !dead v) }
      let here := (s.ctx x).saved.filter (fun v => v.slot < cores.length)
      (.ok, here.foldl (fun s v => s.restore x v (cores.getD v.slot 0)) s))

/-- FAULT: a RUNNING context drains, a suspending one's outcome becomes FAULTED. -/
def execCtxFault (ctx : Nat) (s : State) : Host.Outcome State Fault Refusal :=
  s.command 7 ctx (fun x _ =>
    let c := s.ctx x
    let suspending : Bool := match c.drain with | some d => d.suspend | none => false
    if c.state = .running ∨ (c.state = .draining ∧ suspending) then (.ok, s.faultCtx x) else (.badState, s))

/-- Every entry of a launch queue is completed in order, without running (R330). -/
def State.emptyQueue (s : State) (x : Fin 64) (k : Fin 16) : State :=
  (s.lq x k).entries.foldl (fun s e => s.finishEntry x k e.no true (e.state == .running)) s

def execCtxRecover (ctx : Nat) (s : State) : Host.Outcome State Fault Refusal :=
  s.command 8 ctx (fun x _ =>
    if (s.ctx x).state ≠ .faulted then (.badState, s)
    else
      let s := (s.ctx x).saved.foldl State.leaveSaved s
      let s := s.setCtx x { s.ctx x with saved := [], kernels := [], drain := none }
      let s := (List.finRange 16).foldl (fun s k => s.emptyQueue x k) s
      (.ok, s.setCtx x { s.ctx x with state := .bound }))

def execCtxDestroy (ctx : Nat) (s : State) : Host.Outcome State Fault Refusal :=
  s.command 9 ctx (fun x _ =>
    let c := s.ctx x
    if c.state = .created ∨ c.state = .bound ∨ c.state = .suspended ∨ c.state = .faulted then
      let s := s.applyBins (fun b => b.ctx == x)
      let s := c.saved.foldl State.leaveSaved s
      let s := s.dropHives x
      let s := { s with props := s.props.filter (fun p => p.ctx != x) }
      (.ok, s.setCtx x { s.ctx x with state := .destroyed })
    else (.badState, s))

/-- RESETPART starts the reset of the context's partition; the command ends when the reset does. -/
def execCtxResetPart (ctx : Nat) (s : State) : Host.Outcome State Fault Refusal :=
  match s.cmd with
  | some (10, x, _) =>
    let c := s.ctx x
    let part := (partNo c.partMask).val
    if x.val ≠ ctx then .next s
    else if c.state = .bound ∨ c.state = .running ∨ c.state = .draining ∨ c.state = .suspended then
      if s.partReset.any (fun p => p.1 == part) then .next s
      else .next { s with partReset := s.partReset ++ [(part, s.pulse)] }
    else .next (s.cmdDone x .badState)
  | _ => .next s

/-! ### Draining (R329) -/

/-- 200 µs and 2 ms in pulses. -/
def stopLimit : Nat := 200 * pulsesPerUs
def resetLimit : Nat := 2000 * pulsesPerUs

/-- The cores that hold a task of a context. -/
def State.tasksOf (s : State) (x : Fin 64) : List Core := s.cores.filter (fun c => c.task.isSome && c.ctxId == x)

/-- Steps 1 to 3 of R329 are done: the cores stand, the sweeps have ended, and every pair that has left a core has been performed
(R316, R332). -/
def State.drainOver (s : State) (x : Fin 64) : Bool :=
  (s.ctx x).state == .draining && (s.tasksOf x).all s.quiet && s.sweeps.all (fun w => w.ctx != x)
    && s.flight.all (fun f => f.pair.ctx != x)

/-- A watchdog of the context has fired. -/
def State.watchdogFired (s : State) (x : Fin 64) : Bool :=
  (s.tasksOf x).any (fun c => match c.task with | some t => t.fired | none => false)

/-- TRAPCAUSE's image in a dump: PREEMPT; after a trap that faulted the context, with no watchdog fired, its core keeps its own
(R333, R337). -/
def State.dumpCause (s : State) (x : Fin 64) (c : Core) : Option Nat :=
  if c.stop = some .dead ∧ !s.watchdogFired x then none else some 0x0F

/-- Every core of the context is saved to the slot of its place in the partition. -/
def State.saveAll (s : State) (x : Fin 64) (dump : Bool) : State :=
  let cores := partCores (s.ctx x).partMask
  let causes := (s.tasksOf x).map (fun c => (c.id, if dump then s.dumpCause x c else none))
  causes.foldl (fun s p => s.saveCore x p.1 (cores.idxOf p.1) p.2) s

/-- A drain is complete: SUSPENDED, or FAULTED with its RUNNING entries ended and its barriers broken. -/
def execDrainComplete (ctx : Nat) (s : State) : Host.Outcome State Fault Refusal :=
  let x : Fin 64 := Fin.ofNat 64 ctx
  match (s.ctx x).drain with
  | some d =>
    if !s.drainOver x then .next s
    else if d.suspend then
      let s := s.mergeWindow (fun p => p.ctx == x)
      let s := s.applyBins (fun b => b.ctx == x)
      let s := (s.saveAll x false).saveHives x
      .next (s.setCtx x { s.ctx x with state := .suspended, drain := none })
    else
      let s := s.breakCtx x 1
      let s := (s.saveAll x true).saveHives x
      let s := (s.ctx x).kernels.foldl (fun s k => s.finishEntry x k.lq k.no true true) s
      .next (s.setCtx x { s.ctx x with state := .faulted, drain := none })
  | none => .next s

/-- The stop request is 200 µs old and a core has not stopped. -/
def State.drainLate (s : State) (x : Fin 64) : Bool :=
  (s.ctx x).state == .draining && (match (s.ctx x).drain with
    | some d => decide (d.since + stopLimit ≤ s.pulse)
    | none => false) && !(s.tasksOf x).all Core.stopped && s.partReset.all (fun p => p.1 != (partNo (s.ctx x).partMask).val)

/-- A handler still running at the 200 µs mark is stopped and turns a suspension into a fault; a core that cannot stop then
brings a partition reset (R328, R329, R337). -/
def execDrainTimeout (ctx : Nat) (s : State) : Host.Outcome State Fault Refusal :=
  let x : Fin 64 := Fin.ofNat 64 ctx
  if !s.drainLate x then .next s
  else
    let running := (s.tasksOf x).filter (fun c => c.inHandler)
    let s := running.foldl (fun s c => s.setCore { c.halt (s.cycle c) .fault with inHandler := false, waitingStop := none }) s
    let s := match (s.ctx x).drain with
      | some d => if running.isEmpty then s else s.setCtx x { s.ctx x with drain := some { d with suspend := false } }
      | none => s
    if (s.tasksOf x).all Core.stopped then .next s
    else .next { s with partReset := s.partReset ++ [((partNo (s.ctx x).partMask).val, s.pulse)] }

/-! ### Scrubbing (R328, R390) -/

/-- Memory cells of a range set to 0. -/
def Memory.zero (m : Memory) (a n : Nat) : Memory :=
  if m.epoch = 0 ∧ a + n ≤ 2 ^ 52 then { m with cells := m.cells.filter (fun p => p.1 < a || a + n ≤ p.1) } else m.writeBytes a (List.replicate n 0)

/-- A core's reset: CYCLE counts from 0 again. -/
def State.resetCore (s : State) (id : Nat) : State := s.setCore { Core.reset id with born := s.clock id }

/-- The scrub is complete: the partition's cores that run no task and the save area are zero, and the id is free. -/
def execScrubComplete (ctx : Nat) (s : State) : Host.Outcome State Fault Refusal :=
  let x : Fin 64 := Fin.ofNat 64 ctx
  let c := s.ctx x
  if c.state ≠ .destroyed then .next s
  else
    let cores := partCores c.partMask
    let n := 2 * cores.length * saveBytes
    let s := s.applyOver c.savePA n
    let s := cores.foldl (fun s id => if (s.core id).task.isNone then s.resetCore id else s) s
    let s := { s with mem := s.mem.zero c.savePA n, poisoned := unpoison s.poisoned c.savePA n }
    .next (s.setCtx x { Ctx.reset with podCtx := c.podCtx })

/-! ### Resets (R338, R339, R390) -/

/-- The contexts bound to the partition numbered `part`. -/
def State.boundTo (s : State) (part : Nat) : List (Fin 64) :=
  (List.finRange 64).filter (fun x => (s.ctx x).state.isBound && (partNo (s.ctx x).partMask).val == part)

/-- `n` discarded pairs counted in a region's DROPS (R339). -/
def State.countDrops (s : State) (x : Fin 64) (r : Region) (n : Nat) : State :=
  let e : RegionReg := (s.ctx x).regions[r]
  s.setRegion x r { e with drops := satInc e.drops n }

/-- Bins, window pairs and pairs on their way of some contexts are discarded. -/
def State.discardPairs (s : State) (own : Fin 64 → Bool) : State :=
  let s := (s.bins.filter (fun b => own b.ctx)).foldl (fun s b => s.countDrops b.ctx b.reg b.pairs) s
  let s := (s.window.filter (fun p => own p.ctx)).foldl (fun s p => s.countDrops p.ctx p.reg 1) s
  let s := (s.flight.filter (fun f => own f.pair.ctx)).foldl (fun s f => s.countDrops f.pair.ctx f.pair.reg 1) s
  { s with bins := s.bins.filter (fun b => !own b.ctx), window := s.window.filter (fun p => !own p.ctx)
           flight := s.flight.filter (fun f => !own f.pair.ctx) }

/-- Every instance of a context breaks for the tasks it has saved; its cores have lost their views. -/
def State.breakSaved (s : State) (x : Fin 64) : State :=
  let is := s.barInsts.filter (·.ctx == x)
  let s := is.foldl (fun s i => s.mapViews i (fun (v : BarView) => { v with state := .broken, breason := 1 })) s
  let s := { s with barInsts := s.barInsts.map (fun (i : BarInst) =>
    if i.ctx = x then { i with break_ := none, parts := (i.parts.filter (fun (p : BarPart) => 576 ≤ p.key)).map BarPart.gone } else i) }
  let s := { s with barInsts := s.barInsts.filter (fun (i : BarInst) => i.ctx != x || !i.parts.isEmpty) }
  (s.barInsts.filter (·.ctx == x)).foldl (fun s (i : BarInst) => s.splitInst i.parts.length i.no) s

/-- A KIND 5 record (R332). -/
def resetRec (x : Fin 64) : Rec :=
  { ctx := x, kind := 5, code := 0, core := 0x3FF, eng := 0, handled := false, stage := 0, lq := 0, info := 0, pc := 0, lqseq := 0
    payload := [] }

/-- Every write of some contexts that is still spreading arrives: the units keep their factors through a reset of their cores (R221,
R330). -/
def State.arriveAll (s : State) (own : Fin 64 → Bool) : State :=
  (s.props.filter (fun p => own p.ctx)).foldl (fun s p => s.arrive p.no (fun _ => true)) s

/-- A partition reset completes (R339). -/
def execPartitionReset (part : Nat) (s : State) : Host.Outcome State Fault Refusal :=
  if s.partReset.all (fun p => p.1 != part) then .next s
  else
    let xs := s.boundTo part
    let mask : Byte := xs.foldl (fun m x => m ||| (s.ctx x).partMask) 0
    let own (x : Fin 64) : Bool := xs.contains x
    let s := (partCores mask).foldl State.resetCore (s.arriveAll own)
    let s := { s with hives := Vector.ofFn (fun (h : Fin 144) => if inPart mask (4 * h.val) then Hive.reset else s.hives[h]) }
    let s := s.discardPairs own
    let s := xs.foldl State.breakSaved s
    let s := { s with ringMsgs := s.ringMsgs.filter (fun m => match m with | .ask c _ | .credit c _ _ => !inPart mask c)
                      pageReqs := s.pageReqs.filter (fun r => !own r.ctx), sweeps := s.sweeps.filter (fun w => !own w.ctx)
                      partReset := s.partReset.filter (fun p => p.1 != part) }
    let s := xs.foldl (fun s x => s.setCtx x { s.ctx x with state := .faulted, drain := none, kernels := [] }) s
    let s := xs.foldl (fun s x => s.postRec (resetRec x)) s
    let s := (s.bump .partResets 1).signal 64
    .next (match s.cmd with
      | some (10, x, _) => if own x then s.cmdDone x .ok else s
      | _ => s)

/-- The image is signed with the key whose hash is fused (R391). -/
def State.verifies (s : State) (i : FwImage) : Bool := Config.sha256 i.key == s.fuseKey && Config.rsaVerify i.key i.digest i.sig

/-- The image in slot `k` may boot: it verifies and its version is not below the fused one (R391). -/
def State.bootable (s : State) (k : Fin 2) : Bool :=
  match s.fwSlots[k] with
  | some i => s.verifies i && decide (s.fuseVersion.toNat ≤ i.version.toNat)
  | none => false

/-- The slot the root of trust boots: the active one, else the other, else none. -/
def State.bootFrom (s : State) (active : Fin 2) : Option (Fin 2) :=
  if s.bootable active then some active else if s.bootable (1 - active) then some (1 - active) else none

/-- The device answers its host (R391). -/
def State.booted (s : State) : Bool := s.powered && s.bootSlot.isSome

/-- The RAM copy of the telemetry is written to flash (R386). -/
def State.flush (s : State) : State := { s with flashTele := s.telemetry }

/-- What a reset leaves: flash, the fuses, and what the outside has seen and will still do; pulses count from 0 again. `tele` is
the RAM copy of the telemetry, `active` the slot tried first. A slot that fails is a firmware fault, vector 64 (R387). -/
def State.fresh (s : State) (tele : List (TeleKey × W64)) (active : Fin 2) : State :=
  let boot := s.bootFrom active
  let t := { State.reset with free := s.free, inputs := s.inputs.map (fun (p : Nat × Instr) => (p.1 - s.pulse, p.2)), turn := s.turn
                              mem := { epoch := s.mem.epoch + 1, cells := [] }, telemetry := tele, flashTele := s.flashTele
                              fwSlots := s.fwSlots, fwActive := boot.getD active, fuseVersion := s.fuseVersion, fuseKey := s.fuseKey
                              bootSlot := boot
                              msixSent := s.msixSent, hostReply := s.hostReply, peerReply := s.peerReply, reports := s.reports
                              mgmtReply := s.mgmtReply }
  if boot = some active then t else t.signal 64

/-- One hour in pulses (R385). -/
def hourPulses : Nat := 3600000000 * pulsesPerUs

/-- A device reset (R390): a staged image becomes active if it verifies; DTIME runs on, free-running (DEDUCED, log 48), and so does the
hour. -/
def State.deviceReset (s : State) : State :=
  let s := (s.bump .devResets 1).flush
  let active := if s.fwStaged && (match s.fwSlots[1 - s.fwActive] with | some i => s.verifies i | none => false)
    then 1 - s.fwActive else s.fwActive
  { s.fresh s.telemetry active with dtime9 := s.dtime9, hourPart := (s.hourPart + s.pulse) % hourPulses }

/-- A partition reset has not completed in 2 ms. -/
def execResetEscalation (part : Nat) (s : State) : Host.Outcome State Fault Refusal :=
  if s.partReset.any (fun p => p.1 == part && decide (p.2 + resetLimit < s.pulse)) then .next s.deviceReset else .next s

/-! ### The fault queue's head (R332) -/

/-- 10 µs in pulses. -/
def rereadLimit : Nat := 10 * pulsesPerUs

def execFqheadReread (ctx : Nat) (s : State) : Host.Outcome State Fault Refusal :=
  let x : Fin 64 := Fin.ofNat 64 ctx
  if (s.ctx x).state = .free ∨ (s.ctx x).state = .destroyed then .next s else .next (s.rereadHead x)

/-! ### Soft errors (R340) -/

/-- An uncorrectable error is met. A word that reads the operand traps precisely where it has not issued yet; what no word
takes faults the context, or resets the partition. -/
def execUncorrectableError (at_ : EccPlace) (s : State) : Host.Outcome State Fault Refusal :=
  match at_ with
  | .word core q struct addr =>
    let s := s.bump (.uncorrectable struct.val (core / 144)) 1
    let c := s.core core
    let s := if struct = 3 then { s with poisoned := if s.poisoned.contains (addr / 64) then s.poisoned else s.poisoned ++ [addr / 64] } else s
    match (if q = .c then c.streamingWord else none) with
    -- a running `mma` or `mmas` stops before the row (R250)
    | some (a, k, row) =>
      let info := eccInfo struct.val (if struct = 1 then row.toNat else addr)
      .next (s.setCore (c.trapAct a .eccUncorrectable info (some k)))
    | none => if c.issuing q then .next (s.setCore (c.raise q .eccUncorrectable (c.nextPc q) (eccInfo struct.val addr))) else .next s
  | .deviceRead ctx core struct addr =>
    let s := s.bump (.uncorrectable struct.val 0) 1
    let s := if struct = 3 then { s with poisoned := if s.poisoned.contains (addr / 64) then s.poisoned else s.poisoned ++ [addr / 64] } else s
    .next (s.eccFault (Fin.ofNat 64 ctx) core (eccInfo struct.val addr))
  | .saved ctx struct addr =>
    .next ((s.bump (.uncorrectable struct.val 0) 1).eccFault (Fin.ofNat 64 ctx) none (eccInfo struct.val addr))
  | .shared part =>
    let s := s.bump (.uncorrectable 1 0) 1
    if (s.boundTo part).isEmpty || s.partReset.any (fun p => p.1 == part) then .next s
    else .next { s with partReset := s.partReset ++ [(part, s.pulse)] }

end Sys2Proof.Machine
end

