-- ==== Sys2Proof/Machine/Hives.lean ====
section
/-! DEFINITION. Work lists and dispatch tables (R291 to R303). -/
namespace Sys2Proof.Machine

/-! ### Lists -/

def State.list (s : State) (h : Fin 144) (k : WList) : ListReg := (s.hive h).lists[k]

def State.setList (s : State) (h : Fin 144) (k : WList) (l : ListReg) : State :=
  s.setHive h { s.hive h with lists := (s.hive h).lists.set k l }

/-- Entries that the hive router holds on chip (R293). -/
def onChip : Nat := 4096

def ListReg.spill (l : ListReg) : Nat := if l.log2spill = 0 then 0 else 2 ^ l.log2spill.toNat

/-- The bytes of the bitmap's range (R295). -/
def bitmapBytes (domain : Nat) : Nat := (domain + 511) / 512 * 64

/-- `n` entries counted in DROPS, which saturates (R304). -/
def ListReg.drop (l : ListReg) (n : Nat) : ListReg := { l with drops := BitVec.ofNat 24 (min (l.drops.toNat + n) (2 ^ 24 - 1)) }

/-- The first address of a range whose page fails the checks of R295. -/
def State.badPage (s : State) (x : Fin 64) (va : W64) (n : Nat) : Option Nat :=
  ((s.pagesOver x (piecesOf n) va.toNat (va.toNat + n)).find? (fun p => match p.2 with | some l => !l.plain | none => true)).map (·.1)

/-- The spill or bitmap pages of a definition: the first that fails. -/
def State.badListPage (s : State) (x : Fin 64) (spillVA bitmapVA : W64) (domain log2spill : Nat) : Option Nat :=
  match (if log2spill = 0 then none else s.badPage x spillVA (8 * 2 ^ log2spill)) with
  | some a => some a
  | none => if domain = 0 then none else s.badPage x bitmapVA (bitmapBytes domain)

/-- The page-table entries that a check of these pages reads (R208). -/
def State.readLists (s : State) (x : Fin 64) (spillVA bitmapVA : W64) (domain log2spill : Nat) : State :=
  let s := if log2spill = 0 then s else s.readPages x spillVA.toNat (8 * 2 ^ log2spill)
  if domain = 0 then s else s.readPages x bitmapVA.toNat (bitmapBytes domain)

def State.readList (s : State) (l : ListReg) : State := s.readLists l.ctx l.spillVA l.bitmapVA l.domain.toNat l.log2spill.toNat

def State.listFails (s : State) (l : ListReg) : Bool :=
  (s.badListPage l.ctx l.spillVA l.bitmapVA l.domain.toNat l.log2spill.toNat).isSome

/-- A list becomes FAULTED (R292): the entries in the spill region are lost. A list of no more entries than the chip holds has none
there (DEDUCED, log 43); which entries of a longer one are on chip is the router's choice (log 3). -/
def State.faultList (s : State) (h : Fin 144) (k : WList) : State :=
  let (a, s) := s.draw
  let (b, s) := s.draw
  let l := s.list h k
  let n := l.entries.length
  let hold := if n ≤ onChip then n else Config.pick a % (onChip + 1)
  let front := if n ≤ onChip then n else Config.pick b % (hold + 1)
  let kept := l.entries.take front ++ l.entries.drop (n - (hold - front))
  let s := s.setList h k ({ l with state := .faulted, entries := kept }.drop (n - kept.length))
  s.postEvent l.ctx 0x07 (pack [(h.val % 36, 0), (k.val, 8)])

/-- The router translates the list's pages again and one fails. -/
def execWorkListFaulted (hive : Nat) (list : WList) (s : State) : Host.Outcome State Fault Refusal :=
  let h : Fin 144 := Fin.ofNat 144 hive
  let s := s.readList (s.list h list)
  let l := s.list h list
  if l.state = .ready ∧ s.listFails l then .next (s.faultList h list) else .next s

/-- One element appended at the tail, or dropped (R292, R293). -/
def ListReg.push (l : ListReg) (x : W64) : ListReg :=
  if onChip + l.spill ≤ l.entries.length then { l with ovf := true }.drop 1
  else if l.state = .faulted ∧ onChip ≤ l.entries.length then l.drop 1
  else { l with entries := l.entries ++ [x] }

/-- A list that needs its spill region for one more entry and cannot use it becomes FAULTED. -/
def State.trySpill (s : State) (h : Fin 144) (k : WList) : State :=
  let l := s.list h k
  if l.state = .ready ∧ onChip ≤ l.entries.length then
    let s := s.readList l
    if s.listFails l then s.faultList h k else s
  else s

/-- `wlpush` of one element. -/
def State.pushOne (s : State) (h : Fin 144) (k : WList) (x : W64) : State :=
  let s := s.trySpill h k
  s.setList h k ((s.list h k).push x)

/-- An element that `wlins` has found new is appended; a FAULTED list drops it (R292). -/
def State.appendNew (s : State) (h : Fin 144) (k : WList) (x : W64) : State :=
  let s := s.trySpill h k
  let l := s.list h k
  s.setList h k (if l.state = .faulted then l.drop 1 else l.push x)

/-- Bit `k` of the bitmap byte at a key tested and set; whether it was 0. -/
def State.setMember (s : State) (key k : Nat) : Bool × State :=
  let (b, s) := s.homeNat key 1
  (!bitSet b (k % 8), s.homeWrite key [BitVec.ofNat 8 (b ||| 2 ^ (k % 8))])

/-- `wlins` of one element (R297). -/
def State.insertOne (s : State) (h : Fin 144) (k : WList) (x : W64) : State :=
  let l := s.list h k
  let key := bits x 0 24
  if l.state = .faulted then s.setList h k (l.drop 1)
  else if l.domain.toNat ≤ key then s.setList h k (l.drop 1)
  else
    let va := l.bitmapVA + BitVec.ofNat 64 (key / 8)
    let s := s.readTables l.ctx [va]
    match s.walk l.ctx va with
    | some lf =>
      if lf.plain then
        let (new, s) := s.setMember (lf.byteKey s.pkg va.toNat) key
        if new then s.appendNew h k x else s
      else
        let s := s.faultList h k
        s.setList h k ((s.list h k).drop 1)
    | none =>
      let s := s.faultList h k
      s.setList h k ((s.list h k).drop 1)

/-- A `wldef` or `wlreset` of the list is in progress on a core of the hive: the router holds every other action (R295). -/
def State.listHeld (s : State) (h : Fin 144) (k : WList) : Bool :=
  s.cores.any (fun c => hiveOf c.id == h && c.acts.any (fun a => match a.body with
    | .word (.wldef _ d _ _ _) _ _ _ _ _ | .word (.wlreset _ d) _ _ _ _ _ => d == k
    | _ => false))

/-- The router has taken up a `wldef` or `wlreset` of the list that is not complete: another one is held too (R295, R296). -/
def State.defining (s : State) (h : Fin 144) (k : WList) : Bool :=
  s.cores.any (fun c => hiveOf c.id == h && c.acts.any (fun a => match a.body with
    | .word (.wldef _ d _ _ _) _ _ _ 1 _ | .word (.wlreset _ d) _ _ _ 1 _ => d == k
    | _ => false))

/-- The page of an address is being migrated. -/
def State.vaLocked (s : State) (x : Fin 64) (va : W64) : Bool :=
  match s.walk x va with
  | some l => (s.lockOn l).isSome
  | none => false

/-- A page of `n` bytes from an address is being migrated. -/
def State.rangeLocked (s : State) (x : Fin 64) (va : W64) (n : Nat) : Bool :=
  (s.pagesOver x (piecesOf n) va.toNat (va.toNat + n)).any (fun p => match p.2 with
    | some l => (s.lockOn l).isSome
    | none => false)

/-! ### wldef and wlreset (R295, R296) -/

/-- A definition issues: its pages are checked, and X waits. `v` is the spill VA, gB and the bitmap VA. -/
def State.listGo (s : State) (c : Core) (i : Instr) (sp cfg bm : W64) : Judged :=
  let s := s.readLists c.ctxId sp bm (bits cfg 7 25) (bits cfg 32 5)
  match s.badListPage c.ctxId sp bm (bits cfg 7 25) (bits cfg 32 5) with
  | some va => .trapIn s .permission (checkInfo 0xB (2 * va))
  | none => .go s { lat := none, fixed := false, holds := some .time, body := .word i [sp, cfg, bm] [] 0 0 0 }

def execWldef (h : Hdr) (d : WList) (a b c : GReg) (s : State) : Host.Outcome State Fault Refusal :=
  s.issue h 0x75 (fun co =>
    let sp := co.rd h.eng a
    let cfg := co.rd h.eng b
    let bm := co.rd h.eng c
    let dom := bits cfg 7 25
    let l2 := bits cfg 32 5
    if bits cfg 2 5 ≠ 0 ∨ bits cfg 37 27 ≠ 0 ∨ 2 ^ 24 < dom ∨ (l2 ≠ 0 ∧ (l2 < 10 ∨ 28 < l2)) ∨ sp.toNat % 2 ^ 16 ≠ 0
        ∨ bm.toNat % 64 ≠ 0 ∨ (l2 = 0 ∧ sp ≠ 0) ∨ (dom = 0 ∧ bm ≠ 0) ∨ !canonicalVA sp ∨ !canonicalVA bm then .illegal 0x0D
    else s.listGo co (.wldef h d a b c) sp cfg bm)

/-- gB of a list's definition. -/
def ListReg.cfg (l : ListReg) : W64 := pack [(l.owner.toNat, 0), (l.domain.toNat, 7), (l.log2spill.toNat, 32)]

def execWlreset (h : Hdr) (d : WList) (s : State) : Host.Outcome State Fault Refusal :=
  s.issue h 0x76 (fun c =>
    let l := s.listFor (hiveOf c.id) c.ctxId d
    if l.state = .undefined then .illegal 0x0D else s.listGo c (.wlreset h d) l.spillVA l.cfg l.bitmapVA)

/-- The bitmap's bytes zeroed at their homes. -/
def State.zeroBitmap (s : State) (x : Fin 64) (va : W64) (n : Nat) : State :=
  match s.vaKeys x Leaf.plain (piecesOf n) va n with
  | some ks => ks.foldl (fun s k => s.homeWrite k.1 (List.replicate k.2 0)) s
  | none => s

/-- The list that a definition makes. -/
def listOf (x : Fin 64) (sp cfg bm : W64) : ListReg :=
  { state := .ready, ctx := x, owner := BitVec.ofNat 2 (bits cfg 0 2), domain := BitVec.ofNat 25 (bits cfg 7 25)
    log2spill := BitVec.ofNat 5 (bits cfg 32 5), spillVA := sp, bitmapVA := bm, entries := [], ovf := false, drops := 0 }

/-- One cycle of a definition: the router takes it, and it completes once all four cores hold it (log 3). A `wlreset` keeps the
definition that stands then (R296). -/
def State.runWldef (s : State) (id : Nat) (a : Act) : State :=
  let c := s.core id
  let h := hiveOf id
  let define (i : Instr) (d : WList) (l : ListReg) : State :=
    let (n, s) := s.draw
    let len := bitmapBytes l.domain.toNat
    if Config.pick n % 2 = 0 ∨ s.defining h d ∨ s.rangeLocked c.ctxId l.bitmapVA len then s
    else
      let s := ((s.readPages c.ctxId l.bitmapVA.toNat len).zeroBitmap c.ctxId l.bitmapVA len).setList h d l
      let (n, s) := s.draw
      s.setCore ((s.core id).setAct { a with body := .word i [] [] 0 1 0, due := some (s.cycle c + Config.delay n) })
  match a.body with
  | .word (.wldef hd d ra rb rc) [sp, cfg, bm] _ _ 0 _ => define (.wldef hd d ra rb rc) d (listOf c.ctxId sp cfg bm)
  | .word (.wlreset hd d) _ _ _ 0 _ =>
    let l := s.list h d
    define (.wlreset hd d) d (listOf c.ctxId l.spillVA l.cfg l.bitmapVA)
  | _ => s

/-! ### wlpush and wlins (R297, R298, R300) -/

/-- The CMASK and REACH of scope entry 2, as a word captures them. -/
def Core.entry2 (c : Core) : List W64 :=
  [BitVec.ofNat 64 (c.scopes[2]).cmask.toNat, BitVec.ofNat 64 (c.scopes[2]).reach.toNat]

/-- The elements still to be sent are captured with their group indices, index × 2^64 + value. -/
def State.pushWord (s : State) (h : Hdr) (opc : Nat) (d : WList) (b : TReg) (gl : Fin 6) (pm : Pm) (i : Instr) (ins : Bool) :
    Host.Outcome State Fault Refusal :=
  s.issue h opc (fun c =>
    let p := c.shape h.eng
    let g := gl.val + 1
    let n := p.elems
    let l := s.listFor (hiveOf c.id) c.ctxId d
    if !p.fits 16 then .illegal 0x0C
    else if l.state = .undefined ∨ (ins ∧ l.domain = 0) then .illegal 0x0D
    else
      let vals := (c.group b g n 16).zipIdx.map (fun q => q.2 * 2 ^ 64 + q.1)
      let els := (pmActive (c.actives pm 16 g n) vals).filter (fun e => c.progress h.eng opc ≤ e / 2 ^ 64)
      .go s { lat := none, fixed := false, holds := some .structural
              body := .word i c.entry2 (els ++ [g * n * 2 ^ 64]) 0 0 (c.progress h.eng opc) })

def execWlpush (h : Hdr) (d : WList) (b : TReg) (gl : Fin 6) (pm : Pm) (s : State) : Host.Outcome State Fault Refusal :=
  s.pushWord h 0x68 d b gl pm (.wlpush h d b gl pm) false

def execWlins (h : Hdr) (d : WList) (b : TReg) (gl : Fin 6) (pm : Pm) (s : State) : Host.Outcome State Fault Refusal :=
  s.pushWord h 0x69 d b gl pm (.wlins h d b gl pm) true

/-- The router applies up to `n` elements of those left; the last one of `els` ends them. -/
def State.sendElems (s : State) (h : Fin 144) (k : WList) (ins : Bool) : Nat → List Nat → State × List Nat
  | 0, els => (s, els)
  | _, [] => (s, [])
  | _, [e] => (s, [e])
  | n + 1, e :: t =>
    let x := BitVec.ofNat 64 e
    let l := s.list h k
    if ins ∧ s.vaLocked l.ctx (l.bitmapVA + BitVec.ofNat 64 (bits x 0 24 / 8)) then (s, e :: t)
    else (if ins then s.insertOne h k x else s.pushOne h k x).sendElems h k ins n t

/-- One cycle of a `wlpush` or `wlins`: as many elements as the router takes (log 3), once the release is met. -/
def State.runPush (s : State) (id : Nat) (a : Act) : State :=
  let c := s.core id
  let h := hiveOf id
  let send (i : Instr) (k : WList) (ins : Bool) (v : List W64) (els : List Nat) : State :=
    match v with
    | [cm, re] =>
      if s.listHeld h k ∨ !s.releaseMet c a.seq a.id (BitVec.ofNat 16 cm.toNat) (BitVec.ofNat 3 re.toNat) then s
      else
        let (n, s) := s.draw
        let (s, els) := s.sendElems h k ins (Config.pick n % (els.length + 1)) els
        let due := match els with | [_] => some (s.cycle c) | _ => none
        s.setCore ((s.core id).setAct { a with body := .word i v els 0 0 ((els.headD 0) / 2 ^ 64), due := due })
    | _ => s
  if a.due.isSome then s
  else match a.body with
  | .word (.wlpush hd d b gl pm) v els _ _ _ => send (.wlpush hd d b gl pm) d false v els
  | .word (.wlins hd d b gl pm) v els _ _ _ => send (.wlins hd d b gl pm) d true v els
  | _ => s

/-! ### wlpop and wlsteal (R299, R300)

A `wlpop` or `wlsteal` issues once every earlier release of L has been made: it is an acquire (R187; log 9). -/

def execWlpop (h : Hdr) (d : GReg) (a : WList) (b : GReg) (c : TReg) (gl : Fin 6) (s : State) :
    Host.Outcome State Fault Refusal :=
  s.issue h 0x68 (fun co =>
    let p := co.shape h.eng
    let l := s.listFor (hiveOf co.id) co.ctxId a
    if !s.releasesDone co h.eng co.nextAct then .wait .structural
    else if !p.fits 16 then .illegal 0x0C
    else if l.state = .undefined ∨ l.owner.toNat ≠ co.id % 4 then .illegal 0x0D
    else
      let n := min (co.rd h.eng b).toNat ((gl.val + 1) * p.elems)
      .go s { lat := none, fixed := false
              body := .word (.wlpop h d a b c gl) [BitVec.ofNat 64 (co.scopes[2]).cmask.toNat, BitVec.ofNat 64 n] [] (co.seq h.eng).shp 0 0 })

/-- The hive that a `wlsteal` names. -/
def stealHive (id : Nat) (gb : W64) : Fin 144 := Fin.ofNat 144 (id / 144 * 36 + bits gb 16 6)

def execWlsteal (h : Hdr) (d : GReg) (a : WList) (b : GReg) (c : TReg) (gl : Fin 6) (s : State) :
    Host.Outcome State Fault Refusal :=
  s.issue h 0x69 (fun co =>
    let p := co.shape h.eng
    let gb := co.rd h.eng b
    let hv := stealHive co.id gb
    let l := s.listFor hv co.ctxId a
    if !s.releasesDone co h.eng co.nextAct then .wait .structural
    else if !p.fits 16 then .illegal 0x0C
    else if bits gb 22 42 ≠ 0 ∨ 36 ≤ bits gb 16 6
        ∨ (hv = hiveOf co.id ∧ l.state ≠ .undefined ∧ l.owner.toNat = co.id % 4) then .illegal 0x0D
    else
      let n := min (bits gb 0 16) ((gl.val + 1) * p.elems)
      .go s { lat := none, fixed := false
              body := .word (.wlsteal h d a b c gl)
                [BitVec.ofNat 64 (co.scopes[2]).cmask.toNat, BitVec.ofNat 64 n, BitVec.ofNat 64 hv.val] [] (co.seq h.eng).shp 0 0 })

/-- Up to `n` entries taken from the head, or the tail, head-most first. -/
def ListReg.take (l : ListReg) (n : Nat) (tail : Bool) : List W64 × ListReg :=
  let k := min n l.entries.length
  if tail then (l.entries.drop (l.entries.length - k), { l with entries := l.entries.take (l.entries.length - k) })
  else (l.entries.take k, { l with entries := l.entries.drop k })

/-- The results of a pop or steal of entries `es` with a status. -/
def popWrites (a : Act) (d : GReg) (t : TReg) (gl : Fin 6) (shp : W64) (es : List W64) (st : Nat) : List Write :=
  let g := gl.val + 1
  let n := (shapeOf shp).elems
  let vals := es.map BitVec.toNat ++ List.replicate (g * n - es.length) 0
  .g a.handler d (pack [(es.length, 0), (st, 62)]) :: tileWrites t g n 16 (vals.map some)

/-- The router takes the entries of a list of hive `h` for a word, whose results land in `due`. -/
def State.takeEntries (s : State) (id : Nat) (a : Act) (h : Fin 144) (k : WList) (n : Nat) (tail : Bool) (d : GReg) (t : TReg)
    (gl : Fin 6) (shp : W64) (due : Nat) : State :=
  let c := s.core id
  let l := s.listFor h c.ctxId k
  let (es, l') := l.take n tail
  let s := if l.state = .undefined then s else s.setList h k l'
  let st := match l.state with | .undefined => 1 | .ready => 0 | .faulted => 2
  s.setCore ((s.core id).setAct { a with body := .plain, due := some due, writes := popWrites a d t gl shp es st })

/-- A `wlpop` issued earlier by the core has not reached list `k` yet. DEDUCED (log 43): the pops of the owner reach the router
in the order issued. -/
def Core.popAhead (c : Core) (k : WList) (id : Nat) : Bool :=
  c.acts.any (fun b => b.id < id && match b.body with
    | .word (.wlpop _ _ j _ _ _) _ _ _ _ _ => j == k
    | _ => false)

/-- All entries of the list are on chip (R293): there are no more of them than the chip holds (DEDUCED, log 43). -/
def ListReg.whole (l : ListReg) : Bool := decide (l.entries.length ≤ onChip)

/-- One cycle of a `wlpop`. Where its entries are all on chip it lands at p + 19: the router has taken them in the cycle before (R299). -/
def State.runPop (s : State) (id : Nat) (a : Act) : State :=
  let c := s.core id
  match a.body with
  | .word (.wlpop _ d k _ t gl) [_, n] _ shp 0 _ =>
    let h := hiveOf id
    let now := s.cycle c
    let (f, s) := s.draw
    let (e, s) := s.draw
    let whole := (s.list h k).whole
    if s.listHeld h k ∨ c.popAhead k a.id ∨ (Config.pick f % 2 = 0 ∧ !(whole ∧ a.issued + 18 ≤ now)) then s
    else s.takeEntries id a h k n.toNat false d t gl shp
      (max (a.issued + 19) (now + if whole then 0 else Config.delay e))
  | _ => s

/-- One cycle of a `wlsteal`: it lands no earlier than p + 39. -/
def State.runSteal (s : State) (id : Nat) (a : Act) : State :=
  let c := s.core id
  match a.body with
  | .word (.wlsteal _ d k _ t gl) [_, n, hv] _ shp 0 _ =>
    let h : Fin 144 := Fin.ofNat 144 hv.toNat
    let (f, s) := s.draw
    let (e, s) := s.draw
    if s.listHeld h k ∨ Config.pick f % 2 = 0 then s
    else s.takeEntries id a h k n.toNat true d t gl shp (max (a.issued + 39) (s.cycle c + Config.delay e))
  | _ => s

/-! ### Dispatch tables (R301 to R303) -/

def State.table (s : State) (h : Fin 144) (k : DTab) : DispTable := (s.hive h).tables[k]

def State.setTable (s : State) (h : Fin 144) (k : DTab) (t : DispTable) : State :=
  s.setHive h { s.hive h with tables := (s.hive h).tables.set k t }

/-- `n` bytes of the comb as a number. -/
def Core.combNat (c : Core) (addr n : Nat) : Nat := leNat (c.comb.readBytes addr n)

/-- The head of a descriptor breaks a limit. -/
def dispHeadBad (c : Core) (a : Nat) : Bool :=
  let w0 := c.combNat a 4
  let w1 := c.combNat (a + 4) 4
  w0 = 0 || 256 < w0 || w1 = 0 || 2048 < w1 || c.combNat (a + 8) 8 != 0 || c.combNat (a + 28) 4 != 0 || c.combNat (a + 40) 8 != 0
    || c.combNat (a + 16) 8 % 64 != 0 || !canonicalVA (BitVec.ofNat 64 (c.combNat (a + 16) 8))
    || c.combNat (a + 32) 8 % 8 != 0 || !canonicalVA (BitVec.ofNat 64 (c.combNat (a + 32) 8))

/-- An expert's entry breaks a limit. -/
def dispEntryBad (c : Core) (a : Nat) : Bool :=
  c.combNat a 8 % 64 != 0 || !canonicalVA (BitVec.ofNat 64 (c.combNat a 8)) || c.combNat (a + 12) 4 != 0

/-- The table that a descriptor describes. -/
def dispOf (c : Core) (a : Nat) : DispTable :=
  let n := c.combNat a 4
  { valid := true, ctx := c.ctxId, nexp := n, rowsz := c.combNat (a + 4) 4, rbase := BitVec.ofNat 64 (c.combNat (a + 16) 8)
    rcap := BitVec.ofNat 32 (c.combNat (a + 24) 4), ridx := BitVec.ofNat 64 (c.combNat (a + 32) 8)
    bases := (List.range n).map (fun e => BitVec.ofNat 64 (c.combNat (a + 48 + 16 * e) 8))
    caps := (List.range n).map (fun e => BitVec.ofNat 32 (c.combNat (a + 56 + 16 * e) 4))
    fill := List.replicate n 0, rfill := 0, lost := 0 }

def execDispdef (h : Hdr) (d : DTab) (a : GReg) (s : State) : Host.Outcome State Fault Refusal :=
  s.issue h 0x77 (fun c =>
    let x := c.rd h.eng a
    let k := x.toNat
    if c.combWriting h.eng || s.combWaits c h.eng then .wait .structural
    else if k % 16 ≠ 0 then .illegal 0x0D
    else if combEnd < k + 48 then .trap .combBounds x
    else if dispHeadBad c k then .illegal 0x0D
    else
      let n := c.combNat k 4
      if combEnd < k + 48 + 16 * n then .trap .combBounds x
      else if (List.range n).any (fun e => dispEntryBad c (k + 48 + 16 * e)) then .illegal 0x0D
      else
        let (f, s) := s.draw
        .go (s.setTable (hiveOf c.id) d (dispOf c k)) { lat := some (1 + Config.delay f), fixed := false, holds := some .time })

/-- Row ρ is active (R302). -/
def Core.rowActive (c : Core) (pm : Pm) (r : Nat) : Bool :=
  match pm with
  | .none => true
  | .mask k => c.masks[k].getLsbD r
  | .pred p => decide (r < c.preds[p].n.toNat)

/-- The rows are captured as active + 2 × expert + 2^33 × bytes; the mask so far stands before them. After entry 2 stand how often the row
at hand was refused by a peer, the pulse before which it is not sent again, and one past the pulse in which it was sent (R356). Bits of rows placed before
a stop have no stated value (log 3). -/
def execDisp (h : Hdr) (d : KReg) (a : DTab) (b c : TReg) (gl : Fin 6) (pm : Pm) (ty : Ty) (s : State) :
    Host.Outcome State Fault Refusal :=
  s.issue h 0x6A (fun co =>
    let p := co.shape h.eng
    let n := (gl.val + 1) * p.rows
    let t := s.tableFor (hiveOf co.id) co.ctxId a
    if !p.fits ty.halfBytes then .illegal 0x0C
    else if !t.valid ∨ p.cols * ty.halfBytes ≠ 2 * t.rowsz ∨ 1024 < n then .illegal 0x0D
    else
      let from_ := co.progress h.eng 0x6A
      let (f, s) := s.draw
      let experts := co.tileElems b 0 1024 8
      let rows := (List.range n).map (fun r =>
        b2n (co.rowActive pm r) + 2 * experts.getD r 0 + 2 ^ 33 *
          leNat (((co.tileBytes (Fin.ofNat 16 (c.val + r / p.rows)) ((r % p.rows + 1) * t.rowsz)).drop (r % p.rows * t.rowsz))))
      .go s { lat := none, fixed := false, holds := some .structural
              body := .word (.disp h d a b c gl pm ty) (co.entry2 ++ [0, 0, 0]) ((Config.pick f % 2 ^ from_) :: rows) 0 0 from_ })

/-- The keys of the `n` bytes of a store from a virtual address: through a view by the elements of its page's format, of `raw` half-bytes
on a RAW page, the first of which begins at that address. Or the failing check of reasons 7 to 9 and its address; a page with no valid
leaf has no W. -/
def State.rowKeys (s : State) (x : Fin 64) (raw : Nat) (va : W64) (n : Nat) : Except (Nat × Nat) (List Nat) :=
  let at_ (i : Nat) : Nat × Option Leaf × Option Nat :=
    let a := va + BitVec.ofNat 64 i
    match s.walk x a with
    | none => (a.toNat, none, none)
    | some l =>
      if l.vw then
        let hb := match l.elemTy with | none => raw | some t => t.halfBytes
        let low := i % max 1 (hb / 2)
        (a.toNat, some l, (s.viewAt x l ((a - BitVec.ofNat 64 low).toNat % 2 ^ 57) hb).map (fun o =>
          homeKey s.pkg l.home l.peer (((s.ctx x).views[l.view]).pbase.toNat + o + low)))
      else (a.toNat, some l, some (l.byteKey s.pkg a.toNat))
  let ps := (List.range n).map at_
  match ps.find? (fun p => match p.2.1 with | some l => !l.w | none => true) with
  | some p => .error (7, p.1)
  | none => match ps.find? (fun p => p.2.2.isNone) with
    | some p => .error (8, p.1)
    | none => match ps.find? (fun p => match p.2.1 with | some l => !l.res | none => true) with
      | some p => .error (9, p.1)
      | none => .ok (ps.filterMap (·.2.2))

/-- The page at a virtual address is stamped. -/
def State.stampedAt (s : State) (x : Fin 64) (va : W64) : Bool := match s.walk x va with | some l => l.isStamped | none => false

/-- The elements of stamped pages that the bytes at a virtual address fall in, with their new codes: bytes of an element that the
range does not cover stay. -/
def State.rowElems (s : State) (x : Fin 64) (va : W64) (bs : List Byte) : List Elem :=
  (List.range bs.length).filterMap (fun i =>
    let a := va + BitVec.ofNat 64 i
    match s.walk x a with
    | none => none
    | some l =>
      let w := l.blockTy.halfBytes / 2
      let low := (a.toNat % 2 ^ 57 - if l.vw then ((s.ctx x).views[l.view]).vbase.toNat % 2 ^ 57 else l.base) % w
      if !l.isStamped ∨ (i ≠ 0 ∧ low ≠ 0) then none
      else
        let e := s.elemOf x l.blockTy ⟨⟨i, 0, false, 0⟩, l, 2 * (a.toNat % 2 ^ 57 - low)⟩
        let old := s.rawBytes (e.pa2 / 2) w
        let new := (List.range w).map (fun j => if low ≤ i + j then (bs[i + j - low]?).getD (old.getD j 0) else old.getD j 0)
        some { e with val := leNat new })

/-- The elements of a row on stamped pages, by blocks. -/
def State.rowBlocks (s : State) (x : Fin 64) (va : W64) (bs : List Byte) : List (Elem × List Elem) :=
  let es := s.rowElems x va bs
  (es.filter (fun e => es.find? e.sameBlock == some e)).map (fun e => (e, es.filter e.sameBlock))

/-- The bytes of a row on other pages, with their keys. -/
def State.rowPlain (s : State) (x : Fin 64) (va : W64) (ks : List Nat) (bs : List Byte) : List (Nat × Byte) :=
  ((ks.zip bs).zipIdx.filter (fun p => !s.stampedAt x (va + BitVec.ofNat 64 p.2))).map (·.1)

/-- Bytes with their keys, in runs of rising keys. -/
def keyRuns : List (Nat × Byte) → List (Nat × List Byte)
  | [] => []
  | (k, b) :: t => match keyRuns t with
    | (k', bs) :: r => if k' = k + 1 then (k, b :: bs) :: r else (k, [b]) :: (k', bs) :: r
    | [] => [(k, [b])]

/-- The package in whose memory a key lies, if that is another one's (R129). -/
def peerOfKey (key : Nat) : Option (Fin 64) := if 2 ^ 52 ≤ key ∧ key < 65 * 2 ^ 52 then some (Fin.ofNat 64 (key / 2 ^ 52 - 1)) else none

/-- A request that a row sends: the package, the keys it is for, from one up to another, and what it asks. -/
structure RowReq where
  peer : Fin 64
  lo   : Nat
  hi   : Nat
  op   : RemoteOp
  deriving DecidableEq, Repr

/-- The requests of a store of a row, one for each stretch of memory, or block, of another package that its bytes touch (R355, R356). -/
def State.rowReqs (s : State) (x : Fin 64) (va : W64) (ks : List Nat) (bs : List Byte) : List RowReq :=
  (keyRuns (s.rowPlain x va ks bs)).filterMap (fun r => (peerOfKey r.1).map (fun p =>
      ⟨p, r.1, r.1 + r.2.length, .store (r.1 % 2 ^ 52) r.2⟩))
    ++ (s.rowBlocks x va bs).filterMap (fun b => (b.1.leaf.peerOf s.pkg).map (fun p =>
      let k := blockAt s.pkg b.1.leaf b.1.blk b.1.block2
      ⟨p, k.data2 / 2, k.data2 / 2 + (k.n * k.hb + 1) / 2,
        .storeElems b.1.page b.1.leaf.blockTy (b.2.map (fun e => (e.pa2 - e.base2, e.val)))⟩))

/-- A row's bytes stored unchanged, as a class-0 store of S (R302). On a stamped page they are the codes of its elements: the blocks
are read, merged and written, as any store of them is (R227; log 47). Bytes at keys that `lost` names go nowhere. -/
def State.storeRow (s : State) (x : Fin 64) (va : W64) (ks : List Nat) (bs : List Byte) (lost : Nat → Bool) : State :=
  let plain := (s.rowPlain x va ks bs).filter (fun p => !lost p.1)
  let blocks := (s.rowBlocks x va bs).filter (fun b => !lost (b.1.pa2 / 2))
  let s := plain.foldl (fun s p => s.homeWrite p.1 [p.2]) s
  let s := blocks.foldl (fun s b => s.storeBlock x b.2 b.1.leaf.blockTy) s
  s.unpoisonBy ((ks.filter (fun k => !lost k)).map (fun k => (2 * k, 2)))

/-- A store of a row is performed; what its peers do not take is dropped (R355, R357). -/
def State.performRow (s : State) (x : Fin 64) (va : W64) (ks : List Nat) (bs : List Byte) : State :=
  let (s, gone) := (s.rowReqs x va ks bs).foldl (fun (q : State × List RowReq) r => match q.1.lostTo x r.peer r.lo with
    | some s => (s, r :: q.2)
    | none => q) (s, [])
  s.storeRow x va ks bs (fun k => gone.any (fun r => r.lo ≤ k && k < r.hi))

/-- Where a row goes: an expert's buffer, the residual buffer, or nowhere. -/
inductive Slot where
  | expert (e : Nat)
  | residual
  | lost
  deriving DecidableEq, Repr

def DispTable.slotFor (t : DispTable) (e : Nat) : Slot :=
  if e < t.nexp ∧ (t.fill.getD e 0).toNat < (t.caps.getD e 0).toNat then .expert e
  else if t.rfill.toNat < t.rcap.toNat then .residual
  else .lost

/-- The stores of a row: addresses and bytes. -/
def DispTable.stores (t : DispTable) (k : Slot) (e r : Nat) (row : List Byte) : List (W64 × List Byte) :=
  match k with
  | .expert e => [(t.bases.getD e 0 + BitVec.ofNat 64 ((t.fill.getD e 0).toNat * t.rowsz), row)]
  | .residual => [(t.rbase + BitVec.ofNat 64 (t.rfill.toNat * t.rowsz), row),
      (t.ridx + BitVec.ofNat 64 (8 * t.rfill.toNat), leBytes 8 (e + r * 2 ^ 32))]
  | .lost => []

def DispTable.claim (t : DispTable) : Slot → DispTable
  | .expert e => { t with fill := t.fill.set e (t.fill.getD e 0 + 1) }
  | .residual => { t with rfill := t.rfill + 1 }
  | .lost => { t with lost := satInc t.lost 1 }

/-- The first failing check of some stores, or their keys. The first is of elements of `raw` half-bytes; a record after it is one of
8 bytes, which no view admits (log 47). -/
def State.storesKeys (s : State) (x : Fin 64) (raw : Nat) : List (W64 × List Byte) → Except (Nat × Nat) (List (List Nat × List Byte))
  | [] => .ok []
  | p :: t => match s.rowKeys x raw p.1 p.2.length with
    | .error e => .error e
    | .ok ks => match s.storesKeys x 16 t with
      | .error e => .error e
      | .ok r => .ok ((ks, p.2) :: r)

/-- A store's page is locked, or its link down: the row waits. -/
def State.storeWaits (s : State) (x : Fin 64) (p : W64 × List Byte) : Bool :=
  (List.range p.2.length).any (fun i => match s.walk x (p.1 + BitVec.ofNat 64 i) with
    | some l => (s.lockOn l).isSome || !s.linkUp x l
    | none => false)

/-- The requests of some stores whose keys are known. -/
def State.storesReqs (s : State) (x : Fin 64) (st : List (W64 × List Byte)) (ks : List (List Nat × List Byte)) : List RowReq :=
  (st.zip ks).flatMap (fun p => s.rowReqs x p.1.1 p.2.1 p.2.2)

/-- The row at hand of a `disp` of context `x`, for the peers in `st` (R355 to R357): times refused, the pulse before which it is not
sent again, one past that in which it was sent. -/
structure RowSend where
  tries  : Nat
  before : Nat
  sent   : Nat
  deriving DecidableEq, Repr

/-- What becomes of a row: it waits, has been sent to its peer, is refused with a hint, fails a check, or is placed, with its mask bit. -/
inductive RowOutcome where
  | waits
  | sent (s : State)
  | refused (s : State)
  | bad (why va : Nat)
  | placed (s : State) (b : Bool)

/-- A row free to go meets the peers it is for, in the requests `rs`: it is sent, answered in its time, refused with a hint,
given up at the 64th refusal in a row, or performed by `go`, which also drops what a peer does not take (R355 to R357). -/
def State.rowAtPeers (s : State) (x : Fin 64) (rs : List RowReq) (w : RowSend) (go : State → State) (b : Bool) : RowOutcome :=
  let ps := rs.filter (fun r => (s.livePeers x).getLsbD r.peer.val)
  match ps with
  | [] => .placed (go s) b
  | q :: _ =>
    if s.pulse < w.before then .waits
    else if w.sent = 0 then
      .sent (ps.foldl (fun s r => s.request x r.peer r.op) s)
    else if ps.any (fun r => Config.peerRefuses s.pulse r.peer.val r.lo) then
      if w.tries < 63 then .refused s
      else .placed ({ s.loseRequest with inputs := s.inputs ++ [(s.pulse, .peerTimeout (partNo (s.ctx x).partMask) q.peer)] }) b
    else .placed (go s) b

/-- One row of a `disp`: where it is placed its slot is claimed and its bytes are written. -/
def State.placeRow (s : State) (id : Nat) (a : Act) (k : DTab) (ty : Ty) (o : Order) (w : RowSend) (r row : Nat) : RowOutcome :=
  let c := s.core id
  let x := c.ctxId
  let t := s.table (hiveOf id) k
  let e := fld row 1 32
  if row % 2 = 0 then .placed s false
  else
    let sl := t.slotFor e
    let st := t.stores sl e r (leBytes t.rowsz (row / 2 ^ 33))
    let s := s.readTables x (st.flatMap (fun p => [p.1, p.1 + BitVec.ofNat 64 (p.2.length - 1)]))
    match s.storesKeys x ty.halfBytes st with
    | .error f => .bad f.1 f.2
    | .ok ks =>
      let byte (key : Nat) : Access := ⟨.store, false, 2 * key, 2 * key + 2, reachOfKey key⟩
      let free := s.releaseMet c a.seq a.id o.cmask o.reach && ks.all (fun p => p.1.all (fun key =>
        s.mayPerform c a.seq a.id o (byte key) && !s.earlyHolds c (some a.seq) (byte key)))
      if st.any (s.storeWaits x) ∨ !free then .waits
      else match s.rowAtPeers x (s.storesReqs x st ks) w (fun s =>
          (ks.zip st).foldl (fun s p => s.performRow x p.2.1 p.1.1 p.1.2) s)
          (match sl with | .expert _ => false | _ => true) with
        | .placed s b => .placed (s.setTable (hiveOf id) k (t.claim sl)) b
        | o => o

/-- What up to `n` rows of a `disp` come to: the state, the mask, the row reached, how that row stands with its peers, and a failing
check. -/
structure Rows where
  st   : State
  mask : Nat
  row  : Nat
  send : RowSend
  bad  : Option (Nat × Nat)

/-- Up to `n` rows of a `disp` from row `r`. -/
def State.placeRows (s : State) (id : Nat) (a : Act) (k : DTab) (ty : Ty) (o : Order) (w : RowSend) (mask : Nat) :
    Nat → Nat → List Nat → Rows
  | _, r, [] => ⟨s, mask, r, w, none⟩
  | 0, r, _ => ⟨s, mask, r, w, none⟩
  | n + 1, r, row :: t => match s.placeRow id a k ty o w r row with
    | .waits => ⟨s, mask, r, w, none⟩
    | .sent s => ⟨s, mask, r, { w with sent := s.pulse + 1 }, none⟩
    | .refused s =>
      let (m, s) := s.draw
      ⟨s, mask, r, ⟨w.tries + 1, s.pulse + hintPulses m + 1, 0⟩, none⟩
    | .bad why va => ⟨s, mask, r, w, some (why, va)⟩
    | .placed s b => s.placeRows id a k ty o ⟨0, 0, 0⟩ (mask + if b then 2 ^ r else 0) n (r + 1) t

/-- The packages that the row at hand of a `disp` of core `c` is for, with how it stands with them. -/
def State.rowPeers (s : State) (c : Core) (a : Act) : List (Fin 64) × RowSend :=
  match a.body with
  | .word (.disp _ _ k _ _ _ _ ty) [_, _, tries, before, sent] (_ :: rows) _ 0 r =>
    let t := s.table (hiveOf c.id) k
    let row := rows.getD r 0
    let st := t.stores (t.slotFor (fld row 1 32)) (fld row 1 32) r (leBytes t.rowsz 0)
    (match s.storesKeys c.ctxId ty.halfBytes st with
      | .ok ks => (s.storesReqs c.ctxId st ks).map (·.peer)
      | .error _ => [], ⟨tries.toNat, before.toNat, sent.toNat⟩)
  | _ => ([], ⟨0, 0, 0⟩)

/-- The row at hand of a `disp` was sent to a peer that is no longer live, or waits out a hint of it: it ends in this cycle (R357). -/
def State.rowOwed (s : State) (c : Core) (a : Act) : Bool :=
  let (ps, w) := s.rowPeers c a
  (w.sent != 0 || w.tries != 0) && ps.any (fun p => !(s.livePeers c.ctxId).getLsbD p.val)

/-- The peer that has not answered the row at hand of a `disp` in 100 µs (R356). -/
def State.rowSilent (s : State) (c : Core) (a : Act) : Option (Fin 64) :=
  let (ps, w) := s.rowPeers c a
  if w.sent = 0 ∨ s.pulse < w.sent + answerLimit then none else ps.head?

/-- One cycle of a `disp`: as many rows as the router takes (log 3). Its mask lands once all are written, no earlier than
p + 15. -/
def State.runDisp (s : State) (id : Nat) (a : Act) : State :=
  match a.body with
  | .word (.disp h d k b c gl pm ty) [cm, re, tries, before, sent] (mask :: rows) _ 0 r =>
    let o : Order := { zeroReach with sem := .rel, cmask := BitVec.ofNat 16 cm.toNat, reach := BitVec.ofNat 3 re.toNat, scope := 2 }
    let w : RowSend := ⟨tries.toNat, before.toNat, sent.toNat⟩
    let owed := b2n (s.rowOwed (s.core id) a)
    let (n, s) := s.draw
    let (m, s) := s.draw
    let q := s.placeRows id a k ty o w mask (max owed (Config.pick n % (rows.length + 1))) r (rows.drop r)
    let s := q.st
    let co := s.core id
    match q.bad with
    | some (why, va) => s.setCore (co.trapAct a (checkCause why) (checkInfo why (2 * (va % 2 ^ 57))) (some q.row))
    | none =>
      if rows.length ≤ q.row then
        s.setCore (co.setAct { a with body := .plain, holds := none
                                      due := some (max (a.issued + 15) (s.cycle co + Config.delay m))
                                      writes := [.mask d (BitVec.allOnes 4096) (BitVec.ofNat 4096 q.mask)] })
      else s.setCore (co.setAct { a with body := .word (.disp h d k b c gl pm ty) [cm, re,
        BitVec.ofNat 64 q.send.tries, BitVec.ofNat 64 q.send.before, BitVec.ofNat 64 q.send.sent] (q.mask :: rows) 0 0 q.row })
  | _ => s

/-- A row whose peer has been lost since the router's step of this cycle ends in it too (R357). -/
def State.endRow (s : State) (id : Nat) (a : Act) : State := if s.rowOwed (s.core id) a then s.runDisp id a else s

def execDispclr (h : Hdr) (a : DTab) (b : GReg) (save : Bool) (s : State) : Host.Outcome State Fault Refusal :=
  s.issue h 0x78 (fun c =>
    let t := s.tableFor (hiveOf c.id) c.ctxId a
    let x := c.rd h.eng b
    if !t.valid then .illegal 0x0D
    else if save ∧ x.toNat % 4 ≠ 0 then .trap .misaligned x
    else if save ∧ combEnd < x.toNat + 4 * (t.nexp + 2) then .trap .combBounds x
    else .go s { lat := none, fixed := false, holds := some .time, body := .word (.dispclr h a b save) [x] [] 0 0 0 })

/-- The router's step of a `dispclr`, after the claims of its cycle; it completes once acknowledged (log 3). -/
def State.runDispclr (s : State) (id : Nat) (a : Act) : State :=
  let c := s.core id
  match a.body with
  | .word (.dispclr h k b save) [x] _ _ 0 _ =>
    let (f, s) := s.draw
    if Config.pick f % 2 = 0 ∨ (save ∧ !(c.noneBefore a Act.usesComb && s.mayPerform c a.seq a.id zeroReach (someComb .store))) then s
    else
      let t := s.table (hiveOf id) k
      let out := (t.fill ++ [t.rfill, t.lost]).flatMap (fun v => leBytes 4 v.toNat)
      let c := if save then { c with comb := c.comb.writeBytes x.toNat out } else c
      let (n, s) := s.draw
      let s := s.setTable (hiveOf id) k { t with fill := List.replicate t.nexp 0, rfill := 0, lost := 0 }
      s.setCore (c.setAct { a with body := .word (.dispclr h k b save) [] [] 0 1 0, due := some (s.cycle c + Config.delay n) })
  | _ => s

end Sys2Proof.Machine
end

