-- ==== Sys2Proof/Machine/Masks.lean ====
section
/-! DEFINITION. Mask, predicate and amax words (R122 to R125): latency 4 (R48). -/
namespace Sys2Proof.Machine

/-- Every bit of a mask register. -/
def allMask : BitVec 4096 := BitVec.allOnes 4096

def State.maskLogic (s : State) (h : Hdr) (opc : Nat) (d : KReg) (f : Core → BitVec 4096) : Host.Outcome State Fault Refusal :=
  s.issue h opc (fun c => .go s { lat := some 4, writes := [.mask d allMask (f c)] })

def execKand (h : Hdr) (d a b : KReg) (s : State) := s.maskLogic h 0xA0 d (fun c => c.masks[a] &&& c.masks[b])
def execKor (h : Hdr) (d a b : KReg) (s : State) := s.maskLogic h 0xA1 d (fun c => c.masks[a] ||| c.masks[b])
def execKxor (h : Hdr) (d a b : KReg) (s : State) := s.maskLogic h 0xA2 d (fun c => c.masks[a] ^^^ c.masks[b])
def execKnot (h : Hdr) (d a : KReg) (s : State) := s.maskLogic h 0xA3 d (fun c => ~~~c.masks[a])

/-- The index of the lowest one bit among bits i to i + n − 1, or 4096. -/
def lowestBit (v : Nat) : Nat → Nat → Nat
  | _, 0 => 4096
  | i, n + 1 => if v / 2 ^ i % 2 = 1 then i else lowestBit v (i + 1) n

def State.maskToG (s : State) (h : Hdr) (opc : Nat) (d : GReg) (f : Core → W64) : Host.Outcome State Fault Refusal :=
  s.issue h opc (fun c => .go s (Eff.scalar c h.eng 4 d (f c)))

def execKpopc (h : Hdr) (d : GReg) (a : KReg) (s : State) :=
  s.maskToG h 0xA4 d (fun c => BitVec.ofNat 64 (onesBelow c.masks[a].toNat 4096))
def execKfirst (h : Hdr) (d : GReg) (a : KReg) (s : State) :=
  s.maskToG h 0xA5 d (fun c => BitVec.ofNat 64 (lowestBit c.masks[a].toNat 0 4096))

/-- The mask bits of a group of `gl` registers of `n` elements (R96). -/
def Core.maskBits (c : Core) (k : KReg) (gl n : Nat) : List Bool :=
  (List.range (gl * n)).map (fun j => c.masks[k].getLsbD (j % n % 4096))

/-- A compress or expand: latency 4 whatever the size (R123). -/
def State.packWord (s : State) (h : Hdr) (opc : Nat) (d : TReg) (m : TMod) (f : Core → Nat → List (Option Nat)) :
    Host.Outcome State Fault Refusal :=
  let gl := m.gl.val + 1
  let hb := m.ty.halfBytes
  s.issue h opc (fun c =>
    let p := c.shape h.eng
    if !p.fits hb then .illegal 0x0C
    else .go s { lat := some 4, writes := tileWrites d gl p.elems hb (f c p.elems) })

/-- An element not written: zeroed under ZT, else kept. -/
def ztElem (m : TMod) : Option Nat := if m.sub.val % 2 = 1 then some 0 else none

def execKcomp (h : Hdr) (d a : TReg) (b : KReg) (m : TMod) (s : State) : Host.Outcome State Fault Refusal :=
  s.packWord h 0xA6 d m (fun c n =>
    let gl := m.gl.val + 1
    let run := pmActive (c.maskBits b gl n) (c.group a gl n m.ty.halfBytes)
    run.map some ++ List.replicate (gl * n - run.length) (ztElem m))

/-- The elements of `kexp`: each set position takes the next source element. -/
def expand (rest : Option Nat) : List Bool → List Nat → List (Option Nat)
  | [], _ => []
  | true :: bs, x :: xs => some x :: expand rest bs xs
  | true :: bs, [] => rest :: expand rest bs []
  | false :: bs, xs => rest :: expand rest bs xs

def execKexp (h : Hdr) (d a : TReg) (b : KReg) (m : TMod) (s : State) : Host.Outcome State Fault Refusal :=
  s.packWord h 0xA7 d m (fun c n =>
    let gl := m.gl.val + 1
    expand (ztElem m) (c.maskBits b gl n) (c.group a gl n m.ty.halfBytes))

/-- N ← gA clamped to 0 to 32767 (R124). -/
def execPset (h : Hdr) (d : PReg) (a : GReg) (wc : Fin 4) (s : State) : Host.Outcome State Fault Refusal :=
  s.issue h 0xA8 (fun c =>
    let n := max 0 (min 32767 (c.rd h.eng a).toInt)
    .go s { lat := some 4, writes := [.pred d ⟨BitVec.ofInt 15 n, BitVec.ofNat 2 wc.val⟩] })

def execPget (h : Hdr) (d : GReg) (a : PReg) (s : State) := s.maskToG h 0xA9 d (fun c => c.preds[a].word)

def execAmrd (h : Hdr) (d : GReg) (a : MReg) (s : State) := s.maskToG h 0xAC d (fun c => c.amax[a])

def execAmclr (h : Hdr) (a : MReg) (s : State) : Host.Outcome State Fault Refusal :=
  s.issue h 0xAD (fun _ => .go s { lat := some 4, writes := [.amclr a] })

end Sys2Proof.Machine
end

