-- ==== Sys2Proof/Machine/Peers.lean ====
section
/-! DEFINITION. Camnath links and peers (R353 to R357): ports and flits, requests from peers, and the loss of a peer. -/
namespace Sys2Proof.Machine

/-! ### A peer is lost (R357) -/

/-- The elements of a memory word that are outstanding to package `p`. -/
def State.outTo (s : State) (p : Fin 64) (todo : List Elem) : List Elem := todo.filter (fun e => e.leaf.peerOf s.pkg == some p)

/-- A memory word whose requests to a peer are lost: a load or atomic gets 0, a store is dropped, and where nothing else is to come it
completes in this cycle. -/
def Act.loseElems (a : Act) (k : MemKind) (lost : List Elem) : Act :=
  if lost.isEmpty then a
  else (if k.acc == .store then a.mapTodo (fun t => t.filter (fun e => !lost.any (·.idx == e.idx)))
    else lost.foldl (fun a e => a.got e 0 false) a).endsLost

/-- `n` requests are lost. -/
def State.loseRequests (s : State) (n : Nat) : State := { s with linkLost := satInc s.linkLost n }

/-- The entry at hand of a chain is outstanding to package `p`. -/
def State.chainOut (s : State) (id : Nat) (p : Fin 64) (ch : Chain) : Bool :=
  ch.begun && slotKind ch.slot == 1 && (s.slotPeers id ch.slot ch.adds).contains p

/-- What core `id` has outstanding to package `p` ends. A copy entry completes with PEER_LOST in this cycle, when its queue is next
looked at. -/
def State.loseFor (s : State) (p : Fin 64) (id : Nat) : State :=
  let c := s.core id
  let lost := c.acts.map (fun a => (a, s.outTo p a.body.todo))
  let acts := lost.map (fun (q : Act × List Elem) => match q.1.body with
    | .mem k _ _ _ _ _ _ _ _ => q.1.loseElems k q.2
    | _ => q.1.peerCleared)
  let go (k : CopyQueue) : CopyQueue := { k with chains := k.chains.map (fun (ch : Chain) =>
    if s.chainOut id p ch then { ch with lost := ch.lost ++ [p] } else ch) }
  let n := (lost.filter (fun q => match q.1.body with | .mem _ _ _ _ _ _ _ _ _ => true | _ => false)).foldl (fun n q => n + q.2.length) 0
  let m := ((c.inQ.chains ++ c.outQ.chains).filter (s.chainOut id p)).length
  (s.setCore { c with acts := acts, inQ := go c.inQ, outQ := go c.outQ }).loseRequests (n + m)

/-- A partition treats a peer as unreachable: its bit clears, and in the same cycle every outcome of R357 follows. Flits on their way from
other packages still go on (R354). A bit that is clear already changes nothing. -/
def State.losePeer (s : State) (part : Fin 8) (p : Fin 64) : State :=
  if !(s.peerLive[part]).getLsbD p.val then s
  else
    let s := { s with peerLive := s.peerLive.set part (s.peerLive[part] &&& ~~~(BitVec.ofNat 64 (2 ^ p.val))) }
    let xs := s.boundTo part.val
    let s := ((s.cores.filter (fun c => c.task.isSome && xs.contains c.ctxId)).map (·.id)).foldl (fun s id => s.loseFor p id) s
    let gone (f : Flight) : Bool := xs.contains f.pair.ctx && f.pair.leaf.peerOf s.pkg == some p
    let s := (s.flight.filter gone).foldl (fun s f => (s.dropPair f.pair.ctx f.pair.reg).loseRequest) s
    let s := { s with flight := s.flight.filter (fun f => !gone f)
                      outgoing := s.outgoing.filter (fun q => q.1 != part || q.2.dpkg != p || q.2.spkg.val != s.pkg) }
    let s := (s.barInsts.filter (fun i => xs.contains i.ctx && i.pkgs.getLsbD p.val)).foldl (fun s i => s.breakInst i.no 2) s
    xs.foldl (fun s x => s.postEvent x 0x0A (BitVec.ofNat 64 p.val)) s

def execPeerTimeout (part : Fin 8) (pkg : Fin 64) (s : State) : Host.Outcome State Fault Refusal := .next (s.losePeer part pkg)

/-- A package is admitted to a partition (R357). One to which no usable route leads is unreachable (R356; log 32). -/
def State.admitPeer (s : State) (part : Fin 8) (p : Fin 64) : State :=
  let s := { s with peerLive := s.peerLive.set part (s.peerLive[part] ||| BitVec.ofNat 64 (2 ^ p.val)) }
  if p.val ≠ s.pkg ∧ (s.routePort part p).isNone then s.losePeer part p else s

def execPeerAdmit (part : Fin 8) (pkg : Fin 64) (s : State) : Host.Outcome State Fault Refusal := .next (s.admitPeer part pkg)

def execPeerRemove (part : Fin 8) (pkg : Fin 64) (s : State) : Host.Outcome State Fault Refusal := .next (s.losePeer part pkg)

/-- After ports or routes have changed: a peer to which no usable route remains is unreachable (R356). -/
def State.routesLeft (old s : State) : State :=
  (List.finRange 8).foldl (fun s k => (List.finRange 64).foldl (fun s p =>
    if p.val ≠ s.pkg ∧ (old.routePort k p).isSome ∧ (s.routePort k p).isNone then s.losePeer k p else s) s) s

/-! ### Requests from peers (R355) -/

/-- The page a request names, as a leaf of this package's memory. -/
def remoteLeaf (g : RemotePage) : Leaf :=
  { base := g.va, size := g.size, res := true, home := 0, r := true, w := true, u := true, fmt := g.fmt, geom := g.geom, vw := false
    view := 0, msc := false, plane := g.plane, peer := 0, pfn := g.pa }

/-- The element of that page at an offset. -/
def State.remoteElem (s : State) (x : Fin 64) (g : RemotePage) (ty : Ty) (i off2 v : Nat) : Elem :=
  s.elemOf x ty ⟨⟨i, 0, false, v⟩, remoteLeaf g, 2 * g.va + off2⟩

/-- The keys of the bytes an element is read or written with: its own, or its block's with stamp word and scale. -/
def Elem.ranges (e : Elem) (pkg : Nat) (ty : Ty) : List (Nat × Nat) :=
  if e.leaf.block = 0 then [(e.pa2 / 2, (e.half ty + 1) / 2)]
  else
    let k := blockAt pkg e.leaf e.blk e.block2
    [(k.data2 / 2, (k.n * k.hb + 1) / 2)] ++ (match k.stamp with | some a => [(a, 4)] | none => [])
      ++ (match k.scale with | some a => [(a, 1)] | none => [])

/-- The elements a request stores. -/
def State.remoteElems (s : State) (x : Fin 64) (g : RemotePage) (ty : Ty) (els : List (Nat × Nat)) : List Elem :=
  els.zipIdx.map (fun p => s.remoteElem x g ty p.2 p.1.1 p.1.2)

/-- The elements of a block that a request stores. -/
def State.remoteBlock (s : State) (x : Fin 64) (g : RemotePage) (off2 : Nat) (ty : Ty) (cs : List Nat) : List Elem :=
  s.remoteElems x g ty (cs.zipIdx.map (fun p => (off2 + p.2 * ty.halfBytes, p.1)))

/-- The device memory that a request touches, as keys and lengths. -/
def State.remoteRanges (s : State) (x : Fin 64) : RemoteOp → List (Nat × Nat)
  | .load pa n => [(pa, n)]
  | .store pa bs => [(pa, bs.length)]
  | .loadElem g off2 ty => (s.remoteElem x g ty 0 off2 0).ranges s.pkg ty
  | .storeElems g ty els => (s.remoteElems x g ty els).flatMap (fun e => e.ranges s.pkg ty)
  | .atomic _ w pa _ | .cas w pa _ _ => [(pa, if w then 8 else 4)]
  | .storeMx g off2 ty _ cs => (s.remoteBlock x g off2 ty cs).flatMap (fun e => e.ranges s.pkg ty)
  | .combWrite _ _ _ _ | .combNibbles _ _ _ => []
  | .update _ _ op _ va _ _ _ _ => match s.pairPlace x (BitVec.ofNat 4 op.val) va.toNat with
    | some (k, l) => if l.isHere s.pkg then [(k, 1)] else []
    | none => []

/-- `n` bytes at a physical address lie within a partition's memory. -/
def paWithin (mask : Byte) (pa n : Nat) : Bool := (List.range n).all (fun i => inChannels mask (pa + i))

/-- A copy's sync word lies in the comb. -/
def remoteSyncOk (w : RemoteSync) : Bool := w.addr % 16 == 0 && decide (w.addr + 16 ≤ combEnd)

/-- What a request touches lies within the context's partition. -/
def State.remoteOk (s : State) (x : Fin 64) (op : RemoteOp) : Bool :=
  let mask := (s.ctx x).partMask
  (s.remoteRanges x op).all (fun r => paWithin mask r.1 r.2) && (match op with
    | .combWrite core addr bs sync => decide (core < 576) && inPart mask core && decide (addr + bs.length ≤ combEnd)
        && (match sync with | some w => remoteSyncOk w | none => true)
    | .combNibbles core a2 vs => decide (core < 576) && inPart mask core && decide (a2 + vs.length ≤ 2 * combEnd)
    | _ => true)

/-- The context a request is admitted into: one whose CTXPOD is its tag. -/
def State.admitting (s : State) (tag : Byte) (op : RemoteOp) : Option (Fin 64) :=
  (List.finRange 64).find? (fun x => (s.ctx x).state.isBound && (s.ctx x).podCtx == tag && s.remoteOk x op)

/-- The request's page is being migrated, or, for an update pair, is homed elsewhere by now (R150), or its unit is full (R207, R356). -/
def State.remoteAway (s : State) (x : Fin 64) (op : RemoteOp) : Bool :=
  (s.remoteRanges x op).any (fun r => s.migrations.any (fun m => (List.range r.2).any (fun i => m.leaf.holds s.pkg (r.1 + i))))
    || (match op with
      | .update _ _ _ _ va _ _ _ _ => match s.walk x (canonOf va.toNat) with
        | some l => !l.isHere s.pkg
            || (s.remoteRanges x op).any (fun r => decide (32 ≤ s.taken[unitOfLine (lineOf r.1)]))
        | none => false
      | _ => false)

/-- The first poisoned line of a block into which some elements are merged. -/
def State.poisonedMerge (s : State) (es : List Elem) : Option Nat :=
  (s.mergePoisoned es).bind (fun e => (e.ranges s.pkg .i8).findSome? (fun r => s.poisonIn r.1 r.2))

/-- The poisoned line that a request reads, or merges a block from (R340). -/
def State.remotePoisoned (s : State) (x : Fin 64) (op : RemoteOp) : Option Nat :=
  match op with
  | .load _ _ | .loadElem _ _ _ | .atomic _ _ _ _ | .cas _ _ _ _ => (s.remoteRanges x op).findSome? (fun r => s.poisonIn r.1 r.2)
  | .storeElems g ty els => s.poisonedMerge (s.remoteElems x g ty els)
  | .storeMx g off2 ty _ cs => s.poisonedMerge (s.remoteBlock x g off2 ty cs)
  | _ => none

/-- An answer goes to a peer by the routes of a partition: that of the context which took its request, or none did (R353, R354). -/
def State.answer (s : State) (p : Fin 64) (x : Option (Fin 64)) (tag : Byte) (r : PeerAnswer) : State :=
  let part? := match x with
    | some x => some (partNo (s.ctx x).partMask)
    | none => (List.finRange 8).find? (fun k => (s.routePort k p).isSome)
  let s := { s with peerReply := s.peerReply ++ [(p, r)] }
  match part? with
  | some k => s.transmit k p tag [] [r]
  | none => s

/-- An update pair from a peer, under this package's own region table (R207, R210): dropped where its address has no valid leaf, or
lies outside its view's layout. -/
def State.remotePair (s : State) (x : Fin 64) (region : Region) (gen op : Fin 16) (exp : BitVec 16) (va v : W64)
    (step : BitVec 16) (nf sat : Bool) : State :=
  match s.pairPlace x (BitVec.ofNat 4 op.val) va.toNat with
  | none => s.dropPair x region
  | some (key, l) =>
    s.acceptPair
      { ctx := x, reg := region, gen := BitVec.ofNat 4 gen.val, op := BitVec.ofNat 4 op.val, exp := exp
        key := key, leaf := l, va := va.toNat % 2 ^ 57, v := v.toNat, step := step, nf := nf, sat := sat }

/-- Elements stored for a peer, each block at once (R227). -/
def State.remoteStore (s : State) (x : Fin 64) (es : List Elem) (ty : Ty) : State :=
  let s := (es.filter (·.leaf.block == 0)).foldl (fun s e => s.storeElem e ty) s
  let bs := ((es.filter (·.leaf.block != 0)).map (·.blk)).eraseDups
  let s := bs.foldl (fun s b => s.storeBlock x (es.filter (fun e => e.leaf.block != 0 && e.blk == b)) ty) s
  s.unpoisonBy (es.map (fun e => (e.pa2, e.half ty)))

/-- A block of MX elements stored for a peer's copy: as State.copyBlock writes one of a copy of this package (R166). -/
def State.remoteMx (s : State) (x : Fin 64) (es : List Elem) (ty : Ty) (scale : Nat) : State :=
  let side : Side := ⟨.va, 0, ty, true⟩
  let s := s.copyBlock x side side 0 (es.map (fun e => (⟨0, 0, 0, false, false⟩, some (.page e),
    ⟨e.val, mxDecode ty scale e.val, false, false, true, some scale⟩)))
  s.unpoisonBy (es.map (fun e => (e.pa2, e.half ty)))

/-- Bytes of a peer's copy written to a comb, and what its sync word gets (R172, R173). -/
def State.remoteComb (s : State) (core addr : Nat) (bs : List Byte) (sync : Option RemoteSync) : State :=
  let c := s.core core
  let s := s.setCore { c with comb := c.comb.writeBytes addr bs }
  match sync with
  | some w => s.mapSync (some (.comb core, w.addr)) (fun y => (y.arrive w.count).join w.code w.reason w.nonres w.stale)
  | none => s

/-- An admitted request is performed as it would be locally; the bytes it answers, and whether the element is stale. -/
def State.remoteDo (s : State) (x : Fin 64) (op : RemoteOp) : (List Byte × Bool) × State :=
  match op with
  | .load pa n => let (bs, s) := s.homeRead pa n; ((bs, false), s)
  | .store pa bs => (([], false), s.homeWrite pa bs)
  | .loadElem g off2 ty =>
    let ((v, stale), s) := s.loadElem x (s.remoteElem x g ty 0 off2 0) ty
    ((leBytes ((ty.halfBytes + 1) / 2) v, stale), s)
  | .storeElems g ty els => (([], false), s.remoteStore x (s.remoteElems x g ty els) ty)
  | .atomic op w pa v =>
    let (old, s) := s.atomicAt (.amo op) pa (if w then 64 else 32) (v.toNat % 2 ^ (if w then 64 else 32))
    ((leBytes (if w then 8 else 4) old, false), s)
  | .cas w pa e v =>
    let (old, s) := s.atomicAt (.cas e) pa (if w then 64 else 32) (v.toNat % 2 ^ (if w then 64 else 32))
    ((leBytes (if w then 8 else 4) old, false), s)
  | .storeMx g off2 ty sc cs => (([], false), s.remoteMx x (s.remoteBlock x g off2 ty cs) ty sc)
  | .combWrite core addr bs sync => (([], false), s.remoteComb core addr bs sync)
  | .combNibbles core a2 vs => (([], false), s.setCore ((s.core core).storeComb 1 (vs.zipIdx.map (fun p => (a2 + p.2, p.1)))))
  | .update r g o e va v st nf sat => (([], false), s.remotePair x r g o e va v st nf sat)

/-- A request from package `p` with pod tag `tag`. -/
def State.remote (s : State) (p : Fin 64) (tag : Byte) (op : RemoteOp) : State :=
  match s.admitting tag op with
  | none => s.answer p none tag .denied
  | some x =>
    let s := match op with | .update _ _ _ _ va _ _ _ _ => s.readTables x [canonOf va.toNat] | _ => s
    if s.remoteAway x op then
      let (n, s) := s.draw
      s.answer p (some x) tag (.refused (BitVec.ofNat 8 (Config.pick n)))
    else match s.remotePoisoned x op with
    | some line => s.eccFault x none (eccInfo 3 (64 * line))
    | none =>
      let ((bs, stale), s) := s.remoteDo x op
      s.answer p (some x) tag (.done bs stale)

def execRemoteRequest (pkg : Fin 64) (podCtx : Byte) (op : RemoteOp) (s : State) : Host.Outcome State Fault Refusal :=
  .next (s.remote pkg podCtx op)

/-! ### Ports and flits (R353, R354) -/

def State.setPort (s : State) (n : Fin 12) (p : Port) : State := { s with ports := s.ports.set n p }

/-- A partition number that exists: some context is bound to it (R324, R349). -/
def State.portLive (s : State) (n : Fin 12) : Bool :=
  s.ports[n].up && (let k := (s.portPart[n]).toNat; k != 0 && decide (k ≤ 8) && !(s.boundTo (k - 1)).isEmpty)

/-- A flit leaves: it gets the port's next SEQ and the ACK of the last flit received whole. -/
def Port.send (p : Port) (f : Flit) : Port :=
  { p with txSeq := p.txSeq + 1, unacked := p.unacked ++ [({ f with seq := p.txSeq + 1, ack := p.rxSeq }, 0)]
           lastTc := if f.tc = 0 then p.lastTc else f.tc }

/-- The flits of a port up to SEQ `a` are acknowledged; an ACK of no such flit says nothing. -/
def Port.acknowledge (p : Port) (a : BitVec 12) : Port :=
  if p.unacked.any (·.1.seq == a) then { p with acked := a, unacked := (p.unacked.dropWhile (·.1.seq != a)).drop 1 } else p

/-- Flit `k` of those not acknowledged is sent again, with every later one; once one of them has been sent again 8 times the port goes
down instead. -/
def State.resend (s : State) (n : Fin 12) (k : Nat) : State :=
  let p := s.ports[n]
  let again := p.unacked.drop k
  if again.isEmpty then s
  else if again.any (fun f => 8 ≤ f.2) then s.routesLeft (s.setPort n { p with up := false, unacked := [] })
  else (s.setPort n { p with unacked := p.unacked.take k ++ again.map (fun f => (f.1, f.2 + 1))
                             resent := satInc p.resent again.length }).bump (.resent n.val) again.length

/-- A flit for another package goes on by this package's routes; one that reaches HOPS 7, or finds no usable route, is discarded. -/
def State.forward (s : State) (n : Fin 12) (f : Flit) : State :=
  let part : Fin 8 := Fin.ofNat 8 ((s.portPart[n]).toNat - 1)
  if 6 ≤ f.hops.val ∨ (s.routePort part f.dpkg).isNone then s
  else { s with outgoing := s.outgoing ++ [(part, { f with hops := f.hops + 1 })] }

/-- A flit received whole and in order: the requests packed in one for this package, in order; one for another goes on. The responses in
it are those that the outcomes of this package's own requests stand for (log 51). -/
def State.deliver (s : State) (n : Fin 12) (f : Flit) : State :=
  if f.dpkg.val = s.pkg then f.body.foldl (fun s op => s.remote f.spkg f.podCtx op) s else s.forward n f

/-- A flit arrives. One that fails its CRC is not acknowledged. Of the rest, its ACK counts, and the next one in order is
acknowledged and delivered. -/
def execFlitReceive (port : Fin 12) (f : Flit) (s : State) : Host.Outcome State Fault Refusal :=
  if !s.portLive port || !f.crcOk then .next s
  else
    let p := s.ports[port].acknowledge f.ack
    if f.seq == p.rxSeq + 1 then .next ((s.setPort port { p with rxSeq := f.seq }).deliver port f) else .next (s.setPort port p)

/-- The flits that leave through port `n` as the routes now are: the primary port's, or while it is down the alternate's (R354). -/
def State.flitsOf (s : State) (n : Fin 12) : List (Fin 8 × Flit) := s.outgoing.filter (fun q => s.routePort q.1 q.2.dpkg == some n.val)

/-- The next of some flits: class 0 first, the classes 1 to 3 in turn after the one that sent last (R354). -/
def Port.nextFlit (p : Port) (q : List (Fin 8 × Flit)) : Option (Fin 8 × Flit) :=
  match q.find? (·.2.tc == 0) with
  | some f => some f
  | none =>
    let turn : List (Fin 4) := match p.lastTc with | 1 => [2, 3, 1] | 2 => [3, 1, 2] | _ => [1, 2, 3]
    turn.findSome? (fun c => q.find? (·.2.tc == c))

/-- A port sends again what is not acknowledged, sends its next flit, or does neither yet (log 3). -/
def State.sendFrom (s : State) (n : Fin 12) : State :=
  let p := s.ports[n]
  let q := s.flitsOf n
  if !s.portLive n || (q.isEmpty && p.unacked.isEmpty) then s
  else
    let (k, s) := s.draw
    match Config.pick k % 3 with
    | 0 => s
    | 1 => s.resend n (Config.pick k / 3 % (p.unacked.length + 1))
    | _ => match p.nextFlit q with
      | some f => { s with outgoing := s.outgoing.erase f }.setPort n (p.send f.2)
      | none => s

/-- Retraining brings a port up, with its numbering from the start (log 40). -/
def execPortTrained (port : Fin 12) (s : State) : Host.Outcome State Fault Refusal :=
  .next (s.setPort port { Port.reset with up := true, resent := s.ports[port].resent })

end Sys2Proof.Machine
end

