-- ==== Sys2Proof/Machine/Outside.lean ====
section
/-! DEFINITION. The host's registers, its window and CXL.mem accesses, its links (R347 to R351). -/
namespace Sys2Proof.Machine

/-! ### Host registers (R349) -/

/-- CTXCMD: the command starts, or is discarded. -/
def State.hostCommand (s : State) (v : W64) : State :=
  let code := bits v 0 4
  if !bitSet s.ctxRes.toNat 63 then { s with ctxRes := s.ctxRes ||| BitVec.ofNat 64 (2 ^ 62) }
  else if code = 0 ∨ 10 < code then s
  else { s with cmd := some (code, Fin.ofNat 64 (bits v 8 6), s.ctxDesc.toNat), ctxRes := s.ctxRes &&& 0x3FFF_FFFF_FFFF_FFFF }

/-- TIMECTL: a source that is disabled no longer locks DTIME. -/
def State.setTimeCtl (s : State) (v : W64) : State :=
  let s := if bitSet v.toNat 2 then s.clearStep else s
  { s with timeCtl := v &&& 0xFFFF_FFFF_0000_0003, timeLock := s.timeLock &&& v.truncate 2 }

/-- PODCFG: the bit of the package's own number moves with it (R359). -/
def State.setPodCfg (s : State) (v : W64) : State :=
  let own (n : Nat) : W64 := BitVec.ofNat 64 (2 ^ n)
  let t := { s with podCfg := v &&& 0x3F3F }
  if t.pkg = s.pkg then t
  else { t with peerLive := s.peerLive.map (fun w => (w &&& ~~~(own s.pkg)) ||| own t.pkg) }

/-- PEERSET. -/
def State.peerSet (s : State) (v : W64) : State :=
  let p : Fin 64 := Fin.ofNat 64 (bits v 0 6)
  let k : Fin 8 := Fin.ofNat 8 (bits v 8 3)
  if bitSet v.toNat 63 then s.admitPeer k p else s.losePeer k p

/-- A host write of a BAR 0 register. Offsets not listed, and read-only ones, discard it. -/
def State.hostWrite (s : State) (off : Nat) (v : W64) : State :=
  if off = 0x0000 then s.hostCommand v
  else if off = 0x0008 then { s with ctxDesc := v }
  else if off = 0x0018 then { s with winBase := v &&& 0x000F_FFF0_0000_0000 }
  else if off = 0x0100 then s.readTail (Fin.ofNat 64 (bits v 0 6)) (Fin.ofNat 16 (bits v 8 4)) true
  else if off = 0x0108 then { s with lqOvf := s.lqOvf &&& ~~~v }
  else if off = 0x0200 then s.setTimeCtl v
  else if off = 0x0208 then s.setTime v
  else if off = 0x0300 then s.setPodCfg v
  else if off = 0x0308 then s.peerSet v
  else if off % 8 ≠ 0 then s
  else if 0x0310 ≤ off ∧ off < 0x0370 then
    s.routesLeft { s with portPart := s.portPart.set (Fin.ofNat 12 ((off - 0x310) / 8)) (v.truncate 4) }
  else if 0x1000 ≤ off ∧ off < 0x2000 then
    s.routesLeft { s with route := s.route.set (Fin.ofNat 512 ((off - 0x1000) / 8)) (v.truncate 9) }
  else if 0x2000 ≤ off ∧ off < 0x2200 then
    let x : Fin 64 := Fin.ofNat 64 ((off - 0x2000) / 8)
    s.setCtx x { s.ctx x with podCtx := v.truncate 8 }
  else s

/-- A host read of a BAR 0 register. -/
def State.hostRead (s : State) (off : Nat) : W64 :=
  if off = 0x0008 then s.ctxDesc
  else if off = 0x0010 then s.ctxRes
  else if off = 0x0018 then s.winBase
  else if off = 0x0108 then s.lqOvf
  else if off = 0x0200 then s.timeCtl
  else if off = 0x0300 then s.podCfg
  else if off % 8 ≠ 0 then 0
  else if 0x0310 ≤ off ∧ off < 0x0370 then (s.portPart[Fin.ofNat 12 ((off - 0x310) / 8)]).zeroExtend 64
  else if 0x1000 ≤ off ∧ off < 0x2000 then (s.route[Fin.ofNat 512 ((off - 0x1000) / 8)]).zeroExtend 64
  else if 0x2000 ≤ off ∧ off < 0x2200 then ((s.ctx (Fin.ofNat 64 ((off - 0x2000) / 8))).podCtx).zeroExtend 64
  else 0

def execHostRegisterWrite (off : Nat) (v : W64) (s : State) : Host.Outcome State Fault Refusal := .next (s.hostWrite off v)

/-! ### Memory (R347, R348) -/

/-- How many of `n` bytes at a physical address lie in the HBM. -/
def insideHbm (pa n : Nat) : Nat := min n (hbmEnd - pa)

/-- A host access at the memory-side units: bins applied first, nothing melted. Bytes outside the HBM read ones and drop
writes. -/
def State.hostAccess (s : State) (pa : Nat) (acc : HostAccess) : State :=
  match acc with
  | .read n =>
    let k := insideHbm pa n
    let (bs, s) := s.homeRead pa k
    { s with hostReply := s.hostReply ++ [bs ++ List.replicate (n - k) 0xFF] }
  | .write bs => s.homeWrite pa (bs.take (insideHbm pa bs.length))

def execHostWindowAccess (off : Nat) (acc : HostAccess) (s : State) : Host.Outcome State Fault Refusal :=
  .next (s.hostAccess (s.winBase.toNat + off) acc)

/-- The bytes an access names. -/
def accessSize : HostAccess → Nat
  | .read n => n
  | .write bs => bs.length

/-- The host names its own memory through CXL.mem, over link A in CXL mode; otherwise no access reaches the device. An address that no
HBM byte has is none of the device's (log 41). -/
def execCxlMemAccess (pa : Nat) (acc : HostAccess) (s : State) : Host.Outcome State Fault Refusal :=
  if !(s.linkA && s.cxlA) then .next s
  else if hbmEnd < pa + accessSize acc then .fault (.noMemory pa) else .next (s.hostAccess pa acc)

/-! ### Links A and B (R347, R350) -/

/-- A link is up or down; `cxl`: it runs in CXL mode (R347). -/
def State.setLink (s : State) (l : HostLink) (up cxl : Bool) : State :=
  match l with
  | .a => { s with linkA := up, cxlA := cxl }
  | .b => { s with linkB := up, cxlB := cxl }

def execHostLinkDown (l : HostLink) (s : State) : Host.Outcome State Fault Refusal := .next (s.setLink l false false)

/-- The link trains, in the mode the host has configured. -/
def execHostLinkTrained (l : LinkUp) (s : State) : Host.Outcome State Fault Refusal := .next (s.setLink l.link true l.cxl)

/-- The held MSI-X vectors are tried again. -/
def State.resignal (s : State) : State := s.msixWait.foldl State.signal s

end Sys2Proof.Machine
end

