-- ==== Sys2Proof/Machine/Power.lean ====
section
/-! DEFINITION. Power, telemetry, the management path and the root of trust (R382 to R392). -/
namespace Sys2Proof.Machine

/-! ### Power (R382, R383, R390) -/

/-- A power-off, the input having been outside 40 to 60 V for 10 ms: nothing is held but flash. Of a low input, telemetry was written as it
fell (R386, State.keepTime). -/
def execInputOutOfRange (_low : Bool) (s : State) : Host.Outcome State Fault Refusal :=
  .next { s.fresh [] s.fwActive with mem := {}, powered := false, bootSlot := none, fwActive := s.fwActive, fwStaged := s.fwStaged
                                     msixWait := [] }

/-- Power is applied: everything but flash and fuses is as at reset, and the root of trust boots a slot. -/
def execPowerOnReset (s : State) : Host.Outcome State Fault Refusal :=
  .next { s.fresh s.flashTele s.fwActive with mem := {}, fwStaged := s.fwStaged }

/-- The partition must swallow pulses: its power exceeds its cap, or in SWALLOW mode a sensor of one of its half-dies reads above 105 °C
(R383); in FORECAST mode, once it swallows, until its power is below the cap (R384). -/
def State.mustSwallow (s : State) (part : Fin 8) : Bool :=
  let p := s.parts[part]
  !(s.boundTo part.val).isEmpty && (decide (p.cap < Config.power s.pulse part.val)
    || (p.forecast && p.frac != 0 && decide (p.cap ≤ Config.power s.pulse part.val))
    || (!p.forecast && (List.finRange 8).any (fun hd => s.partOf hd == part && decide (105 < Config.celsius s.pulse hd.val))))

/-- The controller acts: a partition that must swallows `frac` sixteenths of the pulses, at least one, and another none; how many is left
open (log 50). Beginning to is a management event (R387). -/
def execThrottle (part : Fin 8) (frac : Fin 16) (s : State) : Host.Outcome State Fault Refusal :=
  let p := s.parts[part]
  let f : Fin 16 := if s.mustSwallow part then (if frac = 0 then 1 else frac) else 0
  let s := { s with parts := s.parts.set part { p with frac := f } }
  .next (if p.frac = 0 ∧ f ≠ 0 then s.signal 64 else s)

/-! ### Telemetry (R385, R386) -/

def execTelemetryFlush (s : State) : Host.Outcome State Fault Refusal := .next s.flush

def msPulses : Nat := 1000 * pulsesPerUs

/-- The bin of a sixteen-bin histogram. -/
def histBin (v : Nat) : Nat := min v 15

/-- Throttle residency of each partition, a sample of each sensor, and the errors corrected in each structure of a die and the flits resent
on links A and B (12 and 13) since the last sample (R340, R385; log 3). -/
def State.sample (s : State) : State :=
  let s := (List.finRange 8).foldl (fun s k => s.bump (.throttle k.val (histBin (s.parts[k]).frac.val)) 1) s
  let s := (List.range 20).foldl (fun s k => s.bump (.temperature k (histBin (Config.celsius s.pulse k / 8))) 1) s
  let s := (List.range 4).foldl (fun s k => let (n, s) := s.draw; s.bump (.voltage k (Config.pick n % 16)) 1) s
  let s := (List.range 20).foldl (fun s k => let (n, s) := s.draw; s.bump (.corrected (k / 4) (k % 4)) (Config.pick n)) s
  [12, 13].foldl (fun s k => let (n, s) := s.draw; s.bump (.resent k) (Config.pick n)) s

def execTelemetrySample (s : State) : Host.Outcome State Fault Refusal := .next s.sample

/-! ### The management path (R387) -/

/-- The counts of a telemetry set, in the order of R385's table (log 42). -/
def teleSet (set : Nat) : List TeleKey :=
  match set with
  | 0 => (List.range 20).flatMap (fun k => (List.range 16).map (fun b => .temperature k b))
  | 1 => (List.range 4).flatMap (fun k => (List.range 16).map (fun b => .voltage k b))
  | 2 => (List.range 5).flatMap (fun k => (List.range 4).flatMap (fun d => [.corrected k d, .uncorrectable k d]))
  | 3 => (List.range 14).map (fun p => .resent p)
  | 4 => [.watchdogs, .partResets, .devResets]
  | 5 => (List.range 8).flatMap (fun k => (List.range 16).map (fun b => .throttle k b))
  | 6 => [.hours]
  | _ => []

def State.count (s : State) (k : TeleKey) : W64 :=
  match s.telemetry.find? (fun p => p.1 == k) with
  | some p => p.2
  | none => 0

def execTelread (set : Nat) (s : State) : Host.Outcome State Fault Refusal :=
  .next (if s.booted then { s with mgmtReply := s.mgmtReply ++ [(teleSet set).map s.count] } else s)

/-- POWERSET: cap and mode wait for the partition's next BIND (R382). -/
def execPowerset (part : Fin 8) (cap : Nat) (forecast : Bool) (s : State) : Host.Outcome State Fault Refusal :=
  .next (if s.booted then { s with parts := s.parts.set part { s.parts[part] with nextCap := cap, nextFc := forecast } } else s)

def execDevreset (s : State) : Host.Outcome State Fault Refusal := .next (if s.booted then s.deviceReset else s)

/-! ### Firmware and attestation (R391, R392) -/

/-- FWSTAGE writes the inactive slot. -/
def execFwstage (img : FwImage) (s : State) : Host.Outcome State Fault Refusal :=
  .next (if s.powered then { s with fwSlots := s.fwSlots.set (1 - s.fwActive) (some img), fwStaged := true } else s)

/-- The SHA-256 of a slot; of an empty one the spec gives none (log 30). -/
def State.slotDigest (s : State) (k : Fin 2) : BitVec 256 :=
  match s.fwSlots[k] with
  | some i => i.digest
  | none => Config.emptyDigest k.val

/-- What a report's signature covers. -/
def Report.body (r : Report) : Nat :=
  r.nonce.toNat + 2 ^ 256 * ((r.digests[0]).toNat + 2 ^ 256 * ((r.digests[1]).toNat + 2 ^ 256 * (r.version.toNat
    + 2 ^ 32 * (match r.slot with | none => 0 | some k => k.val + 1))))

/-- ATTEST: the report, signed with the attestation key (log 30). -/
def execAttest (nonce : BitVec 256) (s : State) : Host.Outcome State Fault Refusal :=
  if s.powered then
    let r : Report := ⟨nonce, #v[s.slotDigest 0, s.slotDigest 1], s.fuseVersion, s.bootSlot, 0⟩
    .next { s with reports := s.reports ++ [{ r with sig := Config.sign r.body }] }
  else .next s

end Sys2Proof.Machine
end

