-- ==== Sys2Proof/Machine/Stamps.lean ====
section
/-! DEFINITION. The step register and sweeps (R218, R220, R228, R229). -/
namespace Sys2Proof.Machine

/-! ### stepadv -/

def execStepadv (h : Hdr) (s : State) : Host.Outcome State Fault Refusal :=
  s.issue h 0x69 (fun _ => .go s { lat := none, fixed := false, holds := some .fence, body := .word (.stepadv h) [] [] 0 0 0 })

/-- Steps 1 and 2 of R220: `fence.rel.sc3`, a release at scope 3, and X's factors at every unit. -/
def State.stepReady (s : State) (id : Nat) (c : Core) (a : Act) : Bool :=
  s.fenceMet c .x a.id .rel 0xFFFF (c.scopes[3]).reach && s.releaseMet c .x a.id 0xFFFF (c.scopes[3]).reach
    && s.props.all (fun p => !(p.src == id && p.what.isDcf && p.core.isNone))

/-- GSTEP rises and every unit takes it; SWEEP_DUE at multiples of 2^13 (R228). -/
def State.stepUnits (s : State) (x : Fin 64) : State :=
  let c := s.ctx x
  let g := c.gstep + 1
  let due := g.toNat % 2 ^ 13 == 0
  let s := s.setCtx x { c with gstep := g, unitStep := g, stepDue := c.stepDue || due }
  if due then s.postEvent x 0x01 (BitVec.ofNat 64 g.toNat) else s

/-- Every core of the context takes the units' step, after the units (R218). -/
def State.stepCores (s : State) (x : Fin 64) : State :=
  { s with cores := s.cores.map (fun c => if c.task.isSome && c.ctxId == x then { c with cstep := (s.ctx x).unitStep } else c) }

/-- One cycle of a `stepadv`: its waits, the units, the cores, its completion. -/
def State.runStep (s : State) (id : Nat) (a : Act) : State :=
  let c := s.core id
  let x := c.ctxId
  if a.due.isSome then s
  else match a.body with
  | .word (.stepadv _) _ _ _ 0 _ => if s.stepReady id c a then (s.stepUnits x).acked id a else s
  | .word (.stepadv _) _ _ _ 1 t =>
    if t ≤ s.cycle c && s.factorsSpread id then
      let s := s.stepCores x
      s.setCore ((s.core id).setAct { a with due := some (s.cycle c) })
    else s
  | _ => s

/-! ### Sweeps (R229) -/

def execStsweep (h : Hdr) (a b c : GReg) (s : State) : Host.Outcome State Fault Refusal :=
  s.issue h 0x6A (fun co =>
    let va := co.rd h.eng a
    let len := co.rd h.eng b
    let sy := co.rd h.eng c
    if !canonicalVA va ∨ 2 ^ 48 < len.toNat then .illegal 0x0D
    else (syncBad sy).getD (.go s
      { lat := none, fixed := false, body := .word (.stsweep h a b c) [va, len, sy] [] 0 0 0 }))

/-- The units accept a sweep. -/
def State.runSweepWord (s : State) (id : Nat) (a : Act) : State :=
  match a.body with
  | .word (.stsweep _ _ _ _) [va, len, sy] _ _ 0 _ =>
    let (no, s) := s.newNo
    let s := if len = 0 then s
      else { s with sweeps := s.sweeps ++ [⟨no, id, (s.core id).ctxId, va.toNat, va.toNat + len.toNat, sy.toNat⟩] }
    s.acked id a
  | _ => s

/-- One block of a swept page (R229): whether it was stale. -/
def State.sweepBlock (s : State) (x : Fin 64) (l : Leaf) (b : Nat) : Bool × State :=
  let hb := l.blockTy.halfBytes
  let d2 := s.start2 x l + b * l.block * hb
  let k := blockAt s.pkg l b d2
  let s := (s.touch (d2 / 2) ((l.block * hb + 1) / 2)).touchPlane k
  let w := k.stampWord s.mem
  let g := (s.ctx x).unitStep
  let t := BitVec.ofNat 16 g.toNat
  let d := ageOf g w
  if 2 ^ 15 ≤ d then
    let m := match k.stamp with | some a => s.mem.writeNat a 4 (newStamp w t true) | none => s.mem
    (true, { s with mem := m }.staleMet x k.va)
  else if (s.ctx x).sweepTh.toNat ≤ d then
    let f := ((s.ctx x).unitDcf[dclassOf w]).toNat
    (false, { s with mem := (k.apply s.mem f g (some t) [] []).1 })
  else (false, s)

/-- Blocks of a page, one after the other; whether any was stale. -/
def State.sweepBlocks (s : State) (x : Fin 64) (l : Leaf) : List Nat → Bool × State
  | [] => (false, s)
  | b :: t =>
    let (st, s) := s.sweepBlock x l b
    let (st', s) := s.sweepBlocks x l t
    (st || st', s)

def State.setSweep (s : State) (k : Sweep) : State :=
  { s with sweeps := if k.stop ≤ k.va then s.sweeps.filter (·.no != k.no)
                     else s.sweeps.map (fun q => if q.no = k.no then k else q) }

/-- The next page of a sweep is handled or skipped, and the sync word gains its size. -/
def execSweepPage (k : Nat) (s : State) : Host.Outcome State Fault Refusal :=
  match s.sweeps.find? (·.no == k) with
  | none => .next s
  | some w =>
    let s := s.readTables w.ctx [BitVec.ofNat 64 w.va]
    match s.walk w.ctx (BitVec.ofNat 64 w.va) with
    | none => .next ((s.syncGain w.core w.sync (2 ^ 16)).setSweep { w with va := w.va / 2 ^ 16 * 2 ^ 16 + 2 ^ 16 })
    | some l =>
      let next := { w with va := w.va - (w.va % 2 ^ 57 - l.base) + l.bytes }
      let hb := l.blockTy.halfBytes
      let bs := s.blocksOver w.ctx l hb 0 l.bytes
      let bad (b : Nat) : Bool := s.poisonedBlock (blockAt s.pkg l b (s.start2 w.ctx l + b * l.block * hb))
      if (s.lockOn l).isSome then .next s
      else if !l.res then .next (((s.postEvent w.ctx 0x06 (BitVec.ofNat 64 w.va)).syncGain w.core w.sync l.bytes).setSweep next)
      else if !l.isStamped ∨ l.home ≠ 0 then .next ((s.syncGain w.core w.sync l.bytes).setSweep next)
      else if bs.any bad then .next ((s.eccFault w.ctx none (eccInfo 3 w.va)).setSweep next)
      else
        let (st, s) := s.sweepBlocks w.ctx l bs
        let s := if st then s.mapSync (some (.comb w.core, w.sync)) (fun y => y.join 0 0 false true) else s
        .next ((s.syncGain w.core w.sync l.bytes).setSweep next)

end Sys2Proof.Machine
end

