-- ==== Sys2Proof/Machine/Dispatch.lean ====
section
/-! DEFINITION. The dispatch: one arm per step of the spec's table, each a direct call of its meaning. -/
namespace Sys2Proof.Machine

/-- What one step of the part does. -/
def exec (i : Instr) (s : State) : Host.Outcome State Fault Refusal :=
  match i with
  | .nop h => Sys2Proof.Machine.execNop h s
  | .endW h => Sys2Proof.Machine.execEndW h s
  | .add h d a b => Sys2Proof.Machine.execAdd h d a b s
  | .sub h d a b => Sys2Proof.Machine.execSub h d a b s
  | .mul h d a b => Sys2Proof.Machine.execMul h d a b s
  | .mulh h d a b => Sys2Proof.Machine.execMulh h d a b s
  | .mulhu h d a b => Sys2Proof.Machine.execMulhu h d a b s
  | .madd h d a b c => Sys2Proof.Machine.execMadd h d a b c s
  | .and h d a b => Sys2Proof.Machine.execAnd h d a b s
  | .or h d a b => Sys2Proof.Machine.execOr h d a b s
  | .xor h d a b => Sys2Proof.Machine.execXor h d a b s
  | .shl h d a b => Sys2Proof.Machine.execShl h d a b s
  | .shr h d a b => Sys2Proof.Machine.execShr h d a b s
  | .sar h d a b => Sys2Proof.Machine.execSar h d a b s
  | .min h d a b => Sys2Proof.Machine.execMin h d a b s
  | .max h d a b => Sys2Proof.Machine.execMax h d a b s
  | .minu h d a b => Sys2Proof.Machine.execMinu h d a b s
  | .maxu h d a b => Sys2Proof.Machine.execMaxu h d a b s
  | .slt h d a b => Sys2Proof.Machine.execSlt h d a b s
  | .sltu h d a b => Sys2Proof.Machine.execSltu h d a b s
  | .seq h d a b => Sys2Proof.Machine.execSeq h d a b s
  | .sel h d a b c => Sys2Proof.Machine.execSel h d a b c s
  | .clz h d a => Sys2Proof.Machine.execClz h d a s
  | .popc h d a => Sys2Proof.Machine.execPopc h d a s
  | .addi h d a imm => Sys2Proof.Machine.execAddi h d a imm s
  | .andi h d a imm => Sys2Proof.Machine.execAndi h d a imm s
  | .ori h d a imm => Sys2Proof.Machine.execOri h d a imm s
  | .xori h d a imm => Sys2Proof.Machine.execXori h d a imm s
  | .shli h d a imm => Sys2Proof.Machine.execShli h d a imm s
  | .shri h d a imm => Sys2Proof.Machine.execShri h d a imm s
  | .sari h d a imm => Sys2Proof.Machine.execSari h d a imm s
  | .slti h d a imm => Sys2Proof.Machine.execSlti h d a imm s
  | .ldi h d imm => Sys2Proof.Machine.execLdi h d imm s
  | .orhi h d imm => Sys2Proof.Machine.execOrhi h d imm s
  | .bfx h d a pos wid sx => Sys2Proof.Machine.execBfx h d a pos wid sx s
  | .bfi h d a b pos wid => Sys2Proof.Machine.execBfi h d a b pos wid s
  | .beq h a b off => Sys2Proof.Machine.execBeq h a b off s
  | .bne h a b off => Sys2Proof.Machine.execBne h a b off s
  | .blt h a b off => Sys2Proof.Machine.execBlt h a b off s
  | .bge h a b off => Sys2Proof.Machine.execBge h a b off s
  | .bltu h a b off => Sys2Proof.Machine.execBltu h a b off s
  | .bgeu h a b off => Sys2Proof.Machine.execBgeu h a b off s
  | .jmp h off => Sys2Proof.Machine.execJmp h off s
  | .jal h a off => Sys2Proof.Machine.execJal h a off s
  | .loop h a off => Sys2Proof.Machine.execLoop h a off s
  | .jr h a => Sys2Proof.Machine.execJr h a s
  | .tsig h q a imm => Sys2Proof.Machine.execTsig h q a imm s
  | .twait h q a imm => Sys2Proof.Machine.execTwait h q a imm s
  | .tqrd h d a b => Sys2Proof.Machine.execTqrd h d a b s
  | .sysr h d a imm => Sys2Proof.Machine.execSysr h d a imm s
  | .sysw h d a imm => Sys2Proof.Machine.execSysw h d a imm s
  | .tqceilWrite core act => Sys2Proof.Machine.execTqceilWrite core act s
  | .tqcntWrite core act => Sys2Proof.Machine.execTqcntWrite core act s
  | .amaxWrite core act => Sys2Proof.Machine.execAmaxWrite core act s
  | .dcfWrite core sp => Sys2Proof.Machine.execDcfWrite core sp s
  | .scopeEntryWrite core sp => Sys2Proof.Machine.execScopeEntryWrite core sp s
  | .pause h a imm tok => Sys2Proof.Machine.execPause h a imm tok s
  | .pauseEnd core act => Sys2Proof.Machine.execPauseEnd core act s
  | .trap h a imm => Sys2Proof.Machine.execTrap h a imm s
  | .fence h kind scope cmask => Sys2Proof.Machine.execFence h kind scope cmask s
  | .qfence h inq outq => Sys2Proof.Machine.execQfence h inq outq s
  | .exit h => Sys2Proof.Machine.execExit h s
  | .exitAbort h => Sys2Proof.Machine.execExitAbort h s
  | .taskComplete core => Sys2Proof.Machine.execTaskComplete core s
  | .resume h => Sys2Proof.Machine.execResume h s
  | .handlerEntry core => Sys2Proof.Machine.execHandlerEntry core s
  | .tokenDeadlock core => Sys2Proof.Machine.execTokenDeadlock core s
  | .resultLanding core act => Sys2Proof.Machine.execResultLanding core act s
  | .variableResultLanding core act => Sys2Proof.Machine.execVariableResultLanding core act s
  | .trans h d a b => Sys2Proof.Machine.execTrans h d a b s
  | .walkEnd core h => Sys2Proof.Machine.execWalkEnd core h s
  | .hstat h d a => Sys2Proof.Machine.execHstat h d a s
  | .hinv h d => Sys2Proof.Machine.execHinv h d s
  | .shootdown ctx va => Sys2Proof.Machine.execShootdown ctx va s
  | .ringdef h d a b => Sys2Proof.Machine.execRingdef h d a b s
  | .rclaim h d a n => Sys2Proof.Machine.execRclaim h d a n s
  | .rwaite h d a n => Sys2Proof.Machine.execRwaite h d a n s
  | .rwaitf h d a n => Sys2Proof.Machine.execRwaitf h d a n s
  | .rcommit h a n => Sys2Proof.Machine.execRcommit h a n s
  | .rrel h a n => Sys2Proof.Machine.execRrel h a n s
  | .rcommitApply core act => Sys2Proof.Machine.execRcommitApply core act s
  | .rrelApply core act => Sys2Proof.Machine.execRrelApply core act s
  | .roomAnswer core ring => Sys2Proof.Machine.execRoomAnswer core ring s
  | .creditArrival core ring n => Sys2Proof.Machine.execCreditArrival core ring n s
  | .rapp h d a => Sys2Proof.Machine.execRapp h d a s
  | .rappArrival core act => Sys2Proof.Machine.execRappArrival core act s
  | .syncset h a b c => Sys2Proof.Machine.execSyncset h a b c s
  | .syncwait h d a b c pl => Sys2Proof.Machine.execSyncwait h d a b c pl s
  | .syncwaitTimeout core act => Sys2Proof.Machine.execSyncwaitTimeout core act s
  | .syncrd h d a field => Sys2Proof.Machine.execSyncrd h d a field s
  | .cld h d a b m => Sys2Proof.Machine.execCld h d a b m s
  | .cst h d a b m => Sys2Proof.Machine.execCst h d a b m s
  | .lds h d a b c res m => Sys2Proof.Machine.execLds h d a b c res m s
  | .sts h d a b m => Sys2Proof.Machine.execSts h d a b m s
  | .tld h d a b gl rm m => Sys2Proof.Machine.execTld h d a b gl rm m s
  | .tldx h d a b c gl rm m => Sys2Proof.Machine.execTldx h d a b c gl rm m s
  | .mld h d a b pm gl rm z m => Sys2Proof.Machine.execMld h d a b pm gl rm z m s
  | .mgath h d a b pm gl rm z m => Sys2Proof.Machine.execMgath h d a b pm gl rm z m s
  | .tst h d a b gl m => Sys2Proof.Machine.execTst h d a b gl m s
  | .tstx h d a b c gl m => Sys2Proof.Machine.execTstx h d a b c gl m s
  | .mst h d a b pm gl m => Sys2Proof.Machine.execMst h d a b pm gl m s
  | .mscat h d a b pm gl m => Sys2Proof.Machine.execMscat h d a b pm gl m s
  | .pref h a b c => Sys2Proof.Machine.execPref h a b c s
  | .pgreq h a b c => Sys2Proof.Machine.execPgreq h a b c s
  | .pageResident k => Sys2Proof.Machine.execPageResident k s
  | .migrationRequest ctx va dest pfn plane => Sys2Proof.Machine.execMigrationRequest ctx va dest pfn plane s
  | .migrationDrained k => Sys2Proof.Machine.execMigrationDrained k s
  | .migrationCopied k => Sys2Proof.Machine.execMigrationCopied k s
  | .migrationSwitched k => Sys2Proof.Machine.execMigrationSwitched k s
  | .peerTimeout part pkg => Sys2Proof.Machine.execPeerTimeout part pkg s
  | .retryAfterHint core act elem => Sys2Proof.Machine.execRetryAfterHint core act elem s
  | .homeLoad core act elem => Sys2Proof.Machine.execHomeLoad core act elem s
  | .homeStore core act elem => Sys2Proof.Machine.execHomeStore core act elem s
  | .homeAtomic core act => Sys2Proof.Machine.execHomeAtomic core act s
  | .copyin h a => Sys2Proof.Machine.execCopyin h a s
  | .copyout h a => Sys2Proof.Machine.execCopyout h a s
  | .copyEntry core q => Sys2Proof.Machine.execCopyEntry core q s
  | .copyLoop core q => Sys2Proof.Machine.execCopyLoop core q s
  | .copyIf core q => Sys2Proof.Machine.execCopyIf core q s
  | .copyLink core q => Sys2Proof.Machine.execCopyLink core q s
  | .copyFence core q => Sys2Proof.Machine.execCopyFence core q s
  | .copyEnd core q => Sys2Proof.Machine.execCopyEnd core q s
  | .amo h d a b c op m => Sys2Proof.Machine.execAmo h d a b c op m s
  | .cas h d a b c m => Sys2Proof.Machine.execCas h d a b c m s
  | .upd h d a b c gl pm ty oc => Sys2Proof.Machine.execUpd h d a b c gl pm ty oc s
  | .ufence h => Sys2Proof.Machine.execUfence h s
  | .updatePairArrival core act elem => Sys2Proof.Machine.execUpdatePairArrival core act elem s
  | .windowClose => Sys2Proof.Machine.execWindowClose s
  | .regdef h d a b c => Sys2Proof.Machine.execRegdef h d a b c s
  | .regclr h d => Sys2Proof.Machine.execRegclr h d s
  | .regapply h d => Sys2Proof.Machine.execRegapply h d s
  | .stepadv h => Sys2Proof.Machine.execStepadv h s
  | .stsweep h a b c => Sys2Proof.Machine.execStsweep h a b c s
  | .sweepPage k => Sys2Proof.Machine.execSweepPage k s
  | .stload h a b m => Sys2Proof.Machine.execStload h a b m s
  | .arrayWordStart core act => Sys2Proof.Machine.execArrayWordStart core act s
  | .arrayWordComplete core act => Sys2Proof.Machine.execArrayWordComplete core act s
  | .gbuild h a => Sys2Proof.Machine.execGbuild h a s
  | .stswap h => Sys2Proof.Machine.execStswap h s
  | .mma h a b c m => Sys2Proof.Machine.execMma h a b c m s
  | .mmas h d a b c m => Sys2Proof.Machine.execMmas h d a b c m s
  | .accinit h a b => Sys2Proof.Machine.execAccinit h a b s
  | .accnorm h a => Sys2Proof.Machine.execAccnorm h a s
  | .accrd h d a m => Sys2Proof.Machine.execAccrd h d a m s
  | .accwr h a b m => Sys2Proof.Machine.execAccwr h a b m s
  | .accstat h d a sub => Sys2Proof.Machine.execAccstat h d a sub s
  | .drain h a b c ty rm sat amx clr lay => Sys2Proof.Machine.execDrain h a b c ty rm sat amx clr lay s
  | .grpld h a slot => Sys2Proof.Machine.execGrpld h a slot s
  | .grpldCheckDone core act => Sys2Proof.Machine.execGrpldCheckDone core act s
  | .grpbind h op slot => Sys2Proof.Machine.execGrpbind h op slot s
  | .grpstat h d slot => Sys2Proof.Machine.execGrpstat h d slot s
  | .fadd h d a b m => Sys2Proof.Machine.execFadd h d a b m s
  | .fsub h d a b m => Sys2Proof.Machine.execFsub h d a b m s
  | .fmul h d a b m => Sys2Proof.Machine.execFmul h d a b m s
  | .fma h d a b c m => Sys2Proof.Machine.execFma h d a b c m s
  | .fms h d a b c m => Sys2Proof.Machine.execFms h d a b c m s
  | .fnma h d a b c m => Sys2Proof.Machine.execFnma h d a b c m s
  | .fmin h d a b m => Sys2Proof.Machine.execFmin h d a b m s
  | .fmax h d a b m => Sys2Proof.Machine.execFmax h d a b m s
  | .fabs h d a m => Sys2Proof.Machine.execFabs h d a m s
  | .fneg h d a m => Sys2Proof.Machine.execFneg h d a m s
  | .fdiv h d a b m => Sys2Proof.Machine.execFdiv h d a b m s
  | .fsqrt h d a m => Sys2Proof.Machine.execFsqrt h d a m s
  | .frsq h d a m => Sys2Proof.Machine.execFrsq h d a m s
  | .frcp h d a m => Sys2Proof.Machine.execFrcp h d a m s
  | .fexp2 h d a m => Sys2Proof.Machine.execFexp2 h d a m s
  | .flog2 h d a m => Sys2Proof.Machine.execFlog2 h d a m s
  | .ftanh h d a m => Sys2Proof.Machine.execFtanh h d a m s
  | .fpowi h d a b m => Sys2Proof.Machine.execFpowi h d a b m s
  | .fclass h d a m => Sys2Proof.Machine.execFclass h d a m s
  | .fcmp h d a b m => Sys2Proof.Machine.execFcmp h d a b m s
  | .fsel h d a b c m => Sys2Proof.Machine.execFsel h d a b c m s
  | .iadd h d a b m => Sys2Proof.Machine.execIadd h d a b m s
  | .isub h d a b m => Sys2Proof.Machine.execIsub h d a b m s
  | .imul h d a b m => Sys2Proof.Machine.execImul h d a b m s
  | .imad h d a b c m => Sys2Proof.Machine.execImad h d a b c m s
  | .iand h d a b m => Sys2Proof.Machine.execIand h d a b m s
  | .ior h d a b m => Sys2Proof.Machine.execIor h d a b m s
  | .ixor h d a b m => Sys2Proof.Machine.execIxor h d a b m s
  | .ishl h d a b m => Sys2Proof.Machine.execIshl h d a b m s
  | .ishr h d a b m => Sys2Proof.Machine.execIshr h d a b m s
  | .isar h d a b m => Sys2Proof.Machine.execIsar h d a b m s
  | .imin h d a b m => Sys2Proof.Machine.execImin h d a b m s
  | .imax h d a b m => Sys2Proof.Machine.execImax h d a b m s
  | .icmp h d a b m => Sys2Proof.Machine.execIcmp h d a b m s
  | .iabs h d a m => Sys2Proof.Machine.execIabs h d a m s
  | .cvt h d a src m => Sys2Proof.Machine.execCvt h d a src m s
  | .cvtmx h d a b src m => Sys2Proof.Machine.execCvtmx h d a b src m s
  | .dqmx h d a b src m => Sys2Proof.Machine.execDqmx h d a b src m s
  | .cvtfx h d a b src m => Sys2Proof.Machine.execCvtfx h d a b src m s
  | .tmov h d a m => Sys2Proof.Machine.execTmov h d a m s
  | .tbcast h d a b m => Sys2Proof.Machine.execTbcast h d a b m s
  | .ttrn h d a m => Sys2Proof.Machine.execTtrn h d a m s
  | .tshuf h d a b m => Sys2Proof.Machine.execTshuf h d a b m s
  | .text h d a b m => Sys2Proof.Machine.execText h d a b m s
  | .tins h d a b m => Sys2Proof.Machine.execTins h d a b m s
  | .tiota h d a b m => Sys2Proof.Machine.execTiota h d a b m s
  | .rsum h d a m => Sys2Proof.Machine.execRsum h d a m s
  | .rmax h d a m => Sys2Proof.Machine.execRmax h d a m s
  | .rmin h d a m => Sys2Proof.Machine.execRmin h d a m s
  | .ramax h d a m => Sys2Proof.Machine.execRamax h d a m s
  | .cmpx h d a b c m => Sys2Proof.Machine.execCmpx h d a b c m s
  | .kand h d a b => Sys2Proof.Machine.execKand h d a b s
  | .kor h d a b => Sys2Proof.Machine.execKor h d a b s
  | .kxor h d a b => Sys2Proof.Machine.execKxor h d a b s
  | .knot h d a => Sys2Proof.Machine.execKnot h d a s
  | .kpopc h d a => Sys2Proof.Machine.execKpopc h d a s
  | .kfirst h d a => Sys2Proof.Machine.execKfirst h d a s
  | .kcomp h d a b m => Sys2Proof.Machine.execKcomp h d a b m s
  | .kexp h d a b m => Sys2Proof.Machine.execKexp h d a b m s
  | .pset h d a wc => Sys2Proof.Machine.execPset h d a wc s
  | .pget h d a => Sys2Proof.Machine.execPget h d a s
  | .amrd h d a => Sys2Proof.Machine.execAmrd h d a s
  | .amclr h a => Sys2Proof.Machine.execAmclr h a s
  | .barset h a b dis => Sys2Proof.Machine.execBarset h a b dis s
  | .bararr h a => Sys2Proof.Machine.execBararr h a s
  | .barwait h d a b => Sys2Proof.Machine.execBarwait h d a b s
  | .barwaitTimeout core act => Sys2Proof.Machine.execBarwaitTimeout core act s
  | .bartry h d a => Sys2Proof.Machine.execBartry h d a s
  | .barrierRelease inst => Sys2Proof.Machine.execBarrierRelease inst s
  | .wldef h d a b c => Sys2Proof.Machine.execWldef h d a b c s
  | .wlreset h d => Sys2Proof.Machine.execWlreset h d s
  | .wlpush h d b gl pm => Sys2Proof.Machine.execWlpush h d b gl pm s
  | .wlins h d b gl pm => Sys2Proof.Machine.execWlins h d b gl pm s
  | .wlpop h d a b c gl => Sys2Proof.Machine.execWlpop h d a b c gl s
  | .wlsteal h d a b c gl => Sys2Proof.Machine.execWlsteal h d a b c gl s
  | .workListFaulted hive list => Sys2Proof.Machine.execWorkListFaulted hive list s
  | .dispdef h d a => Sys2Proof.Machine.execDispdef h d a s
  | .disp h d a b c gl pm ty => Sys2Proof.Machine.execDisp h d a b c gl pm ty s
  | .dispclr h a b save => Sys2Proof.Machine.execDispclr h a b save s
  | .qtake h d => Sys2Proof.Machine.execQtake h d s
  | .qput h a out => Sys2Proof.Machine.execQput h a out s
  | .kspawn h a lq => Sys2Proof.Machine.execKspawn h a lq s
  | .heart h => Sys2Proof.Machine.execHeart h s
  | .twaitt h a => Sys2Proof.Machine.execTwaitt h a s
  | .evpost h a b => Sys2Proof.Machine.execEvpost h a b s
  | .ctxyield h => Sys2Proof.Machine.execCtxyield h s
  | .launchEntryCheck ctx lq => Sys2Proof.Machine.execLaunchEntryCheck ctx lq s
  | .coreGrant core => Sys2Proof.Machine.execCoreGrant core s
  | .agingExpiry ctx lq => Sys2Proof.Machine.execAgingExpiry ctx lq s
  | .forcedPreemption core => Sys2Proof.Machine.execForcedPreemption core s
  | .kernelComplete ctx lq => Sys2Proof.Machine.execKernelComplete ctx lq s
  | .kernelAbortComplete ctx lq => Sys2Proof.Machine.execKernelAbortComplete ctx lq s
  | .watchdog core => Sys2Proof.Machine.execWatchdog core s
  | .ctxCreate ctx => Sys2Proof.Machine.execCtxCreate ctx s
  | .ctxSet ctx => Sys2Proof.Machine.execCtxSet ctx s
  | .ctxBind ctx => Sys2Proof.Machine.execCtxBind ctx s
  | .ctxStart ctx => Sys2Proof.Machine.execCtxStart ctx s
  | .ctxSuspend ctx => Sys2Proof.Machine.execCtxSuspend ctx s
  | .ctxResume ctx => Sys2Proof.Machine.execCtxResume ctx s
  | .ctxFault ctx => Sys2Proof.Machine.execCtxFault ctx s
  | .ctxRecover ctx => Sys2Proof.Machine.execCtxRecover ctx s
  | .ctxDestroy ctx => Sys2Proof.Machine.execCtxDestroy ctx s
  | .ctxResetPart ctx => Sys2Proof.Machine.execCtxResetPart ctx s
  | .drainComplete ctx => Sys2Proof.Machine.execDrainComplete ctx s
  | .drainTimeout ctx => Sys2Proof.Machine.execDrainTimeout ctx s
  | .scrubComplete ctx => Sys2Proof.Machine.execScrubComplete ctx s
  | .partitionReset part => Sys2Proof.Machine.execPartitionReset part s
  | .resetEscalation part => Sys2Proof.Machine.execResetEscalation part s
  | .fqheadReread ctx => Sys2Proof.Machine.execFqheadReread ctx s
  | .uncorrectableError at_ => Sys2Proof.Machine.execUncorrectableError at_ s
  | .ppsEdge => Sys2Proof.Machine.execPpsEdge s
  | .ptmMeasurement offset => Sys2Proof.Machine.execPtmMeasurement offset s
  | .timeSourceLoss => Sys2Proof.Machine.execTimeSourceLoss s
  | .timeset v => Sys2Proof.Machine.execTimeset v s
  | .stepclr => Sys2Proof.Machine.execStepclr s
  | .lqbell ctx lq => Sys2Proof.Machine.execLqbell ctx lq s
  | .tailPoll ctx lq => Sys2Proof.Machine.execTailPoll ctx lq s
  | .peerAdmit part pkg => Sys2Proof.Machine.execPeerAdmit part pkg s
  | .peerRemove part pkg => Sys2Proof.Machine.execPeerRemove part pkg s
  | .hostRegisterWrite off v => Sys2Proof.Machine.execHostRegisterWrite off v s
  | .hostWindowAccess off acc => Sys2Proof.Machine.execHostWindowAccess off acc s
  | .cxlMemAccess pa acc => Sys2Proof.Machine.execCxlMemAccess pa acc s
  | .flitReceive port f => Sys2Proof.Machine.execFlitReceive port f s
  | .portTrained port => Sys2Proof.Machine.execPortTrained port s
  | .remoteRequest pkg podCtx op => Sys2Proof.Machine.execRemoteRequest pkg podCtx op s
  | .inputOutOfRange low => Sys2Proof.Machine.execInputOutOfRange low s
  | .powerOnReset => Sys2Proof.Machine.execPowerOnReset s
  | .throttle part frac => Sys2Proof.Machine.execThrottle part frac s
  | .forecastWrite part level => Sys2Proof.Machine.execForecastWrite part level s
  | .telemetryFlush => Sys2Proof.Machine.execTelemetryFlush s
  | .telread set => Sys2Proof.Machine.execTelread set s
  | .powerset part cap forecast => Sys2Proof.Machine.execPowerset part cap forecast s
  | .devreset => Sys2Proof.Machine.execDevreset s
  | .fwstage img => Sys2Proof.Machine.execFwstage img s
  | .attest nonce => Sys2Proof.Machine.execAttest nonce s
  | .twaittTimeReached core act => Sys2Proof.Machine.execTwaittTimeReached core act s
  | .hostLinkDown l => Sys2Proof.Machine.execHostLinkDown l s
  | .hostLinkTrained l => Sys2Proof.Machine.execHostLinkTrained l s
  | .telemetrySample => Sys2Proof.Machine.execTelemetrySample s

end Sys2Proof.Machine
end

