-- ==== Sys2Proof/Machine/Schedule.lean ====
section
/-! DEFINITION. What comes next: the issue slots of a cycle, the stages of what happens at its end, and the tick. The spec fixes
the order of things that meet in one cycle only in places; where it leaves a choice, the free value decides (log 3). -/
namespace Sys2Proof.Machine

abbrev Out : Type := Host.Outcome State Fault Refusal

/-! ### Issue slots -/

/-- The issue slots of a core: it runs a task, and its cycle counts. -/
def State.hasSlots (s : State) (c : Core) : Bool := s.booted && c.task.isSome && s.counts c

/-- The first core of a list from `lo` up that has issue slots. -/
def State.slotFrom (s : State) (lo : Nat) : List Core → Option Nat
  | [] => none
  | c :: t => if lo ≤ c.id && s.hasSlots c then some c.id else s.slotFrom lo t

/-- The first slot of a cycle, or its end. -/
def State.firstTurn (s : State) : Turn := match s.slotFrom 0 s.cores with | some k => .issue k .x | none => .settle 0

/-- The slot after that of sequencer `q` of core `id`: in one cycle the cores issue in ascending id, the sequencers of a core
in fetch order (R159, R294). -/
def State.nextTurn (s : State) : Turn :=
  match s.turn with
  | .issue id .x => .issue id .l
  | .issue id .l => .issue id .c
  | .issue id .c => .issue id .s
  | .issue id .s => match s.slotFrom (id + 1) s.cores with | some k => .issue k .x | none => .settle 0
  | .settle k => .settle (k + 1)

def State.advance (s : State) : State := { s with turn := s.nextTurn }

/-! ### What is due -/

/-- One of several, or none yet, as the free value has it. -/
def State.oneOf {α : Type} (s : State) (l : List α) : Option α := l[Config.pick s.free % (l.length + 1)]?

/-- The cores whose cycle runs. -/
def State.running (s : State) : List Core := s.cores.filter s.counts

/-- The issued words of these cores that satisfy `p`. -/
def wordsOf (cs : List Core) (p : Core → Act → Bool) : List (Core × Act) :=
  cs.flatMap (fun c => (c.ordered.filter (p c)).map (fun a => (c, a)))

def State.firstWord (s : State) (p : Core → Act → Bool) : Option (Core × Act) := (wordsOf s.running p).head?

def someCtx (p : Fin 64 → Bool) : Option (Fin 64) := (List.finRange 64).find? p

/-- The contexts and launch queues that satisfy `p`. -/
def State.queuesThat (s : State) (p : Fin 64 → Fin 16 → Bool) : List (Fin 64 × Fin 16) :=
  ((List.finRange 64).filter (fun x => (s.ctx x).state == .running)).flatMap (fun x =>
    ((List.finRange 16).filter (p x)).map (fun q => (x, q)))

/-- What the device takes while no firmware has booted (R391), or without power (R390). -/
def answersUnbooted : Instr → Bool
  | .fwstage _ | .attest _ | .powerOnReset | .inputOutOfRange _ => true
  | _ => false

/-- What comes in over the Camnath links is taken after the comb stores of its cycle (R172). -/
def fromPeer : Instr → Bool
  | .remoteRequest _ _ _ | .flitReceive _ _ => true
  | _ => false

/-- The next thing of those that `sel` names which the outside does. -/
def State.dueInput (s : State) (sel : Instr → Bool) : Option Out :=
  match s.inputs.find? (fun p => decide (p.1 ≤ s.pulse) && sel p.2) with
  | some p =>
    let t := { s with inputs := s.inputs.erase p }
    some (if s.booted || answersUnbooted p.2 then exec p.2 t else .next t)
  | none => none

/-- The context command in progress (R349). -/
def State.dueCommand (s : State) : Option Out :=
  match s.cmd with
  | none => none
  | some (code, x, _) => match code with
    | 1 => some (execCtxCreate x.val s)
    | 2 => some (execCtxSet x.val s)
    | 3 => some (execCtxBind x.val s)
    | 4 => some (execCtxStart x.val s)
    | 5 => some (execCtxSuspend x.val s)
    | 6 => some (execCtxResume x.val s)
    | 7 => some (execCtxFault x.val s)
    | 8 => some (execCtxRecover x.val s)
    | 9 => some (execCtxDestroy x.val s)
    | 10 => if s.partReset.any (fun p => p.1 == (partNo (s.ctx x).partMask).val) then none else some (execCtxResetPart x.val s)
    | _ => none

/-- Writes of sysregs that come before the landings of their cycle: an amax register is written or cleared before merges
(R26, R126). -/
def State.dueSysreg (s : State) : Option Out :=
  match s.firstWord (fun c a => (match a.due with | some d => decide (d ≤ s.cycle c) | none => false)
      && (match a.body with | .sysw _ _ => true | _ => a.writes.any (fun w => match w with | .amclr _ => true | _ => false))) with
  | none => none
  | some (c, a) => match a.body with
    | .sysw i _ =>
      if i = 0x300 then some (execTqceilWrite c.id a.id s)
      else if i = 0x301 then some (execTqcntWrite c.id a.id s)
      else if 0x118 ≤ i ∧ i ≤ 0x11B then some (execAmaxWrite c.id a.id s)
      else if 0x590 ≤ i ∧ i ≤ 0x59F then some (execDcfWrite c.id (.own a.id) s)
      else some (execScopeEntryWrite c.id (.own a.id) s)
    | _ => some (execResultLanding c.id a.id s)

def State.dueArrayStart (s : State) : Option Out :=
  s.running.findSome? (fun (c : Core) => c.readyWords.head?.map (fun a => execArrayWordStart c.id a.id s))

/-- The entry at hand on a copy queue. -/
def State.copyStep (s : State) (id : Nat) (q : CopyQ) : Option Out := (s.copyEvent id q).map (fun i => exec i s)

/-- The queues of some cores that satisfy `p`. -/
def queuesOf (cs : List Core) (p : Core → CopyQ → Bool) : List (Nat × CopyQ) :=
  cs.flatMap (fun c => ([CopyQ.inbound, .outbound].filter (p c)).map (fun q => (c.id, q)))

/-- A queue whose entry at hand was outstanding to a package that is lost goes on in that cycle (R357). -/
def State.lostCopy (s : State) : Option Out :=
  ((queuesOf s.cores (fun c q => (match (c.cq q).chains with | ch :: _ => !ch.lost.isEmpty | [] => false))).head?).bind
    (fun p => s.copyStep p.1 p.2)

/-- The queues of the package go on in no fixed order, each at most once a cycle. -/
def State.dueCopy (s : State) : Option Out :=
  match s.lostCopy with
  | some o => some o
  | none => (s.oneOf (queuesOf s.running (fun c q => (s.headChain c q).isSome))).bind (fun p => s.copyStep p.1 p.2)

/-- Landings, X's first. -/
def State.dueLanding (s : State) : Option Out :=
  (s.firstWord (fun c a => match a.due with | some d => decide (d ≤ s.cycle c) | none => false)).map
    (fun p => if p.2.fixed then execResultLanding p.1.id p.2.id s else execVariableResultLanding p.1.id p.2.id s)

/-- A page walk or a pause ends. -/
def State.dueEnd (s : State) : Option Out :=
  match s.running.findSome? (fun (c : Core) =>
      ((List.finRange 16).find? (fun h => c.walkDue (s.cycle c) h)).map (fun h => execWalkEnd c.id h s)) with
  | some o => some o
  | none => (s.firstWord (fun c a => c.pauseOver (s.cycle c) a)).map (fun p => execPauseEnd p.1.id p.2.id s)

/-- The accesses that homes may perform now, of elements that `sel` names, each as its step. -/
def State.homeSteps (s : State) (sel : Core → Elem → Bool) : List Out :=
  s.cores.flatMap (fun c => c.acts.flatMap (fun a => match a.body with
    | .mem .load _ _ todo _ _ _ _ _ => (todo.filter (fun e => sel c e && s.elemReady c a e)).map (fun e => execHomeLoad c.id a.id e.idx s)
    | .mem .store _ _ todo _ _ _ _ _ =>
      (todo.filter (fun e => sel c e && (together todo e).all (s.elemReady c a))).map (fun e => execHomeStore c.id a.id e.idx s)
    | .mem _ _ _ (e :: _) _ _ _ _ _ => if sel c e && s.elemReady c a e then [execHomeAtomic c.id a.id s] else []
    | _ => []))

/-- An element whose request is not sent, its peer being down (R357). -/
def State.lostElem (s : State) : Option Out :=
  (s.homeSteps (fun c e => s.peerDown c.ctxId e.leaf)).head?

/-- A hint that is over is acted on at once, as is a request that is not sent; else the homes perform accesses in any order that R182
allows. -/
def State.dueHome (s : State) : Option Out :=
  match (wordsOf s.cores (fun _ a => a.body.todo.any (fun e => e.notBefore != 0 && decide (e.notBefore ≤ s.pulse)
      && (match a.body with | .mem _ _ _ _ _ _ _ _ _ => true | _ => false)))).head? with
  | some (c, a) => (a.body.todo.find? (fun e => e.notBefore != 0 && decide (e.notBefore ≤ s.pulse))).map
      (fun e => execRetryAfterHint c.id a.id e.idx s)
  | none => match s.lostElem with
    | some o => some o
    | none => s.oneOf (s.homeSteps (fun _ _ => true))

/-- A peer given up in this cycle (R356). -/
def State.dueTimeout (s : State) : Option Out := s.dueInput (fun i => match i with | .peerTimeout _ _ => true | _ => false)

/-- A peer to be treated as unreachable: given up in this cycle, or silent for 100 µs after a request was sent to it (R356). Then the
copy entries that were outstanding to a lost one. -/
def State.dueGiveUp (s : State) : Option Out :=
  let lose (x p : Fin 64) : Out := execPeerTimeout (partNo (s.ctx x).partMask) p s
  match s.dueTimeout with
  | some o => some o
  | none =>
    let elems : List (Fin 64 × Fin 64) := s.cores.flatMap (fun (c : Core) => c.acts.flatMap (fun a => a.body.todo.filterMap (fun e =>
      if e.silent s.pkg s.pulse then (e.leaf.peerOf s.pkg).map (fun p => (c.ctxId, p)) else none)))
    let pairs : List (Fin 64 × Fin 64) := s.flight.filterMap (fun f =>
      if f.sent ≠ 0 ∧ f.sent + answerLimit ≤ s.pulse then (f.pair.leaf.peerOf s.pkg).map (fun p => (f.pair.ctx, p)) else none)
    let copies : List (Fin 64 × Fin 64) := s.cores.flatMap (fun (c : Core) => (c.inQ.chains ++ c.outQ.chains).filterMap (fun ch =>
      if ch.sent ≠ 0 ∧ ch.sent + answerLimit ≤ s.pulse then (s.slotPeers c.id ch.slot ch.adds).head?.map (fun p => (c.ctxId, p)) else none))
    let rows : List (Fin 64 × Fin 64) := s.cores.flatMap (fun (c : Core) => c.acts.filterMap (fun a =>
      (s.rowSilent c a).map (fun p => (c.ctxId, p))))
    match (elems ++ pairs ++ copies ++ rows).find? (fun q => (s.livePeers q.1).getLsbD q.2.val) with
    | some (x, p) => some (lose x p)
    | none => s.lostCopy

/-- Messages between rings and appends take their time. -/
def State.dueRing (s : State) : Option Out :=
  let arrivals : List Out := (wordsOf s.running (fun c a => c.rappReady a)).map (fun p => execRappArrival p.1.id p.2.id s)
  let msgs : List Out := s.ringMsgs.map (fun m => match m with
    | .ask c r => execRoomAnswer c r s
    | .credit c r n => execCreditArrival c r n s)
  s.oneOf (arrivals ++ msgs)

/-- Ring words apply in order, once the words before them are complete (R158). -/
def State.dueRingWord (s : State) : Option Out :=
  (s.firstWord (fun c a => c.ringReady a)).map (fun p => match p.2.body with
    | .rcommit _ _ => execRcommitApply p.1.id p.2.id s
    | _ => execRrelApply p.1.id p.2.id s)

/-- Pairs arrive in any order, as far as their units take them; a peer that the refusal of one gives up is lost in that cycle. -/
def State.duePair (s : State) : Option Out :=
  s.dueTimeout.or ((s.oneOf (s.flight.filter (fun f => s.flightReady f && s.linkUp f.pair.ctx f.pair.leaf && (s.pairNow f).all (fun p => !s.unitFull p)))).map
    (fun f => execUpdatePairArrival f.core f.act f.elem s))

def State.dueSyncTimeout (s : State) : Option Out :=
  (s.firstWord (fun c a => s.syncOver c.id a)).map (fun p => execSyncwaitTimeout p.1.id p.2.id s)

/-- Spreading writes arrive by their time; pages, migrations and sweeps take theirs. -/
def State.duePage (s : State) : Option Out :=
  match s.props.find? (fun p => decide (p.due ≤ s.pulse)) with
  | some p => some (if p.what.isDcf then execDcfWrite p.src (.arrive p.no) s else execScopeEntryWrite p.src (.arrive p.no) s)
  | none =>
    let locked (x : Fin 64) (va : Nat) : Bool := match s.walk x (BitVec.ofNat 64 va) with
      | some l => (s.lockOn l).isSome
      | none => false
    let pages : List Out := (s.pageReqs.filter (fun r => decide (r.notBefore ≤ s.pulse)
      && (match r.mig with | some k => s.migrations.all (·.no != k) | none => true))).map (fun r => execPageResident r.no s)
    let moves : List Out := s.migrations.map (fun m => match m.state with
      | .draining => execMigrationDrained m.no s
      | .copying => execMigrationCopied m.no s
      | .switched => execMigrationSwitched m.no s)
    let sweeps : List Out := (s.sweeps.filter (fun w => !locked w.ctx w.va)).map (fun w => execSweepPage w.no s)
    s.oneOf (pages ++ moves ++ sweeps)

def State.dueArrayEnd (s : State) : Option Out :=
  match s.firstWord (fun c a => c.arrayOver (s.cycle c) a) with
  | some (c, a) => some (execArrayWordComplete c.id a.id s)
  | none => (s.firstWord (fun c a => a.checkOver (s.cycle c))).map (fun p => execGrpldCheckDone p.1.id p.2.id s)

/-- A list that cannot use its spill region may fault. -/
def State.dueList (s : State) : Option Out :=
  let bad : List (Nat × WList) := (List.finRange 144).flatMap (fun h =>
    ((List.finRange 16).filter (fun k => let l := s.list h k; l.state == .ready && s.listFails l)).map (fun k => (h.val, k)))
  (s.oneOf bad).map (fun p => execWorkListFaulted p.1 p.2 s)

/-- Free cores take work in ascending id (R313). -/
def State.dueGrant (s : State) : Option Out :=
  if (List.finRange 64).all (fun x => (s.ctx x).state != .running) then none
  else ((List.range 576).find? (fun id => (s.grantFor id).isSome)).map (fun id => execCoreGrant id s)

/-- The context whose cores a partition's level counts: the one that runs or drains, else the first that is bound to it. -/
def State.leadCtx (s : State) (part : Fin 8) : Option (Fin 64) :=
  let xs := s.boundTo part.val
  (xs.find? (fun x => (s.ctx x).state == .running || (s.ctx x).state == .draining)).or xs.head?

/-- The level for a partition's window to come: the present one, or that which a grant needs that a free core, not reserved, waits for
(R384). -/
def State.comingLevel (s : State) (part : Fin 8) : Fin 16 :=
  match s.leadCtx part with
  | none => Config.activity 0
  | some x =>
    let waits (id : Nat) : Bool := s.coreFree id && (reservedFor (s.ctx x) id).isNone && (s.pickQueue x id).isSome
    if (s.ctx x).state = .running ∧ (partCores (s.ctx x).partMask).any waits then s.neededLevel x else s.presentLevel x

/-- A level that is to be announced: a higher one, or a lower one (R384). -/
def State.forecasts (s : State) : Option Out :=
  ((List.finRange 8).find? (fun k => (s.parts[k]).forecast && (s.parts[k]).level != s.comingLevel k)).map
    (fun k => execForecastWrite k (s.comingLevel k) s)

/-- 10 µs: the longest time between two readings of a tail word (R351). -/
def pollLimit : Nat := 10 * pulsesPerUs

/-- The launch entries that are checked now: one that is QUEUED, and one that WAITS and was not checked for 64 ns; one that WAITS and whose
condition is met may be checked earlier (R312). -/
def State.dueCheck (s : State) : Option Out :=
  let must := s.queuesThat (fun x q => match s.headEntry x q with
    | some e => e.state == .queued || (e.state == .waiting && decide (e.since + checkLimit ≤ s.pulse))
    | none => false)
  let may := s.queuesThat (fun x q => match s.headEntry x q with
    | some e => e.state == .waiting && s.entryMet x e
    | none => false)
  (must.head?.or (s.oneOf may)).map (fun p => execLaunchEntryCheck p.1.val p.2 s)

/-- The launch unit's other work: readings that are due, aging, forecasts, completions and checks. -/
def State.dueLaunch (s : State) : Option Out :=
  match (s.queuesThat (fun x q => let l := s.lq x q; l.valid && !l.refused && decide (l.polled + pollLimit ≤ s.pulse))).head? with
  | some (x, q) => some (execTailPoll x.val q s)
  | none => match (s.queuesThat s.mayAge).head? with
    | some (x, q) => some (execAgingExpiry x.val q s)
    | none => match s.forecasts with
      | some o => some o
      | none => match (s.queuesThat (fun x q => match s.kernel? x q with | some k => s.kernelOver x k | none => false)).head? with
        | some (x, q) => some (execKernelComplete x.val q s)
        | none => match (s.queuesThat (fun x q => match s.kernel? x q with | some k => s.abortOver x k | none => false)).head? with
          | some (x, q) => some (execKernelAbortComplete x.val q s)
          | none => s.dueCheck

def State.dueTime (s : State) : Option Out :=
  (s.firstWord (fun _ a => s.timeReached a)).map (fun p => execTwaittTimeReached p.1.id p.2.id s)

/-- A break reaches the root's participants at once, a release in its time. -/
def State.dueRoot (s : State) : Option Out :=
  match s.barInsts.find? (·.break_.isSome) with
  | some i => some (execBarrierRelease i.no s)
  | none => s.oneOf ((s.barInsts.filter (fun i => i.ready || s.othersArrive i)).map (fun i => execBarrierRelease i.no s)
      ++ (s.barInsts.filter s.othersBreak).map (fun i => .next (s.breakElsewhere i)))

def State.dueBarTimeout (s : State) : Option Out :=
  (s.firstWord (fun c a => s.barwaitOver c a)).map (fun p => execBarwaitTimeout p.1.id p.2.id s)

/-- Traps are taken, a trap's record being a release over every access of its core (R332), then watchdogs fire (R337). -/
def State.dueTrap (s : State) : Option Out :=
  match s.running.find? (fun c => c.stop == some .trap && c.acts.isEmpty && s.flight.all (·.core != c.id)) with
  | some c => some (execHandlerEntry c.id s)
  | none => (s.cores.find? s.watchdogDue).map (fun c => execWatchdog c.id s)

def State.dueDeadlock (s : State) : Option Out :=
  (s.running.find? (fun c => c.deadlocked && decide (256 ≤ c.deadlock))).map (fun c => execTokenDeadlock c.id s)

/-- Tasks end, and are pre-empted. -/
def State.dueTask (s : State) : Option Out :=
  match s.running.find? (·.taskOver) with
  | some c => some (execTaskComplete c.id s)
  | none => (s.cores.find? (fun c => c.task.isSome && (s.saveDue c || s.forceDue c.id))).map (fun c => execForcedPreemption c.id s)

/-- Contexts drain, are scrubbed and reset. -/
def State.dueContext (s : State) : Option Out :=
  match someCtx (fun x => s.drainOver x) with
  | some x => some (execDrainComplete x.val s)
  | none => match someCtx (fun x => s.drainLate x) with
    | some x => some (execDrainTimeout x.val s)
    | none => match s.partReset.find? (fun p => decide (p.2 + resetLimit < s.pulse)) with
      | some p => some (execResetEscalation p.1 s)
      | none => match someCtx (fun x => (s.ctx x).state != .free && (s.ctx x).state != .destroyed
            && decide ((s.ctx x).fqReread + rereadLimit ≤ s.pulse)) with
        | some x => some (execFqheadReread x.val s)
        | none =>
          let resets : List Out := s.partReset.map (fun p => execPartitionReset p.1 s)
          let scrubs : List Out := ((List.finRange 64).filter (fun x => (s.ctx x).state == .destroyed)).map
            (fun x => execScrubComplete x.val s)
          s.oneOf (resets ++ scrubs)

/-! ### What a stage does once -/

/-- `tsig` and fences test whether they can complete (R82, R88, R89, R206). -/
def State.finishTokens (s : State) (id : Nat) (a : Act) : State :=
  let c := s.core id
  match a.body with
  | .tsig q n => if c.noneBefore a Act.writesShared then s.setCore (c.finishTsig a q n) else s
  | .fence k cm re => if s.fenceMet c a.seq a.id k cm re then s.setCore (c.complete a) else s
  | .qfence i o => if c.inQ.doneUpTo i && c.outQ.doneUpTo o then s.setCore (c.complete a) else s
  | .ufence => if s.updatesDone c a then s.setCore (c.complete a) else s
  | _ => s

/-- A drain's row may come before the accumulator step of a C word of its cycle, or after it (R240; log 3). -/
def State.earlyDrain (s : State) (id : Nat) (a : Act) : State :=
  match a.body with
  | .word (.drain _ _ _ _ _ _ _ _ _ _) _ _ _ _ _ =>
    let (n, s) := s.draw
    if Config.pick n % 2 = 0 then s else s.runDrain id a
  | _ => s

/-- Pairs that may arrive are sent. -/
def State.markPairs (s : State) : State := s.flight.foldl State.markPair s

/-- One cycle of the words that pages, regions and steps take. -/
def State.runDevice (s : State) (id : Nat) (a : Act) : State :=
  (((s.runPgreq id a) |> fun s => match (s.core id).act? a.id with | some a => s.runRegion id a | none => s)
    |> fun s => match (s.core id).act? a.id with | some a => s.runStep id a | none => s)
    |> fun s => match (s.core id).act? a.id with | some a => s.runSweepWord id a | none => s

/-- The router's words of a cycle in R294's order. -/
def State.runHives (s : State) : State :=
  let s := s.eachAct State.runWldef
  let s := s.eachAct State.runPop
  let s := s.eachAct State.runSteal
  let s := s.eachAct State.runPush
  let s := s.eachAct State.runDisp
  s.eachAct State.runDispclr

/-- Cores with a trap raised begin to stop (R65); the others' deadlock counts go on (R69). -/
def State.beginStops (s : State) : State :=
  s.eachCore (fun s id =>
    let c := s.core id
    let c := if !c.raised.isEmpty && c.stop.isNone then c.halt (s.cycle c) .trap else c
    let c := c.discardCopies
    s.setCore { c with deadlock := if c.deadlocked then c.deadlock + 1 else 0 })

/-- The records of events are posted in order (R332); that of an uncorrectable error faults its context (R331). -/
def State.postEvents (s : State) : State :=
  s.events.foldl (fun s r => if r.kind = 1 then (s.postRec r).faultCtx r.ctx else s.postRec r) { s with events := [] }

/-- Held signals and queued flits go out. -/
def State.sendOut (s : State) : State := (List.finRange 12).foldl State.sendFrom s.resignal

/-- 60 s, and the 10 ms after which an input out of range is a power-off, in pulses (R382, R386). -/
def flushPulses : Nat := 60000 * msPulses
def holdPulses : Nat := 10 * msPulses

/-- The input falls below 40 V in this pulse: it will have been low for 10 ms at a power-off to come. A shorter dip is a telemetry flush
among the inputs (R386; log 50). -/
def State.inputFalls (s : State) : Bool :=
  s.inputs.any (fun p => p.1 == s.pulse + holdPulses && (match p.2 with | .inputOutOfRange low => low | _ => false))

/-- With power, at the start of a pulse: the controller's samples, each ms, its hours, and its writes to flash, each minute and as the input
falls (R385, R386). -/
def State.keepTime (s : State) : State :=
  if !s.powered then s
  else
    let s := if s.pulse % msPulses = 0 then s.sample else s
    let s := if (s.hourPart + s.pulse) % hourPulses = 0 then s.bump .hours 1 else s
    if s.pulse % flushPulses = 0 ∨ s.inputFalls then s.flush else s

/-- The controller begins to swallow, or ends it, as power and temperature have it (R383). -/
def State.dueThrottle (s : State) : Option Out :=
  ((List.finRange 8).find? (fun k => s.mustSwallow k != ((s.parts[k]).frac != 0))).map (fun k =>
    let (n, s) := s.draw
    execThrottle k (Fin.ofNat 16 (Config.pick n)) s)

/-- A window closes every 64 cycles (R207). -/
def State.closeWindow (s : State) : Out := if s.pulse % 64 = 63 then execWindowClose s else .next s

/-- One past the last stage of a cycle's end. -/
def lastStage : Nat := 36

/-- The next thing due in a stage. -/
def State.due (s : State) (k : Nat) : Option Out :=
  match k with
  | 0 => s.dueInput (fun i => !fromPeer i)
  | 1 => s.dueCommand
  | 2 => s.dueSysreg
  | 4 => s.dueInput fromPeer
  | 5 => s.dueArrayStart
  | 7 => s.dueCopy
  | 8 => s.dueLanding
  | 10 => s.dueEnd
  | 11 => s.dueHome
  | 13 => s.dueGiveUp
  | 14 => s.dueRing
  | 15 => s.duePair
  | 18 => s.duePage
  | 19 => s.dueArrayEnd
  | 21 => (s.dueTimeout.or s.lostCopy).or s.dueList
  | 22 => s.dueRingWord
  | 23 => s.dueSyncTimeout
  | 24 => s.dueGrant
  | 26 => s.dueLaunch
  | 28 => s.dueTime
  | 29 => s.dueRoot
  | 31 => s.dueBarTimeout
  | 32 => s.dueTrap
  | 33 => s.dueDeadlock
  | 34 => s.dueTask
  | 35 => s.dueThrottle.or s.dueContext
  | _ => none

/-- What a stage does when nothing more is due in it. Flits leave before peers are given up, whose losses end words and copies in their
cycle (R357). A comb load reads, and a `syncwait` tests, after every comb write of its cycle
(R142, R175). -/
def State.evaluate (s : State) (k : Nat) : Out :=
  match k with
  | 3 => .next ((s.eachAct State.runCombStore).eachAct State.runSyncset)
  | 4 => .next ((s.eachAct State.runGrpld).eachAct State.earlyDrain)
  | 6 => .next ((s.eachAct State.runArray).eachAct State.runDrain)
  | 9 => .next ((s.eachAct State.runPost).eachAct State.readRapp)
  | 10 => .next (s.eachAct State.markSent).markPairs.sendOut
  | 12 => .next (s.eachAct State.finishMem)
  | 16 => .next (s.eachAct State.runUpd)
  | 17 => .next (s.eachAct State.runDevice)
  | 20 => .next s.runHives
  | 21 => .next ((s.eachAct State.finishMem).eachAct State.endRow)
  | 22 => .next (((s.eachAct State.finishTokens).eachAct State.runCombLoad).eachAct State.runSyncwait)
  | 25 => .next (((s.eachAct State.runQtake).eachAct State.runQput).eachAct State.runKspawn)
  | 27 => .next (s.eachAct State.runEvpost)
  | 28 => .next (s.eachAct State.runBararr)
  | 30 => .next (s.eachAct State.runBarwait)
  | 31 => match s.closeWindow with
    | .next s => .next s.beginStops
    | o => o
  | 35 => .next s.postEvents
  | _ => .next s

/-! ### The tick -/

/-- The next pulse: DTIME goes on, half-dies whose pulse is swallowed stand still (R383). -/
def State.tick (s : State) : State :=
  let s := State.keepTime { s.passTime with pulse := s.pulse + 1, taken := Vector.replicate 12 0 }
  let gates := Vector.ofFn (fun (hd : Fin 8) => swallows s.parts[s.partOf hd].frac s.pulse)
  let s := { s with gated := gates, swallowed := Vector.ofFn (fun (hd : Fin 8) => s.swallowed[hd] + b2n gates[hd]) }
  let s := { s with cores := s.cores.map Core.snap }
  let s := s.snapKernels
  let s := { s with before := ⟨s.cores, s.ctxs, s.hives⟩ }
  { s with turn := s.firstTurn }

end Sys2Proof.Machine
end

