-- ==== Sys2Proof/Machine/Step.lean ====
section
/-! DEFINITION. One step: an issue slot fetches, decodes and executes a word; a stage of the cycle's end performs the next
thing due in it, and the last one ends the pulse. -/
namespace Sys2Proof.Machine

/-- The outcome of a word, with the next slot's turn. -/
def afterSlot : Host.Outcome State Fault Refusal → Host.Outcome State Fault Refusal
  | .next s => .next s.advance
  | .fault r => .fault r
  | .refused r => .refused r

/-- An issue slot. -/
def stepSlot (s : State) (id : Nat) (q : Seq) : Host.Outcome State Fault Refusal :=
  match s.fetch id q with
  | (.idle, s) => .next s.advance
  | (.away, s) => .next (s.setCore ((s.core id).waitFor q .structural)).advance
  | (.illegal r, s) =>
    let c := s.core id
    .next (s.setCore (c.raise q .illegal (c.nextPc q) (BitVec.ofNat 64 r))).advance
  | (.word i, s) => afterSlot (exec i s)

/-- A stage of the end of the cycle: the next thing due in it, or once nothing is, what the stage itself does. Without power or
firmware nothing but the outside acts (R390, R391). Each such step uses a free value. -/
def stepSettle (s : State) (k : Nat) : Host.Outcome State Fault Refusal :=
  if lastStage ≤ k then .next s.tick
  else
    let t := { s with free := s.free + 1 }
    match (if s.booted || k == 0 then t.due k else none) with
    | some o => o
    | none => if s.booted then afterSlot (t.evaluate k) else .next t.advance

/-- One step of the machine. -/
def step (s : State) : Host.Outcome State Fault Refusal :=
  match s.turn with
  | .issue id q => stepSlot s id q
  | .settle k => stepSettle s k

/-! ### Placing a word -/

/-- The physical and virtual address at which a placed word is fetched. -/
def placedVA : Nat := 0x10_0000

/-- A page table that maps the first GiB onto itself: three tables and a 1 GiB leaf (R128, R129). -/
def placedTables : List (Nat × Nat) :=
  [(0x2000, 0x1), (0x2008, 0x4000), (0x4000, 0x1), (0x4008, 0x6000), (0x6000, 0x67), (0x6008, 0)]

/-- A task of context 0, as core 0 runs it. -/
def placedTask : Task :=
  { ctx := 0, lq := 0, kseq := 0, stage := 0, persist := false, out := Vector.replicate 2 none, live := 0
    limitUs := 1000000, since := 0, used := 0, cls := 0, fired := false }

/-- A sequencer at word 0 of a stream at the placed word. -/
def Seqr.placed (r : Seqr) : Seqr :=
  { r with pc := 0, streamLen := 0x1000, streamVA := BitVec.ofNat 64 placedVA, status := .running, why := .none, earliest := 0 }

/-- The instruction whose bits are `w` placed where core 0 fetches the next word of the stream its ENG names: memory and page
table, a running context 0, and core 0 with a task. -/
def State.withFetchWord (s : State) (_nbits w : Nat) : State :=
  let q := Seq.ofIdx (fld w 77 3)
  let m := placedTables.foldl (fun (m : Memory) (p : Nat × Nat) => m.writeNat p.1 8 p.2) s.mem
  let m := m.writeBytes placedVA (leBytes 10 w)
  let c := s.core 0
  let x := s.ctx 0
  let s := { s with mem := m, turn := .issue 0 q }
  let s := s.setCtx 0 { x with state := .running, partMask := 0xFF, ptRoot := 0x2000 }
  let s := s.setCore { c with task := some placedTask, stop := none, inHandler := false, acts := [], raised := []
                              seqs := c.seqs.map Seqr.placed }
  { s with before := ⟨s.cores, s.ctxs, s.hives⟩ }

end Sys2Proof.Machine
end

