-- ==== Sys2Proof/Safety.lean ====
section
/-! DEFINITION. What counts as a good state: every memory in its canonical form, the cores listed once each in ascending id, and
the legal values of fields that a word narrower than its Lean type holds. Claims about every step are stated in these terms. -/
namespace Sys2Proof.Machine

/-- The stores of the array are in canonical form. -/
def Store.wf (k : Store) : Bool := k.elems.wf && k.scales.wf && k.masks.wf

/-- A core's memories are in canonical form (log 5). -/
def Core.wf (c : Core) : Bool := c.tiles.wf && c.comb.wf && c.filter.wf && c.shadow.wf && c.active.wf

/-- Cores listed in strictly rising id. -/
def coresSorted : List Core → Bool
  | [] => true
  | [_] => true
  | c :: d :: t => decide (c.id < d.id) && coresSorted (d :: t)

/-- The package's device memory and the other packages' combs are in canonical form. -/
def State.memOk (s : State) : Bool := s.mem.wf && s.peerCombs.wf

/-- Every listed core's memories are in canonical form, and the list is in order. -/
def State.coresOk (s : State) : Bool := coresSorted s.cores && s.cores.all Core.wf

/-- The next word of `h`'s sequencer, with header `h` and opcode `opc`, meets conditions 1 to 4 of R46 in this cycle, finds its
structure of Ports free, and names no token in handler mode (R70). What is left is the word's own: its operands and its chapter's checks. -/
def State.ready (s : State) (h : Hdr) (opc : Nat) : Bool :=
  let c := s.core s.issuer
  c.issuing h.eng && (c.blocked (s.cycle c) h opc).isNone && !(c.usesHandler h.eng && (h.pop.isSome || h.push.isSome))

/-- The core at whose slot a word executes. -/
def State.me (s : State) : Core := s.core s.issuer

/-- The outcome of a word that issues with effect `e`. -/
def issued (s : State) (h : Hdr) (opc : Nat) (e : Eff) : Host.Outcome State Fault Refusal := .next (s.commit s.issuer h opc e)

/-- The outcome of a word that traps precisely: a trap is raised on its sequencer with TRAPPC at the word, and nothing else
changes (R65). -/
def trapped (s : State) (h : Hdr) (cause : Cause) (info : W64) : Host.Outcome State Fault Refusal :=
  .next (s.setCore (s.me.raise h.eng cause (s.me.nextPc h.eng) info))

/-- The outcome of a word that waits this cycle with reason `w`, and nothing else changes. -/
def waits (s : State) (h : Hdr) (w : Why) : Host.Outcome State Fault Refusal := .next (s.setCore (s.me.waitFor h.eng w))

/-- The outcome of a ready word by its judgement. -/
def Judged.outcome (s : State) (h : Hdr) (opc : Nat) : Judged → Host.Outcome State Fault Refusal
  | .wait w => waits s h w
  | .trap cause info => trapped s h cause info
  | .trapIn s' cause info => .next (s'.setCore ((s'.core s.issuer).raise h.eng cause (s.me.nextPc h.eng) info))
  | .go s' e => .next (s'.commit s.issuer h opc e)

/-- An outcome is a next state (neither a fault nor a refusal). -/
def goesOn : Host.Outcome State Fault Refusal → Bool
  | .next _ => true
  | _ => false

end Sys2Proof.Machine
end

