-- ==== Sys2Proof/Certificates/Slice0/Obligations.lean ====
section
/-! DEFINITION. The statements for the provers. A word's statement says what the slot of a ready word answers (State.ready: conditions
1 to 4 of R46 hold): it issues with the effect named, or traps precisely; an event's says the state it leads to. The conditions
are on the state and the operands alone. -/
open Sys2Proof Sys2Proof.Machine

/-- The outcome of a word whose one result `v` lands in gD at the end of cycle p + `lat` − 1 (R48). -/
def Sys2Proof.Machine.writesG (s : State) (h : Hdr) (opc lat : Nat) (d : GReg) (v : W64) : Host.Outcome State Fault Refusal :=
  issued s h opc { lat := some lat, writes := [.g (s.me.usesHandler h.eng) d v] }

/-- An issued word of core `core` whose results land now. -/
def Sys2Proof.Machine.lands (s : State) (core act : Nat) (fixed : Bool) (a : Act) : Prop :=
  (s.core core).act? act = some a ∧ a.fixed = fixed ∧ ∃ d, a.due = some d ∧ d ≤ s.cycle (s.core core)

/-! ### Words and encodings -/

/-- R39 to R45, R57, R58: every well-formed word of the common block, encoded, decodes to itself, and its encoding has 80 bits. -/
def Obligations.CommonWordsRoundTrip : Prop :=
  ∀ (i : Instr) (h : Hdr) (w : Nat), i.hdr? = some h → wellFormed i = true → encodeNat i = some w → fld w 48 8 < 0x60 →
    w < 2 ^ 80 ∧ decode h.eng w = .ok i

/-- R39 to R45, R57, R59: the same for every word of the class blocks. -/
def Obligations.ClassWordsRoundTrip : Prop :=
  ∀ (i : Instr) (h : Hdr) (w : Nat), i.hdr? = some h → wellFormed i = true → encodeNat i = some w → 0x60 ≤ fld w 48 8 →
    w < 2 ^ 80 ∧ decode h.eng w = .ok i

/-- A header of class `q` with every other field 0. -/
def Sys2Proof.Machine.plainHdr (q : Seq) : Hdr := ⟨q, 0, none, 0, none, none⟩

/-- Words written out field by field from the spec's encodings: ENG at bit 77, SBA.EN at 73 and its TAG at 70, OPC at 48, D at 42, A at
36, B at 30, C at 24 (R39 to R41), IMM32 at 4, a branch's A at 42, B at 36 and OFF32 at 0, the MODs of R44, R45 and R242. -/
def Sys2Proof.Machine.specWords : List (Seq × Nat × Instr) :=
  [(.x, 0x00 * 2 ^ 48, .nop (plainHdr .x)),
   (.x, 0x18 * 2 ^ 48 + 3 * 2 ^ 42 + 1 * 2 ^ 36 + 0xFFFFFFFB * 2 ^ 4, .addi (plainHdr .x) 3 1 (-5)),
   (.l, 1 * 2 ^ 77 + 0x2C * 2 ^ 48 + 7 * 2 ^ 42 + 9 * 2 ^ 36 + 0xFFFFFFF0, .bltu (plainHdr .l) 7 9 (-16)),
   (.x, 0x45 * 2 ^ 48 + 0 * 2 ^ 42 + 5 * 2 ^ 36 + 4096 * 2 ^ 4, .rwaitf (plainHdr .x) 0 5 4096),
   (.c, 2 * 2 ^ 77 + 0x60 * 2 ^ 48 + 2 * 2 ^ 42 + 4 * 2 ^ 36 + 6 * 2 ^ 30 + 7 * 2 ^ 20 + 1 * 2 ^ 18 + 2 * 2 ^ 15 + 3 * 2 ^ 10 + 2 ^ 9,
      .fadd (plainHdr .c) 2 4 (.tile 6) ⟨.f32, .rtz, 1, .mask 2, true, false, none, 0⟩),
   (.l, 1 * 2 ^ 77 + 2 ^ 73 + 5 * 2 ^ 70 + 0x60 * 2 ^ 48 + 8 * 2 ^ 42 + 3 * 2 ^ 36 + 2 * 2 ^ 30 + 8 * 2 ^ 20 + 6 * 2 ^ 16 + 4 * 2 ^ 11
      + 1 * 2 ^ 9 + 2 ^ 8 + 1 * 2 ^ 1,
      .tld ⟨.l, 0, some 5, 0, none, none⟩ 8 (.handle 3) 2 0 none ⟨.bf16, 6, 4, .acq⟩),
   (.c, 2 * 2 ^ 77 + 0xC0 * 2 ^ 48 + 1 * 2 ^ 36 + 2 * 2 ^ 30 + 3 * 2 ^ 24 + 9 * 2 ^ 20 + 2 * 2 ^ 16 + 2 ^ 15,
      .mma (plainHdr .c) 1 2 3 ⟨.f16, 2, true, false, false, false⟩),
   (.s, 3 * 2 ^ 77 + 0x64 * 2 ^ 48 + 63 * 2 ^ 42 + 1 * 2 ^ 36 + 2 * 2 ^ 30 + 3 * 2 ^ 24 + 4 * 2 ^ 20 + 2 * 2 ^ 16 + 2 ^ 8 + 1 * 2 ^ 5 + 9,
      .upd (plainHdr .s) 63 1 (.cont 2) 3 0 (.pred 0) .i32 2),
   (.x, 0x66 * 2 ^ 48 + 63 * 2 ^ 36, .bararr (plainHdr .x) 63),
   (.x, 0x6F * 2 ^ 48, .heart (plainHdr .x))]

/-- R39 to R45: words written out from the spec's encodings decode to what they stand for. -/
def Obligations.SpecWordsDecode : Prop :=
  ∀ x ∈ specWords, x.2.1 < 2 ^ 80 ∧ decode x.1 x.2.1 = .ok x.2.2

/-! ### Steps, reset and memory -/

/-- R39, R42, R46, R57, R81, R208: at the slot of a sequencer that may issue, a step is the decoded word's execution after the fetch, with
the next slot's turn; a word that does not decode, or an index past the stream, traps ILLEGAL with its reason. The fetch applies the bins
of the lines it reads first, the page tables' (`readTables`) and the word's. -/
def Obligations.StepRunsDecodedWord : Prop :=
  ∀ (s : State) (id : Nat) (q : Seq) (ks : List (Nat × Nat)),
    let c := s.core id
    let va := c.wordVA q (c.nextPc q)
    let u := s.readTables c.ctxId [va, va + 9]
    let f := u.readPieces ks
    s.turn = .issue id q → c.issuing q = true → (c.seq q).earliest ≤ s.cycle c → c.heldBy q = none →
    (c.nextPc q < (c.seq q).streamLen → u.wordKeys c q = some ks →
        (∀ i, decodeBytes q f.1 = .ok i → step s = afterSlot (exec i f.2))
        ∧ ∀ e, decodeBytes q f.1 = .error e → step s = .next (f.2.setCore
            ((f.2.core id).raise q .illegal ((f.2.core id).nextPc q) (BitVec.ofNat 64 e.code))).advance)
    ∧ ((c.seq q).streamLen ≤ c.nextPc q → step s = .next (s.setCore (c.raise q .illegal (c.nextPc q) 0x0D)).advance)

/-- R46, R48, R65, R79: what any issue leaves alone. A word that issues with effect `e`, which changes nothing of its own at issue, leaves
memory, contexts, hives and the other cores, and of its core all but its sequencer's place, its POP's queue, its tag and the new
record; one that traps only raises its trap; one that waits only notes why. -/
def Obligations.IssueFrame : Prop :=
  ∀ (s : State) (h : Hdr) (opc : Nat) (e : Eff) (cause : Cause) (info : W64) (why : Why), h.ok = true → (∀ c, e.after c = c) →
    let c := s.me
    let same := fun (t : State) => t.mem = s.mem ∧ t.peerCombs = s.peerCombs ∧ t.ctxs = s.ctxs ∧ t.hives = s.hives ∧ t.window = s.window
      ∧ t.bins = s.bins ∧ (∀ other, other ≠ s.issuer → t.core other = s.core other)
      ∧ let d := t.core s.issuer
        d.tiles = c.tiles ∧ d.masks = c.masks ∧ d.preds = c.preds ∧ d.amax = c.amax ∧ d.handles = c.handles ∧ d.rings = c.rings
        ∧ d.comb = c.comb ∧ d.acc = c.acc ∧ d.filter = c.filter ∧ d.shadow = c.shadow ∧ d.active = c.active ∧ d.slots = c.slots
        ∧ d.bars = c.bars ∧ d.scopes = c.scopes ∧ d.dcf = c.dcf ∧ d.handlerBank = c.handlerBank ∧ d.task = c.task
        ∧ (∀ q, (d.seq q).g = (c.seq q).g) ∧ ∀ q, q ≠ h.eng → d.seq q = c.seq q
    (∃ t, issued s h opc e = .next t ∧ same t
      ∧ (∃ a, (t.core s.issuer).acts = c.acts.map (fun b => if b.seq = h.eng then { b with passed := true } else b) ++ [a] ∧ a.id = c.nextAct ∧ a.seq = h.eng ∧ a.pc = c.nextPc h.eng ∧ a.writes = e.writes
          ∧ a.body = e.body ∧ a.tag = h.sba ∧ a.push = h.push ∧ a.issued = s.cycle c ∧ a.due = e.lat.map (fun l => s.cycle c + l - 1))
      ∧ (t.core s.issuer).raised = c.raised ∧ (t.core s.issuer).nextPc h.eng = e.next.getD (c.nextPc h.eng + 1)
      ∧ ((t.core s.issuer).seq h.eng).earliest = s.cycle c + 1 + h.pd.val + (if e.next.isSome then 2 else 0)
      ∧ ∀ a b : Seq, a ≠ b → (t.core s.issuer).tokens a b
          = if h.pop = some a ∧ b = h.eng ∧ c.hasPopped h.eng opc = false then c.tokens a b - 1 else c.tokens a b)
    ∧ (∃ t, trapped s h cause info = .next t ∧ same t ∧ (t.core s.issuer).acts = c.acts ∧ (t.core s.issuer).tqcnt = c.tqcnt
      ∧ (t.core s.issuer).seqs = c.seqs
      ∧ (c.raised = [] → (t.core s.issuer).raised = [⟨h.eng, cause, c.nextPc h.eng, info⟩]))
    ∧ (∃ t, waits s h why = .next t ∧ same t ∧ (t.core s.issuer).acts = c.acts ∧ (t.core s.issuer).tqcnt = c.tqcnt
      ∧ (t.core s.issuer).raised = c.raised ∧ (t.core s.issuer).nextPc h.eng = c.nextPc h.eng)

/-- R64, R94, R133, R179, R185, R218, R221, R231, R328, R349, R357: what reset leaves, of what the spec gives a reset value. -/
def Obligations.ResetLeavesTheSpecsValues : Prop :=
  let s := State.reset
  s.memOk = true ∧ s.coresOk = true
  ∧ (∀ id, id < 576 → let c := s.core id
      c.task = none ∧ c.inHandler = false ∧ c.tqcnt = 0 ∧ c.acts = [] ∧ c.raised = []
      ∧ (∀ q, (c.seq q).status = .idle ∧ (c.seq q).pc = 0 ∧ (c.seq q).shp = 0xFF00)
      ∧ (∀ a b : Seq, a ≠ b → c.ceiling a b = 15)
      ∧ (∀ h : HReg, (c.handles[h]).state = .invalid)
      ∧ (∀ e : Fin 32, (c.scopes[e]).cmask = 0xFFFF ∧ (c.scopes[e]).valid = decide (e.val ≤ 5)
          ∧ (e.val ≤ 5 → (c.scopes[e]).reach.toNat = e.val))
      ∧ (∀ k : Fin 16, c.dcf[k] = 0x3F80_0000) ∧ (∀ b : Bar, (c.bars[b]).state = .unconfigured))
  ∧ (∀ x : Fin 64, (s.ctx x).state = .free ∧ (s.ctx x).gstep = 0 ∧ (s.ctx x).sweepTh = 0x2000
      ∧ ∀ r : Region, ((s.ctx x).regions[r]).valid = false)
  ∧ s.ctxRes = 0x8000_0000_0000_0000 ∧ s.cmd = none ∧ s.pulse = 0 ∧ s.dtime9 = 0
  ∧ ∀ (k : Fin 8) (p : Fin 64), (s.peerLive[k]).getLsbD p.val = decide (p.val = s.pkg)

/-- R6: a byte read after a write is the byte written there, or else what it was; two memories in canonical form that read alike are
equal (the canonical form is the model's, log 5). -/
def Obligations.MemoryReadsWhatIsWritten : Prop :=
  (∀ (m : Memory) (a : Nat) (bs : List Byte) (x : Nat), m.wf = true →
    (m.writeBytes a bs).read x = (if a ≤ x ∧ x < a + bs.length then bs.getD (x - a) 0 else m.read x))
  ∧ (∀ (m : Memory) (a n : Nat), m.wf = true → m.readBytes a n = (List.range n).map (fun i => m.read (a + i)))
  ∧ ∀ m n : Memory, m.wf = true → n.wf = true → m.epoch = n.epoch → (∀ x, m.read x = n.read x) → m = n

/-- Every step keeps device memory, and the other packages' combs, in canonical form (log 5). -/
def Obligations.StepKeepsMemoryForm : Prop :=
  ∀ s t : State, s.memOk = true → step s = .next t → t.memOk = true

/-! ### Scalar words -/

/-- R75: the two-operand register forms but `mulh`, `mulhu`, `clz` and `popc`. -/
def Sys2Proof.Machine.scalarRegisterWordsIssue : Prop :=
  ∀ (s : State) (h : Hdr) (d a b c : GReg),
    let A := s.me.rd h.eng a
    let B := s.me.rd h.eng b
    let C := s.me.rd h.eng c
    (s.ready h 0x04 = true → exec (.add h d a b) s = writesG s h 0x04 1 d (A + B))
    ∧ (s.ready h 0x05 = true → exec (.sub h d a b) s = writesG s h 0x05 1 d (A - B))
    ∧ (s.ready h 0x06 = true → exec (.mul h d a b) s = writesG s h 0x06 4 d (A * B))
    ∧ (s.ready h 0x16 = true → exec (.madd h d a b c) s = writesG s h 0x16 4 d (A * B + C))
    ∧ (s.ready h 0x09 = true → exec (.and h d a b) s = writesG s h 0x09 1 d (A &&& B))
    ∧ (s.ready h 0x0A = true → exec (.or h d a b) s = writesG s h 0x0A 1 d (A ||| B))
    ∧ (s.ready h 0x0B = true → exec (.xor h d a b) s = writesG s h 0x0B 1 d (A ^^^ B))
    ∧ (s.ready h 0x0C = true → exec (.shl h d a b) s = writesG s h 0x0C 1 d (A <<< (B.toNat % 64)))
    ∧ (s.ready h 0x0D = true → exec (.shr h d a b) s = writesG s h 0x0D 1 d (A >>> (B.toNat % 64)))
    ∧ (s.ready h 0x0E = true → exec (.sar h d a b) s = writesG s h 0x0E 1 d (A.sshiftRight (B.toNat % 64)))
    ∧ (s.ready h 0x0F = true → exec (.min h d a b) s = writesG s h 0x0F 1 d (if A.toInt < B.toInt then A else B))
    ∧ (s.ready h 0x10 = true → exec (.max h d a b) s = writesG s h 0x10 1 d (if A.toInt < B.toInt then B else A))
    ∧ (s.ready h 0x11 = true → exec (.minu h d a b) s = writesG s h 0x11 1 d (if A.toNat < B.toNat then A else B))
    ∧ (s.ready h 0x12 = true → exec (.maxu h d a b) s = writesG s h 0x12 1 d (if A.toNat < B.toNat then B else A))
    ∧ (s.ready h 0x13 = true → exec (.slt h d a b) s = writesG s h 0x13 1 d (if A.toInt < B.toInt then 1 else 0))
    ∧ (s.ready h 0x14 = true → exec (.sltu h d a b) s = writesG s h 0x14 1 d (if A.toNat < B.toNat then 1 else 0))
    ∧ (s.ready h 0x15 = true → exec (.seq h d a b) s = writesG s h 0x15 1 d (if A = B then 1 else 0))
    ∧ (s.ready h 0x17 = true → exec (.sel h d a b c) s = writesG s h 0x17 1 d (if C = 0 then B else A))

/-- R75: the high halves of the products, by 128-bit multiplication, and the two bit counts. -/
def Sys2Proof.Machine.highProductsAndBitCountsIssue : Prop :=
  ∀ (s : State) (h : Hdr) (d a b : GReg),
    let A := s.me.rd h.eng a
    let B := s.me.rd h.eng b
    (s.ready h 0x07 = true → exec (.mulh h d a b) s
      = writesG s h 0x07 4 d (BitVec.extractLsb' 64 64 (A.signExtend 128 * B.signExtend 128)))
    ∧ (s.ready h 0x08 = true → exec (.mulhu h d a b) s
      = writesG s h 0x08 4 d (BitVec.extractLsb' 64 64 (A.setWidth 128 * B.setWidth 128)))
    ∧ (s.ready h 0x22 = true → ∃ n : Nat, exec (.clz h d a) s = writesG s h 0x22 1 d (BitVec.ofNat 64 n)
        ∧ n ≤ 64 ∧ (∀ i, 64 - n ≤ i → A.getLsbD i = false) ∧ (n < 64 → A.getLsbD (63 - n) = true))
    ∧ (s.ready h 0x23 = true → exec (.popc h d a) s
        = writesG s h 0x23 1 d (BitVec.ofNat 64 ((List.range 64).countP (fun i => A.getLsbD i))))

/-- R75: the register forms of the scalar words. -/
def Obligations.ScalarRegisterWordsIssue : Prop :=
  scalarRegisterWordsIssue ∧ highProductsAndBitCountsIssue

/-- R76, R77, R78: the immediate forms and the field words. -/
def Obligations.ScalarImmediateWordsIssue : Prop :=
  ∀ (s : State) (h : Hdr) (d a b : GReg) (imm : W32) (n : Fin 64) (i42 : BitVec 42) (i22 : BitVec 22) (wid : Nat) (sx : Bool),
    let A := s.me.rd h.eng a
    let B := s.me.rd h.eng b
    let I : W64 := imm.signExtend 64
    (s.ready h 0x18 = true → exec (.addi h d a imm) s = writesG s h 0x18 1 d (A + I))
    ∧ (s.ready h 0x19 = true → exec (.andi h d a imm) s = writesG s h 0x19 1 d (A &&& I))
    ∧ (s.ready h 0x1A = true → exec (.ori h d a imm) s = writesG s h 0x1A 1 d (A ||| I))
    ∧ (s.ready h 0x1B = true → exec (.xori h d a imm) s = writesG s h 0x1B 1 d (A ^^^ I))
    ∧ (s.ready h 0x1C = true → exec (.shli h d a n) s = writesG s h 0x1C 1 d (A <<< n.val))
    ∧ (s.ready h 0x1D = true → exec (.shri h d a n) s = writesG s h 0x1D 1 d (A >>> n.val))
    ∧ (s.ready h 0x1E = true → exec (.sari h d a n) s = writesG s h 0x1E 1 d (A.sshiftRight n.val))
    ∧ (s.ready h 0x1F = true → exec (.slti h d a imm) s = writesG s h 0x1F 1 d (if A.toInt < I.toInt then 1 else 0))
    ∧ (s.ready h 0x20 = true → exec (.ldi h d i42) s = writesG s h 0x20 1 d (i42.signExtend 64))
    ∧ (s.ready h 0x21 = true → exec (.orhi h d i22) s
        = writesG s h 0x21 1 d (i22 ++ (s.me.rd h.eng d).extractLsb' 0 42))
    ∧ (s.ready h 0x24 = true → 1 ≤ wid → n.val + wid ≤ 64 → ∃ v, exec (.bfx h d a n wid sx) s = writesG s h 0x24 1 d v
        ∧ ∀ i, i < 64 → v.getLsbD i = (if i < wid then A.getLsbD (n.val + i) else sx && A.getLsbD (n.val + wid - 1)))
    ∧ (s.ready h 0x25 = true → 1 ≤ wid → n.val + wid ≤ 64 → ∃ v, exec (.bfi h d a b n wid) s = writesG s h 0x25 1 d v
        ∧ ∀ i, i < 64 → v.getLsbD i = (if n.val ≤ i ∧ i < n.val + wid then B.getLsbD (i - n.val) else A.getLsbD i))

/-! ### Control flow -/

/-- What a branch of a ready word answers: not taken, it issues; taken inside its stream, it issues and the target comes next;
taken to an index outside the stream, it traps ILLEGAL with reason 0x0D (R81). -/
def Sys2Proof.Machine.branches (s : State) (h : Hdr) (opc : Nat) (taken : Prop) [Decidable taken] (target : Int) (ws : List Write)
    : Host.Outcome State Fault Refusal :=
  if taken then
    if 0 ≤ target ∧ target < ((s.me.seq h.eng).streamLen.toNat : Int)
    then issued s h opc { writes := ws, next := some (BitVec.ofNat 32 target.toNat) }
    else trapped s h .illegal 0x0D
  else issued s h opc { writes := ws }

/-- R42, R79 to R81: the branch words. -/
def Obligations.BranchWordsIssueOrTrap : Prop :=
  ∀ (s : State) (h : Hdr) (a b : GReg) (off : W32),
    let A := s.me.rd h.eng a
    let B := s.me.rd h.eng b
    let pc := (s.me.nextPc h.eng).toNat
    let rel : Int := (pc : Int) + off.toInt
    let hb := s.me.usesHandler h.eng
    (s.ready h 0x28 = true → exec (.beq h a b off) s = branches s h 0x28 (A = B) rel [])
    ∧ (s.ready h 0x29 = true → exec (.bne h a b off) s = branches s h 0x29 (A ≠ B) rel [])
    ∧ (s.ready h 0x2A = true → exec (.blt h a b off) s = branches s h 0x2A (A.toInt < B.toInt) rel [])
    ∧ (s.ready h 0x2B = true → exec (.bge h a b off) s = branches s h 0x2B (B.toInt ≤ A.toInt) rel [])
    ∧ (s.ready h 0x2C = true → exec (.bltu h a b off) s = branches s h 0x2C (A.toNat < B.toNat) rel [])
    ∧ (s.ready h 0x2D = true → exec (.bgeu h a b off) s = branches s h 0x2D (B.toNat ≤ A.toNat) rel [])
    ∧ (s.ready h 0x2E = true → exec (.jmp h off) s = branches s h 0x2E True rel [])
    ∧ (s.ready h 0x2F = true → exec (.jal h a off) s
        = branches s h 0x2F True rel [.g hb a (BitVec.ofNat 64 (pc + 1))])
    ∧ (s.ready h 0x30 = true → exec (.jr h a) s = branches s h 0x30 True (A.toNat : Int) [])
    ∧ (s.ready h 0x31 = true → exec (.loop h a off) s = branches s h 0x31 (A ≠ 1) rel [.g hb a (A - 1)])

/-- R66, R67, R86 to R92: the other words of control. The header of `exit` loses its PUSH, which a record of its own carries. -/
def Sys2Proof.Machine.controlWordsIssue : Prop :=
  ∀ (s : State) (h : Hdr) (a : GReg) (imm : W32) (tok : Bool) (kind : FenceKind) (sc : Fin 32) (cm : BitVec 16) (i o : Bool),
    let n := (s.me.rd h.eng a + imm.signExtend 64).toNat % 2 ^ 32
    (s.ready h 0x00 = true → exec (.nop h) s = issued s h 0x00 {})
    ∧ (s.ready h 0x01 = true → h.eng ≠ .x → ∃ e, exec (.endW h) s = issued s h 0x01 e ∧ e.writes = [] ∧ e.lat = some 1
        ∧ ∀ c, ((e.after c).seq h.eng).status = .ended)
    ∧ (s.ready { h with push := none } 0x01 = true → h.eng = .x → s.me.inHandler = false →
        ∃ e, exec (.endW h) s = issued s { h with push := none } 0x01 e ∧ e.body = .exit ∧ e.holds = some .exit ∧ e.lat = none)
    ∧ (s.ready { h with push := none } 0x60 = true → s.me.inHandler = false →
        ∃ e, exec (.exit h) s = issued s { h with push := none } 0x60 e ∧ e.body = .exit ∧ e.holds = some .exit ∧ e.lat = none)
    ∧ (s.ready h 0x60 = true → ∃ e, exec (.exitAbort h) s = issued s h 0x60 e ∧ e.lat = some 1
        ∧ ∀ c, (e.after c).stop = some .abort)
    ∧ (s.ready h 0x3A = true → exec (.pause h a imm tok) s
        = issued s h 0x3A { lat := none, fixed := false, body := .pause (s.cycle s.me + n) tok, holds := some .none })
    ∧ (s.ready h 0x3B = true → ∃ e, exec (.trap h a imm) s = issued s h 0x3B e
        ∧ ∀ c : Core, c.raised = [] → (e.after c).raised = [⟨h.eng, .software, c.nextPc h.eng, BitVec.ofNat 64 n⟩])
    ∧ (s.ready h 0x3C = true → (s.me.scopes[sc]).valid = true → exec (.fence h kind sc cm) s
        = issued s h 0x3C { lat := none, fixed := false, holds := some .fence
                            body := .fence kind (if cm = 0 then 0xFFFF else cm) (s.me.scopes[sc]).reach })
    ∧ (s.ready h 0x3C = true → (s.me.scopes[sc]).valid = false → exec (.fence h kind sc cm) s = trapped s h .illegal 0x0D)
    ∧ (s.ready h 0x3D = true → exec (.qfence h i o) s
        = issued s h 0x3D { lat := none, fixed := false, holds := some .fence
                            body := .qfence (if i then s.me.inQ.posted else 0) (if o then s.me.outQ.posted else 0) })
    ∧ (s.ready h 0x79 = true → s.me.inHandler = false → exec (.resume h) s = trapped s h .illegal 0x0D)

/-- R70, R92, R310, R329, R333: `resume` in handler mode issues, and its landing brings X back to its normal bank: every stopped
sequencer runs on at its PC register from the next cycle, or later where the gap after its last word (PD, a branch) is not over; one that
had ended when a pre-emption stopped it has ended again. A trap held pending is taken first: the core stops for it again, and a stop that
waits goes on waiting; with none pending, and for the abort of the kernel even then, the core stops for the stop that waits. -/
def Sys2Proof.Machine.resumeReturnsFromHandler : Prop :=
  (∀ (s : State) (h : Hdr), s.ready h 0x79 = true → s.me.inHandler = true →
    exec (.resume h) s = issued s h 0x79 { writes := [.leave] })
  ∧ ∀ (s : State) (core act : Nat) (a : Act),
    lands s core act true a → a.writes = [.leave] → a.body = .plain → a.push = none → a.resumed = false → (s.core core).acts = [a] →
      ∃ t, exec (.resultLanding core act) s = .next t ∧
        let c := s.core core
        let u := t.core core
        let back := fun (q : Seq) => (c.seq q).status = .stopped ∨ (c.seq q).status = .handler
        u.inHandler = false ∧ u.acts = [] ∧ u.handlerBank = Vector.replicate 32 0
        ∧ (∀ q, (u.seq q).pc = (c.seq q).pc ∧ (u.seq q).g = (c.seq q).g ∧ (u.seq q).streamVA = (c.seq q).streamVA)
        ∧ (∀ q, back q → (u.seq q).earliest = max (c.seq q).earliest (s.cycle c + 1))
        ∧ (c.pending = [] → c.waitingStop = none → u.stop = none ∧ u.raised = c.raised
            ∧ ∀ q, back q → (u.seq q).status = if (c.seq q).ended = true then .ended else .running)
        ∧ (c.pending ≠ [] → c.waitingStop ≠ some .killed → u.stop = some .trap ∧ u.raised = c.pending ∧ u.pending = []
            ∧ u.waitingStop = c.waitingStop
            ∧ ∀ q, back q → (u.seq q).status = if (c.seq q).ended = true then .ended else .stopped)
        ∧ ∀ k, c.waitingStop = some k → (k = .killed ∨ c.pending = []) → u.stop = some k ∧ u.waitingStop = none ∧ u.pending = []
            ∧ u.raised = c.raised
            ∧ ∀ q, back q → (u.seq q).status = if (c.seq q).ended = true ∧ k.saves = false then .ended else .stopped

/-- R66, R67, R70, R86 to R92: the words of control, and the return from the handler. -/
def Obligations.ControlWordsIssue : Prop :=
  controlWordsIssue ∧ resumeReturnsFromHandler

/-! ### Tokens and special registers -/

/-- n = gA + IMM32 as a signed 64-bit number (R82, R83). -/
def Sys2Proof.Machine.tokenArg (s : State) (h : Hdr) (a : GReg) (imm : W32) : Int := (s.me.rd h.eng a + imm.signExtend 64).toInt

/-- R82 to R84: the token words, and where `tsig` and `twait` trap or wait. -/
def Obligations.TokenWordsIssueTrapOrWait : Prop :=
  ∀ (s : State) (h : Hdr) (q p : Seq) (d a : GReg) (imm : W32),
    let n := tokenArg s h a imm
    let hm := s.me.usesHandler h.eng
    (s.ready h 0x34 = true → hm = false → 0 ≤ n → n ≤ 15 → exec (.tsig h q a imm) s
      = issued s h 0x34 { lat := none, fixed := false, body := .tsig q n.toNat, holds := some .fence })
    ∧ (s.ready h 0x34 = true → (hm = true ∨ n < 0 ∨ 15 < n) → exec (.tsig h q a imm) s = trapped s h .illegal 0x0D)
    ∧ (s.ready h 0x35 = true → hm = false → 0 ≤ n → n ≤ 15 → n ≤ s.me.ceiling q h.eng → h.pop ≠ some q →
        n ≤ s.me.tokens q h.eng → exec (.twait h q a imm) s
          = issued (s.setCore (s.me.setTokens q h.eng (s.me.tokens q h.eng - n.toNat))) h 0x35 {})
    ∧ (s.ready h 0x35 = true → hm = false → 0 ≤ n → n ≤ 15 → n ≤ s.me.ceiling q h.eng → (s.me.tokens q h.eng : Int) < n →
        exec (.twait h q a imm) s = waits s h .token)
    ∧ (s.ready h 0x35 = true → (hm = true ∨ n < 0 ∨ 15 < n ∨ (s.me.ceiling q h.eng : Int) < n) →
        exec (.twait h q a imm) s = trapped s h .illegal 0x0D)
    ∧ (s.ready h 0x36 = true → exec (.tqrd h d q p) s
        = writesG s h 0x36 1 d (BitVec.ofNat 64 (s.me.tqSnap.toNat / 16 ^ (4 * q.idx.val + p.idx.val) % 16)))

/-- R85: `sysr` and `sysw`. An index above 0xFFF is ILLEGAL, one that the sequencer may not reach is PERMISSION; TRAPINFO 0 of that
PERMISSION is the model's (log 19, DEDUCED: R85 gives it no layout). -/
def Sys2Proof.Machine.sysregWordsIssueOrTrap : Prop :=
  ∀ (s : State) (h : Hdr) (d a : GReg) (imm : W32),
    let i := (s.me.rd h.eng a + imm.signExtend 64).toNat
    (s.ready h 0x38 = true → 0xFFF < i → exec (.sysr h d a imm) s = trapped s h .illegal 0x0D)
    ∧ (s.ready h 0x38 = true → i ≤ 0xFFF → s.me.sysDenied h.eng i = true → exec (.sysr h d a imm) s = trapped s h .permission 0)
    ∧ (s.ready h 0x38 = true → i ≤ 0xFFF → s.me.sysDenied h.eng i = false → exec (.sysr h d a imm) s
        = writesG s h 0x38 4 d (s.atStart.sysRead (s.atStart.core s.me.id) h.eng i))
    ∧ (s.ready h 0x39 = true → 0xFFF < i → exec (.sysw h d a imm) s = trapped s h .illegal 0x0D)
    ∧ (s.ready h 0x39 = true → i ≤ 0xFFF → s.me.sysDenied h.eng i = true → exec (.sysw h d a imm) s = trapped s h .permission 0)
    ∧ (s.ready h 0x39 = true → i ≤ 0xFFF → s.me.sysDenied h.eng i = false → writeIsEvent i = false → exec (.sysw h d a imm) s
        = issued s h 0x39 { writes := [.sysreg i (s.me.rd h.eng d)] })
    ∧ (s.ready h 0x39 = true → i ≤ 0xFFF → s.me.sysDenied h.eng i = false → writeIsEvent i = true → exec (.sysw h d a imm) s
        = issued s h 0x39 { body := .sysw i (s.me.rd h.eng d) })

/-- An issued word of core `core` that is a `sysw` of value `v` to index `i`, whose write is a step of its own. -/
def Sys2Proof.Machine.isSysw (s : State) (core act i : Nat) (v : W64) : Prop :=
  ∃ a, (s.core core).act? act = some a ∧ a.body = .sysw i v

/-- The steps that perform such a write: what the register named becomes (R153, R126, R221, R185). A melt factor outside (0, 1] is
dropped; in entries 0 to 5 of the scope table only CMASK is written. -/
def Sys2Proof.Machine.sysregWriteStepsComplete : Prop :=
  ∀ (s : State) (core act i : Nat) (v : W64),
    (isSysw s core act 0x300 v → ∃ t, exec (.tqceilWrite core act) s = .next t
        ∧ ∀ a b : Seq, a ≠ b → (t.core core).ceiling a b
            = if nib v (queueNo a b) = 0 then (s.core core).ceiling a b else nib v (queueNo a b))
    ∧ (isSysw s core act 0x301 v → (∀ a, (s.core core).act? act = some a → a.push = none) →
        ∃ t, exec (.tqcntWrite core act) s = .next t
          ∧ ∀ a b : Seq, a ≠ b → (t.core core).tokens a b = nib v (queueNo a b))
    ∧ (isSysw s core act i v → 0x118 ≤ i → i ≤ 0x11B → ∃ t, exec (.amaxWrite core act) s = .next t
        ∧ ∀ m : MReg, m.val = i - 0x118 → (t.core core).amax[m] = v &&& 0x3_7FFF_FFFF)
    ∧ (isSysw s core act i v → 0x590 ≤ i → i ≤ 0x59F → ∃ t, exec (.dcfWrite core (.own act)) s = .next t
        ∧ ∀ k : Fin 16, k.val = i - 0x590 → (t.core core).dcf[k]
            = if 0 < v.toNat % 2 ^ 32 ∧ v.toNat % 2 ^ 32 ≤ 0x3F80_0000 then BitVec.ofNat 32 v.toNat else (s.core core).dcf[k])
    ∧ (∀ e : Fin 32, isSysw s core act (0x400 + 8 * e.val) v → ∃ t, exec (.scopeEntryWrite core (.own act)) s = .next t
        ∧ ((t.core core).scopes[e]).cmask = BitVec.ofNat 16 v.toNat
        ∧ (e.val ≤ 5 → ((t.core core).scopes[e]).reach = ((s.core core).scopes[e]).reach
            ∧ ((t.core core).scopes[e]).valid = ((s.core core).scopes[e]).valid)
        ∧ (5 < e.val → ((t.core core).scopes[e]).valid = v.getLsbD 63))

/-- R85, R126, R153, R185, R221: the sysreg words, and the writes that are steps of their own. -/
def Obligations.SysregWordsReadAndWrite : Prop :=
  sysregWordsIssueOrTrap ∧ sysregWriteStepsComplete

/-! ### Landing and completion -/

/-- R48 to R53: a landing writes the register named and no other, the word's tag is free, and the word is gone; `g0` stays 0 (R43). What
its PUSH does to the token queues, O17 states. -/
def Sys2Proof.Machine.landingWritesItsRegister : Prop :=
  ∀ (s : State) (core act : Nat) (a : Act) (fixed : Bool) (hb : Bool) (d : GReg) (v : W64),
    lands s core act fixed a → a.writes = [.g hb d v] →
      let c := s.core core
      ∃ t, exec (if fixed then .resultLanding core act else .variableResultLanding core act) s = .next t
        ∧ (∀ other, other ≠ core → t.core other = s.core other)
        ∧ t.mem = s.mem ∧ t.ctxs = s.ctxs ∧ t.hives = s.hives
        ∧ let u := t.core core
          u.act? act = none
          ∧ (∀ r : GReg, u.handlerBank[r] = if hb = true ∧ r = d ∧ d ≠ 0 then v else c.handlerBank[r])
          ∧ (∀ (q : Seq) (r : GReg), (u.seq q).g[r] = if hb = false ∧ q = a.seq ∧ r = d ∧ d ≠ 0 then v else (c.seq q).g[r])
          ∧ (∀ (q : Seq) (k : Fin 8), (u.seq q).tags[k]
              = if a.tag = some k ∧ q = a.seq ∧ a.handler = false then false else (c.seq q).tags[k])
          ∧ (∀ k : Fin 8, u.handlerTags[k] = if a.tag = some k ∧ a.handler = true then false else c.handlerTags[k])
          ∧ u.tiles = c.tiles ∧ u.masks = c.masks ∧ u.preds = c.preds ∧ u.amax = c.amax ∧ u.handles = c.handles ∧ u.rings = c.rings
          ∧ u.comb = c.comb ∧ u.acc = c.acc ∧ u.filter = c.filter ∧ u.shadow = c.shadow ∧ u.active = c.active ∧ u.slots = c.slots
          ∧ u.bars = c.bars ∧ u.scopes = c.scopes ∧ u.dcf = c.dcf
          ∧ (a.push = none → u.tqcnt = c.tqcnt ∧ u.raised = c.raised)

/-- R48 to R54: what any landing leaves alone: device memory and every other core (but where a ring register is defined anew, appends on
their way to it, which then bring nothing: log 33, DEDUCED), and of the core itself its comb, its stores and its accumulator; its tiles
unless a write names a tile; its masks unless a write names a mask; its scalar registers unless a write names one, or X returns from its
handler. -/
def Obligations.LandingFrame : Prop :=
  ∀ (s t : State) (core act : Nat) (a : Act) (fixed : Bool),
    (s.core core).act? act = some a → (∀ w ∈ a.writes, ∀ i v, w ≠ .sysreg i v) →
    exec (if fixed then .resultLanding core act else .variableResultLanding core act) s = .next t →
      t.mem = s.mem ∧ t.ctxs = s.ctxs ∧ t.hives = s.hives ∧ t.peerCombs = s.peerCombs
      ∧ (∀ other, other ≠ core → { t.core other with acts := (s.core other).acts } = s.core other)
      ∧ ((∀ w ∈ a.writes, ∀ r v, w ≠ .ring r v) → ∀ other, other ≠ core → t.core other = s.core other)
      ∧ (t.core core).comb = (s.core core).comb ∧ (t.core core).acc = (s.core core).acc
      ∧ (t.core core).filter = (s.core core).filter ∧ (t.core core).shadow = (s.core core).shadow
      ∧ (t.core core).active = (s.core core).active
      ∧ ((∀ w ∈ a.writes, ∀ r hb vs, w ≠ .tile r hb vs) → (t.core core).tiles = (s.core core).tiles)
      ∧ ((∀ w ∈ a.writes, ∀ k en v, w ≠ .mask k en v) → (t.core core).masks = (s.core core).masks)
      ∧ ((∀ w ∈ a.writes, w ≠ .leave ∧ ∀ hb r v, w ≠ .g hb r v) → (t.core core).handlerBank = (s.core core).handlerBank
          ∧ ∀ q, ((t.core core).seq q).g = ((s.core core).seq q).g)

/-- R54, R55: a completing word's PUSH adds one token to its queue, unless the queue stands at its ceiling: then the count stays and
its sequencer takes TOKEN_CEILING. -/
def Sys2Proof.Machine.pushCountsAtCompletion : Prop :=
  ∀ (c : Core) (a : Act) (b : Seq), a.push = some b → a.seq ≠ b →
    (c.tokens a.seq b < c.ceiling a.seq b →
      (c.complete a).tokens a.seq b = c.tokens a.seq b + 1 ∧ (c.complete a).raised = c.raised
      ∧ ∀ p q : Seq, p ≠ q → (p, q) ≠ (a.seq, b) → (c.complete a).tokens p q = c.tokens p q)
    ∧ (c.ceiling a.seq b ≤ c.tokens a.seq b → c.raised = [] →
      (c.complete a).tqcnt = c.tqcnt
      ∧ ∃ tr, (c.complete a).raised = [tr] ∧ tr.seq = a.seq ∧ tr.cause = .tokenCeiling)

/-- R86: a pause whose end has come completes, and its sequencer runs on. -/
def Sys2Proof.Machine.pauseEnds : Prop :=
  ∀ (s : State) (core act : Nat) (a : Act) (e : Nat) (tok : Bool),
    (s.core core).act? act = some a → a.body = .pause e tok → a.push = none → a.resumed = false → e ≤ s.cycle (s.core core) →
    ((s.core core).seq a.seq).status = .paused →
      ∃ t, exec (.pauseEnd core act) s = .next t ∧ (t.core core).act? act = none ∧ ((t.core core).seq a.seq).status = .running

/-! ### Traps -/

/-- R56, R65, R70, R72, R333: a core that has stopped for traps, whose handler can be entered, takes the one of the lowest fetch index,
and the others stay pending: TRAPCAUSE, TRAPPC, TRAPENG and TRAPINFO record it, X enters the handler at TRAPVEC with its bank cleared, and
every tag is free. The pc is that of the trap, or after a TOKEN_CEILING that of the next word not issued (R55). -/
def Sys2Proof.Machine.trapEntersHandler : Prop :=
  ∀ (s : State) (core : Nat),
    (s.core core).stop = some .trap → (s.core core).acts = [] → (s.core core).raised ≠ [] →
    (s.core core).handlerReady = true → s.watchdogDue (s.core core) = false →
      ∃ t tr others, exec (.handlerEntry core) s = .next t ∧ (tr :: others).Perm (s.core core).raised
        ∧ (∀ u ∈ (s.core core).raised, tr.seq.idx.val ≤ u.seq.idx.val) ∧ (t.core core).pending = others ∧
        let pc := if tr.cause = .tokenCeiling then ((s.core core).seq tr.seq).pc else tr.pc
        (t.core core).trapCause = BitVec.ofNat 8 tr.cause.code ∧ (t.core core).trapPc = pc
        ∧ (t.core core).trapEng = BitVec.ofNat 2 tr.seq.idx.val ∧ (t.core core).trapInfo = tr.info
        ∧ (t.core core).inHandler = true ∧ (t.core core).handlerPc = (s.core core).trapVec
        ∧ (t.core core).raised = [] ∧ (t.core core).handlerBank = Vector.replicate 32 0
        ∧ ((t.core core).seq tr.seq).pc = pc
        ∧ (∀ q (k : Fin 8), ((t.core core).seq q).tags[k] = false)
        ∧ (∀ q, ((t.core core).seq q).g = ((s.core core).seq q).g)

/-- R333: of several traps raised in one cycle, the one taken is that of the lowest fetch index, and the others stay pending. -/
def Sys2Proof.Machine.lowestSequencerTrapsFirst : Prop :=
  ∀ (ts : List Trap), ts ≠ [] → ∃ tr rest, firstTrap ts = some (tr, rest) ∧ tr ∈ ts
    ∧ (∀ u ∈ ts, tr.seq.idx.val ≤ u.seq.idx.val) ∧ (tr :: rest).Perm ts

/-- R69: after 256 cycles of the deadlock condition, the first blocked sequencer takes TOKEN_DEADLOCK at its PC register. -/
def Sys2Proof.Machine.tokenDeadlockTraps : Prop :=
  ∀ (s : State) (core : Nat), (s.core core).deadlocked = true → 256 ≤ (s.core core).deadlock → (s.core core).raised = [] →
    ∃ t q, exec (.tokenDeadlock core) s = .next t ∧ (s.core core).tokenBlocked q = true
      ∧ (∀ p, (s.core core).tokenBlocked p = true → q.idx.val ≤ p.idx.val)
      ∧ (t.core core).raised = [⟨q, .tokenDeadlock, ((s.core core).seq q).pc, s.deadlockInfo core⟩]
      ∧ (t.core core).deadlock = 0
/-- R376: TRAPINFO of a TOKEN_CEILING holds the index of the word that pushed in bits 31:0, the queue as 4a + b in bits 35:32, and 1 in
bit 36 if that word was a `tsig`; bits 63:37 are 0. -/
def Sys2Proof.Machine.ceilingTrapNamesItsPush : Prop :=
  ∀ (c : Core) (a : Act) (b : Seq), c.raised = [] → a.seq ≠ b →
    let named := fun (d : Core) (sig : Nat) => ∃ tr, d.raised = [tr] ∧ tr.cause = .tokenCeiling
      ∧ bits tr.info 0 32 = a.pc.toNat ∧ bits tr.info 32 4 = 4 * a.seq.idx.val + b.idx.val
      ∧ bits tr.info 36 1 = sig ∧ bits tr.info 37 27 = 0
    (a.push = some b → c.ceiling a.seq b ≤ c.tokens a.seq b → named (c.complete a) (match a.body with | .tsig _ _ => 1 | _ => 0))
    ∧ ∀ n, 0 < n → (a.push = none → c.ceiling a.seq b < c.tokens a.seq b + n → named (c.finishTsig a b n) 1)
      ∧ (a.push = some b → c.ceiling a.seq b < c.tokens a.seq b + n + 1 → named (c.finishTsig a b n) 1)

/-- R65, R69, R70, R72, R333: the entry into the handler, which trap is taken, and the token deadlock. -/
def Obligations.TrapsAreTaken : Prop :=
  trapEntersHandler ∧ lowestSequencerTrapsFirst ∧ tokenDeadlockTraps

/-- R54, R55, R86, R376: completion counts a PUSH, and a pause ends. -/
def Obligations.CompletionsPushAndEnd : Prop :=
  pushCountsAtCompletion ∧ pauseEnds ∧ ceilingTrapNamesItsPush

/-- R66: `end` in L, C or S moves its sequencer to ENDED, and a token pushed to an ended sequencer still counts; in X it has exactly the
effect of `exit`. -/
def Obligations.EndEndsItsStream : Prop :=
  (∀ (s : State) (h : Hdr), s.ready h 0x01 = true → h.eng ≠ .x →
    ∃ t, exec (.endW h) s = .next t ∧ ((t.core s.issuer).seq h.eng).status = .ended
      ∧ ∀ q, q ≠ h.eng → (t.core s.issuer).seq q = s.me.seq q)
  ∧ (∀ (c : Core) (a : Act) (b : Seq), (c.seq b).status = .ended → a.push = some b → a.seq ≠ b →
    c.tokens a.seq b < c.ceiling a.seq b → (c.complete a).tokens a.seq b = c.tokens a.seq b + 1)
  ∧ ∀ (s : State) (h : Hdr), h.eng = .x → s.ready { h with push := none } 0x01 = true → s.ready { h with push := none } 0x60 = true →
    (s.me.inHandler = false → ∃ e, exec (.endW h) s = issued s { h with push := none } 0x01 e
        ∧ exec (.exit h) s = issued s { h with push := none } 0x60 e ∧ e.body = .exit)
    ∧ (s.me.inHandler = true → exec (.endW h) s = trapped s h .illegal 0x0D ∧ exec (.exit h) s = trapped s h .illegal 0x0D)


/-! ### Tile words -/

/-- The outcome of a tile word whose active elements become `vals`, `hb` half-bytes each (R48, R49, R94, R98): ILLEGAL, reason 0x0C,
where a register of `fit` half-byte elements does not fit its shape. -/
def Sys2Proof.Machine.tileOut (s : State) (h : Hdr) (opc base : Nat) (m : TMod) (d : TReg) (vals : Nat → List Nat) :
    Host.Outcome State Fault Refusal :=
  let p := s.me.shape h.eng
  let hb := m.ty.halfBytes
  let gl := m.gl.val + 1
  if p.rows * p.cols * hb ≤ 8192 then
    issued s h opc { lat := some (base + beats gl p hb)
                     writes := tileWrites d gl p.elems hb (pmMerge m.z (s.me.actives m.pm hb gl p.elems) (vals p.elems)) }
  else trapped s h .illegal 0x0C

/-- The elements of group A, and of operand B, for registers of `n` elements. -/
def Sys2Proof.Machine.elemsA (s : State) (m : TMod) (a : TReg) (n : Nat) : List Nat := s.me.group a (m.gl.val + 1) n m.ty.halfBytes
def Sys2Proof.Machine.elemsB (s : State) (h : Hdr) (m : TMod) (b : TB) (n : Nat) : List Nat :=
  s.me.bElems h.eng b (m.gl.val + 1) n m.ty.halfBytes

/-- A word of one, two or three operands, element by element. -/
def Sys2Proof.Machine.map1 (s : State) (h : Hdr) (opc base : Nat) (m : TMod) (d a : TReg) (f : Nat → Nat) :
    Host.Outcome State Fault Refusal :=
  tileOut s h opc base m d (fun n => (elemsA s m a n).map f)
def Sys2Proof.Machine.map2 (s : State) (h : Hdr) (opc base : Nat) (m : TMod) (d a : TReg) (b : TB) (f : Nat → Nat → Nat) :
    Host.Outcome State Fault Refusal :=
  tileOut s h opc base m d (fun n => List.zipWith f (elemsA s m a n) (elemsB s h m b n))
def Sys2Proof.Machine.map3 (s : State) (h : Hdr) (opc base : Nat) (m : TMod) (d a : TReg) (b : TB) (c : TReg)
    (f : Nat → Nat → Nat → Nat) : Host.Outcome State Fault Refusal :=
  tileOut s h opc base m d (fun n => List.zipWith (fun g z => g z) (List.zipWith f (elemsA s m a n) (elemsB s h m b n)) (elemsA s m c n))

/-- R103 to R105: float words: exact on the elements' values, rounded once into TY under RM and SAT; latency 6 + beats. The choice of
an operand and the change of a sign are exact: no SAT applies (R104). -/
def Obligations.FloatTileWordsIssue : Prop :=
  ∀ (s : State) (h : Hdr) (d a c : TReg) (b : TB) (m : TMod),
    let V := tyDecode m.ty
    let R := tyEncode m.ty m.rm m.sat
    let E := tyEncode m.ty m.rm false
    let bin := fun (opc : Nat) (f : Machine.Num → Machine.Num → Machine.Num) => map2 s h opc 6 m d a b (fun x y => R (f (V x) (V y)))
    let un := fun (opc : Nat) (f : Machine.Num → Machine.Num) => map1 s h opc 6 m d a (fun x => R (f (V x)))
    let ter := fun (opc : Nat) (f : Machine.Num → Machine.Num → Machine.Num → Machine.Num) => map3 s h opc 6 m d a b c (fun x y z => R (f (V x) (V y) (V z)))
    (s.ready h 0x60 = true → exec (.fadd h d a b m) s = bin 0x60 (fun x y => x.add m.rm y))
    ∧ (s.ready h 0x61 = true → exec (.fsub h d a b m) s = bin 0x61 (fun x y => x.add m.rm y.neg))
    ∧ (s.ready h 0x62 = true → exec (.fmul h d a b m) s = bin 0x62 (fun x y => x.mul y))
    ∧ (s.ready h 0x63 = true → exec (.fma h d a b c m) s = ter 0x63 (fun x y z => (x.mul y).add m.rm z))
    ∧ (s.ready h 0x64 = true → exec (.fms h d a b c m) s = ter 0x64 (fun x y z => (x.mul y).add m.rm z.neg))
    ∧ (s.ready h 0x65 = true → exec (.fnma h d a b c m) s = ter 0x65 (fun x y z => (x.mul y).neg.add m.rm z))
    ∧ (s.ready h 0x66 = true → exec (.fmin h d a b m) s = map2 s h 0x66 6 m d a b (fun x y => E (minNum (V x) (V y))))
    ∧ (s.ready h 0x67 = true → exec (.fmax h d a b m) s = map2 s h 0x67 6 m d a b (fun x y => E (maxNum (V x) (V y))))
    ∧ (s.ready h 0x68 = true → exec (.fabs h d a m) s = map1 s h 0x68 6 m d a (fun x => E (V x).abs))
    ∧ (s.ready h 0x69 = true → exec (.fneg h d a m) s = map1 s h 0x69 6 m d a (fun x => E (V x).neg))
    ∧ (s.ready h 0x6A = true → exec (.fdiv h d a b m) s = bin 0x6A Machine.Num.div)
    ∧ (s.ready h 0x6B = true → exec (.fsqrt h d a m) s = un 0x6B fsqrtNum)
    ∧ (s.ready h 0x6C = true → exec (.frsq h d a m) s = un 0x6C frsqNum)
    ∧ (s.ready h 0x6D = true → exec (.frcp h d a m) s = un 0x6D (fun x => (Machine.Num.val false 1 1).div x))
    ∧ (s.ready h 0x6E = true → exec (.fexp2 h d a m) s = un 0x6E exp2Num)
    ∧ (s.ready h 0x6F = true → exec (.flog2 h d a m) s = un 0x6F log2Num)
    ∧ (s.ready h 0x70 = true → exec (.ftanh h d a m) s = un 0x70 tanhNum)
    ∧ (s.ready h 0x71 = true → exec (.fpowi h d a b m) s = map2 s h 0x71 6 m d a b
        (fun f k => if k % 2 ^ 32 < 2 ^ 15 then decayPow f (k % 2 ^ 32) else 0x7FC00000))

/-- R109, R110, R115: integer and bit words, and `tmov`; latency 4 + beats. -/
def Obligations.IntegerTileWordsIssue : Prop :=
  ∀ (s : State) (h : Hdr) (d a c : TReg) (b : TB) (m : TMod),
    let V := tyInt m.ty
    let R := tyFit m.ty m.sat
    let int := fun (opc : Nat) (f : Int → Int → Int) => map2 s h opc 4 m d a b (fun x y => R (f (V x) (V y)))
    let w := tyBits m.ty
    (s.ready h 0x78 = true → exec (.iadd h d a b m) s = int 0x78 (fun x y => x + y))
    ∧ (s.ready h 0x79 = true → exec (.isub h d a b m) s = int 0x79 (fun x y => x - y))
    ∧ (s.ready h 0x7A = true → exec (.imul h d a b m) s = int 0x7A (fun x y => x * y))
    ∧ (s.ready h 0x7B = true → exec (.imad h d a b c m) s = map3 s h 0x7B 4 m d a b c (fun x y z => R (V x * V y + V z)))
    ∧ (s.ready h 0x7C = true → exec (.iand h d a b m) s = map2 s h 0x7C 4 m d a b (fun x y => x &&& y))
    ∧ (s.ready h 0x7D = true → exec (.ior h d a b m) s = map2 s h 0x7D 4 m d a b (fun x y => x ||| y))
    ∧ (s.ready h 0x7E = true → exec (.ixor h d a b m) s = map2 s h 0x7E 4 m d a b (fun x y => x ^^^ y))
    ∧ (s.ready h 0x7F = true → exec (.ishl h d a b m) s = map2 s h 0x7F 4 m d a b (fun x y => R (V x * 2 ^ min y w)))
    ∧ (s.ready h 0x80 = true → exec (.ishr h d a b m) s = map2 s h 0x80 4 m d a b (fun x y => x / 2 ^ min y w))
    ∧ (s.ready h 0x81 = true → exec (.isar h d a b m) s
        = map2 s h 0x81 4 m d a b (fun x y => tyWrap m.ty (signedOf w x / 2 ^ min y w)))
    ∧ (s.ready h 0x82 = true → exec (.imin h d a b m) s = int 0x82 min)
    ∧ (s.ready h 0x83 = true → exec (.imax h d a b m) s = int 0x83 max)
    ∧ (s.ready h 0x85 = true → exec (.iabs h d a m) s = map1 s h 0x85 4 m d a (fun x => R ((V x).natAbs : Int)))
    ∧ (s.ready h 0x90 = true → exec (.tmov h d a m) s = map1 s h 0x90 4 m d a (fun x => x))
    ∧ (s.ready h 0x91 = true → m.sub = 0 → ∀ g : GReg, exec (.tbcast h d a g m) s
        = tileOut s h 0x91 4 m d (fun n => List.replicate ((m.gl.val + 1) * n) ((s.me.rd h.eng g).toNat % 2 ^ w)))

/-- R106, R107, R111 to R114: classes, compares and conversions. The shape must hold the wider of the two element types, or the word traps
ILLEGAL, 0x0C; a compare takes at most 4096 elements, and the MX words take columns in runs of 32, or the word traps ILLEGAL, 0x0D. -/
def Obligations.ConvertingTileWordsIssue : Prop :=
  ∀ (s : State) (h : Hdr) (d a t : TReg) (b : TB) (k : KReg) (g : GReg) (src : Ty) (m : TMod),
    let p := s.me.shape h.eng
    let gl := m.gl.val + 1
    let hb := m.ty.halfBytes
    let n := p.elems
    let acts := s.me.actives m.pm hb gl n
    let V := tyDecode m.ty
    let fits := fun (x : Nat) => n * x ≤ 8192
    let conds := List.zipWith (fun x y => condHolds m.sub.val (V x) (V y)) (s.me.group a 1 n hb) (s.me.bElems h.eng b 1 n hb)
    let xs := s.me.group a gl n src.halfBytes
    let traps := fun (opc : Nat) (i : Instr) (code : Nat) => s.ready h opc = true → exec i s = trapped s h .illegal code
    (¬ fits (max hb 4) → traps 0x72 (.fclass h d a m) 0x0C)
    ∧ (¬ fits hb → traps 0x73 (.fcmp h k a b m) 0x0C ∧ traps 0x84 (.icmp h k a b m) 0x0C)
    ∧ (fits hb → 4096 < n → traps 0x73 (.fcmp h k a b m) 0x0D ∧ traps 0x84 (.icmp h k a b m) 0x0D)
    ∧ (¬ fits (max hb src.halfBytes) → traps 0x88 (.cvt h d a src m) 0x0C ∧ traps 0x89 (.cvtmx h d a t src m) 0x0C
        ∧ traps 0x8A (.dqmx h d a t src m) 0x0C ∧ traps 0x8B (.cvtfx h d a g src m) 0x0C)
    ∧ (fits (max hb src.halfBytes) → p.cols % 32 ≠ 0 → traps 0x89 (.cvtmx h d a t src m) 0x0D ∧ traps 0x8A (.dqmx h d a t src m) 0x0D)
    ∧ (s.ready h 0x72 = true → fits (max hb 4) → exec (.fclass h d a m) s
      = issued s h 0x72 { lat := some (6 + beats gl p (max hb 4))
                          writes := tileWrites d gl n 4 (pmMerge m.z acts ((s.me.group a gl n hb).map (fclassOf m.ty))) })
    ∧ (s.ready h 0x73 = true → fits hb → n ≤ 4096 → exec (.fcmp h k a b m) s
      = issued s h 0x73 { lat := some (6 + beats 1 p hb), writes := [maskResult k n m.z (s.me.actives m.pm hb 1 n) conds] })
    ∧ (s.ready h 0x84 = true → fits hb → n ≤ 4096 → exec (.icmp h k a b m) s
      = issued s h 0x84 { lat := some (4 + beats 1 p hb), writes := [maskResult k n m.z (s.me.actives m.pm hb 1 n) conds] })
    ∧ (s.ready h 0x74 = true → exec (.fsel h d a b k m) s = tileOut s h 0x74 6 m d (fun n =>
        List.zipWith (fun (q : Bool) (p : Nat × Nat) => if q then p.1 else p.2)
          ((List.range (gl * n)).map (fun j => s.me.masks[k].getLsbD (j % n % 4096))) ((elemsA s m a n).zip (elemsB s h m b n))))
    ∧ (s.ready h 0x88 = true → fits (max hb src.halfBytes) → exec (.cvt h d a src m) s
      = issued s h 0x88 { lat := some (6 + beats gl p (max hb src.halfBytes))
                          writes := tileWrites d gl n hb (pmMerge m.z acts (xs.map (convert src m.ty m.rm m.sat)))
                            ++ amaxWrites m.amx (pmActive acts (xs.map (tyDecode src))) })
    ∧ (s.ready h 0x89 = true → fits (max hb src.halfBytes) → p.cols % 32 = 0 →
        ∃ e, exec (.cvtmx h d a t src m) s = issued s h 0x89 e ∧ e.lat = some (6 + beats gl p (max hb src.halfBytes))
          ∧ ∃ blks, blks = (chunks32 (gl * n / 32) ((acts.zip (xs.map (tyDecode src))).map
                (fun q => if q.1 then q.2 else .zero false))).map (mxScale m.ty)
            ∧ e.writes = tileWrites d gl n hb (pmMerge m.z acts (blks.flatMap (·.2))) ++ [.tile t 2 (blks.map (fun q => some q.1))]
                ++ amaxWrites m.amx (pmActive acts (xs.map (tyDecode src))))
    ∧ (s.ready h 0x8A = true → fits (max hb src.halfBytes) → p.cols % 32 = 0 →
        ∃ e ys, exec (.dqmx h d a t src m) s = issued s h 0x8A e ∧ e.lat = some (6 + beats gl p (max hb src.halfBytes))
          ∧ ys = ((bytesToElems 2 (gl * n / 32) (s.me.tileBytes t (gl * n / 32))).zip (chunks32 (gl * n / 32) xs)).flatMap
              (fun q => q.2.map (mxDecode src q.1))
          ∧ e.writes = tileWrites d gl n hb (pmMerge m.z acts (ys.map (tyEncode m.ty m.rm m.sat)))
              ++ amaxWrites m.amx (pmActive acts ys))
    ∧ (s.ready h 0x8B = true → fits (max hb src.halfBytes) →
        let x := signedOf 16 (s.me.rd h.eng g).toNat
        exec (.cvtfx h d a g src m) s = issued s h 0x8B
          { lat := some (6 + beats gl p (max hb src.halfBytes))
            writes := tileWrites d gl n hb (pmMerge m.z acts ((xs.map (tyDecode src)).map (fun v =>
                tyEncode m.ty m.rm m.sat (v.mul (Machine.Num.dyadic false 1 (if m.ty.isInt then -x else x))))))
              ++ amaxWrites m.amx (pmActive acts (xs.map (tyDecode src))) })

/-- R98, R115 to R119: movement. Element r × cols + c of a register is row r, column c. A shape that a register does not hold traps
ILLEGAL, 0x0C. -/
def Obligations.MovementTileWordsIssue : Prop :=
  ∀ (s : State) (h : Hdr) (d a : TReg) (b : TB) (g r : GReg) (m : TMod),
    let p := s.me.shape h.eng
    let gl := m.gl.val + 1
    let hb := m.ty.halfBytes
    let n := p.elems
    let fits := fun (x : Nat) => n * x ≤ 8192
    let G := (s.me.rd h.eng g).toInt
    let R := (s.me.rd h.eng r).toInt
    let i := (s.me.rd h.eng r).toNat
    let acts := s.me.actives m.pm hb gl n
    let traps := fun (opc : Nat) (i : Instr) => s.ready h opc = true → exec i s = trapped s h .illegal 0x0C
    (¬ fits hb → traps 0x91 (.tbcast h d a g m) ∧ traps 0x92 (.ttrn h d a m) ∧ traps 0x94 (.text h g a r m)
        ∧ traps 0x95 (.tins h d g r m))
    ∧ (¬ fits (max hb 4) → traps 0x93 (.tshuf h d a b m))
    ∧ (s.ready h 0x91 = true → m.sub = 1 → fits hb → ∃ e vals, exec (.tbcast h d a g m) s = issued s h 0x91 e
        ∧ e.lat = some (4 + beats gl p hb) ∧ e.writes = tileWrites d gl n hb (pmMerge m.z acts vals)
        ∧ vals.length = gl * n ∧ ∀ k j, k < gl → j < n → vals.getD (k * n + j) 0 = (s.me.tileElems a k n hb).getD (j % p.cols) 0)
    ∧ (s.ready h 0x91 = true → m.sub = 2 → fits hb → ∃ e vals, exec (.tbcast h d a g m) s = issued s h 0x91 e
        ∧ e.lat = some (4 + beats gl p hb) ∧ e.writes = tileWrites d gl n hb (pmMerge m.z acts vals)
        ∧ vals.length = gl * n
        ∧ ∀ k j, k < gl → j < n → vals.getD (k * n + j) 0 = (s.me.tileElems a k n hb).getD (j / p.cols * p.cols) 0)
    ∧ (s.ready h 0x92 = true → fits hb → ∃ e vals, exec (.ttrn h d a m) s = issued s h 0x92 e
        ∧ e.lat = some (4 + beats gl p hb) ∧ e.writes = tileWrites d gl n hb vals
        ∧ vals.length = gl * n
        ∧ ∀ k x y, k < gl → x < p.rows → y < p.cols →
            vals.getD (k * n + (y * p.rows + x)) none = some ((s.me.tileElems a k n hb).getD (x * p.cols + y) 0))
    ∧ (s.ready h 0x93 = true → fits (max hb 4) → exec (.tshuf h d a b m) s
        = issued s h 0x93 { lat := some (4 + beats gl p (max hb 4))
                            writes := tileWrites d gl n hb (pmMerge m.z acts
                              ((s.me.bElems h.eng b gl n 4).map (fun i => (s.me.group a gl n hb).getD i 0))) })
    ∧ (s.ready h 0x94 = true → fits hb → exec (.text h g a r m) s = issued s h 0x94
        { lat := some (4 + beats gl p hb)
          writes := [.g (s.me.usesHandler h.eng) g
            (if gl * n ≤ i then 0 else elemToG m.ty ((s.me.tileElems a (i / n) n hb).getD (i % n) 0))] })
    ∧ (s.ready h 0x95 = true → fits hb → exec (.tins h d g r m) s = issued s h 0x95
        { lat := some (4 + beats gl p hb)
          writes := tileWrites d gl n hb (((s.me.group d gl n hb).zipIdx).map (fun q =>
            some (if q.2 = i then (s.me.rd h.eng g).toNat % 2 ^ (4 * hb) else q.1))) })
    ∧ (s.ready h 0x96 = true → exec (.tiota h d g r m) s = tileOut s h 0x96 4 m d (fun n => (List.range (gl * n)).map
        (fun (j : Nat) => if m.ty.isInt then tyFit m.ty m.sat (G + (j : Int) * R)
          else tyEncode m.ty m.rm m.sat (Machine.Num.ofInt (G + (j : Int) * R)))))

/-- R33, R120, R121: the reductions and the sorting stage; an f32 span with no active element gives 0, or the infinity that no element is
beyond, whatever SAT says. A shape that a register of the elements, or of a payload, does not hold traps ILLEGAL, 0x0C; a stage's J, K and
DESC in gB must be legal, or it traps ILLEGAL, 0x0D, with PAY or without; where the groups of C and D overlap, the
writes of C stand (DESIGN CHOICE, log 18). -/
def Obligations.ReductionAndSortWordsIssue : Prop :=
  ∀ (s : State) (h : Hdr) (d a t : TReg) (g : GReg) (m : TMod),
    let p := s.me.shape h.eng
    let gl := m.gl.val + 1
    let hb := m.ty.halfBytes
    let n := p.elems
    let red := fun (opc : Nat) (o : RedOp) (f : Machine.Num → Machine.Num) => issued s h opc
      { lat := some (6 + beats gl p hb)
        writes := tileWrites d gl n hb (redSpans o m p ((pieces n gl (((s.me.actives m.pm hb gl n).zip
          ((s.me.group a gl n hb).map (fun x => f (tyDecode m.ty x)))).map (fun q => if q.1 then some q.2 else none))).map
            (pieces p.cols p.rows))) }
    let size := if m.sub.val % 2 = 1 then max hb 8 else hb
    let traps := fun (opc : Nat) (i : Instr) => s.ready h opc = true → exec i s = trapped s h .illegal 0x0C
    (8192 < n * hb → traps 0x98 (.rsum h d a m) ∧ traps 0x99 (.rmax h d a m) ∧ traps 0x9A (.rmin h d a m) ∧ traps 0x9B (.ramax h d a m))
    ∧ (8192 < n * size → traps 0x9C (.cmpx h d a g t m))
    ∧ (s.ready h 0x98 = true → n * hb ≤ 8192 → exec (.rsum h d a m) s = red 0x98 .sum (fun x => x))
    ∧ (s.ready h 0x99 = true → n * hb ≤ 8192 → exec (.rmax h d a m) s = red 0x99 .max (fun x => x))
    ∧ (s.ready h 0x9A = true → n * hb ≤ 8192 → exec (.rmin h d a m) s = red 0x9A .min (fun x => x))
    ∧ (s.ready h 0x9B = true → n * hb ≤ 8192 → exec (.ramax h d a m) s = red 0x9B .amax Machine.Num.abs)
    ∧ (m.ty = .f32 → RedOp.sum.root m none = 0 ∧ RedOp.amax.root m none = 0 ∧ RedOp.max.root m none = 0xFF80_0000
        ∧ RedOp.min.root m none = 0x7F80_0000)
    ∧ (s.ready h 0x9C = true → m.sub.val % 2 = 0 → n * hb ≤ 8192 → cmpxBad (s.me.rd h.eng g) p = false →
        ∃ e, exec (.cmpx h d a g t m) s = issued s h 0x9C e ∧ e.lat = some (6 + beats gl p hb)
          ∧ ∃ vals, e.writes = tileWrites d gl n hb vals ++ [] ∧ vals
            = ((pieces p.cols (gl * p.rows) (s.me.group a gl n hb)).flatMap (fun row =>
                (cmpxFrom m.ty (bits (s.me.rd h.eng g) 0 3) (bits (s.me.rd h.eng g) 3 4) (bits (s.me.rd h.eng g) 7 1 == 1) row).map
                  (fun i => some (row.getD i 0)))))
    ∧ (s.ready h 0x9C = true → m.sub.val % 2 = 1 → n * max hb 8 ≤ 8192 → cmpxBad (s.me.rd h.eng g) p = false →
        ∃ e, exec (.cmpx h d a g t m) s = issued s h 0x9C e ∧ e.lat = some (6 + beats gl p (max hb 8))
          ∧ ∃ froms, froms = (pieces p.cols (gl * p.rows) (s.me.group a gl n hb)).map
              (cmpxFrom m.ty (bits (s.me.rd h.eng g) 0 3) (bits (s.me.rd h.eng g) 3 4) (bits (s.me.rd h.eng g) 7 1 == 1))
            ∧ e.writes = tileWrites d gl n hb (((pieces p.cols (gl * p.rows) (s.me.group a gl n hb)).zip froms).flatMap
                (fun q => q.2.map (fun i => some (q.1.getD i 0))))
              ++ tileWrites t gl n 8 (((pieces p.cols (gl * p.rows) (s.me.group t gl n 8)).zip froms).flatMap
                (fun q => q.2.map (fun i => some (q.1.getD i 0)))))
    ∧ (s.ready h 0x9C = true → n * size ≤ 8192 → cmpxBad (s.me.rd h.eng g) p = true →
        exec (.cmpx h d a g t m) s = trapped s h .illegal 0x0D)

/-- R96, R98, R122 to R125: mask, predicate and amax words, latency 4. A compress or expand of a shape that a register does not hold traps
ILLEGAL, 0x0C. -/
def Obligations.MaskWordsIssue : Prop :=
  ∀ (s : State) (h : Hdr) (k x y : KReg) (p : PReg) (am : MReg) (g : GReg) (t a : TReg) (wc : Fin 4) (m : TMod),
    let M := fun (r : KReg) => s.me.masks[r]
    let sh := s.me.shape h.eng
    let gl := m.gl.val + 1
    let hb := m.ty.halfBytes
    let bitsY := (List.range (gl * sh.elems)).map (fun j => (M y).getLsbD (j % sh.elems % 4096))
    let mask := fun (opc : Nat) (v : BitVec 4096) => issued s h opc { lat := some 4, writes := [.mask k (BitVec.allOnes 4096) v] }
    (8192 < sh.elems * hb → (s.ready h 0xA6 = true → exec (.kcomp h t a y m) s = trapped s h .illegal 0x0C)
        ∧ (s.ready h 0xA7 = true → exec (.kexp h t a y m) s = trapped s h .illegal 0x0C))
    ∧ (s.ready h 0xA0 = true → exec (.kand h k x y) s = mask 0xA0 (M x &&& M y))
    ∧ (s.ready h 0xA1 = true → exec (.kor h k x y) s = mask 0xA1 (M x ||| M y))
    ∧ (s.ready h 0xA2 = true → exec (.kxor h k x y) s = mask 0xA2 (M x ^^^ M y))
    ∧ (s.ready h 0xA3 = true → exec (.knot h k x) s = mask 0xA3 (~~~ M x))
    ∧ (s.ready h 0xA4 = true → exec (.kpopc h g x) s
        = writesG s h 0xA4 4 g (BitVec.ofNat 64 ((List.range 4096).countP (fun i => (M x).getLsbD i))))
    ∧ (s.ready h 0xA5 = true → ∃ n : Nat, exec (.kfirst h g x) s = writesG s h 0xA5 4 g (BitVec.ofNat 64 n)
        ∧ n ≤ 4096 ∧ (∀ i, i < n → (M x).getLsbD i = false) ∧ (n < 4096 → (M x).getLsbD n = true))
    ∧ (s.ready h 0xA6 = true → sh.elems * hb ≤ 8192 → ∃ run rest, exec (.kcomp h t a y m) s
        = issued s h 0xA6 { lat := some 4, writes := tileWrites t gl sh.elems hb (run.map some ++ rest) }
        ∧ run = pmActive bitsY (s.me.group a gl sh.elems hb)
        ∧ rest = List.replicate (gl * sh.elems - run.length) (if m.sub.val % 2 = 1 then some 0 else none))
    ∧ (s.ready h 0xA7 = true → sh.elems * hb ≤ 8192 → exec (.kexp h t a y m) s
        = issued s h 0xA7 { lat := some 4
                            writes := tileWrites t gl sh.elems hb
                              (expand (if m.sub.val % 2 = 1 then some 0 else none) bitsY (s.me.group a gl sh.elems hb)) })
    ∧ (s.ready h 0xA8 = true → exec (.pset h p g wc) s = issued s h 0xA8
        { lat := some 4
          writes := [.pred p ⟨BitVec.ofInt 15 (max 0 (min 32767 (s.me.rd h.eng g).toInt)), BitVec.ofNat 2 wc.val⟩] })
    ∧ (s.ready h 0xA9 = true → exec (.pget h g p) s
        = writesG s h 0xA9 4 g (BitVec.ofNat 64 ((s.me.preds[p]).n.toNat + (s.me.preds[p]).wc.toNat * 2 ^ 16)))
    ∧ (s.ready h 0xAC = true → exec (.amrd h g am) s = writesG s h 0xAC 4 g (s.me.amax[am]))
    ∧ (s.ready h 0xAD = true → exec (.amclr h am) s = issued s h 0xAD { lat := some 4, writes := [.amclr am] })

/-- R95, R98: what a landing of elements makes of a tile register: each element given replaces the old one, each not given stays, and
the other registers are untouched. -/
def Sys2Proof.Machine.tileLandingMergesElements : Prop :=
  ∀ (s : State) (id : Nat) (q : Seq) (t u : TReg) (hb k : Nat) (vals : List (Option Nat)),
    (s.core id).tiles.wf = true → hb ∈ [1, 2, 4, 8, 16] → vals.length * hb ≤ 8192 →
    (∀ v ∈ vals, ∀ x, v = some x → x < 2 ^ (4 * hb)) → k < vals.length →
      let c := s.core id
      let c' := (s.applyWrite id q (.tile t hb vals)).core id
      (c'.tileElems t 0 vals.length hb).getD k 0 = (vals.getD k none).getD ((c.tileElems t 0 vals.length hb).getD k 0)
      ∧ (u ≠ t → c'.tileBytes u 4096 = c.tileBytes u 4096)

/-- R43, R48 to R53, R95, R98: what landings write. -/
def Obligations.LandingsWriteTheirRegisters : Prop :=
  landingWritesItsRegister ∧ tileLandingMergesElements

/-! ### Handles and memory words -/

/-- R133 to R136, R146, R147: the words on handles. `trans` lands its handle at the end of p + 23, PENDING if its walk (whose
time is free, log 3) has not ended by then; that the page tables are read, and the leaves fixed, when it issues is log 20 (DEDUCED). `hinv`
lands INVALID at the end of p + 1; `hstat` of a handle whose walk is over reads it. -/
def Sys2Proof.Machine.handleWordsIssue : Prop :=
  ∀ (s : State) (h : Hdr) (d : GReg) (x : HReg) (a b c : GReg),
    let hd := s.bindWalk s.me.ctxId (s.me.rd h.eng a) (s.me.rd h.eng b)
    let u := s.readTables s.me.ctxId (s.me.rd h.eng a :: hd.leaves.map (fun l => canonOf l.base))
    let time := Config.delay u.free
    (s.ready h 0x40 = true → exec (.trans h x a b) s
      = .next (({ u with free := u.free + 1 } : State).commit s.issuer h 0x40
          { lat := some 24, body := .trans x
            writes := [.handle x (if 23 < time ∧ hd.leaves ≠ []
              then { hd with state := .pending, walkEnd := s.cycle s.me + time } else hd)] }))
    ∧ (s.ready h 0x41 = true → (s.me.handles[x]).state ≠ .pending → ∃ e, exec (.hstat h d x) s
        = .next (({ s with free := s.free + 1 } : State).commit s.issuer h 0x41 e)
        ∧ e.writes = [.g (s.me.usesHandler h.eng) d (s.me.handles[x]).word] ∧ e.lat = some (2 + Config.delay s.free))
    ∧ (s.ready h 0x42 = true → exec (.hinv h x) s
        = issued s h 0x42 { lat := some 2, fixed := false, writes := [.handle x Handle.reset] })
    ∧ (s.ready h 0x67 = true → exec (.pref h x a b) s = issued s h 0x67 {})

/-- R142, R178, R183, R187, R394: the scalar comb words. While an earlier access must come first they wait (log 9, DEDUCED); then an
address is aligned to TY (checked first: log 13), and the access lies below 0x18_0000. -/
def Sys2Proof.Machine.scalarCombWordsIssueOrTrap : Prop :=
  ∀ (s : State) (h : Hdr) (d a b : GReg) (m : MMod),
    let x := s.me.rd h.eng a + s.me.rd h.eng b
    let hb := m.ty.halfBytes
    let o := s.me.orderOf m
    let at1 := s.cycle s.me + 1
    let busy := fun (k : AccKind) => s.combBusy s.me h.eng o (combAccesses k [(x, hb)]) at1
    let t := s.me.combLoadAt h.eng (combAccesses .load [(x, hb)]) at1
    (s.ready h 0x50 = true → busy .load = true → exec (.cld h d a b m) s = waits s h .structural)
    ∧ (s.ready h 0x51 = true → busy .store = true → exec (.cst h d a b m) s = waits s h .structural)
    ∧ (s.ready h 0x50 = true → busy .load = false → 2 * x.toNat % hb ≠ 0 → exec (.cld h d a b m) s = trapped s h .misaligned x)
    ∧ (s.ready h 0x51 = true → busy .store = false → 2 * x.toNat % hb ≠ 0 → exec (.cst h d a b m) s = trapped s h .misaligned x)
    ∧ (s.ready h 0x50 = true → busy .load = false → 2 * x.toNat % hb = 0 → 0x30_0000 < 2 * x.toNat + hb →
        exec (.cld h d a b m) s = trapped s h .combBounds x)
    ∧ (s.ready h 0x51 = true → busy .store = false → 2 * x.toNat % hb = 0 → 0x30_0000 < 2 * x.toNat + hb →
        exec (.cst h d a b m) s = trapped s h .combBounds x)
    ∧ (s.ready h 0x50 = true → busy .load = false → 2 * x.toNat % hb = 0 → 2 * x.toNat + hb ≤ 0x30_0000 → exec (.cld h d a b m) s
        = issued s h 0x50 { lat := none, fixed := false, body := .combLoad t (6 + (t - at1)) o m.ty [2 * x.toNat] (.g d) })
    ∧ (s.ready h 0x51 = true → busy .store = false → 2 * x.toNat % hb = 0 → 2 * x.toNat + hb ≤ 0x30_0000 → exec (.cst h d a b m) s
        = issued s h 0x51 { lat := none, fixed := false
                            body := .combStore (s.cycle s.me + 1) o m.ty
                              [(2 * x.toNat, (s.me.rd h.eng d).toNat % 2 ^ (4 * hb))] })

/-- R140, R142, R183, R187: the comb forms of the tile loads and stores, which wait while an earlier access must come first (log 9);
the shape is checked before the bounds (log 13). -/
def Sys2Proof.Machine.tileCombWordsIssue : Prop :=
  ∀ (s : State) (h : Hdr) (t : TReg) (r b c : GReg) (gl : Fin 6) (rm : Option KReg) (m : MMod),
    let p := s.me.shape h.eng
    let hb := m.ty.halfBytes
    let g := gl.val + 1
    let o := s.me.orderOf m
    let x := s.me.rd h.eng r + s.me.rd h.eng b
    let dest := Dest.tile t g p.elems (List.replicate (g * p.elems) none)
    let at1 := s.cycle s.me + 1
    let load := fun (opc : Nat) (runs : List (W64 × Nat)) (as : List Nat) =>
      let t' := s.me.combLoadAt h.eng (combAccesses .load runs) at1
      issued s h opc { lat := none, fixed := false, body := .combLoad t' (8 + beats g p hb + (t' - at1)) o m.ty as dest }
    let store := fun (opc : Nat) (as : List Nat) => Host.Outcome.next (({ s with free := s.free + 1 } : State).commit s.issuer h opc
      { lat := none, fixed := false
        body := .combStore (at1 + Config.delay s.free) o m.ty (as.zip (s.me.group t g p.elems hb)) })
    let busy := fun (k : AccKind) (runs : List (W64 × Nat)) => s.combBusy s.me h.eng o (combAccesses k runs) at1
    let run := [(x, g * p.elems * hb)]
    let as := (List.range (g * p.elems)).map (fun j => 2 * x.toNat + j * hb)
    let rows := stridedRuns s.me h.eng r b c g hb
    (s.ready h 0x60 = true →
        (busy .load run = true → exec (.tld h t (.comb r) b gl rm m) s = waits s h .structural)
        ∧ (busy .store run = true → exec (.tst h t (.comb r) b gl m) s = waits s h .structural)
        ∧ (busy .load run = false → 8192 < p.elems * hb → exec (.tld h t (.comb r) b gl rm m) s = trapped s h .illegal 0x0C)
        ∧ (busy .store run = false → 8192 < p.elems * hb → exec (.tst h t (.comb r) b gl m) s = trapped s h .illegal 0x0C)
        ∧ (p.elems * hb ≤ 8192 → 0x30_0000 < 2 * x.toNat + g * p.elems * hb →
            (busy .load run = false → exec (.tld h t (.comb r) b gl rm m) s = trapped s h .combBounds x)
            ∧ (busy .store run = false → exec (.tst h t (.comb r) b gl m) s = trapped s h .combBounds x))
        ∧ (p.elems * hb ≤ 8192 → 2 * x.toNat + g * p.elems * hb ≤ 0x30_0000 →
            (busy .load run = false → exec (.tld h t (.comb r) b gl rm m) s = load 0x60 run as)
            ∧ (busy .store run = false → exec (.tst h t (.comb r) b gl m) s = store 0x60 as)))
    ∧ (s.ready h 0x61 = true →
        (busy .load rows = true → exec (.tldx h t (.comb r) b c gl rm m) s = waits s h .structural)
        ∧ (busy .store rows = true → exec (.tstx h t (.comb r) b c gl m) s = waits s h .structural)
        ∧ (8192 < p.elems * hb →
            (busy .load rows = false → exec (.tldx h t (.comb r) b c gl rm m) s = trapped s h .illegal 0x0C)
            ∧ (busy .store rows = false → exec (.tstx h t (.comb r) b c gl m) s = trapped s h .illegal 0x0C))
        ∧ (∀ y, p.elems * hb ≤ 8192 → combBad rows = some y →
            (busy .load rows = false → exec (.tldx h t (.comb r) b c gl rm m) s = trapped s h .combBounds y)
            ∧ (busy .store rows = false → exec (.tstx h t (.comb r) b c gl m) s = trapped s h .combBounds y))
        ∧ (p.elems * hb ≤ 8192 → combBad rows = none →
            (busy .load rows = false →
              exec (.tldx h t (.comb r) b c gl rm m) s = load 0x61 rows (stridedElems s.me h.eng r b c g hb))
            ∧ (busy .store rows = false →
              exec (.tstx h t (.comb r) b c gl m) s = store 0x61 (stridedElems s.me h.eng r b c g hb))))

/-- R140, R142, R178: the first of some runs that passes the comb's end is the one a trap names, and none does if every run ends inside
it. A comb access in its cycle: a load reads each element where it lies and lands its latency later; a store writes its elements in
order, a later one over an earlier, and nothing else of the comb, and completes. -/
def Sys2Proof.Machine.combAccessesPerform : Prop :=
  (∀ (runs : List (W64 × Nat)),
    (combBad runs = none ↔ ∀ r ∈ runs, 2 * r.1.toNat + r.2 ≤ 0x30_0000)
    ∧ ∀ y, combBad runs = some y → ∃ pre n post, runs = pre ++ (y, n) :: post ∧ 0x30_0000 < 2 * y.toNat + n
        ∧ ∀ r ∈ pre, 2 * r.1.toNat + r.2 ≤ 0x30_0000)
  ∧ ∀ (s : State) (core : Nat) (a : Act) (t lat : Nat) (o : Order) (ty : Ty) (d : Dest) (addrs : List Nat) (ps : List (Nat × Nat)),
    (s.core core).act? a.id = some a → t ≤ s.cycle (s.core core) →
    (a.body = .combLoad t lat o ty addrs d → a.due = none → ∃ b, ((s.runCombLoad core a).core core).act? a.id = some b
        ∧ b.due = some (a.issued + lat - 1 + (s.cycle (s.core core) - t))
        ∧ b.writes = a.writes ++ d.writes a.handler ty
            (addrs.zipIdx.map (fun p => (p.2, (s.core core).comb.readElem p.1 ty.halfBytes)))
        ∧ ((s.runCombLoad core a).core core).comb = (s.core core).comb)
    ∧ (a.body = .combStore t o ty ps → let u := s.runCombStore core a
        (u.core core).act? a.id = none
        ∧ (ty.halfBytes ≠ 1 → (u.core core).comb
            = ps.foldl (fun m p => m.writeBytes (p.1 / 2) (leBytes (ty.halfBytes / 2) p.2)) (s.core core).comb)
        ∧ (ty.halfBytes = 1 → (u.core core).comb = ps.foldl (fun m p => m.writeNibble p.1 p.2) (s.core core).comb))

/-- R140, R142, R178, R394: the words on the comb. -/
def Obligations.CombWordsIssueOrTrap : Prop :=
  scalarCombWordsIssueOrTrap ∧ tileCombWordsIssue ∧ combAccessesPerform

/-- What a memory word through handle `hr` answers for its active elements `refs` (R137, R138, R184): ILLEGAL, 0x0D, under an invalid
scope entry, before the checks of R137 (log 13); the trap of the first failing check; else it issues, with the elements in bounds to
perform at their homes (a load performs those that are resident), and with `ws` and `dest` of them. A scatter, and a load of a stamped
page, holds its sequencer (R144, R223). -/
def Sys2Proof.Machine.goesToMemory (s : State) (h : Hdr) (opc : Nat) (hr : HReg) (m : MMod) (rw : Rw) (k : MemKind) (refs : List Ref)
    (scatter : Bool) (minLat total : Nat) (ws : List Elem → List Write) (dest : List Elem → Dest) :
    Host.Outcome State Fault Refusal :=
  if (s.me.scopes[m.scope]).valid = false then trapped s h .illegal 0x0D
  else match s.checkRefs s.me.ctxId s.me.handles[hr] m.ty rw refs with
    | (some (cause, info), _) => trapped s h cause info
    | (none, es) =>
      let todo := if rw.wr then es else es.filter (fun x => x.leaf.res)
      issued s h opc
        { lat := none, fixed := false, writes := ws es
          holds := if scatter = true ∨ (rw.wr = false ∧ todo.any (fun x => x.leaf.isStamped) = true) then some .structural else none
          body := .mem k (s.me.orderOf m) m.ty todo [] [] (dest es) minLat total }

/-- OOBFILL as a value of type `ty` (R138). -/
def Sys2Proof.Machine.oobOf (s : State) (h : Hdr) (ty : Ty) : Nat := (s.me.seq h.eng).oobfill.toNat % 2 ^ (4 * ty.halfBytes)

/-- What the elements of a tile load get that no home gives a value, `acts` telling which are active and `es` those in bounds (R98, R138,
R139): OOBFILL out of bounds, 0 where not resident; an inactive element 0 under `z`, else it keeps its value. -/
def Sys2Proof.Machine.tileFill (s : State) (h : Hdr) (hr : HReg) (ty : Ty) (refs : List Ref) (acts : List Bool) (z : Bool)
    (es : List Elem) : List (Option Nat) :=
  acts.zipIdx.map (fun p =>
    if refs.any (fun r => r.idx == p.2 && ((s.me.handles[hr]).place ty r).isNone) then some (oobOf s h ty)
    else if es.any (fun e => e.idx == p.2 && !e.leaf.res) then some 0
    else if !p.1 && z then some 0 else none)

/-- The mask that RME writes (R139): bit i of the register's first `n`: whether every element of it that is active and in bounds is
resident. -/
def Sys2Proof.Machine.residentMask (rm : Option KReg) (n : Nat) (es : List Elem) : List Write :=
  match rm with
  | none => []
  | some k => [.mask k (BitVec.ofNat 4096 (2 ^ min n 4096 - 1)) (BitVec.ofNat 4096
      (bitsOf ((List.range (min n 4096)).map (fun i => !es.any (fun e => !e.leaf.res && e.idx % n % 4096 == i)))))]

/-- R137 to R144: the loads and stores through a handle whose walk is over. -/
def Sys2Proof.Machine.handleAccessWordsIssueOrTrap : Prop :=
  ∀ (s : State) (h : Hdr) (t i : TReg) (d b c : GReg) (hr : HReg) (pm : Pm) (gl : Fin 6) (rm : Option KReg) (z res : Bool) (m : MMod),
    let p := s.me.shape h.eng
    let hb := m.ty.halfBytes
    let g := gl.val + 1
    let n := g * p.elems
    let acts := s.me.actives pm hb g p.elems
    let all := s.me.actives .none hb g p.elems
    let vs := s.me.group t g p.elems hb
    let hm := s.me.usesHandler h.eng
    let ld := fun opc (refs : List Ref) (act : List Bool) (z : Bool) (rm : Option KReg) min =>
      goesToMemory s h opc hr m ⟨true, false⟩ .load refs false min n (residentMask rm p.elems)
        (fun es => .tile t g p.elems (tileFill s h hr m.ty refs act z es))
    let st := fun opc refs total scatter =>
      goesToMemory s h opc hr m ⟨false, true⟩ .store refs scatter 0 total (fun _ => []) (fun _ => .none)
    (s.me.handles[hr]).state ≠ .pending →
    (s.ready h 0x61 = true → exec (.lds h d hr b c res m) s = goesToMemory s h 0x61 hr m ⟨true, false⟩ .load
        (seqRefs s.me h.eng hr b m.ty 1 []) false 96 1
        (fun es => (if es = [] then [.g hm d (elemToG m.ty (oobOf s h m.ty))]
            else if es.any (fun e => !e.leaf.res) then [.g hm d (elemToG m.ty 0)] else [])
          ++ if res then [.g hm c (if es.any (fun e => !e.leaf.res) then 0 else 1)] else [])
        (fun es => if es.any (fun e => e.leaf.res) then .g d else .none))
    ∧ (s.ready h 0x62 = true → exec (.sts h d hr b m) s
        = st 0x62 (seqRefs s.me h.eng hr b m.ty 1 [(s.me.rd h.eng d).toNat % 2 ^ (4 * hb)]) 1 false)
    ∧ (8192 < p.elems * hb →
        (s.ready h 0x60 = true → exec (.tld h t (.handle hr) b gl rm m) s = trapped s h .illegal 0x0C
          ∧ exec (.tst h t (.handle hr) b gl m) s = trapped s h .illegal 0x0C)
        ∧ (s.ready h 0x61 = true → exec (.tldx h t (.handle hr) b c gl rm m) s = trapped s h .illegal 0x0C
          ∧ exec (.tstx h t (.handle hr) b c gl m) s = trapped s h .illegal 0x0C)
        ∧ (s.ready h 0x62 = true → exec (.mld h t hr b pm gl rm z m) s = trapped s h .illegal 0x0C
          ∧ exec (.mst h t hr b pm gl m) s = trapped s h .illegal 0x0C))
    ∧ (p.elems * hb ≤ 8192 →
        (s.ready h 0x60 = true → exec (.tld h t (.handle hr) b gl rm m) s
            = ld 0x60 (pmActive all (seqRefs s.me h.eng hr b m.ty n [])) all false rm 96)
        ∧ (s.ready h 0x61 = true → exec (.tldx h t (.handle hr) b c gl rm m) s
            = ld 0x61 (pmActive all (stridedRefs s.me h.eng hr b c m.ty p g [])) all false rm 96)
        ∧ (s.ready h 0x62 = true → exec (.mld h t hr b pm gl rm z m) s
            = ld 0x62 (pmActive acts (seqRefs s.me h.eng hr b m.ty n [])) acts z rm 96)
        ∧ (s.ready h 0x60 = true → exec (.tst h t (.handle hr) b gl m) s
            = st 0x60 (pmActive all (seqRefs s.me h.eng hr b m.ty n vs)) n false)
        ∧ (s.ready h 0x61 = true → exec (.tstx h t (.handle hr) b c gl m) s
            = st 0x61 (pmActive all (stridedRefs s.me h.eng hr b c m.ty p g vs)) n false)
        ∧ (s.ready h 0x62 = true → exec (.mst h t hr b pm gl m) s
            = st 0x62 (pmActive acts (seqRefs s.me h.eng hr b m.ty n vs)) n false))
    ∧ (8192 < p.elems * max hb 8 → s.ready h 0x63 = true → exec (.mgath h t hr i pm gl rm z m) s = trapped s h .illegal 0x0C
        ∧ exec (.mscat h t hr i pm gl m) s = trapped s h .illegal 0x0C)
    ∧ (p.elems * max hb 8 ≤ 8192 →
        (s.ready h 0x63 = true → exec (.mgath h t hr i pm gl rm z m) s
            = ld 0x63 (pmActive acts (indexRefs s.me hr i m.ty g p.elems [])) acts z rm 128)
        ∧ (s.ready h 0x63 = true → s.me.progress h.eng 0x63 = 0 → exec (.mscat h t hr i pm gl m) s
            = st 0x63 (pmActive acts (indexRefs s.me hr i m.ty g p.elems vs)) n true))

/-- R197, R198: the atomics: the checks of any access that both loads and stores, the scope before them (log 13), and PERMISSION, reason
0xC, where the page takes none; out of bounds they answer OOBFILL. -/
def Sys2Proof.Machine.atomicWordsIssueOrTrap : Prop :=
  ∀ (s : State) (h : Hdr) (d b c : GReg) (hr : HReg) (op : Aop) (m : MMod),
    let w := 4 * m.ty.halfBytes
    let refs := seqRefs s.me h.eng hr b m.ty 1 [(s.me.rd h.eng c).toNat % 2 ^ w]
    let chk := s.checkRefs s.me.ctxId s.me.handles[hr] m.ty ⟨true, true⟩ refs
    let old := BitVec.ofNat 64 ((s.me.rd h.eng d).toNat % 2 ^ w)
    let answers := fun (opc : Nat) (k : MemKind) (i : Instr) =>
      s.ready h opc = true →
      ((s.me.scopes[m.scope]).valid = false → exec i s = trapped s h .illegal 0x0D)
      ∧ ((s.me.scopes[m.scope]).valid = true →
        (∀ cause info, chk.1 = some (cause, info) → exec i s = trapped s h cause info)
        ∧ (chk.1 = none → ∀ x, chk.2.find? (atomicDenied m.ty k) = some x →
            exec i s = trapped s h .permission (checkInfo 0xC x.va2))
        ∧ (chk.1 = none → chk.2.find? (atomicDenied m.ty k) = none → exec i s = issued s h opc
            { lat := none, fixed := false
              writes := if chk.2 = [] then [.g (s.me.usesHandler h.eng) d (elemToG m.ty (oobOf s h m.ty))] else []
              body := .mem k (s.me.orderOf m) m.ty chk.2 [] [] (.g d) 160 1 }))
    (s.me.handles[hr]).state ≠ .pending →
    answers 0x63 (.amo op) (.amo h d hr b c op m) ∧ answers 0x64 (.cas old) (.cas h d hr b c m)

/-- R137 to R144, R197, R198: loads, stores and atomics through a handle. -/
def Obligations.MemoryWordsIssueOrTrap : Prop :=
  handleAccessWordsIssueOrTrap ∧ atomicWordsIssueOrTrap

/-! ### Homes -/

/-- Word `a`, number `act` of core `core`, is a memory word of kind `k` and type `ty`, with elements `todo` still to perform. -/
def Sys2Proof.Machine.memWord (s : State) (core act : Nat) (a : Act) (k : MemKind) (o : Order) (ty : Ty) (todo : List Elem)
    (got stale : List (Nat × Nat)) (d : Dest) (mn total : Nat) : Prop :=
  (s.core core).act? act = some a ∧ a.body = .mem k o ty todo got stale d mn total

/-- The home of element `e` performs it: it is its turn, no migration refuses it, and its peer answers. -/
def Sys2Proof.Machine.homeTakes (s : State) (core : Nat) (a : Act) (e : Elem) : Prop :=
  s.elemReady (s.core core) a e = true ∧ s.refuses e = false
    ∧ s.lostAt (s.core core).ctxId e.leaf (e.pa2 / 2) = none

/-- R131, R197, R208: an element of a page of format RAW, performed at its home once the pairs and bins of its line are applied
(`touch`): a load's value is what memory holds there; a store writes its bytes and no others; an atomic reads the old value and
writes the new one. The word has the element performed; the other words and the registers of the core stay. -/
def Sys2Proof.Machine.homeAccessesPerform : Prop :=
  ∀ (s : State) (core act : Nat) (a : Act) (k : MemKind) (o : Order) (ty : Ty) (todo : List Elem) (got stale : List (Nat × Nat))
    (d : Dest) (mn total : Nat) (e : Elem),
    let hb := ty.halfBytes
    let s' := s.noteEarly (s.core core) a.seq a.id o (e.access k.acc ty)
    let u := s'.touch (e.pa2 / 2) ((hb + 1) / 2)
    let n := hb / 2
    memWord s core act a k o ty todo got stale d mn total → homeTakes s core a e →
    e.leaf.elemTy = none → e.leaf.block = 0 → e.leaf.res = true → s.memOk = true →
    todo.find? (·.idx == e.idx) = some e →
    (k = .load → s.poisonedAt e ty = false → ∃ t, exec (.homeLoad core act e.idx) s = .next t
        ∧ (∃ a', (t.core core).act? act = some a' ∧ a'.body = .mem .load o ty (todo.filter (·.idx != e.idx))
            (got ++ [(e.idx, u.mem.readElem e.pa2 hb)]) stale d mn total)
        ∧ t.mem = u.mem ∧ (t.core core).seqs = (s.core core).seqs ∧ (t.core core).tiles = (s.core core).tiles)
    ∧ (k = .store → ∃ t, exec (.homeStore core act e.idx) s = .next t
        ∧ (∃ a', (t.core core).act? act = some a' ∧ a'.body.todo = todo.filter (·.idx != e.idx))
        ∧ t.mem = u.mem.writeElem e.pa2 hb e.val
        ∧ (∀ x, x < e.pa2 / 2 ∨ e.pa2 / 2 + (hb + 1) / 2 ≤ x → t.mem.read x = u.mem.read x)
        ∧ (t.core core).seqs = (s.core core).seqs ∧ (t.core core).tiles = (s.core core).tiles)
    ∧ (∀ op, k = .amo op → todo = [e] → s.poisonedAt e ty = false → ∃ t, exec (.homeAtomic core act) s = .next t
        ∧ let old := (s'.homeNat (e.pa2 / 2) n).1
          (∃ a', (t.core core).act? act = some a' ∧ a'.body = .mem k o ty [] (got ++ [(e.idx, old)]) stale d mn total)
          ∧ t.mem = ((s'.homeNat (e.pa2 / 2) n).2.homeWrite (e.pa2 / 2) (leBytes n (aopApply op (4 * hb) old e.val))).mem)
    ∧ (∀ x, k = .cas x → todo = [e] → s.poisonedAt e ty = false → ∃ t, exec (.homeAtomic core act) s = .next t
        ∧ let old := (s'.homeNat (e.pa2 / 2) n).1
          (∃ a', (t.core core).act? act = some a' ∧ a'.body = .mem k o ty [] (got ++ [(e.idx, old)]) stale d mn total)
          ∧ t.mem = (if old = x.toNat % 2 ^ (4 * hb)
              then ((s'.homeNat (e.pa2 / 2) n).2.homeWrite (e.pa2 / 2) (leBytes n e.val)).mem else (s'.homeNat (e.pa2 / 2) n).2.mem))

/-- R131, R222 to R224: an element of a page with a format. A load gives the value below, and a stale element is noted with its address; a
store writes the element, or with those of its block the block, as below. The other words and the registers of the core stay. -/
def Sys2Proof.Machine.formattedAccessesPerform : Prop :=
  ∀ (s : State) (core act : Nat) (a : Act) (o : Order) (ty : Ty) (todo : List Elem) (got stale : List (Nat × Nat)) (d : Dest)
    (mn total : Nat) (e : Elem),
    let x := (s.core core).ctxId
    let es := together todo e
    todo.find? (·.idx == e.idx) = some e →
    (memWord s core act a .load o ty todo got stale d mn total → homeTakes s core a e → s.poisonedAt e ty = false →
      let r := (s.noteEarly (s.core core) a.seq a.id o (e.access .load ty)).loadElem x e ty
      ∃ t a', exec (.homeLoad core act e.idx) s = .next t ∧ (t.core core).act? act = some a' ∧ t.mem = r.2.mem
        ∧ a'.body = .mem .load o ty (todo.filter (·.idx != e.idx)) (got ++ [(e.idx, r.1.1)])
            (if r.1.2 = true then stale ++ [(e.idx, e.va2)] else stale) d mn total
        ∧ (t.core core).seqs = (s.core core).seqs ∧ (t.core core).tiles = (s.core core).tiles)
    ∧ (memWord s core act a .store o ty todo got stale d mn total → (∀ f ∈ es, s.elemReady (s.core core) a f = true) →
      s.refuses e = false → s.lostAt x e.leaf (e.pa2 / 2) = none →
      let u := s.noteEarly (s.core core) a.seq a.id o (e.access .store ty)
      ∃ t a', exec (.homeStore core act e.idx) s = .next t ∧ (t.core core).act? act = some a'
        ∧ t.mem = (if e.leaf.block = 0 then u.storeElem e ty else u.storeBlock x es ty).mem
        ∧ a'.body.todo = todo.filter (fun f => !es.any (·.idx == f.idx))
        ∧ (t.core core).seqs = (s.core core).seqs ∧ (t.core core).tiles = (s.core core).tiles)

/-- R131, R222 to R224: what an element of a resident page of format `pt` loads as, once the bins of its line, and of the lines of its
block's stamp word and scale, are applied: its code in the page's own type, a code converted, an MX element with its block's scale; on a
stamped page of this package, the value melted to the unit's step, or 0 where the block is stale. -/
def Sys2Proof.Machine.formattedElementsLoad : Prop :=
  ∀ (s : State) (x : Fin 64) (e : Elem) (ty pt : Ty), e.leaf.res = true → e.leaf.elemTy = some pt →
    let u := s.touch (e.pa2 / 2) ((pt.halfBytes + 1) / 2)
    let k := blockAt s.pkg e.leaf e.blk e.block2
    let p := u.touchPlane k
    let raw := u.mem.readElem e.pa2 pt.halfBytes
    let mx := mxDecode pt (k.scaleCode p.mem) raw
    let w := k.stampWord p.mem
    let age := ageOf (p.ctx x).unitStep w
    let r := s.loadElem x e ty
    (e.leaf.isStamped = false → e.leaf.isMx = false →
      r.1 = (if pt = ty then raw else convert pt ty .rne false raw, false) ∧ r.2.mem = u.mem)
    ∧ (e.leaf.isStamped = false → e.leaf.isMx = true → r.1 = (tyEncode ty .rne false mx, false) ∧ r.2.mem = p.mem)
    ∧ (e.leaf.isStamped = true → e.leaf.peerOf s.pkg = none → r.2.mem = p.mem
        ∧ (2 ^ 15 ≤ age → r.1 = (0, true))
        ∧ (age < 2 ^ 15 → r.1 = (tyEncode ty .rne false (ofF32 (melt ((p.ctx x).unitDcf[dclassOf w]).toNat age
            (if zbOf w then .zero false else if e.leaf.isMx then mx else tyDecode pt raw))), false)))

/-- R131, R142, R227: what a store to a page with a format writes: an element's code in the page's type; a block that is stamped, merged
at the unit's step by the block operation; an MX block, covered whole, scaled anew. Of two elements with one place the later stays. -/
def Sys2Proof.Machine.formattedElementsStore : Prop :=
  ∀ (s : State) (x : Fin 64) (e : Elem) (rest : List Elem) (ty pt : Ty), e.leaf.elemTy = some pt →
    let code := fun (f : Elem) => if pt = ty then f.val else convert ty pt .rne false f.val
    let k := blockAt s.pkg e.leaf e.blk e.block2
    let p := (s.touch (e.block2 / 2) ((k.n * pt.halfBytes + 1) / 2)).touchPlane k
    let news := (e :: rest).reverse.map (fun f => ((f.pa2 - e.block2) / pt.halfBytes, code f, tyDecode ty f.val))
    let g := (p.ctx x).unitStep
    let scaled := mxScale k.ty ((List.range k.n).map (fun i => match news.find? (·.1 == i) with
      | some o => o.2.2
      | none => k.elem p.mem i))
    (s.storeElem e ty).mem
      = (s.touch (e.pa2 / 2) ((pt.halfBytes + 1) / 2)).mem.writeElem e.pa2 pt.halfBytes (code e)
    ∧ (e.leaf.isStamped = true → e.leaf.peerOf s.pkg = none → (s.storeBlock x (e :: rest) ty).mem
        = (k.apply p.mem ((p.ctx x).unitDcf[dclassOf (k.stampWord p.mem)]).toNat g (some (BitVec.ofNat 16 g.toNat)) [] news).1)
    ∧ (e.leaf.isStamped = false → (s.storeBlock x (e :: rest) ty).mem = k.write p.mem scaled.1 scaled.2)

/-- The elements, the stamp word and the scale of a block lie apart. -/
def Sys2Proof.Machine.blockApart (k : BlockAt) : Prop :=
  let out := fun (a n : Nat) => a + n ≤ k.data2 / 2 ∨ k.data2 / 2 + k.n * k.hb / 2 ≤ a
  k.data2 % 2 = 0 ∧ k.n % 2 = 0 ∧ k.hb ∈ [1, 2, 4, 8, 16] ∧ (∀ a, k.stamp = some a → out a 4) ∧ (∀ b, k.scale = some b → out b 1)
    ∧ ∀ a b, k.stamp = some a → k.scale = some b → b < a ∨ a + 4 ≤ b

/-- R37, R38, R222, R225 to R227: the block operation of a store at stamp `t`: each element stored stays as given, each other is brought
from the block's stamp to `t` under its factor (from +0 where the block is zero or stale); the stamp word holds `t`, its class, and ZB
0; an MX block gets a scale of its own; no other byte changes. -/
def Sys2Proof.Machine.blocksMerge : Prop :=
  ∀ (k : BlockAt) (m : Memory) (f : Nat) (g : W32) (t : BitVec 16) (news : List (Nat × Nat × Machine.Num)), m.wf = true →
    blockApart k → k.raw = false →
    let w := k.stampWord m
    let r := (k.apply m f g (some t) [] news).1
    let old := fun (i : Nat) => if zbOf w = true ∨ 2 ^ 15 ≤ ageOf g w then Machine.Num.zero false else k.elem m i
    let now := fun (i : Nat) => ofF32 (bring (old i) (stampOf w) t f).1
    let scaled := mxScale k.ty ((List.range k.n).map (fun i => match news.find? (·.1 == i) with
      | some o => o.2.2
      | none => now i))
    (∀ a, k.stamp = some a → r.readNat a 4 = newStamp w t false)
    ∧ (k.scale = none → ∀ i, i < k.n → k.elemCode r i
        = (match news.find? (·.1 == i) with | some o => o.2.1 | none => tyEncode k.ty .rne false (now i)) % 2 ^ (4 * k.hb))
    ∧ (∀ b, k.scale = some b → (r.read b).toNat = scaled.1 ∧ ∀ i, i < k.n → k.elemCode r i = scaled.2.getD i 0 % 2 ^ (4 * k.hb))
    ∧ ∀ y, (y < k.data2 / 2 ∨ k.data2 / 2 + k.n * k.hb / 2 ≤ y) → (∀ a, k.stamp = some a → y < a ∨ a + 4 ≤ y) → k.scale ≠ some y →
        r.read y = m.read y

/-- R37, R38, R225, R226: the block operation of a bin, ApplyBlock: the block's stamp becomes the youngest step of its entries and its own;
each element is brought to it from the block's stamp (from +0 where the block is zero or stale) and, where an entry names it, gains the
entry's value, brought from the entry's step; an MX block gets a scale of its own. That a format for which R226 gives no write is written
by R24 is the model's choice (log 71). -/
def Sys2Proof.Machine.binsApplyToBlocks : Prop :=
  ∀ (k : BlockAt) (m : Memory) (f : Nat) (g : W32) (entries : List (Nat × Nat × BitVec 16)), m.wf = true → blockApart k → k.raw = false →
    let w := k.stampWord m
    let r := (k.apply m f g none entries []).1
    let t := entries.foldl (fun t e => if (t - e.2.2).toNat < 2 ^ 15 then t else e.2.2) (stampOf w)
    let old := fun (i : Nat) => if zbOf w = true ∨ 2 ^ 15 ≤ ageOf g w then Machine.Num.zero false else k.elem m i
    let now := fun (i : Nat) => ofF32 (match entries.find? (·.1 == i) with
      | some e => add32 (bring (old i) (stampOf w) t f).1 (bring (ofF32 e.2.1) e.2.2 t f).1
      | none => (bring (old i) (stampOf w) t f).1)
    let scaled := mxScale k.ty ((List.range k.n).map now)
    (∀ a, k.stamp = some a → r.readNat a 4 = newStamp w t false)
    ∧ (k.scale = none → ∀ i, i < k.n → k.elemCode r i = tyEncode k.ty .rne false (now i) % 2 ^ (4 * k.hb))
    ∧ (∀ b, k.scale = some b → (r.read b).toNat = scaled.1 ∧ ∀ i, i < k.n → k.elemCode r i = scaled.2.getD i 0 % 2 ^ (4 * k.hb))

/-- R145, R149: a refused element is held, with those performed with it, and once its hint is over they are sent again: where no
shootdown has reached the first and its page has not moved, as they are; else to where their addresses lead by then, or, where no valid
leaf holds them, they read 0 and PGSTAT.LOST counts them: one count for the context, which saturates (DESIGN CHOICE, log 69). A home under
migration refuses them. -/
def Sys2Proof.Machine.refusedElementIsSentAgain : Prop :=
  ∀ (s : State) (core act : Nat) (a : Act) (o : Order) (ty : Ty) (todo : List Elem) (got stale : List (Nat × Nat))
    (d : Dest) (mn total : Nat) (e : Elem),
    memWord s core act a .load o ty todo got stale d mn total → todo.find? (·.idx == e.idx) = some e →
    let es := together todo e
    let x := (s.core core).ctxId
    let u := s.readTables x (es.map (fun f => canonOf (f.va2 / 2)))
    (0 < e.notBefore → e.notBefore ≤ s.pulse → e.fate = .same →
      ∃ t a', exec (.retryAfterHint core act e.idx) s = .next t ∧ (t.core core).act? act = some a'
        ∧ a'.body.todo = todo.map (fun f => if es.any (·.idx == f.idx) then { f with notBefore := 0 } else f) ∧ t.mem = s.mem)
    ∧ (0 < e.notBefore → e.notBefore ≤ s.pulse → e.fate ≠ .same → (todo.map (·.idx)).Nodup →
      ((∀ f ∈ es, (u.walk x (canonOf (f.va2 / 2))).isSome = true) →
        ∃ t a', exec (.retryAfterHint core act e.idx) s = .next t ∧ (t.core core).act? act = some a' ∧ t.mem = u.mem
          ∧ a'.body.todo = todo.map (fun f => if es.any (·.idx == f.idx) then (u.retranslate x ty f).getD f else f))
      ∧ ((∀ f ∈ es, u.walk x (canonOf (f.va2 / 2)) = none) →
        ∃ t a', exec (.retryAfterHint core act e.idx) s = .next t ∧ (t.core core).act? act = some a' ∧ t.mem = u.mem
          ∧ a'.body = .mem .load o ty (todo.filter (fun f => !es.any (·.idx == f.idx))) (got ++ es.map (fun f => (f.idx, 0))) stale
              d mn total
          ∧ (t.ctx x).pgLost = satInc (u.ctx x).pgLost es.length))
    ∧ (s.elemReady (s.core core) a e = true → s.lostAt (s.core core).ctxId e.leaf (e.pa2 / 2) = none →
        (s.lockOn e.leaf).isSome = true →
      ∃ t a', exec (.homeLoad core act e.idx) s = .next t ∧ (t.core core).act? act = some a' ∧ t.mem = s.mem
        ∧ ∃ w, 0 < w ∧ a'.body.todo = todo.map (fun f =>
            if es.any (·.idx == f.idx) then { f with tries := f.tries + 1, notBefore := s.pulse + w, sent := 0 } else f))

/-- R37, R38, R131, R142, R145, R149, R197, R208, R222 to R227: an element at its home: performed, or refused and sent again. -/
def Obligations.HomeAccessesPerform : Prop :=
  homeAccessesPerform ∧ formattedAccessesPerform ∧ formattedElementsLoad ∧ formattedElementsStore ∧ blocksMerge ∧ binsApplyToBlocks
    ∧ refusedElementIsSentAgain

/-- Handle `hd` after a shootdown of the page of `va` in context `x` (R136). -/
def Sys2Proof.Machine.shotDown (x : Nat) (va : W64) (hd : Handle) : Handle :=
  if (hd.state = .ready ∨ hd.state = .partly ∨ hd.state = .pending) ∧ hd.ctx = Fin.ofNat 64 x
      ∧ hd.leaves.any (·.covers (va.toNat % 2 ^ 57)) = true
  then { hd with state := .revoked, final := .revoked } else hd

/-- R134 to R137, R147, R335: a handle whose walk is over takes the state the walk reached (its leaves were fixed at issue: log 20); a
shootdown revokes exactly the handles of the context that hold a leaf of the page, on the cores and in its saved tasks. -/
def Sys2Proof.Machine.walkEndsAndShootdownRevokes : Prop :=
  ∀ (s : State) (core : Nat) (h : HReg),
    ((s.core core).handles[h].state = .pending → (s.core core).handles[h].walkEnd ≤ s.cycle (s.core core) → (s.core core).acts = [] →
      ∃ t, exec (.walkEnd core h) s = .next t
        ∧ (t.core core).handles[h] = { (s.core core).handles[h] with state := (s.core core).handles[h].final }
        ∧ (∀ k : HReg, k ≠ h → (t.core core).handles[k] = (s.core core).handles[k]) ∧ t.mem = s.mem)
    ∧ ∀ (x : Nat) (va : W64), ∃ t, exec (.shootdown x va) s = .next t ∧ t.mem = s.mem
      ∧ (∀ y, y ≠ Fin.ofNat 64 x → t.ctx y = s.ctx y)
      ∧ (t.ctx (Fin.ofNat 64 x)).saved.map (fun q => q.core.handles)
          = (s.ctx (Fin.ofNat 64 x)).saved.map (fun q => q.core.handles.map (shotDown x va))
      ∧ { t.ctx (Fin.ofNat 64 x) with saved := (s.ctx (Fin.ofNat 64 x)).saved } = s.ctx (Fin.ofNat 64 x)
      ∧ ∀ (c : Core), c ∈ s.cores → ∃ c' ∈ t.cores, c'.id = c.id ∧ c'.seqs = c.seqs ∧ c'.tiles = c.tiles
        ∧ c'.handles = c.handles.map (shotDown x va)

/-- R133 to R137, R146, R147: the words on handles, the end of a walk, and a shootdown. -/
def Obligations.HandlesWalkAndAreRevoked : Prop :=
  handleWordsIssue ∧ walkEndsAndShootdownRevokes

/-! ### Rings and sync words -/

/-- R154 to R161: the ring words: RING_MISUSE in a mode or by a count they do not admit, WAIT ring, or issue. -/
def Obligations.RingWordsIssueTrapOrWait : Prop :=
  ∀ (s : State) (h : Hdr) (d : GReg) (r : Ring) (a b : GReg) (n : W32),
    let x := s.me.rings[r]
    let k := n.toNat
    let A := s.me.rd h.eng a
    let res := fun (opc : Nat) (x' : RingReg) (v : W64) =>
      issued (s.setCore (s.me.setRing r x')) h opc { lat := some 2, fixed := false, writes := [.g (s.me.usesHandler h.eng) d v] }
    (s.ready h 0x44 = true → exec (.ringdef h r a b) s = match ringOf (s.me.id % 4) A (s.me.rd h.eng b) with
      | none => trapped s h .illegal 0x0D
      | some v => issued s h 0x44 { writes := [.ring r v] })
    ∧ (4096 < k →
        (s.ready h 0x45 = true → exec (.rwaitf h d r n) s = trapped s h .illegal 0x0D)
        ∧ (s.ready h 0x46 = true → exec (.rwaite h d r n) s = trapped s h .illegal 0x0D)
        ∧ (s.ready h 0x47 = true → exec (.rclaim h d r n) s = trapped s h .illegal 0x0D)
        ∧ (s.ready h 0x48 = true → exec (.rcommit h r n) s = trapped s h .illegal 0x0D)
        ∧ (s.ready h 0x49 = true → exec (.rrel h r n) s = trapped s h .illegal 0x0D))
    ∧ (k ≤ 4096 → x.mode = .localRing → k ≤ x.size →
        (s.ready h 0x47 = true → k ≤ x.free → exec (.rclaim h d r n) s
          = res 0x47 { x with claimed := x.claimed + n } (pack [(x.entry x.claimed, 0), (x.claimed.toNat, 32)]))
        ∧ (s.ready h 0x47 = true → x.free < k → exec (.rclaim h d r n) s = waits s h .ring)
        ∧ (s.ready h 0x46 = true → k ≤ x.free → exec (.rwaite h d r n) s = res 0x46 x (BitVec.ofNat 64 x.free))
        ∧ (s.ready h 0x46 = true → x.free < k → exec (.rwaite h d r n) s = waits s h .ring))
    ∧ (k ≤ 4096 → x.mode = .localRing → s.ready h 0x48 = true → k + s.me.ringPending r true ≤ (x.claimed - x.tail).toNat →
        exec (.rcommit h r n) s = issued s h 0x48 { lat := none, fixed := false, body := .rcommit r k })
    ∧ (k ≤ 4096 → (x.mode = .localRing ∨ x.mode = .accepting) → k ≤ x.size →
        (s.ready h 0x45 = true → k ≤ x.filled → exec (.rwaitf h d r n) s
          = res 0x45 x (pack [(x.entry x.head, 0), (x.filled, 32)]))
        ∧ (s.ready h 0x45 = true → x.filled < k → exec (.rwaitf h d r n) s = waits s h .ring))
    ∧ (k ≤ 4096 → (x.mode = .localRing ∨ x.mode = .accepting) →
        (s.ready h 0x49 = true → k + s.me.ringPending r false ≤ x.filled → exec (.rrel h r n) s
          = issued s h 0x49 { lat := none, fixed := false, body := .rrel r k })
        ∧ (s.ready h 0x49 = true → x.filled < k + s.me.ringPending r false →
            exec (.rrel h r n) s = trapped s h .ringMisuse (ringInfo r 4)))
    ∧ (k ≤ 4096 → x.size < k → x.filled ≤ x.size → s.ready h 0x49 = true →
        exec (.rrel h r n) s = trapped s h .ringMisuse (ringInfo r 4))
    ∧ (k ≤ 4096 → x.size < k →
        (s.ready h 0x47 = true → exec (.rclaim h d r n) s = trapped s h .ringMisuse (ringInfo r 0))
        ∧ (s.ready h 0x46 = true → exec (.rwaite h d r n) s = trapped s h .ringMisuse (ringInfo r 1))
        ∧ (s.ready h 0x45 = true → exec (.rwaitf h d r n) s = trapped s h .ringMisuse (ringInfo r 2)))
    ∧ (k ≤ 4096 → (x.claimed - x.tail).toNat < k + s.me.ringPending r true → s.ready h 0x48 = true →
        exec (.rcommit h r n) s = trapped s h .ringMisuse (ringInfo r 3))
    ∧ (k ≤ 4096 → (x.mode = .invalid ∨ x.mode = .proxy) →
        (s.ready h 0x45 = true → exec (.rwaitf h d r n) s = trapped s h .ringMisuse (ringInfo r 2))
        ∧ (s.ready h 0x49 = true → exec (.rrel h r n) s = trapped s h .ringMisuse (ringInfo r 4)))
    ∧ (k ≤ 4096 → x.mode ≠ .localRing →
        (s.ready h 0x47 = true → exec (.rclaim h d r n) s = trapped s h .ringMisuse (ringInfo r 0))
        ∧ (s.ready h 0x46 = true → exec (.rwaite h d r n) s = trapped s h .ringMisuse (ringInfo r 1))
        ∧ (s.ready h 0x48 = true → exec (.rcommit h r n) s = trapped s h .ringMisuse (ringInfo r 3)))
    ∧ (s.ready h 0x4A = true → (x.mode ≠ .proxy ∨ x.err = true) → exec (.rapp h r a) s = trapped s h .ringMisuse (ringInfo r 5))
    ∧ (s.ready h 0x4A = true → x.mode = .proxy → x.err = false → (A.toNat % 64 ≠ 0 ∨ 0x18_0000 < A.toNat + 64 * x.esz.toNat) →
        exec (.rapp h r a) s = trapped s h .combBounds A)
    ∧ (s.ready h 0x4A = true → x.mode = .proxy → x.err = false → A.toNat % 64 = 0 → A.toNat + 64 * x.esz.toNat ≤ 0x18_0000 →
        (x.room = 0 → exec (.rapp h r a) s = waits s h .ring)
        ∧ (x.room ≠ 0 → exec (.rapp h r a) s = issued (s.setCore (s.me.setRing r { x with room := x.room - 1 })) h 0x4A
            { lat := none, fixed := false
              body := .rapp r (hiveMate s.me.id x.rcore.toNat) (Fin.ofNat 16 x.rring.toNat) A.toNat (64 * x.esz.toNat) none }))

/-- R158, R160, R161: the steps of the ring words: TAIL and HEAD rise by the count, an answer gives a proxy its ROOM or ERR, credits
add to it once it has its answer and no ERR, and an entry lands in the receiver's ring at TAIL. -/
def Obligations.RingStepsComplete : Prop :=
  ∀ (s : State) (core act : Nat) (a : Act) (r : Ring) (n : Nat),
    let c := s.core core
    let x := c.rings[r]
    let mate := s.core (hiveMate core x.rcore.toNat)
    let k : Ring := Fin.ofNat 16 x.rring.toNat
    let y := mate.rings[k]
    (c.act? act = some a → a.body = .rcommit r n → c.ringReady a = true → a.push = none → a.resumed = false → ∃ t,
        exec (.rcommitApply core act) s = .next t ∧ (t.core core).rings[r] = { x with tail := x.tail + BitVec.ofNat 32 n }
        ∧ (t.core core).act? act = none ∧ (t.core core).comb = c.comb)
    ∧ (c.act? act = some a → a.body = .rrel r n → c.ringReady a = true → a.push = none → a.resumed = false → ∃ t,
        exec (.rrelApply core act) s = .next t ∧ (t.core core).rings[r] = { x with head := x.head + BitVec.ofNat 32 n }
        ∧ (t.core core).act? act = none ∧ (t.core core).comb = c.comb)
    ∧ (.ask core r ∈ s.ringMsgs → x.mode = .proxy → ∃ t, exec (.roomAnswer core r) s = .next t
        ∧ (t.core core).rings[r] = (if y.mode = .accepting ∧ y.asrc.toNat = core % 4 ∧ y.esz = x.esz
            then { x with room := BitVec.ofNat 13 y.free } else { x with err := true })
        ∧ t.ringMsgs = (if y.mode = .accepting ∧ y.asrc.toNat = core % 4 ∧ y.esz = x.esz
            then (s.ringMsgs.erase (.ask core r)).filter (fun m => !m.isFor core r) else s.ringMsgs.erase (.ask core r)))
    ∧ (.credit core r n ∈ s.ringMsgs → x.mode = .proxy → ∃ t, exec (.creditArrival core r n) s = .next t
        ∧ (t.core core).rings[r] = (if x.err = false ∧ .ask core r ∉ s.ringMsgs
            then { x with room := x.room + BitVec.ofNat 13 n } else x)
        ∧ t.ringMsgs = s.ringMsgs.erase (.credit core r n))
    ∧ (∀ dst j addr len bs, c.act? act = some a → a.body = .rapp r dst j addr len (some bs) → c.rappReady a = true → a.push = none →
        a.resumed = false → dst ≠ core →
        let z := (s.core dst).rings[j]
        ∃ t, exec (.rappArrival core act) s = .next t
          ∧ (t.core dst).comb = (if z.mode = .accepting ∧ z.asrc.toNat = core % 4 ∧ bs ≠ []
              then (s.core dst).comb.writeBytes (z.entry z.tail) bs else (s.core dst).comb)
          ∧ (t.core dst).rings[j] = (if z.mode = .accepting ∧ z.asrc.toNat = core % 4 ∧ bs ≠ [] then { z with tail := z.tail + 1 } else z)
          ∧ (t.core core).act? act = none ∧ (t.core core).comb = c.comb)

/-- R172 to R177, R182: the words on sync words, which wait while an earlier access must come first, a `syncrd` sampling no earlier than
those (log 9, DEDUCED); aligned to 16, in the comb; and a timeout that no other result forestalls. -/
def Sys2Proof.Machine.syncWordsIssueOrTrap : Prop :=
  ∀ (s : State) (h : Hdr) (d a b g : GReg) (f : Fin 4) (pl : Bool),
    let x := s.me.rd h.eng a
    let lo := fun (r : GReg) => BitVec.ofNat 32 (s.me.rd h.eng r).toNat
    let now := s.cycle s.me
    let acq := { zeroReach with sem := .acq }
    let busy := fun (o : Order) (k : AccKind) => s.combBusy s.me h.eng o (combAccesses k [(x, 32)]) now
    let late := s.me.combLoadAt h.eng (combAccesses .load [(x, 32)]) now
    (s.ready h 0x4C = true → busy zeroReach .store = true → exec (.syncset h a b g) s = waits s h .structural)
    ∧ (s.ready h 0x4D = true → busy acq .load = true → exec (.syncwait h d a b g pl) s = waits s h .structural)
    ∧ (s.ready h 0x4E = true → busy zeroReach .load = true → exec (.syncrd h d a f) s = waits s h .structural)
    ∧ (x.toNat % 16 ≠ 0 →
        (s.ready h 0x4C = true → busy zeroReach .store = false → exec (.syncset h a b g) s = trapped s h .misaligned x)
        ∧ (s.ready h 0x4D = true → busy acq .load = false → exec (.syncwait h d a b g pl) s = trapped s h .misaligned x)
        ∧ (s.ready h 0x4E = true → busy zeroReach .load = false → exec (.syncrd h d a f) s = trapped s h .misaligned x))
    ∧ (x.toNat % 16 = 0 → 0x18_0000 < x.toNat + 16 →
        (s.ready h 0x4C = true → busy zeroReach .store = false → exec (.syncset h a b g) s = trapped s h .combBounds x)
        ∧ (s.ready h 0x4D = true → busy acq .load = false → exec (.syncwait h d a b g pl) s = trapped s h .combBounds x)
        ∧ (s.ready h 0x4E = true → busy zeroReach .load = false → exec (.syncrd h d a f) s = trapped s h .combBounds x))
    ∧ (x.toNat % 16 = 0 → x.toNat + 16 ≤ 0x18_0000 →
        (s.ready h 0x4C = true → busy zeroReach .store = false → exec (.syncset h a b g) s
          = issued s h 0x4C { lat := none, body := .syncset x.toNat (lo b) (lo g) })
        ∧ (s.ready h 0x4D = true → busy acq .load = false → exec (.syncwait h d a b g pl) s = issued s h 0x4D
          { lat := none, fixed := false, holds := some .sync
            body := .syncwait d x.toNat (lo b) (s.me.rd h.eng g).toNat (if pl then some false else none) })
        ∧ (s.ready h 0x4E = true → busy zeroReach .load = false → exec (.syncrd h d a f) s = issued s h 0x4E
          { lat := none, fixed := false
            body := .combLoad late (4 + (late - now)) zeroReach .n32 [2 * x.toNat + 8 * f.val] (.g d) }))
    ∧ ∀ (core act : Nat) (p : Act) (addr tm : Nat) (u : W32) (lost : Option Bool), (s.core core).act? act = some p →
        p.body = .syncwait d addr u tm lost → (s.core core).syncReady p addr = true → (s.core core).syncTest addr u lost = none →
        tm ≤ s.cycle (s.core core) - p.issued →
          ∃ t p', exec (.syncwaitTimeout core act) s = .next t ∧ (t.core core).act? act = some p'
            ∧ p'.due = some (max (p.issued + 3) (s.cycle (s.core core)))
            ∧ p'.writes = [.g p.handler d (pack [(1, 0), (((s.core core).sync addr).gen.toNat, 32)])]

/-- R172 to R176: what a `syncwait` finds in its sync word: a status other than 0, else OK once GEN has reached gB, GEN - gB counted
as a signed number, else PEER_LOST for a word that asks for it, once a bit of its PEERLIVE has cleared. -/
def Sys2Proof.Machine.syncTestFindsResult : Prop :=
  ∀ (c : Core) (addr : Nat) (v : W32) (lost : Option Bool),
    let w := c.sync addr
    c.syncTest addr v lost = (if w.status.toNat % 2 ^ 8 ≠ 0 then some (w.status.toNat % 2 ^ 8)
      else if (w.gen - v).toNat < 2 ^ 31 then some 0 else if lost = some true then some 2 else none)

/-- R172, R173: an arrival adds the bytes delivered to COUNT; each time COUNT reaches a TARGET other than 0, GEN rises by one and the
rest is carried. The first failure's code stays. -/
def Sys2Proof.Machine.syncWordCounts : Prop :=
  ∀ (w : SyncWord) (n code reason : Nat) (nonres stale : Bool), n < 2 ^ 32 → code < 2 ^ 8 → reason < 2 ^ 4 →
    (w.target = 0 → w.arrive n = { w with count := w.count + BitVec.ofNat 32 n })
    ∧ (w.target ≠ 0 → w.count.toNat + n < 2 ^ 32 →
        (w.arrive n).count.toNat = (w.count.toNat + n) % w.target.toNat
        ∧ (w.arrive n).gen = w.gen + BitVec.ofNat 32 ((w.count.toNat + n) / w.target.toNat)
        ∧ (w.arrive n).target = w.target ∧ (w.arrive n).status = w.status)
    ∧ (w.status.toNat % 2 ^ 8 ≠ 0 → (w.join code reason nonres stale).status.toNat % 2 ^ 8 = w.status.toNat % 2 ^ 8)
    ∧ (w.status.toNat % 2 ^ 8 = 0 → (w.join code reason nonres stale).status.toNat % 2 ^ 8 = code)
    ∧ SyncWord.ofBytes w.bytes = w

/-- R172 to R177: the words on sync words, and what arrivals make of one. -/
def Obligations.SyncWordsCountArrivals : Prop :=
  syncWordsIssueOrTrap ∧ syncTestFindsResult ∧ syncWordCounts

/-! ### Copy queues -/

/-- R162: `copyin` and `copyout`: the chain's address is aligned to a slot of 128 bytes in the comb; a queue of 16 chains is full. -/
def Sys2Proof.Machine.copyWordsIssueTrapOrWait : Prop :=
  ∀ (s : State) (h : Hdr) (a : GReg),
    let x := s.me.rd h.eng a
    let waiting := fun (q : CopyQ) => (s.me.acts.filter (fun b => match b.body with | .copyPost q' _ => q' == q | _ => false)).length
    let post := fun (opc : Nat) (q : CopyQ) => issued s h opc { lat := none, fixed := false, body := .copyPost q x.toNat }
    (s.ready h 0x64 = true → x.toNat % 128 ≠ 0 → exec (.copyin h a) s = trapped s h .misaligned x)
    ∧ (s.ready h 0x67 = true → x.toNat % 128 ≠ 0 → exec (.copyout h a) s = trapped s h .misaligned x)
    ∧ (s.ready h 0x64 = true → x.toNat % 128 = 0 → 0x18_0000 ≤ x.toNat → exec (.copyin h a) s = trapped s h .combBounds x)
    ∧ (s.ready h 0x67 = true → x.toNat % 128 = 0 → 0x18_0000 ≤ x.toNat → exec (.copyout h a) s = trapped s h .combBounds x)
    ∧ (x.toNat % 128 = 0 → x.toNat < 0x18_0000 →
        (s.ready h 0x64 = true → s.me.inQ.chains.length + waiting .inbound < 16 → exec (.copyin h a) s = post 0x64 .inbound)
        ∧ (s.ready h 0x67 = true → s.me.outQ.chains.length + waiting .outbound < 16 → exec (.copyout h a) s = post 0x67 .outbound)
        ∧ (s.ready h 0x64 = true → 16 ≤ s.me.inQ.chains.length + waiting .inbound → exec (.copyin h a) s = waits s h .structural)
        ∧ (s.ready h 0x67 = true → 16 ≤ s.me.outQ.chains.length + waiting .outbound →
            exec (.copyout h a) s = waits s h .structural))

/-- The entry at hand on queue `q` of core `core`, from chain `ch`, is of kind `kind` with slot bytes `b`, inside the comb, in no LOOP
pass, and no IF passes it over. -/
def Sys2Proof.Machine.entryAt (s : State) (core : Nat) (q : CopyQ) (ch : Chain) (b : List Byte) (kind : Nat) : Prop :=
  s.headChain (s.core core) q = some ch ∧ s.slotBytes core ch = b
    ∧ slotKind b = kind ∧ ch.slotAt < 0x18_0000 ∧ ch.pass = none ∧ ch.skip = 0

/-- The queue after an entry whose chain goes on as `ch` (or ends): no further slot is read in this cycle (R163). -/
def Sys2Proof.Machine.queueAfter (s : State) (core : Nat) (q : CopyQ) (ch : List Chain) : CopyQueue :=
  { (s.core core).cq q with chains := ch ++ ((s.core core).cq q).chains.tail, nextAt := s.cycle (s.core core) + 1 }

/-- R163, R164, R170, R171: the entries that move no data, their slots as they stood at the start of the cycle. END ends the chain; LINK
goes on at its address; IF passes over N entries while GEN − V is negative; LOOP sets up K more passes over the N slots before it, or
nothing if K is 0; a FENCE completes once the other queue's chains that it waits for are done. -/
def Sys2Proof.Machine.copyControlEntriesStep : Prop :=
  ∀ (s : State) (core : Nat) (q : CopyQ) (ch : Chain) (b : List Byte),
    let c := s.core core
    let w0 := slotNat b 0 8
    let n := fld w0 4 8
    let sa := fld (slotNat b 8 8) 32 21
    let at_ := fun (p : Nat) => { ch with pos := p, begun := false, slot := [], fence := 0, tries := 0, notBefore := 0, sent := 0, lost := [] }
    (entryAt s core q ch b 0 → ∃ t, exec (.copyEnd core q) s = .next t ∧ (t.core core).cq q = queueAfter s core q []
        ∧ (t.core core).comb = c.comb ∧ t.mem = s.mem)
    ∧ (entryAt s core q ch b 4 → fld (slotNat b 8 8) 0 21 % 128 = 0 → fld (slotNat b 8 8) 0 21 < 0x18_0000 →
        ∃ t, exec (.copyLink core q) s = .next t ∧ (t.core core).cq q = queueAfter s core q [at_ (fld (slotNat b 8 8) 0 21)]
          ∧ (t.core core).comb = c.comb ∧ t.mem = s.mem)
    ∧ (entryAt s core q ch b 3 → sa % 16 = 0 → sa + 16 ≤ 0x18_0000 → ∃ t, exec (.copyIf core q) s = .next t
        ∧ (t.core core).cq q = queueAfter s core q [{ at_ (ch.pos + 128) with
            skip := if ((c.sync sa).gen - BitVec.ofNat 32 (slotNat b 8 4)).msb then n else 0 }]
        ∧ (t.core core).comb = c.comb ∧ t.mem = s.mem)
    ∧ (entryAt s core q ch b 2 → 0 < n → 128 * n ≤ ch.pos →
        (∀ i, i < n → ((s.atStart.core core).comb.read (ch.pos - 128 * n + 128 * i)).toNat % 16 ∈ [1, 5]) →
          ∃ t, exec (.copyLoop core q) s = .next t ∧ (t.core core).cq q = queueAfter s core q [if slotNat b 8 4 = 0 then at_ (ch.pos + 128) else { at_ (ch.pos + 128) with
              pass := some ⟨ch.pos, n, slotNat b 8 4, BitVec.ofNat 64 (slotNat b 16 8), BitVec.ofNat 64 (slotNat b 24 8), 1, 0⟩ }]
          ∧ (t.core core).comb = c.comb ∧ t.mem = s.mem)
    ∧ (entryAt s core q ch b 5 → ch.begun = false →
        (bitSet w0 (match q with | .outbound => 4 | .inbound => 5) = false ∨ (c.cq (otherQ q)).chains = []) →
        ∃ t, exec (.copyFence core q) s = .next t ∧ (t.core core).cq q = queueAfter s core q [at_ (ch.pos + 128)]
          ∧ (t.core core).comb = c.comb ∧ t.mem = s.mem)
    ∧ (entryAt s core q ch b 5 → ch.begun = true → (∃ x ∈ (c.cq (otherQ q)).chains, x.no < ch.fence) →
        ∃ t, exec (.copyFence core q) s = .next t ∧ (t.core core).cq q = queueAfter s core q [{ ch with slot := b }])

/-- R162 to R164, R170, R171: chains join their queue, and the entries that move no data step. -/
def Obligations.CopyQueuesRunChains : Prop :=
  copyWordsIssueTrapOrWait ∧ copyControlEntriesStep

/-- R165 to R168, R172: a plain COPY inside the comb, with no sync word: every element is read before any is written, and the elements
are written in tuple order, so that the larger index tuple stays. -/
def Obligations.CopyEntryMovesElements : Prop :=
  ∀ (s : State) (core : Nat) (q : CopyQ) (ch : Chain) (b : List Byte) (src dst : W64) (ty : Ty),
    let c := s.core core
    let ts := tuples (levelsOf b)
    let sd : Side := ⟨.comb core, src, ty, false⟩
    let dd : Side := ⟨.comb core, dst, ty, false⟩
    let hb := ty.halfBytes
    entryAt s core q ch b 1 → copyFormed b = true → s.sides core b 0 0 = (sd, dd) → bitSet (slotNat b 0 8) 7 = false →
    (∀ l ∈ levelsOf b, l.ss = l.ds) →
    (∀ u ∈ ts, u.fill = false ∧ u.drop = false ∧ sd.at_ u.s + hb ≤ 0x30_0000 ∧ dd.at_ u.d + hb ≤ 0x30_0000) →
      ∃ t, exec (.copyEntry core q) s = .next t
        ∧ (t.core core).comb = ts.foldl (fun m u => m.writeElem (dd.at_ u.d) hb (c.comb.readElem (sd.at_ u.s) hb)) c.comb
        ∧ (t.core core).cq q = queueAfter s core q
            [{ ch with pos := ch.pos + 128, begun := false, slot := [], fence := 0, tries := 0, notBefore := 0, sent := 0, lost := [] }]
        ∧ t.mem = s.mem ∧ (∀ other, other ≠ core → t.core other = s.core other)

/-! ### Pages -/

/-- R136, R148, R149: `pgreq` issues. A page asked for is judged each time its request is made: resident where it was asked for, it counts
for the sync word named; locked by another's migration, the request is made again after a hint; moved too lately, R of its leaf entry's
first word (bit 2) is set where it is, the page is shot down, and it counts; else its migration starts. To which frame the page of a
`pgreq` comes is the model's choice (log 37). -/
def Sys2Proof.Machine.pagesBecomeResident : Prop :=
  (∀ (s : State) (h : Hdr) (a b c : GReg), s.ready h 0x6E = true → exec (.pgreq h a b c) s = issued s h 0x6E
    { lat := none, fixed := false
      body := .word (.pgreq h a b c) [s.me.rd h.eng a, s.me.rd h.eng b, s.me.rd h.eng c] [] 0 0 0 })
  ∧ ∀ (s : State) (r : PageReq) (l : Leaf), s.pageReqs.find? (·.no == r.no) = some r →
    let u := s.readTables r.ctx [BitVec.ofNat 64 r.va]
    u.walk r.ctx (BitVec.ofNat 64 r.va) = some l → r.sync % 16 = 0 → r.sync + 16 ≤ 0x18_0000 →
    let g := ({ u with pageReqs := s.pageReqs.filter (·.no != r.no) } : State).readTables r.ctx [canonOf r.va]
    let counted := fun (t : State) => (t.core r.core).comb
        = (s.core r.core).comb.writeBytes r.sync (((s.core r.core).sync r.sync).arrive l.bytes).bytes
      ∧ (∀ q ∈ t.pageReqs, q.no ≠ r.no) ∧ ∀ other, other ≠ r.core → (t.core other).comb = (s.core other).comb
    let held := fun (t : State) (f : PageReq → PageReq) => t.mem = u.mem ∧ t.cores = s.cores
      ∧ t.pageReqs = s.pageReqs.map (fun q => if q.no = r.no then f q else q)
    (s.migrating l = none → r.met s.pkg l = true → ∃ t, exec (.pageResident r.no) s = .next t ∧ counted t ∧ t.mem = u.mem)
    ∧ (s.migrating l = none → r.met s.pkg l = false → l.res = true → s.movedLately r.ctx l = true →
        ∃ t, exec (.pageResident r.no) s = .next t ∧ counted t ∧ t.mem = u.mem)
    ∧ (∀ e, s.migrating l = none → l.res = false → s.movedLately r.ctx l = true → g.leafEntry r.ctx r.va = some e →
        ∃ t, exec (.pageResident r.no) s = .next t ∧ counted t
          ∧ t.mem = (g.homeWrite e (leBytes 8 ((g.entryAt e).1 ||| 4) ++ leBytes 8 (g.entryAt e).2)).mem)
    ∧ (s.migrating l = none → r.met s.pkg l = false → s.movedLately r.ctx l = false →
        ∃ t no dest, exec (.pageResident r.no) s = .next t ∧ held t (fun q => { q with mig := some no })
          ∧ Home.codes dest = (r.leaf.home, if r.leaf.home = 1 then r.leaf.peer else 0)
          ∧ t.migrations = s.migrations ++ [⟨no, r.ctx, r.va, l, dest, r.leaf.pfn, r.leaf.plane, .draining⟩])
    ∧ (∀ m, s.migrating l = some m → r.mig ≠ some m.no →
        ∃ t w, exec (.pageResident r.no) s = .next t ∧ 0 < w ∧ held t (fun q => { q with notBefore := s.pulse + w })
          ∧ t.migrations = s.migrations)

/-- R149, R150: a migration takes its page's lock, unless one holds it, at the old home or at the new; it drains once no window pair and no
bin of the page is left; the bytes of the page then stand at the new home; and the lock is released with the time noted for the page
where it is now. -/
def Sys2Proof.Machine.migrationSteps : Prop :=
  (∀ (s : State) (x : Nat) (va : W64) (dest : Home) (pfn plane : Nat) (l : Leaf),
    let u := s.readTables (Fin.ofNat 64 x) [va]
    u.walk (Fin.ofNat 64 x) va = some l → s.migrating l = none → s.movedLately (Fin.ofNat 64 x) l = false →
      ∃ t no, exec (.migrationRequest x va dest pfn plane) s = .next t ∧ t.mem = u.mem ∧ t.cores = s.cores
        ∧ t.migrations = s.migrations ++ [⟨no, Fin.ofNat 64 x, va.toNat, l, dest, pfn, plane, .draining⟩])
  ∧ (∀ (s : State) (m : Migration), s.migration? m.no .draining = some m → m.leaf.dataKey s.pkg % 64 = 0 →
      ∃ t, exec (.migrationDrained m.no) s = .next t ∧ { m with state := .copying } ∈ t.migrations
        ∧ (∀ p ∈ t.window, m.leaf.holds s.pkg p.key = false) ∧ (∀ b ∈ t.bins, m.leaf.holds s.pkg (b.line * 64) = false)
        ∧ t.cores = s.cores)
  ∧ (∀ (s : State) (m : Migration), s.migration? m.no .copying = some m → m.leaf.planeBytes = 0 → s.mem.wf = true →
      s.window = [] → s.bins = [] →
      let old := m.leaf.dataKey s.pkg
      let new := m.newLeaf.dataKey s.pkg
      let M := s.mem.writeBytes new (s.mem.readBytes old m.leaf.bytes)
      (∀ e, entryFrom (fun a => (M.readNat a 8, M.readNat (a + 8) 8)) (m.va % 2 ^ 57) 4
        (fld (s.ctx m.ctx).ptRoot.toNat 13 39 * 2 ^ 13) = some e → e + 16 ≤ new ∨ new + m.leaf.bytes ≤ e) →
      ∃ t, exec (.migrationCopied m.no) s = .next t ∧ { m with state := .switched } ∈ t.migrations
        ∧ (∀ i, i < m.leaf.bytes → t.mem.read (new + i) = s.mem.read (old + i)) ∧ t.cores = s.cores)
  ∧ ∀ (s : State) (m : Migration), s.migration? m.no .switched = some m →
      ∃ t, exec (.migrationSwitched m.no) s = .next t ∧ t.mem = s.mem ∧ (∀ n ∈ t.migrations, n.no ≠ m.no)
        ∧ (m.newLeaf.dataKey s.pkg, s.pulse) ∈ t.lastMig

/-- R136, R148 to R150: requested pages and migrations. -/
def Obligations.PagesArriveAndMigrate : Prop :=
  pagesBecomeResident ∧ migrationSteps

/-! ### Regions -/

/-- R211, R214 to R216: the region words: ILLEGAL, reason 0x0D, for a bad definition or an invalid region; else they issue and hold X. -/
def Sys2Proof.Machine.regionWordsIssueOrTrap : Prop :=
  ∀ (s : State) (h : Hdr) (d : Region) (a b c : GReg),
    let va := s.me.rd h.eng a
    let len := s.me.rd h.eng b
    let cfg := s.me.rd h.eng c
    let rs := (s.ctx s.me.ctxId).regions
    let lo := va.toNat % 2 ^ 57
    let clash := fun (k : Region) => len ≠ 0 ∧ k ≠ d ∧ rs[k].valid = true ∧ rs[k].base.toNat % 2 ^ 57 < lo + len.toNat
      ∧ lo < rs[k].base.toNat % 2 ^ 57 + rs[k].len
    let bad := 12 ≤ bits cfg 0 4 ∨ bits cfg 21 43 ≠ 0 ∨ va.toNat % 64 ≠ 0 ∨ canonicalVA va = false ∨ len.toNat % 64 ≠ 0
      ∨ 2 ^ 48 < len.toNat ∨ ∃ k, clash k
    let word := fun (opc : Nat) (i : Instr) (v : List W64) => issued s h opc
      { lat := none, fixed := false, holds := some .fence, body := .word i v [] 0 0 0 }
    (s.ready h 0x6B = true → bad → exec (.regdef h d a b c) s = trapped s h .illegal 0x0D)
    ∧ (s.ready h 0x6B = true → ¬ bad → exec (.regdef h d a b c) s = word 0x6B (.regdef h d a b c) [va, len, cfg])
    ∧ (s.ready h 0x6C = true → rs[d].valid = false → exec (.regclr h d) s = trapped s h .illegal 0x0D)
    ∧ (s.ready h 0x6C = true → rs[d].valid = true → exec (.regclr h d) s = word 0x6C (.regclr h d) [])
    ∧ (s.ready h 0x6D = true → rs[d].valid = false → exec (.regapply h d) s = trapped s h .illegal 0x0D)
    ∧ (s.ready h 0x6D = true → rs[d].valid = true → exec (.regapply h d) s = word 0x6D (.regapply h d) [])
    ∧ (s.ready h 0x65 = true → exec (.ufence h) s
        = issued s h 0x65 { lat := none, fixed := false, holds := some .fence, body := .ufence })

/-- R202 to R205: `upd` through a handle that is not PENDING, its element indices contiguous from gB or the n32 elements of a tile group: a
shape that a register of the values (of the indices too) does not hold traps ILLEGAL, 0x0C; else, if every check passes, the word issues
with one pair for each active element in bounds that a stop has not left behind, of the region's captured entry and, for STAMPADD, the
core's step; if one fails, it traps. Elements lie a storage size apart; for STAMPADD, an element size of the handle's first page. -/
def Obligations.UpdIssuesOrTraps : Prop :=
  ∀ (s : State) (h : Hdr) (d : Region) (a : HReg) (b : UpdIdx) (c : TReg) (gl : Fin 6) (pm : Pm) (ty : Ty) (oc : Fin 16),
    let p := s.me.shape h.eng
    let n := (gl.val + 1) * p.elems
    let r := (s.ctx s.me.ctxId).regions[d]
    let op := r.op.toNat
    let hd := s.me.handles[a]
    let first := hd.leaves.head?
    let sty := if op = 11 then (first.bind (·.elemTy)).getD ty else opTy op
    let dist := if op = 11 then (match first with | some l => l.size2 ty | none => ty.halfBytes) else (opTy op).halfBytes
    let size := match b with | .tile _ => max ty.halfBytes 8 | .cont _ => ty.halfBytes
    let indices := match b with
      | .tile t => s.me.group t (gl.val + 1) p.elems 8
      | .cont g => (List.range n).map (fun j => (s.me.rd h.eng g + BitVec.ofNat 64 j).toNat)
    let all : List Ref := (indices.zip (s.me.group c (gl.val + 1) p.elems ty.halfBytes)).zipIdx.map (fun q =>
        ⟨q.2, q.1.1 * dist % 2 ^ 65, false, pairValue op r.exp ty q.1.2⟩)
    let refs := (pmActive (s.me.actives pm ty.halfBytes (gl.val + 1) p.elems) all).filter (fun q => s.me.progress h.eng 0x64 ≤ q.idx)
    let ps := refs.filterMap (hd.place sty)
    let bad := s.updCheck s.me.ctxId r sty ty refs hd
    let upd := exec (.upd h d a b c gl pm ty oc) s
    s.ready h 0x64 = true →
    (8192 < p.elems * size → upd = trapped s h .illegal 0x0C)
    ∧ (p.elems * size ≤ 8192 → hd.state ≠ .pending →
      (bad = none → ∃ e tpl, upd = issued s h 0x64 e
        ∧ e.body = .upd oc tpl (ps.map (s.elemOf s.me.ctxId sty)) n ∧ e.holds = some .structural ∧ e.lat = none ∧ e.writes = []
        ∧ tpl.ctx = s.me.ctxId ∧ tpl.reg = d ∧ tpl.gen = r.gen ∧ tpl.op = r.op ∧ tpl.exp = r.exp
        ∧ tpl.step = BitVec.ofNat 16 s.me.cstep.toNat)
      ∧ (∀ cause info, bad = some (cause, info) → upd = trapped s h cause info))

/-- R145, R207, R208, R210, R213, R219: a pair that arrives at a unit of this package, once the bins of the entries its address is
translated by are applied (`u`), joins the window if its region's entry is as it was captured, with the marks it carries set there; it is
dropped and counted in DROPS if not, or where no valid leaf, or no element of its view, holds it any more. A stamped pair ahead of the
unit's step by less than 2^15 takes the unit's step, and STEP_AHEAD is set. A pair whose page has moved is refused with a hint the first
time, and its address translated again from then on; one for a unit that has taken 32 in this cycle waits. A window that closes leaves no
pair in it. The model's choices (logs 12 and 21): the units' windows close together, and one region table a context serves every unit. -/
def Sys2Proof.Machine.pairsArrive : Prop :=
  (∀ (s : State) (f : Flight),
    let p := f.pair
    let r := (s.ctx p.ctx).regions[p.reg]
    let u := s.readTables p.ctx [canonOf p.va]
    let step := BitVec.ofNat 16 (s.ctx p.ctx).unitStep.toNat
    let ahead := p.op = 11 ∧ 1 ≤ (p.step - step).toNat ∧ (p.step - step).toNat < 2 ^ 15
    let same := r.valid = true ∧ r.gen = p.gen ∧ r.op = p.op ∧ r.exp = p.exp
    let dropped := fun (t : State) => t.window = u.window ∧ ((t.ctx p.ctx).regions[p.reg]).drops = satInc r.drops 1
    let gone := fun (t : State) => t.mem = u.mem ∧ t.cores = s.cores ∧ ∀ g ∈ t.flight, f.same g = false
    let run := exec (.updatePairArrival f.core f.act f.elem) s
    s.flight? f.core f.act f.elem = some f → u.flightReady f = true → p.leaf.home = 0 →
    (u.pairPlace p.ctx p.op p.va ≠ none → (f.fate = .same ∨ f.tries = 0) → u.pairNow f = some p)
    ∧ (f.fate ≠ .same → f.tries ≠ 0 →
        u.pairNow f = (u.pairPlace p.ctx p.op p.va).map (fun q => { p with key := q.1, leaf := q.2 }))
    ∧ (∀ n, u.pairNow f = some n → n.leaf.home = 0 → u.lockOn n.leaf = none → u.unitFull n = false →
        (f.fate ≠ .moved ∨ f.tries ≠ 0) → ∃ t, run = .next t ∧ gone t
        ∧ (same → t.window = u.window ++ [if ahead then { n with step := step } else n]
            ∧ ((t.ctx p.ctx).stepAhead = true ↔ (u.ctx p.ctx).stepAhead = true ∨ ahead)
            ∧ (t.ctx p.ctx).regions[p.reg] = { r with nf := r.nf || p.nf, sat := r.sat || p.sat }
            ∧ ∀ k : Region, k ≠ p.reg → (t.ctx p.ctx).regions[k] = (s.ctx p.ctx).regions[k])
        ∧ (¬ same → dropped t))
    ∧ (∀ n, u.pairNow f = some n → u.unitFull n = true → run = .next u)
    ∧ (u.pairNow f = none → ∃ t, run = .next t ∧ gone t ∧ dropped t)
    ∧ (u.pairPlace p.ctx p.op p.va ≠ none → f.fate = .moved → f.tries = 0 → u.unitFull p = false →
      ∃ t w, run = .next t ∧ 0 < w ∧ t.window = u.window ∧ t.mem = u.mem
        ∧ t.cores = s.cores ∧ t.flight = s.flight.map (fun g =>
          if f.same g = true then { g with tries := g.tries + 1, notBefore := s.pulse + w, sent := 0 } else g)))
  ∧ ∀ (s : State), ∃ t, exec .windowClose s = .next t ∧ t.window = [] ∧ t.cores = s.cores
    ∧ (s.window = [] → s.bins = [] → t.mem = s.mem)

/-- R131, R132, R207: where the element of a pair lies: in its page, or, where the page is read through a view, at the view's place for its
address and its region's element size; its unit then sees a page that begins at the view. No view holds it: it has no place (the model's
choice: R203 checks no view; log 70). -/
def Sys2Proof.Machine.pairsHaveTheirPlace : Prop :=
  ∀ (s : State) (x : Fin 64) (op : BitVec 4) (va : Nat),
    let va57 := va % 2 ^ 57
    let ty := fun (l : Leaf) => if op = 11 then (l.elemTy).getD .f32 else opTy op.toNat
    (s.walk x (canonOf va) = none → s.pairPlace x op va = none)
    ∧ ∀ l, s.walk x (canonOf va) = some l →
      (l.vw = false → s.pairPlace x op va = some (l.dataKey s.pkg + (va57 - l.base), l))
      ∧ (l.vw = true → s.pairPlace x op va = (s.viewAt x l va57 (l.size2 (ty l))).map (fun o =>
          let pb := ((s.ctx x).views[l.view]).pbase.toNat
          (homeKey s.pkg l.home l.peer pb + o, { l with vw := false, pfn := pb })))

/-- Block `b` of page `l`, where context `x` reaches it (R130, R132). -/
def Sys2Proof.Machine.pageBlock (s : State) (x : Fin 64) (l : Leaf) (b : Nat) : BlockAt :=
  blockAt s.pkg l b (s.start2 x l + b * l.block * l.blockTy.halfBytes)

/-- A block lies in this package's memory, its stamp word and scale too. -/
def Sys2Proof.Machine.blockHere (k : BlockAt) : Prop :=
  k.data2 / 2 + 512 ≤ 2 ^ 52 ∧ k.n * k.hb ≤ 1024 ∧ ∀ ln ∈ k.planeLines, ln < 2 ^ 46

/-- R200, R208, R211, R214 to R216, R226, R227: what a region word does once its waits are over. `regdef` writes the entry, its generation
one on, the pairs and bins of an old entry applied first; `regclr` raises the generation, forgets the pairs and bins, gives each element of
the region its operator's identity and clears NF and SAT, a page that is not resident posting an event instead: through a view, each
element that the view places (the others are not written: the model's choice, log 70); of a stamped page under STAMPADD, by the block
operation on each block the range overlaps, +0 inside the range and the rest melted. `regapply` applies the pairs and bins: a bin of
STAMPADD by ApplyBlock, another element by element. No other entry changes. Once acknowledged the word completes, a `regdef` with its entry
written to the context descriptor. That such a word takes effect in one step is the model's choice (log 23). -/
def Sys2Proof.Machine.regionWordsTakeEffect : Prop :=
  ∀ (s : State) (id : Nat) (a : Act) (h : Hdr) (d : Region) (i j k : GReg) (va len cfg : W64) (v : List W64) (els : List Nat)
    (shp : W64) (p : Nat),
    let c := s.core id
    let x := c.ctxId
    let r := (s.ctx x).regions[d]
    let t := s.runRegion id a
    let clean := (∀ q ∈ t.window, q.ctx = x → q.reg ≠ d) ∧ ∀ b ∈ t.bins, b.ctx = x → b.reg ≠ d
    let others := ∀ n : Region, n ≠ d → (t.ctx x).regions[n] = (s.ctx x).regions[n]
    let size := if r.op.toNat ∈ [0, 2, 4, 5, 6, 7, 10] then 4 else 8
    let ident := match r.op.toNat with
      | 4 => 0xFF80_0000 | 5 => 0x7F80_0000 | 6 => 0x8000_0000 | 7 => 0x7FFF_FFFF | 9 => 2 ^ 64 - 1 | _ => 0
    let done := ∃ a', (t.core id).act? a.id = some a' ∧ a'.due = some (s.cycle c)
    c.act? a.id = some a → a.due = none →
    (a.body = .word (.regdef h d i j k) [va, len, cfg] els shp 0 p → s.regionClash x d va len = false → s.clearReady c a d = true →
      others ∧ (r.valid = true → clean) ∧ (r.valid = false → t.mem = s.mem)
      ∧ (t.ctx x).regions[d] = { r with
          valid := len != 0, base := va, len := len.toNat, op := BitVec.ofNat 4 (bits cfg 0 4), gen := r.gen + 1
          exp := if bits cfg 0 4 = 1 then BitVec.ofNat 16 (bits cfg 4 16) else 0, staletrap := bits cfg 20 1 == 1
          nf := false, sat := false })
    ∧ (a.body = .word (.regclr h d) v els shp 0 p → s.clearReady c a d = true →
      others ∧ clean ∧ (t.ctx x).regions[d] = { r with gen := r.gen + 1, nf := false, sat := false }
      ∧ ∀ l, s.window = [] → s.bins = [] → s.mem.wf = true → s.walk x r.base = some l →
        let lo := r.base.toNat % 2 ^ 57 - l.base
        0 < r.len → lo + r.len ≤ l.bytes → r.len % 8 = 0 →
        let hi := lo + r.len
        let w := if r.op = 11 then l.size2 .f32 else 2 * size
        let g := (s.ctx x).unitStep
        (l.res = true → l.home = 0 → l.vw = false → (r.op ≠ 11 ∨ l.isStamped = false) → ∀ y, t.mem.read y
          = if l.pfn + lo ≤ y ∧ y < l.pfn + lo + r.len then (leBytes size ident).getD ((y - (l.pfn + lo)) % size) 0 else s.mem.read y)
        ∧ (l.res = true → l.home = 0 → l.vw = true → (r.op ≠ 11 ∨ l.isStamped = false) →
            (∀ n ∈ s.elemsOver x l w lo hi, (s.start2 x l + n * w) / 2 + 8 ≤ 2 ^ 52) →
            t.mem = (s.elemsOver x l w lo hi).foldl
              (fun m n => m.writeBytes ((s.start2 x l + n * w) / 2) (leBytes (w / 2) ident)) s.mem)
        ∧ (l.res = true → l.home = 0 → r.op = 11 → l.isStamped = true →
            (∀ b ∈ s.blocksOver x l l.blockTy.halfBytes lo hi, blockHere (pageBlock s x l b)) →
            t.mem = (s.blocksOver x l l.blockTy.halfBytes lo hi).foldl (fun m b =>
              let k := pageBlock s x l b
              let ins := (List.range l.block).filter
                (fun n => (s.elemsOver x l l.blockTy.halfBytes lo hi).contains (b * l.block + n))
              (k.apply m ((s.ctx x).unitDcf[dclassOf (k.stampWord m)]).toNat g (some (BitVec.ofNat 16 g.toNat)) []
                (ins.map (fun n => (n, 0, .zero false)))).1) s.mem)
        ∧ (l.res = false → t.mem = s.mem ∧ t.events = s.events ++ [eventRec x 0x06 r.base]))
    ∧ (a.body = .word (.regapply h d) v els shp 0 p → others ∧ clean ∧ (t.ctx x).regions[d] = r
      ∧ ∀ b, s.window = [] → s.bins = [b] → b.ctx = x → b.reg = d →
        (b.op ≠ 11 → s.poisonIn (64 * b.line) 64 = none → t.mem = b.parts.foldl
          (fun m q => m.writeNat q.key (opHb b.op / 2) (combine b.op (m.readNat q.key (opHb b.op / 2)) q.v)) s.mem)
        ∧ ∀ bl, b.op = 11 → b.leaf.peerOf s.pkg = none → b.parts ≠ [] →
          (∀ q ∈ b.parts, b.leaf.blockNo s.pkg (2 * q.key) = bl) →
          let hb := b.leaf.blockTy.halfBytes
          let page := b.leaf.dataKey s.pkg
          let k := blockAt s.pkg b.leaf bl (2 * page + bl * b.leaf.block * hb)
          s.poisonedBlock k = false → (∀ ln ∈ k.planeLines, ln < 2 ^ 46) →
            t.mem = (k.apply s.mem ((s.ctx x).unitDcf[dclassOf (k.stampWord s.mem)]).toNat (s.ctx x).unitStep none
              (b.parts.map (fun q => (2 * (q.key - page) / hb - bl * b.leaf.block, q.v, q.step))) []).1)
    ∧ (∀ n, a.body = .word n v els shp 1 p → p ≤ s.cycle c → s.factorsSpread id = true →
      (n = .regdef h d i j k → done
        ∧ t.mem = (s.homeWrite ((s.ctx x).desc + 0x400 + 16 * d.val) (leBytes 8 r.base.toNat ++ leBytes 8 r.len)).mem)
      ∧ ((n = .regclr h d ∨ n = .regapply h d) → done ∧ t.mem = s.mem))

/-- R132, R145, R200, R207, R208, R210, R211, R213 to R216, R219, R226: pairs arrive and merge, and the region words take effect. -/
def Obligations.UpdatePairsArriveAndMerge : Prop :=
  pairsArrive ∧ pairsHaveTheirPlace ∧ regionWordsTakeEffect

/-! ### Steps and sweeps -/

/-- R220, R229: `stepadv` and `stsweep` issue; a sweep's range and sync word are checked first. -/
def Sys2Proof.Machine.stepWordsIssueOrTrap : Prop :=
  ∀ (s : State) (h : Hdr) (a b c : GReg),
    let va := s.me.rd h.eng a
    let len := s.me.rd h.eng b
    let sy := s.me.rd h.eng c
    let bad := canonicalVA va = false ∨ 2 ^ 48 < len.toNat
    (s.ready h 0x69 = true → exec (.stepadv h) s
      = issued s h 0x69 { lat := none, fixed := false, holds := some .fence, body := .word (.stepadv h) [] [] 0 0 0 })
    ∧ (s.ready h 0x6A = true → bad → exec (.stsweep h a b c) s = trapped s h .illegal 0x0D)
    ∧ (s.ready h 0x6A = true → ¬ bad → sy.toNat % 16 ≠ 0 → exec (.stsweep h a b c) s = trapped s h .misaligned sy)
    ∧ (s.ready h 0x6A = true → ¬ bad → sy.toNat % 16 = 0 → 0x18_0000 < sy.toNat + 16 →
        exec (.stsweep h a b c) s = trapped s h .combBounds sy)
    ∧ (s.ready h 0x6A = true → ¬ bad → sy.toNat % 16 = 0 → sy.toNat + 16 ≤ 0x18_0000 → exec (.stsweep h a b c) s
        = issued s h 0x6A { lat := none, fixed := false, body := .word (.stsweep h a b c) [va, len, sy] [] 0 0 0 })

/-- R211, R214 to R216, R220, R229: the region words and the step words. -/
def Obligations.RegionAndStepWordsIssueOrTrap : Prop :=
  regionWordsIssueOrTrap ∧ stepWordsIssueOrTrap

/-- R218, R220, R228: the step register rises by one and every unit takes it; at a multiple of 2^13 SWEEP_DUE is set and an event
posted. The cores of the context take it after the units. -/
def Sys2Proof.Machine.stepAdvances : Prop :=
  ∀ (s : State) (x : Fin 64),
    let g := (s.ctx x).gstep + 1
    ((s.stepUnits x).ctx x).gstep = g ∧ ((s.stepUnits x).ctx x).unitStep = g
    ∧ ((s.stepUnits x).ctx x).stepDue = ((s.ctx x).stepDue || g.toNat % 2 ^ 13 == 0)
    ∧ (s.stepUnits x).cores = s.cores ∧ (s.stepUnits x).mem = s.mem
    ∧ (s.stepUnits x).events = s.events ++ (if g.toNat % 2 ^ 13 = 0 then [eventRec x 0x01 (BitVec.ofNat 64 g.toNat)] else [])
    ∧ (∀ y, y ≠ x → (s.stepUnits x).ctx y = s.ctx y)
    ∧ ∀ (id : Nat) (c : Core), findCore s.cores id = some c → ((s.stepCores x).core id).cstep
        = if c.task.isSome = true ∧ c.ctxId = x then (s.ctx x).unitStep else c.cstep

/-- One block of a swept page, by memory and whether a block before it was stale (R229): of age 2^15 or more it is stale, takes the step
and ZB, and its elements stay; of age SWEEPTH or more it is brought to the step; else it stays. -/
def Sys2Proof.Machine.sweptBlock (s : State) (x : Fin 64) (l : Leaf) (m : Memory × Bool) (b : Nat) : Memory × Bool :=
  let k := pageBlock s x l b
  let c := s.ctx x
  let t := BitVec.ofNat 16 c.unitStep.toNat
  let old := k.stampWord m.1
  let age := ageOf c.unitStep old
  if 2 ^ 15 ≤ age then ((match k.stamp with | some a => m.1.writeNat a 4 (newStamp old t true) | none => m.1), true)
  else if c.sweepTh.toNat ≤ age then ((k.apply m.1 (c.unitDcf[dclassOf old]).toNat c.unitStep (some t) [] []).1, m.2)
  else m

/-- R229: a page of a sweep, found once the bins of the entries its address is translated by are applied (`u`). One that is not valid, not
resident, not stamped or homed elsewhere is skipped: memory stays, and the sync word gains the size of the piece; one that is not resident
posts an event. The blocks of a stamped page are handled one after the other (ApplyBlock without entries, or ZB); a stale one marks the
sync word and STEPSTAT. The sweep goes on past the page. That a page is one step, of which one register table serves all units, is the
model's choice (logs 22 and 23). -/
def Sys2Proof.Machine.sweepPageAdvances : Prop :=
  ∀ (s : State) (w : Sweep), s.sweeps.find? (·.no == w.no) = some w → w.sync % 16 = 0 → w.sync + 16 ≤ 0x18_0000 →
    let u := s.readTables w.ctx [BitVec.ofNat 64 w.va]
    (u.walk w.ctx (BitVec.ofNat 64 w.va) = none → ∃ t, exec (.sweepPage w.no) s = .next t ∧ t.mem = u.mem
        ∧ (t.core w.core).comb = (s.core w.core).comb.writeBytes w.sync (((s.core w.core).sync w.sync).arrive (2 ^ 16)).bytes
        ∧ t.sweeps = (if w.stop ≤ w.va / 2 ^ 16 * 2 ^ 16 + 2 ^ 16 then s.sweeps.filter (·.no != w.no)
            else s.sweeps.map (fun q => if q.no = w.no then { w with va := w.va / 2 ^ 16 * 2 ^ 16 + 2 ^ 16 } else q)))
    ∧ ∀ l, u.walk w.ctx (BitVec.ofNat 64 w.va) = some l → u.lockOn l = none →
        let past := w.va - (w.va % 2 ^ 57 - l.base) + l.bytes
        let goesOn := fun (t : State) => t.sweeps = if w.stop ≤ past then s.sweeps.filter (·.no != w.no)
          else s.sweeps.map (fun q => if q.no = w.no then { w with va := past } else q)
        let bs := u.blocksOver w.ctx l l.blockTy.halfBytes 0 l.bytes
        let m := bs.foldl (sweptBlock s w.ctx l) (s.mem, false)
        let y := (s.core w.core).sync w.sync
        ((l.res = false ∨ l.isStamped = false ∨ l.home ≠ 0) → ∃ t, exec (.sweepPage w.no) s = .next t ∧ t.mem = u.mem
          ∧ (t.core w.core).comb = (s.core w.core).comb.writeBytes w.sync (y.arrive l.bytes).bytes
          ∧ (l.res = false → t.events = u.events ++ [eventRec w.ctx 0x06 (BitVec.ofNat 64 w.va)]) ∧ goesOn t)
        ∧ (l.res = true → l.isStamped = true → l.home = 0 → s.window = [] → s.bins = [] → (s.core w.core).comb.wf = true →
          (∀ b ∈ bs, s.poisonedBlock (pageBlock s w.ctx l b) = false ∧ blockHere (pageBlock s w.ctx l b)) →
          ∃ t, exec (.sweepPage w.no) s = .next t ∧ t.mem = m.1
            ∧ (t.core w.core).sync w.sync = (if m.2 = true then y.join 0 0 false true else y).arrive l.bytes
            ∧ (t.ctx w.ctx).stepStale = ((s.ctx w.ctx).stepStale || m.2) ∧ goesOn t)

/-- R218, R220, R228, R229: the step register advances, and a sweep goes on page by page. -/
def Obligations.StepsAndSweepsAdvance : Prop :=
  stepAdvances ∧ sweepPageAdvances

/-! ### The array -/

/-- An array word issues: it keeps the scalar values `v` and the elements `els` it read, and its SHP, until it starts (R238, R242). -/
def Sys2Proof.Machine.arrayIssued (s : State) (h : Hdr) (opc : Nat) (i : Instr) (v : List W64) (els : List Nat) (prog : Nat)
    (holds : Option Why) : Host.Outcome State Fault Refusal :=
  issued s h opc { lat := none, fixed := false, holds := holds, body := .word i v els (s.me.seq h.eng).shp 0 prog }

/-- BASE and COUNT of a range of accumulator rows, and whether their other bits are 0 and COUNT is at most 1024 (R254, R255). -/
def Sys2Proof.Machine.rowsNamed (g : W64) : Prop := bits g 10 6 = 0 ∧ bits g 27 37 = 0 ∧ bits g 16 11 ≤ 1024

/-- R242 to R246, R251, R254 to R258, R275, R276: the array words of C and `stload`: they issue, or trap on the operands that are
checked at issue. That `stload` waits before its issue while an earlier access must come first is the model's choice (DEDUCED, log 9). -/
def Obligations.ArrayWordsIssueOrTrap : Prop :=
  ∀ (s : State) (h : Hdr) (d x y : GReg) (w : GReg) (t : TReg) (am : AMod) (m : TMod) (sub : Fin 4) (op : BindOp) (slot : Fin 2),
    let X := s.me.rd h.eng x
    let Y := s.me.rd h.eng y
    let W := s.me.rd h.eng w
    let D := s.me.rd h.eng d
    let p := s.me.shape h.eng
    let gl := m.gl.val + 1
    let hb := m.ty.halfBytes
    let rows := gl * p.rows
    let size := imageSize am.ty am.mx am.sp Y.toNat
    let busy := s.readWaits s.me h.eng X.toNat size
    (s.ready h 0x65 = true → busy = true → exec (.stload h x y am) s = waits s h .structural)
    ∧ (s.ready h 0x65 = true → busy = false → (2 ^ 11 ≤ Y.toNat ∨ kfOk am.ty am.mx am.sp Y.toNat = false) →
        exec (.stload h x y am) s = trapped s h .illegal 0x0D)
    ∧ (s.ready h 0x65 = true → busy = false → Y.toNat < 2 ^ 11 → kfOk am.ty am.mx am.sp Y.toNat = true → X.toNat % 64 ≠ 0 →
        exec (.stload h x y am) s = trapped s h .misaligned X)
    ∧ (s.ready h 0x65 = true → busy = false → Y.toNat < 2 ^ 11 → kfOk am.ty am.mx am.sp Y.toNat = true → X.toNat % 64 = 0 →
        0x18_0000 < X.toNat + size → exec (.stload h x y am) s = trapped s h .combBounds X)
    ∧ (s.ready h 0x65 = true → busy = false → Y.toNat < 2 ^ 11 → kfOk am.ty am.mx am.sp Y.toNat = true → X.toNat % 64 = 0 →
        X.toNat + size ≤ 0x18_0000 → exec (.stload h x y am) s = arrayIssued s h 0x65 (.stload h x y am) [X, Y] [] 0 none)
    ∧ (s.ready h 0xC3 = true → 16 ≤ X.toNat → exec (.gbuild h x) s = trapped s h .illegal 0x0D)
    ∧ (s.ready h 0xC3 = true → X.toNat < 16 → exec (.gbuild h x) s = arrayIssued s h 0xC3 (.gbuild h x) [X] [] 0 none)
    ∧ (s.ready h 0xC2 = true → exec (.stswap h) s = arrayIssued s h 0xC2 (.stswap h) [0] [] 0 none)
    ∧ (s.ready h 0xC0 = true → exec (.mma h x y w am) s
        = arrayIssued s h 0xC0 (.mma h x y w am) [X, Y, W] [] (s.me.progress h.eng 0xC0) (some .structural))
    ∧ (s.ready h 0xC1 = true → exec (.mmas h d x y w am) s
        = arrayIssued s h 0xC1 (.mmas h d x y w am) [D, X, Y, W] [] (s.me.progress h.eng 0xC1) (some .structural))
    ∧ (s.ready h 0xC6 = true → Y.toNat < 2 ^ 16 → rowsNamed X → bits X 0 10 + bits X 16 11 ≤ 1024 →
        exec (.accinit h x y) s = arrayIssued s h 0xC6 (.accinit h x y) [X, Y] [] 0 none)
    ∧ (s.ready h 0xC6 = true → (2 ^ 16 ≤ Y.toNat ∨ ¬ rowsNamed X) → exec (.accinit h x y) s = trapped s h .illegal 0x0D)
    ∧ (s.ready h 0xC6 = true → Y.toNat < 2 ^ 16 → rowsNamed X → 1024 < bits X 0 10 + bits X 16 11 →
        exec (.accinit h x y) s = trapped s h .accBounds (pack [(bits X 0 10, 0), (bits X 16 11, 16)]))
    ∧ (s.ready h 0xC7 = true → rowsNamed X → bits X 0 10 + bits X 16 11 ≤ 1024 →
        exec (.accnorm h x) s = arrayIssued s h 0xC7 (.accnorm h x) [X] [] 0 none)
    ∧ (s.ready h 0xC7 = true → ¬ rowsNamed X → exec (.accnorm h x) s = trapped s h .illegal 0x0D)
    ∧ (s.ready h 0xC7 = true → rowsNamed X → 1024 < bits X 0 10 + bits X 16 11 →
        exec (.accnorm h x) s = trapped s h .accBounds (pack [(bits X 0 10, 0), (bits X 16 11, 16)]))
    ∧ (8192 < p.elems * hb → (s.ready h 0xC8 = true → exec (.accrd h t x m) s = trapped s h .illegal 0x0C)
        ∧ (s.ready h 0xC9 = true → exec (.accwr h x t m) s = trapped s h .illegal 0x0C))
    ∧ (p.elems * hb ≤ 8192 → (1024 ≤ X.toNat ∨ 128 < p.cols) →
        (s.ready h 0xC8 = true → exec (.accrd h t x m) s = trapped s h .illegal 0x0D)
        ∧ (s.ready h 0xC9 = true → exec (.accwr h x t m) s = trapped s h .illegal 0x0D))
    ∧ (p.elems * hb ≤ 8192 → X.toNat < 1024 → p.cols ≤ 128 → X.toNat + rows ≤ 1024 →
        (s.ready h 0xC8 = true → exec (.accrd h t x m) s = arrayIssued s h 0xC8 (.accrd h t x m) [X]
          ((s.me.actives m.pm hb gl p.elems).map b2n) 0 none)
        ∧ (s.ready h 0xC9 = true → exec (.accwr h x t m) s = arrayIssued s h 0xC9 (.accwr h x t m) [X]
          (((s.me.actives m.pm hb gl p.elems).zip (s.me.group t gl p.elems hb)).map (fun q => if q.1 then q.2 + 1 else 0)) 0 none))
    ∧ (p.elems * hb ≤ 8192 → X.toNat < 1024 → p.cols ≤ 128 → 1024 < X.toNat + rows →
        (s.ready h 0xC8 = true → exec (.accrd h t x m) s = trapped s h .accBounds (pack [(X.toNat, 0), (rows, 16)]))
        ∧ (s.ready h 0xC9 = true → exec (.accwr h x t m) s = trapped s h .accBounds (pack [(X.toNat, 0), (rows, 16)])))
    ∧ (s.ready h 0xCA = true → (sub = 3 ∨ (X.toNat ≤ 960 ∧ X.toNat % 64 = 0)) →
        exec (.accstat h d x sub) s = arrayIssued s h 0xCA (.accstat h d x sub) [X] [] 0 none)
    ∧ (s.ready h 0xCA = true → sub ≠ 3 → (960 < X.toNat ∨ X.toNat % 64 ≠ 0) →
        exec (.accstat h d x sub) s = trapped s h .illegal 0x0D)
    ∧ (s.ready h 0xC4 = true → exec (.grpbind h op slot) s = arrayIssued s h 0xC4 (.grpbind h op slot) [0] [] 0 none)
    ∧ (s.ready h 0xC5 = true → exec (.grpstat h d slot) s = arrayIssued s h 0xC5 (.grpstat h d slot) [0] [] 0 none)

/-- R259, R272 to R274: `drain` and `grpld`: they wait while an earlier access must come first (the model's choice: DEDUCED, log 9), and
are then checked; a `grpld` whose header fails has been issued and leaves its slot FAULTED. -/
def Obligations.DrainAndGroupLoadIssueOrTrap : Prop :=
  ∀ (s : State) (h : Hdr) (a b c : GReg) (ty : Ty) (rm : Rm) (sat : Bool) (amx : Option MReg) (clr : Bool) (lay : Lay) (slot : Fin 2),
    let A := s.me.rd h.eng a
    let B := s.me.rd h.eng b
    let C := s.me.rd h.eng c
    let count := bits C 0 11
    let nc := bits C 32 7 + 1
    let hb := ty.halfBytes
    let formed := bits C 11 5 = 0 ∧ bits C 26 6 = 0 ∧ bits C 39 25 = 0 ∧ count ≤ 1024 ∧ (lay = .mxb → nc % 32 = 0)
    let al := if lay = .mxb then 1 else hb / 2
    let runs := if lay = .trn then rowsAt A B (if count = 0 then 0 else nc) else rowsAt A B count
    let len := if lay = .trn then count * hb / 2 else (nc * hb + 1) / 2 + if lay = .mxb then nc / 32 else 0
    let drain : Instr := .drain h a b c ty rm sat amx clr lay
    let w0 := s.me.comb.readNat A.toNat 8
    let w1 := s.me.comb.readNat (A.toNat + 8) 8
    let busy := s.combBusy s.me h.eng zeroReach [wholeComb .store] (s.cycle s.me)
    let reads := s.me.combWriting h.eng = true ∨ s.readWaits s.me h.eng A.toNat groupMax = true
    let size := 144 + 4 * fld w0 0 5 * fld w0 8 10
    let free := (s.me.slots[slot]).state ≠ .bound ∧ s.me.loading slot = false
    (s.ready h 0x66 = true → busy = true → exec drain s = waits s h .structural)
    ∧ (s.ready h 0x66 = true → reads → exec (.grpld h a slot) s = waits s h .structural)
    ∧ (s.ready h 0x66 = true → busy = false → ¬ formed → exec drain s = trapped s h .illegal 0x0D)
    ∧ (s.ready h 0x66 = true → busy = false → formed → A.toNat % al ≠ 0 → exec drain s = trapped s h .misaligned A)
    ∧ (s.ready h 0x66 = true → busy = false → formed → A.toNat % al = 0 → B.toNat % al ≠ 0 → exec drain s = trapped s h .misaligned B)
    ∧ (s.ready h 0x66 = true → busy = false → formed → A.toNat % al = 0 → B.toNat % al = 0 →
        ∀ (k : Nat) (y : W64), runs[k]? = some y → 0x18_0000 < y.toNat + len →
          (∀ (j : Nat) (z : W64), j < k → runs[j]? = some z → z.toNat + len ≤ 0x18_0000) → exec drain s = trapped s h .combBounds y)
    ∧ (s.ready h 0x66 = true → busy = false → formed → A.toNat % al = 0 → B.toNat % al = 0 → (∀ y ∈ runs, y.toNat + len ≤ 0x18_0000) →
        bits C 16 10 + count ≤ 1024 → exec drain s
          = issued s h 0x66 { lat := none, fixed := false, body := .word drain [A, B, C] [] 0 0 0 })
    ∧ (s.ready h 0x66 = true → busy = false → formed → A.toNat % al = 0 → B.toNat % al = 0 → (∀ y ∈ runs, y.toNat + len ≤ 0x18_0000) →
        1024 < bits C 16 10 + count → exec drain s
          = trapped s h .accBounds (pack [(bits C 16 10, 0), (count, 16)]))
    ∧ (s.ready h 0x66 = true → ¬ reads → ¬ free → exec (.grpld h a slot) s = trapped s h .illegal 0x0D)
    ∧ (s.ready h 0x66 = true → ¬ reads → free → A.toNat % 64 ≠ 0 → exec (.grpld h a slot) s = trapped s h .misaligned A)
    ∧ (s.ready h 0x66 = true → ¬ reads → free → A.toNat % 64 = 0 → 0x18_0000 < A.toNat + 16 →
        exec (.grpld h a slot) s = trapped s h .combBounds A)
    ∧ (s.ready h 0x66 = true → ¬ reads → free → A.toNat % 64 = 0 → A.toNat + 16 ≤ 0x18_0000 → headerOk w0 w1 = true →
        0x18_0000 < A.toNat + size → exec (.grpld h a slot) s = trapped s h .combBounds A)
    ∧ (s.ready h 0x66 = true → ¬ reads → free → A.toNat % 64 = 0 → A.toNat + 16 ≤ 0x18_0000 → headerOk w0 w1 = true →
        A.toNat + size ≤ 0x18_0000 → exec (.grpld h a slot) s = issued s h 0x66
          { lat := none, fixed := false, holds := some .structural
            after := fun c => { c with grpAt := c.grpAt.set slot (s.cycle c + 1) }
            body := .word (.grpld h a slot) [A, BitVec.ofNat 64 (fld w0 0 5), BitVec.ofNat 64 (fld w0 8 10)] [] 0 0 0 })
    ∧ (s.ready h 0x66 = true → ¬ reads → free → A.toNat % 64 = 0 → A.toNat + 16 ≤ 0x18_0000 → headerOk w0 w1 = false →
        ∃ t, exec (.grpld h a slot) s = .next t ∧ ((t.core s.issuer).slots[slot]).state = .faulted
          ∧ (∀ other, other ≠ slot → (t.core s.issuer).slots[other] = s.me.slots[other])
          ∧ (s.me.raised = [] → (t.core s.issuer).raised
              = [⟨h.eng, .groupCheck, s.me.nextPc h.eng, groupInfo 1 slot.val 0 0 0⟩]))

/-- Word `a`, number `act` of core `core`, waits to start as an array word, and may start now (R238, R239). -/
def Sys2Proof.Machine.starts (s : State) (core act : Nat) (a : Act) (i : Instr) (v : List W64) (els : List Nat) (shp : W64) : Prop :=
  (s.core core).act? act = some a ∧ (s.core core).arrayReady a = true ∧ a.body = .word i v els shp 0 0

/-- R244, R245, R254 to R256, R258, R275, R276: what an array word does at its start: `stswap` exchanges the planes; `gbuild` puts
the plane built from the filter store under its element into the shadow, and one that cannot build leaves the shadow invalid;
`accinit` clears its rows, with its exponent, and no other row; `accstat` reads, and `grpstat` and `grpbind` look at the slot as it
stood at the start of the cycle: a bind of a slot that was LOADING then, or for which a `grpld` issues in this cycle, or that is neither
CHECKED nor BOUND, fails and leaves no slot bound; an unbind leaves a BOUND slot CHECKED; a rel empties a CHECKED, BOUND or FAULTED slot,
and of a LOADING one it fails. That the words act on all their rows or planes at their start is the model's choice (log 38). -/
def Sys2Proof.Machine.arrayWordStarts : Prop :=
  ∀ (s : State) (core act : Nat) (a : Act) (v : W64) (shp : W64) (h : Hdr) (d x y : GReg) (sub : Fin 4) (slot : Fin 2),
    let c := s.core core
    let now := s.cycle c
    (starts s core act a (.stswap h) [v] [] shp → ∃ t, exec (.arrayWordStart core act) s = .next t
        ∧ (t.core core).shadow = c.active ∧ (t.core core).active = c.shadow ∧ (t.core core).filter = c.filter
        ∧ (t.core core).acc = c.acc ∧ t.mem = s.mem)
    ∧ (starts s core act a (.gbuild h x) [v] [] shp → c.canBuild v.toNat = false → ∃ t,
        exec (.arrayWordStart core act) s = .next t ∧ (t.core core).shadow.valid = false
        ∧ (t.core core).arrFlag = c.arrFlag ||| 4 ∧ (t.core core).active = c.active ∧ (t.core core).filter = c.filter)
    ∧ (starts s core act a (.gbuild h x) [v] [] shp → c.canBuild v.toNat = true → v.toNat < 16 → ∃ t,
        exec (.arrayWordStart core act) s = .next t
        ∧ (t.core core).shadow = buildPlane c.filter c.boundSlot (Fin.ofNat 16 v.toNat)
        ∧ (t.core core).shadow.valid = true ∧ (t.core core).shadow.g.val = v.toNat ∧ (t.core core).shadow.ty = c.filter.ty
        ∧ (t.core core).active = c.active ∧ (t.core core).filter = c.filter)
    ∧ (∀ e : W64, starts s core act a (.accinit h x y) [v, e] [] shp → bits v 0 10 + bits v 16 11 ≤ 1024 → ∃ t,
        exec (.arrayWordStart core act) s = .next t
        ∧ (∀ i, bits v 0 10 ≤ i → i < bits v 0 10 + bits v 16 11 →
            (t.core core).accRow i = { AccRow.zero with e := BitVec.ofNat 16 e.toNat })
        ∧ (∀ i, i < 1024 → (i < bits v 0 10 ∨ bits v 0 10 + bits v 16 11 ≤ i) → (t.core core).accRow i = c.accRow i)
        ∧ (t.core core).comb = c.comb)
    ∧ (starts s core act a (.accstat h d x sub) [v] [] shp → ∃ t a', exec (.arrayWordStart core act) s = .next t
        ∧ (t.core core).act? act = some a' ∧ a'.due = some (now + 5)
        ∧ a'.writes = [.g a.handler d (c.accstat sub v.toNat)] ∧ (t.core core).acc = c.acc)
    ∧ (starts s core act a (.grpstat h d slot) [v] [] shp → ∃ t a', exec (.arrayWordStart core act) s = .next t
        ∧ (t.core core).act? act = some a' ∧ a'.due = some (now + 5)
        ∧ a'.writes = [.g a.handler d ((s.atStart.core core).grpstatWord slot)] ∧ (t.core core).slots = c.slots)
    ∧ (starts s core act a (.grpbind h .bind slot) [v] [] shp →
        ((s.atStart.core core).loading slot = true ∨ c.grpAt[slot] = now + 1
          ∨ (((s.atStart.core core).slots[slot]).state ≠ .checked ∧ ((s.atStart.core core).slots[slot]).state ≠ .bound)) →
        ∃ t, exec (.arrayWordStart core act) s = .next t ∧ (t.core core).grpBerr = true
          ∧ (∀ k : Fin 2, ((t.core core).slots[k]).state ≠ .bound))
    ∧ (starts s core act a (.grpbind h .bind slot) [v] [] shp → (s.atStart.core core).loading slot = false →
        c.grpAt[slot] ≠ now + 1 →
        (((s.atStart.core core).slots[slot]).state = .checked ∨ ((s.atStart.core core).slots[slot]).state = .bound) →
        ∃ t, exec (.arrayWordStart core act) s = .next t
        ∧ (t.core core).slots[slot] = { c.slots[slot] with state := .bound } ∧ (t.core core).grpBerr = c.grpBerr
        ∧ (∀ k : Fin 2, k ≠ slot → ((t.core core).slots[k]).state ≠ .bound))
    ∧ (starts s core act a (.grpbind h .unbind slot) [v] [] shp → ∃ t, exec (.arrayWordStart core act) s = .next t
        ∧ (t.core core).grpBerr = c.grpBerr
        ∧ ((s.atStart.core core).loading slot = false → c.grpAt[slot] ≠ now + 1 → ((s.atStart.core core).slots[slot]).state = .bound →
            (t.core core).slots = c.slots.set slot { c.slots[slot] with state := .checked })
        ∧ (((s.atStart.core core).loading slot = true ∨ c.grpAt[slot] = now + 1
            ∨ ((s.atStart.core core).slots[slot]).state ≠ .bound) → (t.core core).slots = c.slots))
    ∧ (starts s core act a (.grpbind h .rel slot) [v] [] shp → ∃ t, exec (.arrayWordStart core act) s = .next t
        ∧ (((s.atStart.core core).loading slot = true ∨ c.grpAt[slot] = now + 1) →
            (t.core core).grpBerr = true ∧ (t.core core).slots = c.slots)
        ∧ ((s.atStart.core core).loading slot = false → c.grpAt[slot] ≠ now + 1 → (t.core core).grpBerr = c.grpBerr
          ∧ (((s.atStart.core core).slots[slot]).state ∈ [.checked, .bound, .faulted] →
              ((t.core core).slots[slot]).state = .released ∧ ((t.core core).slots[slot]).m = 0 ∧ ((t.core core).slots[slot]).kg = 0
              ∧ ((t.core core).slots[slot]).cayley = [] ∧ ((t.core core).slots[slot]).action = []
              ∧ ∀ k : Fin 2, k ≠ slot → (t.core core).slots[k] = c.slots[k])
          ∧ (((s.atStart.core core).slots[slot]).state ∈ [.empty, .released] → (t.core core).slots = c.slots)))

/-- R31, R255 to R257: what the words of accumulator rows do at their start (that they act on all their rows then is the model's choice,
log 38), and the cycle in which they land or complete: `accnorm` rescales each row of its range, and no other; `accrd` reads; `accwr`
writes the elements of its active elements, a captured element x standing as x + 1 among `els` and an inactive one as 0. -/
def Sys2Proof.Machine.accumulatorWordsStart : Prop :=
  ∀ (s : State) (core act : Nat) (a : Act) (v : W64) (els : List Nat) (shp : W64) (h : Hdr) (x : GReg) (t : TReg) (m : TMod),
    let c := s.core core
    let now := s.cycle c
    let p : Machine.Shape := ⟨bits shp 0 6 + 1, bits shp 8 8 + 1⟩
    let gl := m.gl.val + 1
    let row := fun (j : Nat) => v.toNat + j / p.cols
    let code := fun (j : Nat) => els.getD j 0 - 1
    let active := fun (j : Nat) => j < els.length ∧ els.getD j 0 ≠ 0
    let named := fun (i n : Nat) (j : Nat) => active j ∧ row j = i ∧ j % p.cols = n
    let beats_ := gl * ((p.rows * p.cols * m.ty.halfBytes + 2047) / 2048)
    let normEnd := now + (if bits v 16 11 = 0 then 0 else 4 + bits v 16 11)
    (starts s core act a (.accnorm h x) [v] [] shp → bits v 0 10 + bits v 16 11 ≤ 1024 → ∃ u,
        exec (.arrayWordStart core act) s = .next u ∧ (u.core core).comb = c.comb ∧ u.mem = s.mem
        ∧ (u.core core).act? act = some { a with body := .word (.accnorm h x) [v] [] shp 1 normEnd }
        ∧ (∀ i, bits v 0 10 ≤ i → i < bits v 0 10 + bits v 16 11 → (u.core core).accRow i = (c.accRow i).norm)
        ∧ (∀ i, i < 1024 → (i < bits v 0 10 ∨ bits v 0 10 + bits v 16 11 ≤ i) → (u.core core).accRow i = c.accRow i))
    ∧ (starts s core act a (.accrd h t x m) [v] els shp → ∃ u b, exec (.arrayWordStart core act) s = .next u
        ∧ (u.core core).act? act = some b ∧ b.due = some (now + 11 + beats_)
        ∧ (u.core core).acc = c.acc ∧ (u.core core).comb = c.comb
        ∧ ∃ (vals : List Nat) (xs : List Machine.Num), vals.length = gl * (p.rows * p.cols) ∧ xs.length = vals.length
          ∧ (∀ j, j < gl * (p.rows * p.cols) →
              let r := c.accRow (row j)
              let A := r.get (j % p.cols)
              (m.sub = 0 → vals.getD j 0 = tyEncode m.ty m.rm m.sat (xs.getD j .nan) ∧ xs.getD j .nan
                = (if r.nf = true then .nan else (Machine.Num.ofInt A).mul (Machine.Num.dyadic false 1 r.e.toInt)))
              ∧ (m.sub = 1 → vals.getD j 0 = (A % 2 ^ 64).toNat)
              ∧ (m.sub = 2 → vals.getD j 0 = (A % 2 ^ 72).toNat / 2 ^ 64)
              ∧ (m.sub = 3 → vals.getD j 0 = r.e.toNat))
          ∧ b.writes = tileWrites t gl (p.rows * p.cols) m.ty.halfBytes (pmMerge m.z (els.map (fun x => x != 0)) vals)
              ++ amaxWrites m.amx (pmActive (els.map (fun x => x != 0)) xs))
    ∧ (starts s core act a (.accwr h x t m) [v] els shp → p.cols ≤ 128 → v.toNat + gl * p.rows ≤ 1024 → els.length = gl * (p.rows * p.cols) →
        ∃ u, exec (.arrayWordStart core act) s = .next u ∧ (u.core core).comb = c.comb ∧ u.mem = s.mem
        ∧ (u.core core).act? act = some { a with body := .word (.accwr h x t m) [v] els shp 1 (now + (2 + beats_)) }
        ∧ ∀ i, i < 1024 →
          let old := c.accRow i
          let new := (u.core core).accRow i
          (∀ n, n < 128 → (∀ j, ¬ named i n j) → new.get n = old.get n)
          ∧ (m.sub.val % 4 ≠ 3 → new.e = old.e ∧ new.nerr = old.nerr)
          ∧ (m.sub.val % 4 ≠ 0 → new.nf = old.nf)
          ∧ (m.sub.val % 4 = 0 → (new.nf = true ↔ old.nf = true ∨ ∃ j, active j ∧ row j = i
              ∧ (tyDecode m.ty (code j) = .nan ∨ ∃ neg, tyDecode m.ty (code j) = .inf neg)))
          ∧ ∀ n j, n < 128 → named i n j →
            let y := tyDecode m.ty (code j)
            let q := max (-(2 ^ 71 : Int)) (min (2 ^ 71 - 1) (gridRound y old.e.toInt))
            (m.sub.val % 4 = 0 → (y = .nan ∨ ∃ neg, y = .inf neg) → new.get n = old.get n)
            ∧ (m.sub.val % 4 = 0 → y ≠ .nan → (∀ neg, y ≠ .inf neg) →
                new.get n = if m.sub.val / 8 = 1 then (old.get n + q).bmod (2 ^ 72) else q)
            ∧ (m.sub.val % 4 = 1 → code j < 2 ^ 64 → new.get n = (code j : Int).bmod (2 ^ 64))
            ∧ (m.sub.val % 4 = 2 → new.get n = ((old.get n % 2 ^ 64) + (code j % 256 : Nat) * 2 ^ 64).bmod (2 ^ 72))
            ∧ (m.sub.val % 4 = 3 → new.get n = old.get n ∧ (n = 0 → new.e = BitVec.ofNat 16 (code j) ∧ new.nerr = false)))

/-- R239, R243, R249: a running array word whose last cycle has come completes; a `stload`'s image then stands in the filter store. -/
def Sys2Proof.Machine.arrayWordCompletes : Prop :=
  ∀ (s : State) (core act : Nat) (a : Act) (i : Instr) (v : List W64) (els : List Nat) (shp : W64) (prog : Nat),
    (s.core core).act? act = some a → a.body = .word i v els shp 1 prog → (s.core core).arrayOver (s.cycle (s.core core)) a = true →
    a.push = none →
      ∃ t, exec (.arrayWordComplete core act) s = .next t ∧ (t.core core).act? act = none ∧ t.mem = s.mem
        ∧ (t.core core).shadow = (s.core core).shadow ∧ (t.core core).active = (s.core core).active
        ∧ (t.core core).acc = (s.core core).acc ∧ (t.core core).comb = (s.core core).comb
        ∧ (∀ h x y m, i = .stload h x y m → (t.core core).filter
            = storeOf m.ty m.mx m.sp (v.getD 1 0).toNat (els.tail.map (BitVec.ofNat 8)))
        ∧ ((∀ h x y m, i ≠ .stload h x y m) → (t.core core).filter = (s.core core).filter)

/-- R28, R29, R248: a row of products into an accumulator row whose products are all finite: each column gains the sum of its products,
each rounded to the row's grid, modulo 2^72; the exponent and the flags stay. -/
def Sys2Proof.Machine.rowOfProducts : Prop :=
  ∀ (plane : Nat → Nat → Option Machine.Num) (w : Machine.Num) (xs : List Machine.Num) (cols n : Nat) (r : AccRow), cols ≤ 128 → n < 128 →
    (∀ k, k < xs.length → ∀ j, j < cols → ∀ v, plane k j = some v →
      let q := w.mul ((xs.getD k .nan).mul v)
      q ≠ .nan ∧ ∀ neg, q ≠ .inf neg) →
    let sum := (xs.zipIdx.map (fun x => match plane x.2 n with
      | some v => gridRound (w.mul (x.1.mul v)) r.e.toInt
      | none => 0)).sum
    let r' := addProducts plane w xs cols r
    r'.get n = (if n < cols then (r.get n + sum).bmod (2 ^ 72) else r.get n) ∧ r'.e = r.e ∧ r'.nf = r.nf ∧ r'.nerr = r.nerr

/-- Row `i` of the accumulator is `row` in core `d`, and every other row is that of core `c`. -/
def Sys2Proof.Machine.onlyRow (d c : Core) (i : Nat) (row : AccRow) : Prop :=
  d.accRow i = row ∧ ∀ j, j < 1024 → j ≠ i → d.accRow j = c.accRow j

/-- R238, R246, R250 to R252: an `mma` or `mmas` makes its checks at its start: it traps with the first that fails and no effect, or runs
from its PROGRESS on; an `mmas` whose rows exceed RB sets CLIP. -/
def Sys2Proof.Machine.streamsStart : Prop :=
  ∀ (s : State) (core act : Nat) (a : Act) (h : Hdr) (w x y z : GReg) (m : AMod) (gd ga gb gc shp : W64) (prog : Nat),
    let c := s.core core
    let now := s.cycle c
    let p := c.mmaPlan m gc
    let trapped := fun (cause : Cause) (info : W64) => ∃ t, exec (.arrayWordStart core act) s = .next t
      ∧ (t.core core).act? act = none ∧ (t.core core).raised = [⟨a.seq, cause, a.pc, info⟩] ∧ (t.core core).acc = c.acc
      ∧ (t.core core).shadow = c.shadow ∧ (t.core core).active = c.active ∧ (t.core core).filter = c.filter
    c.act? act = some a → c.arrayReady a = true → a.handler = false → c.raised = [] →
    (a.body = .word (.mma h x y z m) [ga, gb, gc] [] shp 0 prog →
      (∀ cause info, Core.mmaCheck m ga gb gc p = some (cause, info) → trapped cause info)
      ∧ (Core.mmaCheck m ga gb gc p = none → ∃ t, exec (.arrayWordStart core act) s = .next t
          ∧ (t.core core).act? act = some { a with body := .word (.mma h x y z m) [ga, gb, gc] [now, prog, 0, 0] shp 1 prog }
          ∧ (t.core core).acc = c.acc ∧ (t.core core).shadow = c.shadow ∧ (t.core core).active = c.active))
    ∧ (a.body = .word (.mmas h w x y z m) [gd, ga, gb, gc] [] shp 0 prog →
      (∀ cause info, c.mmasCheck m gd ga gb gc = .error (cause, info) → trapped cause info)
      ∧ (∀ q, c.mmasCheck m gd ga gb gc = .ok q → ∃ t els, exec (.arrayWordStart core act) s = .next t
          ∧ (t.core core).act? act = some { a with body := .word (.mmas h w x y z m) [gd, ga, gb, gc] els shp 1 prog }
          ∧ MmasRun.ofList els = some ⟨now, q.kf, 0, 0, 0, remaining prog q.segs, []⟩
          ∧ (t.core core).arrFlag = (if q.rb < q.sum then c.arrFlag ||| 1 else c.arrFlag)
          ∧ (t.core core).acc = c.acc ∧ (t.core core).filter = c.filter))

/-- R248 to R250: one cycle of a running `mma`: in its cycle, the next row of the stream, read from the comb as it stood before the cycle,
is multiplied by the active plane and added into the accumulator rows that the mode and the group's action name, and into no other;
PROGRESS counts it. The next plane is built, and the planes are exchanged, in their cycles. That a row is added in the cycle in which it
is read is the model's choice (log 38). -/
def Sys2Proof.Machine.mmaStreams : Prop :=
  ∀ (s : State) (core : Nat) (a : Act) (h : Hdr) (x y z : GReg) (m : AMod) (ga gb gc shp : W64) (st from_ built active k : Nat),
    let c := s.core core
    let now := s.cycle c
    let p := c.mmaPlan m gc
    let r := k % p.nr
    let g := if m.sweep then k / p.nr else p.g
    let streamed := if m.mode = 2 ∧ m.sweep = true then k / p.nr * p.nr + r else r
    let xs := streamRow (s.atStart.core core).comb (ga + BitVec.ofNat 64 streamed * gb).toNat p.len m.ty c.active.mx
    let one : Machine.Num := .val false 1 1
    let direct := fun (i : Nat) (w : Machine.Num) => addProducts c.active.at_ w xs 128 (c.accRow i)
    let d := (s.runArray core a).core core
    let rows := k < p.n * p.nr ∧ mmaRowAt m p st from_ k ≤ now
    let bs := mmaBuilds m p st from_
    let builds := ∃ q, bs[built]? = some q ∧ q.1 ≤ now
    let done := fun (b : Prop) => ∃ q, bs[active]? = some q ∧ q.2 ≤ now ∧ (active < built ∨ active = built ∧ b)
    let fresh := c.build (if m.sweep then from_ / p.nr + built else p.g)
    c.act? a.id = some a → a.body = .word (.mma h x y z m) [ga, gb, gc] [st, from_, built, active] shp 1 k →
    (s.runArray core a).mem = s.mem ∧ (∀ other, other ≠ core → (s.runArray core a).core other = s.core other)
    ∧ d.comb = c.comb ∧ d.filter = c.filter ∧ d.slots = c.slots
    ∧ (¬ rows → ∀ j, d.accRow j = c.accRow j)
    ∧ (rows → (∃ els, d.act? a.id = some { a with body := .word (.mma h x y z m) [ga, gb, gc] els shp 1 (k + 1) })
        ∧ (m.mode = 0 → p.base + r < 1024 → onlyRow d c (p.base + r) (direct (p.base + r) one))
        ∧ (m.mode = 1 → let i := p.base + (if m.sweep then g * p.nr else 0) + r
            i < 1024 → onlyRow d c i (direct i one))
        ∧ (m.mode = 2 → p.base + r < 1024 → onlyRow d c (p.base + r)
            (addProducts (fun j n => c.active.at_ n j) one xs c.active.kf (c.accRow (p.base + r))))
        ∧ (m.mode = 3 → ∀ slot, p.slot = some slot →
            let e := slot.entry p.g r
            (e.mode = 0 → p.base + e.a < 1024 → onlyRow d c (p.base + e.a) (direct (p.base + e.a) (signed e.sa 1 1)))
            ∧ (e.mode = 1 → e.a = e.b → p.base + e.a < 1024 → onlyRow d c (p.base + e.a)
                (addProducts c.active.at_ (signed e.sb (1024 - e.w) 1024) xs 128 (direct (p.base + e.a) (signed e.sa e.w 1024))))
            ∧ (e.mode = 1 → e.a ≠ e.b → p.base + e.a < 1024 → p.base + e.b < 1024 →
                d.accRow (p.base + e.a) = direct (p.base + e.a) (signed e.sa e.w 1024)
                ∧ d.accRow (p.base + e.b) = direct (p.base + e.b) (signed e.sb (1024 - e.w) 1024)
                ∧ ∀ j, j < 1024 → j ≠ p.base + e.a → j ≠ p.base + e.b → d.accRow j = c.accRow j)
            ∧ (2 ≤ e.mode → ∀ j, d.accRow j = c.accRow j)))
    ∧ (builds → done True → d.active = fresh.shadow ∧ d.shadow = c.active)
    ∧ (builds → ¬ done True → d.active = c.active ∧ d.shadow = fresh.shadow)
    ∧ (¬ builds → done False → d.active = c.shadow ∧ d.shadow = c.active)
    ∧ (¬ builds → ¬ done False → d.active = c.active ∧ d.shadow = c.shadow)

/-- R251 to R253: one cycle of a running `mmas`: the next row of a segment is added into the segment's accumulator row, and PROGRESS counts
it; the image of the next segment is read 512 bytes a cycle, and fills the filter store once it is read and its cycles are over. -/
def Sys2Proof.Machine.mmasStreams : Prop :=
  ∀ (s : State) (core : Nat) (a : Act) (h : Hdr) (w x y z : GReg) (m : AMod) (gd ga gb gc shp : W64) (els : List Nat) (r : MmasRun) (k : Nat),
    let c := s.core core
    let now := s.cycle c
    let comb := (s.atStart.core core).comb
    let d := (s.runArray core a).core core
    let next := (r.times m).find? (fun q => k < q.2.2.r0 + q.2.2.n)
    c.act? a.id = some a → a.body = .word (.mmas h w x y z m) [gd, ga, gb, gc] els shp 1 k → MmasRun.ofList els = some r →
    (s.runArray core a).mem = s.mem ∧ (∀ other, other ≠ core → (s.runArray core a).core other = s.core other) ∧ d.comb = c.comb
    ∧ (∀ q, next = some q →
      let n := max k q.2.2.r0
      let i := q.2.2.abase + (n - q.2.2.r0)
      (q.2.1 + (n - q.2.2.r0) ≤ now → i < 1024 →
        onlyRow d c i (addProducts c.active.at_ (.val false 1 1)
          (streamRow comb (gd + BitVec.ofNat 64 n * gb).toNat r.kf m.ty m.mx) 128 (c.accRow i))
        ∧ ∃ es, d.act? a.id = some { a with body := .word (.mmas h w x y z m) [gd, ga, gb, gc] es shp 1 (n + 1) })
      ∧ (now < q.2.1 + (n - q.2.2.r0) → ∀ j, d.accRow j = c.accRow j))
    ∧ (next = none → ∀ j, d.accRow j = c.accRow j)
    ∧ (∀ q, (r.times m)[r.loaded]? = some q →
      let size := imageSize m.ty m.mx m.sp r.kf
      let bytes := if q.1 ≤ now ∧ r.bytes.length < size then
          r.bytes ++ (comb.readBytes (q.2.2.faddr + r.bytes.length) (min 512 (size - r.bytes.length))).map BitVec.toNat
        else r.bytes
      let over_ := bytes.length = size ∧ q.1 + 8 + (size + 511) / 512 ≤ now + 1
      (over_ → d.filter = storeOf m.ty m.mx m.sp r.kf (bytes.map (BitVec.ofNat 8))) ∧ (¬ over_ → d.filter = c.filter))
    ∧ ((r.times m)[r.loaded]? = none → d.filter = c.filter)

/-- R259 to R261: a running `drain` takes row r of its range from cycle p + 11 + r on: its columns are converted as they leave, into the
comb at once for LAY 0 and 2 and at the word's end for LAY 1; with CLR the row reads 0 from then on, its exponent kept, and no other row
changes. It is due once its last row is written. -/
def Sys2Proof.Machine.drainRuns : Prop :=
  ∀ (s : State) (core : Nat) (a : Act) (h : Hdr) (x y z : GReg) (ty : Ty) (rm : Rm) (sat clr : Bool) (amx : Option MReg) (lay : Lay)
      (ga gb gc shp : W64) (els : List Nat) (r : Nat),
    let c := s.core core
    let now := s.cycle c
    let word : Instr := .drain h x y z ty rm sat amx clr lay
    let count := bits gc 0 11
    let nc := bits gc 32 7 + 1
    let hb := ty.halfBytes
    let i := bits gc 16 10 + r
    let row := c.accRow i
    let vals := (List.range nc).map (fun n => if row.nf = true then Machine.Num.nan
      else (Machine.Num.ofInt (row.get n)).mul (Machine.Num.dyadic false 1 row.e.toInt))
    let at_ := (ga + BitVec.ofNat 64 r * gb).toNat
    let t := s.runDrain core a
    let d := t.core core
    c.act? a.id = some a → a.body = .word word [ga, gb, gc] els shp 0 r →
    t.mem = s.mem ∧ (∀ other, other ≠ core → t.core other = s.core other)
    ∧ (r < count → a.issued + 11 + r ≤ now → i < 1024 →
        (∃ es ws, d.act? a.id = some { a with writes := a.writes ++ ws, body := .word word [ga, gb, gc] es shp 0 (r + 1) }
          ∧ (lay = .trn → es = els ++ vals.map (tyEncode ty rm sat)) ∧ (amx = none → ws = []))
        ∧ onlyRow d c i (if clr = true then { row with a := Vector.replicate 128 0, nf := false, nerr := false } else row)
        ∧ (lay = .lin → d.comb = (vals.zipIdx).foldl (fun m q => m.writeElem (2 * at_ + q.2 * hb) hb (tyEncode ty rm sat q.1)) c.comb)
        ∧ (lay = .trn → d.comb = c.comb)
        ∧ (lay = .mxb → d.comb = (List.range (nc / 32)).foldl (fun m j =>
            let blk := mxScale ty ((vals.drop (32 * j)).take 32)
            ((blk.2.zipIdx).foldl (fun m q => m.writeElem (2 * at_ + (32 * j + q.2) * hb) hb q.1) m).writeNat (at_ + nc * hb / 2 + j) 1 blk.1)
              c.comb))
    ∧ (r = count → a.due = none → a.issued + (if lay = .trn then 140 else 12) + count ≤ now →
        d.act? a.id = some { a with due := some now } ∧ d.acc = c.acc
        ∧ (lay ≠ .trn → d.comb = c.comb)
        ∧ (lay = .trn → d.comb = (List.range nc).foldl (fun m n => (List.range count).foldl (fun m j =>
            m.writeElem (2 * (ga + BitVec.ofNat 64 n * gb).toNat + j * hb) hb (els.getD (j * nc + n) 0)) m) c.comb))

/-- R240, R248, R253, R261: a step at the stage of the cycle in which running words read and add gives each such word of each core its
cycle: `stload`, `mma` and `mmas` first, then `drain`. -/
def Sys2Proof.Machine.runningWordsTakeTheirCycle : Prop :=
  ∀ s : State, s.turn = .settle 6 → s.booted = true →
    step s = .next ((({ s with free := s.free + 1 } : State).eachAct State.runArray).eachAct State.runDrain).advance

/-- R28 to R30, R240, R246 to R253, R259 to R261: products accumulate, and rows stream, accumulate and drain, one to a cycle. -/
def Obligations.ProductsAccumulate : Prop :=
  rowOfProducts ∧ streamsStart ∧ mmaStreams ∧ mmasStreams ∧ drainRuns ∧ runningWordsTakeTheirCycle

/-- R270 to R274: the check of a `grpld` ends: with no test failing the slot holds the group, CHECKED; else the slot is FAULTED, and the
word traps GROUP_CHECK with the test and its first failing cell. -/
def Sys2Proof.Machine.groupCheckCompletes : Prop :=
  ∀ (s : State) (core act : Nat) (a : Act) (slot : Fin 2) (im : GImage),
    (s.core core).act? act = some a → a.image = some (slot, im) → a.checkOver (s.cycle (s.core core)) = true → a.push = none →
    a.handler = false →
    (im.check = none → ∃ t, exec (.grpldCheckDone core act) s = .next t ∧ (t.core core).act? act = none
        ∧ ((t.core core).slots[slot]).state = .checked ∧ ((t.core core).slots[slot]).m = im.m
        ∧ ((t.core core).slots[slot]).kg = im.kg ∧ ((t.core core).slots[slot]).cayley = im.cayley
        ∧ ((t.core core).slots[slot]).action = im.action ∧ (t.core core).comb = (s.core core).comb)
    ∧ (∀ code x, im.check = some (code, x) → (s.core core).raised = [] → ∃ t, exec (.grpldCheckDone core act) s = .next t
        ∧ (t.core core).act? act = none ∧ ((t.core core).slots[slot]).state = .faulted
        ∧ (t.core core).raised = [⟨a.seq, .groupCheck, a.pc, groupInfo code slot.val x.g x.h x.k⟩])

/-- R239, R243 to R245, R249, R254 to R256, R258, R270 to R276: array words start and complete, and the check of a group ends. -/
def Obligations.ArrayWordsRun : Prop :=
  arrayWordStarts ∧ accumulatorWordsStart ∧ arrayWordCompletes ∧ groupCheckCompletes

/-! ### Barriers -/

/-- R281, R284 to R287: the barrier words: what they trap on, and their effect. A `bararr` of a core that has arrived issues, and holds
its sequencer; that one behind an arrival not yet asserted does so too is the model's choice (DEDUCED, log 28). -/
def Obligations.BarrierWordsIssueTrapOrWait : Prop :=
  ∀ (s : State) (h : Hdr) (d b : GReg) (a : Bar),
    let u : State := { s with free := s.free + 1 }
    let w := s.me.rd h.eng b
    let n : Fin 32 := Fin.ofNat 32 (bits w 0 5)
    let p := bits w 16 16
    let bad := bits w 5 11 ≠ 0 ∨ bits w 32 32 ≠ 0 ∨ p = 0 ∨ (s.me.scopes[n]).valid = false ∨ u.setLimit s.me n < p
    let v := s.me.bars[a]
    let e := s.me.scopes[v.scope]
    let arriving := s.me.acts.any (·.arrives a) = true
    let eff : Eff := { lat := some (1 + Config.delay s.free), fixed := false }
    let arr := fun (phase : Nat) =>
      ActBody.word (.bararr h a) [BitVec.ofNat 64 e.cmask.toNat, BitVec.ofNat 64 e.reach.toNat] [] 0 phase 0
    (s.ready h 0x65 = true → exec (.barset h a b true) s = issued (u.leaveBar s.me.id a) h 0x65 eff)
    ∧ (s.ready h 0x65 = true → bad → exec (.barset h a b false) s = trapped s h .illegal 0x0D)
    ∧ (s.ready h 0x65 = true → ¬ bad → exec (.barset h a b false) s
        = issued (u.configure s.me.id a n (BitVec.ofNat 16 p)) h 0x65 eff)
    ∧ (s.ready h 0x66 = true → v.state = .unconfigured → exec (.bararr h a) s = trapped s h .illegal 0x0D)
    ∧ (s.ready h 0x66 = true → v.state = .broken → exec (.bararr h a) s = issued s h 0x66 {})
    ∧ (s.ready h 0x66 = true → (v.state = .armed ∨ v.state = .released) → ¬ arriving → exec (.bararr h a) s
        = issued s h 0x66 { lat := none, fixed := false, holds := none, body := arr 0 })
    ∧ (s.ready h 0x66 = true → (v.state = .partly ∨ ((v.state = .armed ∨ v.state = .released) ∧ arriving)) → exec (.bararr h a) s
        = issued s h 0x66 { lat := none, fixed := false, holds := some .barrier, body := arr 2 })
    ∧ (s.ready h 0x67 = true → exec (.barwait h d a b) s
        = issued s h 0x67 { lat := none, fixed := false, holds := some .barrier, body := .word (.barwait h d a b) [w] [] 0 0 0 })
    ∧ (s.ready h 0x68 = true → v.state = .unconfigured → exec (.bartry h d a) s = writesG s h 0x68 8 d (pack [(4, 0), (v.phase.toNat, 32)]))
    ∧ (s.ready h 0x68 = true → v.state = .broken → exec (.bartry h d a) s = writesG s h 0x68 8 d (pack [(2, 0), (v.phase.toNat, 32)]))
    ∧ (s.ready h 0x68 = true → v.state = .partly → exec (.bartry h d a) s = writesG s h 0x68 8 d (pack [(1, 0), (v.phase.toNat, 32)]))
    ∧ (s.ready h 0x68 = true → v.state = .armed → ¬ arriving →
        exec (.bartry h d a) s = writesG s h 0x68 8 d (pack [(3, 0), (v.phase.toNat, 32)]))
    ∧ (s.ready h 0x68 = true → v.state = .released → ¬ arriving → s.releasesDone s.me h.eng s.me.nextAct = true →
        exec (.bartry h d a) s = writesG s h 0x68 8 d (pack [(0, 0), (v.phase.toNat, 32)]))

/-- R281, R282, R285: a core whose SET meets no instance of its context and barrier starts one, at phase 0 if its SET is of this package,
and is ARMED. One whose SET meets instances joins them, and they become one, at the first's phase: the instance breaks with MISMATCH where
another participant holds another entry or P, or where P others have configured it since a break (log 26), and the new entry and P hold
where no other has. A core that undoes its configuration is UNCONFIGURED and out of its instance, which is gone with its last participant,
and which breaks with LEFT where an arrival stands for a phase not released. -/
def Sys2Proof.Machine.barrierConfigures : Prop :=
  ∀ (s : State) (id : Nat) (a : Bar) (n : Fin 32) (p : BitVec 16),
    let t := s.configure id a n p
    let v := (t.core id).bars[a]
    let old := (s.core id).bars[a]
    let me : BarPart := ⟨id, false, s.setOf (s.core id) n⟩
    let meets := s.instsOver (s.core id).ctxId a (s.setOf (s.core id) n)
    (old.state = .unconfigured → meets = [] →
      v.state = .armed ∧ v.scope = n ∧ v.p = p
      ∧ ((s.setOf (s.core id) n).2 &&& ~~~(BitVec.ofNat 64 (2 ^ s.pkg)) = 0 → v.phase = 0)
      ∧ (∃ i, t.barInsts = s.barInsts ++ [i] ∧ i.no = v.inst ∧ i.parts = [me] ∧ i.p = p ∧ i.scope = n ∧ i.ctx = (s.core id).ctxId
          ∧ i.bar = a ∧ i.break_ = none))
    ∧ (∀ i rest, old.state = .unconfigured → meets = i :: rest → (s.barInsts.map (·.no)).Nodup →
      let vs := ((i.parts ++ rest.flatMap (·.parts)).filter (·.key != id)).filterMap (fun q => s.partView i q.key)
      let armed := vs.filter (fun w => w.state != .broken)
      let mismatch := (∃ w ∈ vs, w.scope ≠ n ∨ w.p ≠ p) ∨ p.toNat ≤ armed.length
      let breaks := i.break_.or (rest.findSome? (·.break_))
      v = { state := .armed, breason := 0, scope := n, p := p, phase := i.phase, inst := i.no }
      ∧ (∀ j ∈ rest, t.inst? j.no = none) ∧ (∀ k, k ≠ i.no → (∀ j ∈ rest, j.no ≠ k) → t.inst? k = s.inst? k)
      ∧ ∃ j, t.inst? i.no = some j ∧ j.parts = i.parts ++ [me] ++ rest.flatMap (·.parts) ∧ j.phase = i.phase
        ∧ (armed = [] → j.scope = n ∧ j.p = p) ∧ (armed ≠ [] → j.scope = i.scope ∧ j.p = i.p)
        ∧ (mismatch → j.break_ = breaks.or (some 3)) ∧ (¬ mismatch → j.break_ = breaks))
    ∧ (old.state = .armed → old.scope = n → old.p = p → t = s)
    ∧ (((s.leaveBar id a).core id).bars[a]).state = .unconfigured
    ∧ ∀ i, old.state ≠ .unconfigured → s.inst? old.inst = some i →
      let stay := i.parts.filter (·.key != id)
      (stay = [] → (s.leaveBar id a).inst? i.no = none)
      ∧ (stay ≠ [] → ∃ j, (s.leaveBar id a).inst? i.no = some j ∧ (∀ q ∈ j.parts, q ∈ stay) ∧ j.phase = i.phase
        ∧ j.break_ = (if i.parts.any (·.here) = true then i.break_.or (some 4) else i.break_)
        ∧ ((∀ q ∈ stay, ∀ w ∈ stay, setsMeet q.set w.set = true) → j.parts = stay))

/-- R282, R284, R287, R288: the root releases a phase once P participants have arrived: the phase rises and every view that had arrived is
RELEASED; a break wins, and every view is BROKEN with its reason. A `barwait`'s timeout lands TIMEOUT. -/
def Sys2Proof.Machine.barrierPhaseDecides : Prop :=
  (∀ (s : State) (i : BarInst) (c : Core), s.inst? i.no = some i → findCore s.cores c.id = some c → (c.bars[i.bar]).of i = true →
    (i.break_ = none → i.p.toNat ≤ (i.parts.filter (·.here)).length →
      ∃ t, exec (.barrierRelease i.no) s = .next t ∧ t.mem = s.mem
        ∧ (t.core c.id).bars[i.bar] = { c.bars[i.bar] with
            phase := i.phase + 1, state := if (c.bars[i.bar]).state = .partly then .released else (c.bars[i.bar]).state }
        ∧ (∀ b : Bar, b ≠ i.bar → (t.core c.id).bars[b] = c.bars[b]) ∧ (t.core c.id).seqs = c.seqs
        ∧ t.inst? i.no = some { i with phase := i.phase + 1, parts := i.parts.map BarPart.gone })
    ∧ (∀ r, i.break_ = some r → (c.bars[i.bar]).state ≠ .broken →
      ∃ t, exec (.barrierRelease i.no) s = .next t ∧ t.mem = s.mem
        ∧ (t.core c.id).bars[i.bar] = { c.bars[i.bar] with state := .broken, breason := r }))
  ∧ ∀ (s : State) (core act : Nat) (x : Act) (h : Hdr) (d b : GReg) (a : Bar) (tm : W64),
    (s.core core).act? act = some x → x.body = .word (.barwait h d a b) [tm] [] 0 0 0 → (s.core core).barTest a = none →
    tm.toNat ≤ s.cycle (s.core core) - x.issued →
      ∃ t x', exec (.barwaitTimeout core act) s = .next t ∧ (t.core core).act? act = some x'
        ∧ x'.writes = [.g x.handler d (pack [(1, 0), (((s.core core).bars[a]).phase.toNat, 32)])]
        ∧ x'.due = some (max (s.cycle (s.core core)) (x.issued + 7)) ∧ (t.core core).bars = (s.core core).bars

/-- R281, R282, R284, R285, R287, R288: a barrier is configured, releases its phases, breaks and times out. -/
def Obligations.BarriersConfigureAndDecide : Prop :=
  barrierConfigures ∧ barrierPhaseDecides

/-! ### Work lists and dispatch tables -/

/-- R208, R295, R296: `wldef` and `wlreset`: a bad definition is ILLEGAL, a bad spill or bitmap page PERMISSION; else X waits for the
router. The check's reads of the page tables apply the bins of their lines first (`readLists`). -/
def Sys2Proof.Machine.listDefinitionsIssueOrTrap : Prop :=
  ∀ (s : State) (h : Hdr) (d : WList) (a b c : GReg),
    let A := s.me.rd h.eng a
    let B := s.me.rd h.eng b
    let C := s.me.rd h.eng c
    let dom := bits B 7 25
    let l2 := bits B 32 5
    let bad := bits B 2 5 ≠ 0 ∨ bits B 37 27 ≠ 0 ∨ 2 ^ 24 < dom ∨ (l2 ≠ 0 ∧ (l2 < 10 ∨ 28 < l2)) ∨ A.toNat % 2 ^ 16 ≠ 0
      ∨ C.toNat % 64 ≠ 0 ∨ (l2 = 0 ∧ A ≠ 0) ∨ (dom = 0 ∧ C ≠ 0) ∨ canonicalVA A = false ∨ canonicalVA C = false
    let l := s.listFor (hiveOf s.me.id) s.me.ctxId d
    let u := s.readLists s.me.ctxId A C dom l2
    let v := s.readLists s.me.ctxId l.spillVA l.bitmapVA (bits l.cfg 7 25) (bits l.cfg 32 5)
    let bad' := v.badListPage s.me.ctxId l.spillVA l.bitmapVA (bits l.cfg 7 25) (bits l.cfg 32 5)
    let go := fun (t : State) (opc : Nat) (i : Instr) (sp cfg bm : W64) => issued t h opc
      { lat := none, fixed := false, holds := some .time, body := .word i [sp, cfg, bm] [] 0 0 0 }
    (s.ready h 0x75 = true → bad → exec (.wldef h d a b c) s = trapped s h .illegal 0x0D)
    ∧ (s.ready h 0x75 = true → ¬ bad → u.badListPage s.me.ctxId A C dom l2 = none →
        exec (.wldef h d a b c) s = go u 0x75 (.wldef h d a b c) A B C)
    ∧ (s.ready h 0x75 = true → ¬ bad → ∀ va, u.badListPage s.me.ctxId A C dom l2 = some va →
        exec (.wldef h d a b c) s = trapped u h .permission (checkInfo 0xB (2 * va)))
    ∧ (s.ready h 0x76 = true → l.state = .undefined → exec (.wlreset h d) s = trapped s h .illegal 0x0D)
    ∧ (s.ready h 0x76 = true → l.state ≠ .undefined → bad' = none →
        exec (.wlreset h d) s = go v 0x76 (.wlreset h d) l.spillVA l.cfg l.bitmapVA)
    ∧ (s.ready h 0x76 = true → l.state ≠ .undefined → ∀ va, bad' = some va →
        exec (.wlreset h d) s = trapped v h .permission (checkInfo 0xB (2 * va)))

/-- R187, R297 to R300: the words that move list elements. That a pop or steal, an acquire, waits before its issue for the sequencer's
earlier releases, and is judged only then, is the model's choice (DEDUCED, log 9). -/
def Sys2Proof.Machine.listWordsIssueOrTrap : Prop :=
  ∀ (s : State) (h : Hdr) (d : WList) (g b : GReg) (t : TReg) (gl : Fin 6) (pm : Pm),
    let p := s.me.shape h.eng
    let n := (gl.val + 1) * p.elems
    let l := s.listFor (hiveOf s.me.id) s.me.ctxId d
    let els := fun (opc : Nat) => (pmActive (s.me.actives pm 16 (gl.val + 1) p.elems)
      ((s.me.group t (gl.val + 1) p.elems 16).zipIdx.map (fun q => q.2 * 2 ^ 64 + q.1))).filter
        (fun e => s.me.progress h.eng opc ≤ e / 2 ^ 64)
    let push := fun (opc : Nat) (i : Instr) => issued s h opc
      { lat := none, fixed := false, holds := some .structural
        body := .word i s.me.entry2 (els opc ++ [n * 2 ^ 64]) 0 0 (s.me.progress h.eng opc) }
    let cm := BitVec.ofNat 64 (s.me.scopes[2]).cmask.toNat
    let B := s.me.rd h.eng b
    let hv := stealHive s.me.id B
    let own := fun (l : ListReg) => l.state ≠ .undefined ∧ l.owner.toNat = s.me.id % 4
    let open_ := s.releasesDone s.me h.eng s.me.nextAct
    let badSteal := bits B 22 42 ≠ 0 ∨ 36 ≤ bits B 16 6 ∨ (hv = hiveOf s.me.id ∧ own l)
    (8192 < p.elems * 16 →
        (s.ready h 0x68 = true → exec (.wlpush h d t gl pm) s = trapped s h .illegal 0x0C)
        ∧ (s.ready h 0x69 = true → exec (.wlins h d t gl pm) s = trapped s h .illegal 0x0C)
        ∧ (s.ready h 0x68 = true → open_ = true → exec (.wlpop h g d b t gl) s = trapped s h .illegal 0x0C)
        ∧ (s.ready h 0x69 = true → open_ = true → exec (.wlsteal h g d b t gl) s = trapped s h .illegal 0x0C))
    ∧ (open_ = false → (s.ready h 0x68 = true → exec (.wlpop h g d b t gl) s = waits s h .structural)
        ∧ (s.ready h 0x69 = true → exec (.wlsteal h g d b t gl) s = waits s h .structural))
    ∧ (p.elems * 16 ≤ 8192 →
        (s.ready h 0x68 = true → l.state = .undefined → exec (.wlpush h d t gl pm) s = trapped s h .illegal 0x0D)
        ∧ (s.ready h 0x68 = true → l.state ≠ .undefined → exec (.wlpush h d t gl pm) s = push 0x68 (.wlpush h d t gl pm))
        ∧ (s.ready h 0x69 = true → (l.state = .undefined ∨ l.domain = 0) →
            exec (.wlins h d t gl pm) s = trapped s h .illegal 0x0D)
        ∧ (s.ready h 0x69 = true → l.state ≠ .undefined → l.domain ≠ 0 →
            exec (.wlins h d t gl pm) s = push 0x69 (.wlins h d t gl pm))
        ∧ (s.ready h 0x68 = true → open_ = true → ¬ own l → exec (.wlpop h g d b t gl) s = trapped s h .illegal 0x0D)
        ∧ (s.ready h 0x68 = true → own l → open_ = true → exec (.wlpop h g d b t gl) s = issued s h 0x68
            { lat := none, fixed := false
              body := .word (.wlpop h g d b t gl) [cm, BitVec.ofNat 64 (min B.toNat n)] [] (s.me.seq h.eng).shp 0 0 })
        ∧ (s.ready h 0x69 = true → open_ = true → badSteal → exec (.wlsteal h g d b t gl) s = trapped s h .illegal 0x0D)
        ∧ (s.ready h 0x69 = true → ¬ badSteal → open_ = true → exec (.wlsteal h g d b t gl) s = issued s h 0x69
            { lat := none, fixed := false
              body := .word (.wlsteal h g d b t gl) [cm, BitVec.ofNat 64 (min (bits B 0 16) n), BitVec.ofNat 64 hv.val] []
                (s.me.seq h.eng).shp 0 0 }))

/-- R295 to R300: the words on work lists. -/
def Obligations.ListWordsIssueOrTrap : Prop :=
  listDefinitionsIssueOrTrap ∧ listWordsIssueOrTrap

/-- R292, R293, R299, R300: a list is a queue: an element joins at the tail, or is dropped and counted when the list is full; a pop takes
from the head in order, a steal from the tail, and what is taken and what stays are the entries that were there. A READY list one of
whose pages fails becomes FAULTED, keeps a part of its entries, and counts the others as dropped. -/
def Sys2Proof.Machine.workListIsAQueue : Prop :=
  (∀ (l : ListReg) (x : W64) (n : Nat),
    (l.state = .ready → l.entries.length < 4096 + l.spill → l.push x = { l with entries := l.entries ++ [x] })
    ∧ (4096 + l.spill ≤ l.entries.length → (l.push x).entries = l.entries ∧ (l.push x).ovf = true
        ∧ (l.push x).drops.toNat = min (l.drops.toNat + 1) (2 ^ 24 - 1))
    ∧ ((l.take n false).1 ++ (l.take n false).2.entries = l.entries ∧ (l.take n false).1.length = min n l.entries.length)
    ∧ ((l.take n true).2.entries ++ (l.take n true).1 = l.entries ∧ (l.take n true).1.length = min n l.entries.length))
  ∧ ∀ (s : State) (hv : Fin 144) (k : WList), (s.list hv k).state = .ready →
    (s.readList (s.list hv k)).listFails (s.list hv k) = true →
    (s.list hv k).drops.toNat + (s.list hv k).entries.length < 2 ^ 24 →
      ∃ t, exec (.workListFaulted hv.val k) s = .next t ∧ (t.list hv k).state = .faulted
        ∧ ((t.list hv k).entries).Sublist (s.list hv k).entries
        ∧ (t.list hv k).drops.toNat + (t.list hv k).entries.length
            = (s.list hv k).drops.toNat + (s.list hv k).entries.length
        ∧ t.mem = (s.readList (s.list hv k)).mem ∧ t.cores = s.cores ∧ (∀ j : WList, j ≠ k → t.list hv j = s.list hv j)

/-- R301 to R303: the words on dispatch tables. A `dispdef` is judged once every earlier comb access that must come first has been made,
by the order of log 9 and of log 22 (DEDUCED), and a misaligned one is ILLEGAL (DEDUCED, log 47), as is the order of its checks: the
model's choices. The bits of a mask for rows placed before a stop are a free value (log 3). -/
def Obligations.DispatchWordsIssueOrTrap : Prop :=
  ∀ (s : State) (h : Hdr) (k : DTab) (m : KReg) (a : GReg) (b c : TReg) (gl : Fin 6) (pm : Pm) (ty : Ty) (save : Bool),
    let X := s.me.rd h.eng a
    let x := X.toNat
    let n := s.me.combNat x 4
    let p := s.me.shape h.eng
    let rows := (gl.val + 1) * p.rows
    let t := s.tableFor (hiveOf s.me.id) s.me.ctxId k
    let u : State := { s with free := s.free + 1 }
    let noStore := s.me.combWriting h.eng = false ∧ s.combWaits s.me h.eng = false
    let bad := ∃ e, e < n ∧ dispEntryBad s.me (x + 48 + 16 * e) = true
    (s.ready h 0x77 = true → ¬ noStore → exec (.dispdef h k a) s = waits s h .structural)
    ∧ (s.ready h 0x77 = true → noStore → x % 16 ≠ 0 → exec (.dispdef h k a) s = trapped s h .illegal 0x0D)
    ∧ (s.ready h 0x77 = true → noStore → x % 16 = 0 → 0x18_0000 < x + 48 → exec (.dispdef h k a) s = trapped s h .combBounds X)
    ∧ (s.ready h 0x77 = true → noStore → x % 16 = 0 → x + 48 ≤ 0x18_0000 → dispHeadBad s.me x = true →
        exec (.dispdef h k a) s = trapped s h .illegal 0x0D)
    ∧ (s.ready h 0x77 = true → noStore → x % 16 = 0 → x + 48 ≤ 0x18_0000 → dispHeadBad s.me x = false →
        0x18_0000 < x + 48 + 16 * n → exec (.dispdef h k a) s = trapped s h .combBounds X)
    ∧ (s.ready h 0x77 = true → noStore → x % 16 = 0 → x + 48 + 16 * n ≤ 0x18_0000 → (dispHeadBad s.me x = true ∨ bad) →
        exec (.dispdef h k a) s = trapped s h .illegal 0x0D)
    ∧ (s.ready h 0x77 = true → noStore → x % 16 = 0 → x + 48 + 16 * n ≤ 0x18_0000 → dispHeadBad s.me x = false → ¬ bad →
        exec (.dispdef h k a) s = issued (u.setTable (hiveOf s.me.id) k (dispOf s.me x)) h 0x77
              { lat := some (1 + Config.delay s.free), fixed := false, holds := some .time })
    ∧ (s.ready h 0x6A = true → 8192 < p.elems * ty.halfBytes → exec (.disp h m k b c gl pm ty) s = trapped s h .illegal 0x0C)
    ∧ (s.ready h 0x6A = true → p.elems * ty.halfBytes ≤ 8192 →
        (t.valid = false ∨ p.cols * ty.halfBytes ≠ 2 * t.rowsz ∨ 1024 < rows) →
        exec (.disp h m k b c gl pm ty) s = trapped s h .illegal 0x0D)
    ∧ (s.ready h 0x6A = true → p.elems * ty.halfBytes ≤ 8192 → t.valid = true → p.cols * ty.halfBytes = 2 * t.rowsz → rows ≤ 1024 →
        ∃ e mask els, exec (.disp h m k b c gl pm ty) s = issued u h 0x6A e ∧ e.lat = none ∧ e.holds = some .structural
          ∧ e.body = .word (.disp h m k b c gl pm ty) (s.me.entry2 ++ [0, 0, 0]) (mask :: els) 0 0 (s.me.progress h.eng 0x6A) ∧ els.length = rows
          ∧ mask < 2 ^ s.me.progress h.eng 0x6A
          ∧ ∀ r, r < rows → els.getD r 0 % 2 = (if s.me.rowActive pm r then 1 else 0)
              ∧ ((s.me.tileElems b 0 1024 8).getD r 0 < 2 ^ 32 →
                els.getD r 0 / 2 % 2 ^ 32 = (s.me.tileElems b 0 1024 8).getD r 0))
    ∧ (s.ready h 0x78 = true → t.valid = false → exec (.dispclr h k a save) s = trapped s h .illegal 0x0D)
    ∧ (s.ready h 0x78 = true → t.valid = true → (save = true → x % 4 = 0 ∧ x + 4 * (t.nexp + 2) ≤ 0x18_0000) →
        exec (.dispclr h k a save) s = issued s h 0x78
          { lat := none, fixed := false, holds := some .time, body := .word (.dispclr h k a save) [X] [] 0 0 0 })
    ∧ (s.ready h 0x78 = true → t.valid = true → save = true → x % 4 ≠ 0 → exec (.dispclr h k a save) s = trapped s h .misaligned X)
    ∧ (s.ready h 0x78 = true → t.valid = true → save = true → x % 4 = 0 → 0x18_0000 < x + 4 * (t.nexp + 2) →
        exec (.dispclr h k a save) s = trapped s h .combBounds X)

/-- R302: where a row goes: into its expert's buffer while that has room, else into the residual buffer, else it is LOST and counted. -/
def Sys2Proof.Machine.dispatchRowTakesRoom : Prop :=
  ∀ (t : DispTable) (e r : Nat) (row : List Byte),
    let room := e < t.nexp ∧ (t.fill.getD e 0).toNat < (t.caps.getD e 0).toNat
    let left := t.rfill.toNat < t.rcap.toNat
    (room → e < t.fill.length → t.slotFor e = .expert e ∧ ((t.claim (.expert e)).fill.getD e 0) = t.fill.getD e 0 + 1
        ∧ (∀ j, j ≠ e → (t.claim (.expert e)).fill.getD j 0 = t.fill.getD j 0)
        ∧ t.stores (.expert e) e r row = [(t.bases.getD e 0 + BitVec.ofNat 64 ((t.fill.getD e 0).toNat * t.rowsz), row)])
    ∧ (¬ room → left → t.slotFor e = .residual ∧ (t.claim .residual).rfill = t.rfill + 1 ∧ (t.claim .residual).fill = t.fill
        ∧ t.stores .residual e r row = [(t.rbase + BitVec.ofNat 64 (t.rfill.toNat * t.rowsz), row),
            (t.ridx + BitVec.ofNat 64 (8 * t.rfill.toNat), leBytes 8 (e + r * 2 ^ 32))])
    ∧ (¬ room → ¬ left → t.slotFor e = .lost ∧ (t.claim .lost).lost = satInc t.lost 1 ∧ t.stores .lost e r row = [])

/-- R292, R293, R299, R300, R302: a work list is a queue, and a dispatched row goes where there is room. -/
def Obligations.ListsAndTablesTakeRoom : Prop :=
  workListIsAQueue ∧ dispatchRowTakesRoom

/-! ### Kernels and tasks -/

/-- R317 to R321, R344, R345: the words of kernels and tasks. `heart` completes at issue: it lands in its own cycle, writes nothing, holds
nothing, has no work to do after, and changes nothing of its core but the start of a persistent task's period. What a `ctxyield` is asked
for is judged by the descriptors of waiting work, whose reading applies the bins of their lines (`readNeeds`). -/
def Obligations.KernelWordsIssueOrTrap : Prop :=
  ∀ (s : State) (h : Hdr) (d a b : GReg) (out : Fin 2) (lq : Fin 16) (tk : Task),
    let A := s.me.rd h.eng a
    let B := s.me.rd h.eng b
    let entry := fun (k : Fin 32) =>
      [A, BitVec.ofNat 64 (s.me.scopes[k]).cmask.toNat, BitVec.ofNat 64 (s.me.scopes[k]).reach.toNat]
    let word := fun (opc : Nat) (i : Instr) (v : List W64) (holds : Option Why) => issued s h opc
      { lat := none, fixed := false, holds := holds, body := .word i v [] 0 0 0 }
    s.me.task = some tk →
    (s.ready h 0x72 = true → tk.persist = true → (d.val = 0 ∨ 8 < d.val) →
        exec (.qtake h d) s = word 0x72 (.qtake h d) [] (some .time))
    ∧ (s.ready h 0x72 = true → (tk.persist = false ∨ (1 ≤ d.val ∧ d.val ≤ 8)) → exec (.qtake h d) s = trapped s h .illegal 0x0D)
    ∧ (s.ready h 0x73 = true → tk.out[out] = none → exec (.qput h a out) s = trapped s h .illegal 0x0D)
    ∧ (s.ready h 0x73 = true → tk.out[out] ≠ none → A.toNat % 64 ≠ 0 → exec (.qput h a out) s = trapped s h .misaligned A)
    ∧ (s.ready h 0x73 = true → tk.out[out] ≠ none → A.toNat % 64 = 0 → A.toNat + 64 ≤ 0x18_0000 →
        exec (.qput h a out) s = word 0x73 (.qput h a out) (entry 3) (some .time))
    ∧ (s.ready h 0x73 = true → tk.out[out] ≠ none → A.toNat % 64 = 0 → 0x18_0000 < A.toNat + 64 →
        exec (.qput h a out) s = trapped s h .combBounds A)
    ∧ (s.ready h 0x71 = true → (s.lq s.me.ctxId lq).valid = false → exec (.kspawn h a lq) s = trapped s h .illegal 0x0D)
    ∧ (s.ready h 0x71 = true → (s.lq s.me.ctxId lq).valid = true → A.toNat % 128 = 0 → A.toNat + 128 ≤ 0x18_0000 →
        exec (.kspawn h a lq) s = word 0x71 (.kspawn h a lq) (entry 3) (some .time))
    ∧ (s.ready h 0x71 = true → (s.lq s.me.ctxId lq).valid = true → A.toNat % 128 = 0 → 0x18_0000 < A.toNat + 128 →
        exec (.kspawn h a lq) s = trapped s h .combBounds A)
    ∧ (s.ready h 0x71 = true → (s.lq s.me.ctxId lq).valid = true → A.toNat % 128 ≠ 0 →
        exec (.kspawn h a lq) s = trapped s h .misaligned A)
    ∧ (s.ready h 0x6F = true → ∃ e, exec (.heart h) s = issued s h 0x6F e ∧ e.writes = [] ∧ e.lat = some 1 ∧ e.body = .plain
        ∧ e.holds = none ∧ e.next = none ∧ ∀ (c : Core) (t : Task), c.task = some t →
          e.after c = if t.persist = true then { c with task := some { t with since := s.pulse, used := 0 } } else c)
    ∧ (s.ready h 0x70 = true → A.toNat ≤ s.dtime.toNat → exec (.twaitt h a) s = issued s h 0x70 {})
    ∧ (s.ready h 0x70 = true → s.dtime.toNat < A.toNat → exec (.twaitt h a) s = word 0x70 (.twaitt h a) [A] (some .time))
    ∧ (s.ready h 0x74 = true → bits B 8 56 ≠ 0 → exec (.evpost h a b) s = trapped s h .illegal 0x0D)
    ∧ (s.ready h 0x74 = true → bits B 8 56 = 0 → A.toNat % 32 = 0 → A.toNat + 32 ≤ 0x18_0000 →
        exec (.evpost h a b) s = word 0x74 (.evpost h a b) (entry 5 ++ [B]) none)
    ∧ (s.ready h 0x74 = true → bits B 8 56 = 0 → A.toNat % 32 ≠ 0 → exec (.evpost h a b) s = trapped s h .misaligned A)
    ∧ (s.ready h 0x74 = true → bits B 8 56 = 0 → A.toNat % 32 = 0 → 0x18_0000 < A.toNat + 32 →
        exec (.evpost h a b) s = trapped s h .combBounds A)
    ∧ (s.ready h 0x7C = true → s.me.inHandler = true → exec (.ctxyield h) s = trapped s h .illegal 0x0D)
    ∧ (s.ready h 0x7C = true → s.me.inHandler = false → (s.ctx tk.ctx).state ≠ .draining →
        (s.asked tk.ctx s.pulse).contains s.me.id = false → exec (.ctxyield h) s = issued (s.readNeeds tk.ctx) h 0x7C {})
    ∧ (s.ready h 0x7C = true → s.me.inHandler = false → (s.ctx tk.ctx).state ≠ .draining →
        (s.asked tk.ctx s.pulse).contains s.me.id = true → ∃ e, exec (.ctxyield h) s = issued (s.readNeeds tk.ctx) h 0x7C e
          ∧ ∀ c, (e.after c).stop = some .yield)
    ∧ (s.ready h 0x7C = true → s.me.inHandler = false → (s.ctx tk.ctx).state = .draining →
        ∃ e, exec (.ctxyield h) s = issued s h 0x7C e ∧ ∀ c, (e.after c).stop = some .suspend)

/-- R311, R312, R316, R351: the launch unit's steps on entries: a queue's head leaves QUEUED, and becomes READY once its time and
dependency are met; a doorbell or a poll takes the entries up to the tail word, or marks the context in LQOVF when they pass the ring;
a doorbell to a context that does not run is not lost: its queue is read again once it runs; a waiting class rises by one after AGING. -/
def Obligations.LaunchEntriesAdvance : Prop :=
  ∀ (s : State) (x : Fin 64) (q : Fin 16) (e : LaunchEntry),
    (s.headEntry x q = some e → e.state = .queued → ∃ t, exec (.launchEntryCheck x.val q) s = .next t
        ∧ (t.lq x q).entries = { e with state := .waiting, since := s.pulse } :: (s.lq x q).entries.tail ∧ t.mem = s.mem ∧ t.cores = s.cores)
    ∧ (s.headEntry x q = some e → e.state = .waiting → e.notBefore ≤ s.dtime.toNat → s.depMet x e = true →
        ∃ t, exec (.launchEntryCheck x.val q) s = .next t
          ∧ (t.lq x q).entries = { e with state := .ready, since := s.pulse } :: (s.lq x q).entries.tail
          ∧ t.mem = (s.readDep x e).mem ∧ t.cores = s.cores)
    ∧ (s.headEntry x q = some e → e.state = .waiting → (s.dtime.toNat < e.notBefore ∨ s.depMet x e = false) →
        ∃ t, exec (.launchEntryCheck x.val q) s = .next t
          ∧ (t.lq x q).entries = { e with since := s.pulse } :: (s.lq x q).entries.tail
          ∧ t.mem = (s.readDep x e).mem ∧ t.cores = s.cores)
    ∧ (∀ (bs : List Byte) (u : State), (s.lq x q).valid = true → (s.ctx x).state = .running → (s.lq x q).refused = false →
        s.vaRead x ((s.lq x q).doneVA + 4) 4 = (some bs, u) →
        let tail : W32 := BitVec.ofNat 32 (leNat bs)
        let waiting := ((s.lq x q).accepted - (s.lq x q).done).toNat + (tail - (s.lq x q).accepted).toNat
        ∃ t, exec (.lqbell x.val q) s = .next t ∧ exec (.tailPoll x.val q) s = .next t ∧ t.cores = s.cores
          ∧ (t.lq x q).done = (s.lq x q).done
          ∧ ((s.lq x q).size < waiting → (t.lq x q).refused = true ∧ t.lqOvf.getLsbD x.val = true
              ∧ (t.lq x q).entries = (s.lq x q).entries)
          ∧ (waiting ≤ (s.lq x q).size → (t.lq x q).accepted = tail
              ∧ ∃ es, (t.lq x q).entries = (s.lq x q).entries ++ es
                ∧ es.map (·.no) = (List.range (tail - (s.lq x q).accepted).toNat).map
                    (fun i => (s.lq x q).accepted + 1 + BitVec.ofNat 32 i)
                ∧ ∀ f ∈ es, f.state = .queued))
    ∧ ((s.lq x q).valid = true → (s.ctx x).state ≠ .running → ∃ t, exec (.lqbell x.val q) s = .next t
        ∧ t.lq x q = { s.lq x q with refused := false } ∧ t.mem = s.mem ∧ t.cores = s.cores)
    ∧ (∀ k : Kernel, s.mayAge x q = true → s.kernel? x q = some k → ∃ t, exec (.agingExpiry x.val q) s = .next t
        ∧ t.kernel? x q = some { k with aged := true } ∧ t.mem = s.mem ∧ t.cores = s.cores)

/-- The state in which a grant to launch queue `q` chooses its stage: the queue was the last that its class served (R313). -/
def Sys2Proof.Machine.served (s : State) (x : Fin 64) (q : Fin 16) : State :=
  let c : Fin 4 := match s.readyClass x q with | some (c, _) => Fin.ofNat 4 c | none => 0
  s.setCtx x { s.ctx x with lastLq := (s.ctx x).lastLq.set c q }

/-- What a new task of stage `st` begins with: the words of X's `g1` to `g8` (those at the slot of the oldest item that can be taken, read
as the unit reads its queue's memory; none in a persistent task), and the state in which the image is read. -/
def Sys2Proof.Machine.takenWords (u : State) (x : Fin 64) (k : Kernel) (i : Nat) (st : Stage) : List W64 × State :=
  match (if st.persist then [] else u.takable k i) with
  | it :: _ => match u.vaRead x (k.qvas.getD i 0 + BitVec.ofNat 64 (64 * it.slot)) 64 with
    | (some bs, v) => ((List.range 8).map (fun n => BitVec.ofNat 64 (leNat ((bs.drop (8 * n)).take 8))), v)
    | (none, v) => ([], v)
  | [] => ([], u)

/-- R63, R308, R313, R314: a core granted to a stage that has no pre-empted task begins a new task of it: its four sequencers stand at
their entry points, their scalar registers cleared but for the item's eight words in X's `g1` to `g8` (0 in a persistent task), with no
word issued and no token; the image's bytes stand in its comb from address 0 and every other byte of the comb is kept (bytes that cannot
be read come as 0, the model's choice: DEDUCED, log 46). -/
def Sys2Proof.Machine.grantedCoreBeginsTask : Prop :=
  ∀ (s : State) (core : Nat) (x : Fin 64) (q : Fin 16) (k : Kernel) (i : Nat) (st : Stage),
    let u := served s x q
    let ws := (takenWords u x k i st).1
    let img := if st.imgVA = 0 then [] else (((takenWords u x k i st).2.vaRead x st.imgVA st.imgLen).1).getD (List.replicate st.imgLen 0)
    s.grantFor core = some (x, q) → u.kernel? x q = some k → u.chooseStage x k = some i → u.savedOf x k i = [] →
    k.stages[i]? = some st → i < 8 →
      ∃ t tk, exec (.coreGrant core) s = .next t ∧ (t.core core).task = some tk ∧ tk.ctx = x ∧ tk.lq = k.lq ∧ tk.kseq = k.no
        ∧ tk.stage.val = i ∧ tk.persist = st.persist ∧ tk.live = st.live
        ∧ (∀ p : Seq, ((t.core core).seq p).pc = st.ents[p.idx] ∧ ((t.core core).seq p).streamVA = st.vas[p.idx]
            ∧ ((t.core core).seq p).streamLen = st.lens[p.idx] ∧ ((t.core core).seq p).status = .running)
        ∧ (∀ (p : Seq) (r : GReg), (p ≠ .x ∨ r.val = 0 ∨ 8 < r.val) → ((t.core core).seq p).g[r] = 0)
        ∧ (∀ r : GReg, 1 ≤ r.val → r.val ≤ 8 → ((t.core core).seq .x).g[r] = ws.getD (r.val - 1) 0)
        ∧ (t.core core).comb = (s.core core).comb.writeBytes 0 img
        ∧ (t.core core).acts = [] ∧ (t.core core).tqcnt = 0 ∧ (t.core core).inHandler = false ∧ (t.core core).raised = []
        ∧ (t.core core).scopes = (s.ctx x).scopes ∧ (t.core core).dcf = (s.ctx x).dcf ∧ (t.core core).trapVec = (s.ctx x).trapVec
        ∧ (∀ other, other ≠ core → t.core other = s.core other)

/-- R315, R336: a core granted to a stage that has a pre-empted task goes on with it: its registers, tiles, accumulators, rings and words are
those saved, its live comb bytes are back and the rest of the comb is the core's own, its slot is free again; its four sequencers go on
where they stood, with every tag free, and a trap that was pending is taken first. -/
def Sys2Proof.Machine.grantedCoreGoesOn : Prop :=
  ∀ (s : State) (core : Nat) (x : Fin 64) (q : Fin 16) (k : Kernel) (i : Nat) (v : Saved) (rest : List Saved) (tk : Task),
    let u := served s x q
    s.grantFor core = some (x, q) → u.kernel? x q = some k → u.chooseStage x k = some i → u.savedOf x k i = v :: rest →
    v.core.task = some tk →
      ∃ t, exec (.coreGrant core) s = .next t
        ∧ (t.core core).task = some { tk with since := s.pulse, used := if tk.persist then 0 else tk.used }
        ∧ (t.ctx x).saved = (s.ctx x).saved.filter (·.slot != v.slot) ∧ t.mem = s.mem
        ∧ (∀ p : Seq, ((t.core core).seq p).pc = (v.core.seq p).pc ∧ ((t.core core).seq p).g = (v.core.seq p).g
            ∧ ((t.core core).seq p).tags = Vector.replicate 8 false)
        ∧ (t.core core).tiles = v.core.tiles ∧ (t.core core).acc = v.core.acc ∧ (t.core core).masks = v.core.masks
        ∧ (t.core core).rings = v.core.rings ∧ (t.core core).acts = v.core.acts ∧ (t.core core).amax = v.core.amax
        ∧ (t.core core).comb = (s.core core).comb.writeBytes 0 (v.core.comb.readBytes 0 tk.live)
        ∧ (t.core core).inHandler = false
        ∧ (v.core.pending = [] → (t.core core).raised = v.core.raised ∧ (t.core core).stop = none)
        ∧ (v.core.pending ≠ [] → (t.core core).raised = v.core.pending ∧ (t.core core).pending = []
            ∧ (t.core core).stop = some .trap)
        ∧ (∀ other, other ≠ core → t.core other = s.core other)

/-- R309, R310, R316: a kernel whose stages are drained, or an aborted one without tasks, is DONE: LQSTAT.DONE names it, its entry and
the kernel are gone. -/
def Sys2Proof.Machine.kernelCompletes : Prop :=
  ∀ (s : State) (x : Fin 64) (q : Fin 16) (k : Kernel), s.kernel? x q = some k → (s.ctx x).state = .running →
    (s.kernelOver x k = true → ∃ t, exec (.kernelComplete x.val q) s = .next t ∧ (t.lq x q).done = k.no
        ∧ t.kernel? x q = none ∧ (∀ e ∈ (t.lq x q).entries, e.no ≠ k.no) ∧ t.cores = s.cores)
    ∧ (s.abortOver x k = true → ∃ t, exec (.kernelAbortComplete x.val q) s = .next t ∧ (t.lq x q).done = k.no
        ∧ t.kernel? x q = none ∧ (∀ e ∈ (t.lq x q).entries, e.no ≠ k.no) ∧ t.cores = s.cores)

/-- R67, R68, R310, R321, R337: a task ends once its `exit` has drained the core: every sequencer is IDLE; `exit.abort` also aborts its
kernel; a watchdog that runs out makes the context drain to FAULTED; a time waited for that has come completes its `twaitt`. -/
def Sys2Proof.Machine.tasksEnd : Prop :=
  (∀ (s : State) (core : Nat), (s.core core).taskOver = true →
    ((s.core core).stop = none → ∃ t, exec (.taskComplete core) s = .next t ∧ (t.core core).task = none ∧ t.mem = s.mem
        ∧ (t.core core).acts = [] ∧ (∀ q, ((t.core core).seq q).status = .idle)
        ∧ (∀ a : Bar, ((t.core core).bars[a]).state = .unconfigured) ∧ (t.core core).comb = (s.core core).comb
        ∧ ∀ other, other ≠ core → t.core other = s.core other)
    ∧ (∀ k tk, (s.core core).stop = some .abort → (s.core core).task = some tk → s.kernel? tk.ctx tk.lq = some k → k.lq = tk.lq →
        k.aborted = false → ∃ t, exec (.taskComplete core) s = .next t ∧ (t.core core).task = none
          ∧ t.kernel? tk.ctx tk.lq = some { k with aborted := true }))
  ∧ (∀ (s : State) (core : Nat) (tk : Task), (s.core core).task = some tk → tk.expired s.pulse = true →
      (s.ctx tk.ctx).state = .running → ∃ t, exec (.watchdog core) s = .next t ∧ (t.ctx tk.ctx).state = .draining
        ∧ ∃ tk', (t.core core).task = some tk' ∧ tk'.fired = true)
  ∧ ∀ (s : State) (core act : Nat) (a : Act), (s.core core).act? act = some a → s.timeReached a = true →
      ∃ t, exec (.twaittTimeReached core act) s = .next t ∧ (t.core core).act? act = none

/-- R67, R68, R309, R310, R316, R321, R337: how kernels and tasks end. -/
def Obligations.KernelsAndTasksEnd : Prop :=
  kernelCompletes ∧ tasksEnd

/-- R315, R335: a core that the launch unit wants back is asked to stop, and once its words are complete and its copy queues stand at an
entry's end it is saved into a free slot of its context and is free. -/
def Sys2Proof.Machine.forcedPreemptionSavesCore : Prop :=
  ∀ (s : State) (core : Nat),
    let c := s.core core
    c.task.isSome = true →
    (s.saveDue c = false → s.forceDue core = true → c.inHandler = false → c.stop = none →
      ∃ t, exec (.forcedPreemption core) s = .next t ∧ (t.core core).stop = some .forced
          ∧ t.mem = (s.readNeeds c.ctxId).mem)
    ∧ (s.saveDue c = true → ∃ t v, exec (.forcedPreemption core) s = .next t ∧ (t.core core).task = none
        ∧ v ∈ (t.ctx c.ctxId).saved ∧ v.slot ∈ s.forcedSlots c.ctxId ∧ v.core.id = core ∧ v.core.seqs = c.seqs
        ∧ v.core.tiles = c.tiles ∧ v.core.comb = c.comb ∧ v.core.acc = c.acc ∧ v.core.rings = c.rings
        ∧ (∀ q, ((t.core core).seq q).status = .idle))

/-- R63, R308, R313 to R315, R335: a granted core begins a task or goes on with a saved one, and a core wanted back is saved. -/
def Obligations.CoresAreGrantedAndSaved : Prop :=
  grantedCoreBeginsTask ∧ grantedCoreGoesOn ∧ forcedPreemptionSavesCore

/-! ### Contexts -/

/-- A context command has ended with status `st`: no command is in progress, and the result names it, its context and DONE (R349). -/
def Sys2Proof.Machine.ended (t : State) (x : Fin 64) (st : Nat) : Prop :=
  t.cmd = none ∧ bits t.ctxRes 0 8 = st ∧ bits t.ctxRes 8 6 = x.val ∧ bits t.ctxRes 63 1 = 1

/-- The context's state after a command in progress, whose code is `code`, has run and ended with OK. -/
def Sys2Proof.Machine.commandLeads (s : State) (i : Instr) (x : Fin 64) (st : CState) : Prop :=
  ∃ t, exec i s = .next t ∧ ended t x 0 ∧ (t.ctx x).state = st ∧ ∀ y, y ≠ x → (t.ctx y).state = (s.ctx y).state

/-- R326 to R328, R330: the commands on a context: BADSTATE in a state that does not admit one, BUSY where another context or partition is
in the way, BADDESC where the descriptor breaks a limit, else the state that the command leads to. FAULT of a context that drains after a
SUSPEND is admitted, its outcome then FAULTED (DEDUCED, log 48). -/
def Obligations.ContextCommandsLead : Prop :=
  ∀ (s : State) (x : Fin 64) (pa : Nat),
    let st := (s.ctx x).state
    let cmd := fun (k : Nat) => s.cmd = some (k, x, pa)
    let bad := fun (i : Instr) => ∃ t, exec i s = .next t ∧ ended t x 1 ∧ t.ctxs = s.ctxs ∧ t.cores = s.cores ∧ t.mem = s.mem
    let busy := fun (i : Instr) => ∃ t, exec i s = .next t ∧ ended t x 2 ∧ t.ctxs = s.ctxs ∧ t.cores = s.cores ∧ t.mem = s.mem
    let badDesc := fun (i : Instr) => ∃ t, exec i s = .next t ∧ ended t x 3 ∧ t.ctxs = s.ctxs ∧ t.cores = s.cores ∧ t.mem = s.mem
    (cmd 1 → st ≠ .free → bad (.ctxCreate x.val))
    ∧ (cmd 1 → st = .free → s.loadDesc { Ctx.reset with podCtx := (s.ctx x).podCtx, fqReread := s.pulse } pa none = none →
        badDesc (.ctxCreate x.val))
    ∧ (cmd 2 → st ≠ .free → st ≠ .destroyed → s.loadDesc (s.ctx x) pa (some (s.ctx x).partMask) = none → badDesc (.ctxSet x.val))
    ∧ (cmd 1 → st = .free →
        (s.loadDesc { Ctx.reset with podCtx := (s.ctx x).podCtx, fqReread := s.pulse } pa none).isSome = true →
        commandLeads s (.ctxCreate x.val) x .created)
    ∧ (cmd 2 → (st = .free ∨ st = .destroyed) → bad (.ctxSet x.val))
    ∧ (cmd 2 → st ≠ .free → st ≠ .destroyed → (s.loadDesc (s.ctx x) pa (some (s.ctx x).partMask)).isSome = true →
        commandLeads s (.ctxSet x.val) x st)
    ∧ (cmd 3 → st ≠ .created → bad (.ctxBind x.val))
    ∧ (cmd 3 → st = .created → s.partClash x = true → busy (.ctxBind x.val))
    ∧ (cmd 3 → st = .created → s.partClash x = false → commandLeads s (.ctxBind x.val) x .bound)
    ∧ (cmd 4 → st ≠ .bound → bad (.ctxStart x.val))
    ∧ (cmd 4 → st = .bound → s.partBusy x = true → busy (.ctxStart x.val))
    ∧ (cmd 4 → st = .bound → s.partBusy x = false → commandLeads s (.ctxStart x.val) x .running)
    ∧ (cmd 5 → st ≠ .running → bad (.ctxSuspend x.val))
    ∧ (cmd 5 → st = .running → commandLeads s (.ctxSuspend x.val) x .draining)
    ∧ (cmd 6 → st ≠ .suspended → bad (.ctxResume x.val))
    ∧ (cmd 6 → st = .suspended → s.partBusy x = true → busy (.ctxResume x.val))
    ∧ (cmd 6 → st = .suspended → s.partBusy x = false → commandLeads s (.ctxResume x.val) x .running)
    ∧ (cmd 7 → st = .running → commandLeads s (.ctxFault x.val) x .draining)
    ∧ (cmd 7 → st ≠ .running → st ≠ .draining → bad (.ctxFault x.val))
    ∧ (cmd 7 → st = .draining → ∀ d, (s.ctx x).drain = some d →
        (d.suspend = false → bad (.ctxFault x.val))
        ∧ (d.suspend = true → ∃ t, exec (.ctxFault x.val) s = .next t ∧ ended t x 0 ∧ (t.ctx x).state = .draining
            ∧ (t.ctx x).drain = some { d with suspend := false } ∧ ∀ y, y ≠ x → (t.ctx y).state = (s.ctx y).state))
    ∧ (cmd 8 → st ≠ .faulted → bad (.ctxRecover x.val))
    ∧ (cmd 8 → st = .faulted → commandLeads s (.ctxRecover x.val) x .bound)
    ∧ (cmd 9 → (st = .created ∨ st = .bound ∨ st = .suspended ∨ st = .faulted) → commandLeads s (.ctxDestroy x.val) x .destroyed)
    ∧ (cmd 9 → (st = .free ∨ st = .running ∨ st = .draining ∨ st = .destroyed) → bad (.ctxDestroy x.val))
    ∧ (cmd 10 → (st = .bound ∨ st = .running ∨ st = .draining ∨ st = .suspended) →
        (s.partReset.any (fun p => p.1 == (partNo (s.ctx x).partMask).val)) = false →
        ∃ t, exec (.ctxResetPart x.val) s = .next t ∧ t.partReset = s.partReset ++ [((partNo (s.ctx x).partMask).val, s.pulse)]
          ∧ t.cmd = s.cmd ∧ t.ctxs = s.ctxs ∧ t.cores = s.cores ∧ t.mem = s.mem)
    ∧ (cmd 10 → (st = .free ∨ st = .created ∨ st = .faulted ∨ st = .destroyed) → bad (.ctxResetPart x.val))

/-- R329, R335: a drain whose cores stand and whose sweeps have ended saves every core of the context, and the context is SUSPENDED or
FAULTED; one that has not stopped 200 µs after the request, with no handler running, brings a partition reset. -/
def Sys2Proof.Machine.drainsComplete : Prop :=
  ∀ (s : State) (x : Fin 64) (d : Drain), (s.ctx x).drain = some d →
    (s.drainOver x = true → ∃ t, exec (.drainComplete x.val) s = .next t
        ∧ (t.ctx x).state = (if d.suspend then .suspended else .faulted) ∧ (t.ctx x).drain = none
        ∧ ∀ c ∈ s.tasksOf x, (t.core c.id).task = none)
    ∧ (s.drainLate x = true → (∀ c ∈ s.tasksOf x, c.inHandler = false) → ∃ t, exec (.drainTimeout x.val) s = .next t
        ∧ t.partReset = s.partReset ++ [((partNo (s.ctx x).partMask).val, s.pulse)] ∧ t.ctxs = s.ctxs ∧ t.cores = s.cores
        ∧ t.mem = s.mem)

/-- R328, R338, R339, R390: a scrub frees the context's id, applies the bins that still lie over its save area, and the save area reads
0; a partition reset leaves every context bound to the partition FAULTED, with no kernel, and its cores without tasks; one that has not
completed in 2 ms resets the device, whose DTIME runs on (the model's choice: DEDUCED, log 48). -/
def Sys2Proof.Machine.scrubAndResetsComplete : Prop :=
  ∀ (s : State),
    (∀ x : Fin 64, (s.ctx x).state = .destroyed → s.mem.wf = true →
      let c := s.ctx x
      let n := 2 * (partCores c.partMask).length * 2 ^ 22
      let u := s.applyOver c.savePA n
      ∃ t, exec (.scrubComplete x.val) s = .next t ∧ t.ctx x = { Ctx.reset with podCtx := c.podCtx }
        ∧ (∀ a, t.mem.read a = if c.savePA ≤ a ∧ a < c.savePA + n then 0 else u.mem.read a)
        ∧ (∀ id ∈ partCores c.partMask, (s.core id).task = none → t.core id = { Core.reset id with born := s.clock id })
        ∧ (∀ id, id ∉ partCores c.partMask → t.core id = s.core id))
    ∧ (∀ (part : Nat) (x : Fin 64), (s.partReset.any (fun p => p.1 == part)) = true → x ∈ s.boundTo part →
      ∃ t, exec (.partitionReset part) s = .next t ∧ (t.ctx x).state = .faulted ∧ (t.ctx x).kernels = []
        ∧ (∀ id ∈ partCores (s.ctx x).partMask, (t.core id).task = none ∧ (t.core id).acts = [] ∧ (t.core id).comb.cells = [])
        ∧ (∀ p ∈ t.partReset, p.1 ≠ part) ∧ (∀ b ∈ t.bins, b.ctx ≠ x) ∧ (∀ p ∈ t.window, p.ctx ≠ x))
    ∧ (∀ (part at_ : Nat), (part, at_) ∈ s.partReset → at_ + 2000 * 2250 < s.pulse →
      ∃ t, exec (.resetEscalation part) s = .next t ∧ t.cores = [] ∧ t.mem.cells = [] ∧ t.dtime9 = s.dtime9
        ∧ (∀ y : Fin 64, t.ctx y = Ctx.reset) ∧ t.partReset = [])

/-- R328, R329, R335, R338, R339, R390: drains, scrubs and partition resets end. -/
def Obligations.DrainsScrubsAndResetsComplete : Prop :=
  drainsComplete ∧ scrubAndResetsComplete

/-- R250, R331, R332, R340: the head of a fault queue is read from the descriptor; an uncorrectable error at a word that has not issued
traps precisely, one that a running `mma` or `mmas` meets stops it before the row, and one that no word takes makes the context
drain. That an error a word meets is met by the word that the sequencer is about to issue is the model's choice (DEDUCED, log 54). -/
def Obligations.FaultQueueAndErrors : Prop :=
  ∀ (s : State) (x : Fin 64) (core : Nat) (q : Seq) (k : Fin 5) (addr : Nat),
    ((s.ctx x).state ≠ .free → (s.ctx x).state ≠ .destroyed → ∃ t, exec (.fqheadReread x.val) s = .next t
        ∧ (t.ctx x).fqHead = BitVec.ofNat 32 (s.homeNat ((s.ctx x).desc + 0x2C) 4).1 ∧ (t.ctx x).fqTail = (s.ctx x).fqTail
        ∧ t.cores = s.cores)
    ∧ ((s.core core).issuing q = true → (q ≠ .c ∨ (s.core core).streamingWord = none) → (s.core core).raised = [] →
        ∃ t, exec (.uncorrectableError (.word core q k addr)) s = .next t
        ∧ (t.core core).raised = [⟨q, .eccUncorrectable, (s.core core).nextPc q, eccInfo k.val addr⟩]
        ∧ (t.core core).seqs = (s.core core).seqs ∧ t.mem = s.mem ∧ t.ctxs = s.ctxs)
    ∧ (∀ a n row, (s.core core).streamingWord = some (a, n, row) → a.handler = false → (s.core core).raised = [] →
        ∃ t, exec (.uncorrectableError (.word core .c k addr)) s = .next t ∧ (t.core core).act? a.id = none
          ∧ (t.core core).raised = [⟨a.seq, .eccUncorrectable, a.pc, eccInfo k.val (if k = 1 then row.toNat else addr)⟩]
          ∧ (t.core core).acc = (s.core core).acc ∧ t.mem = s.mem)
    ∧ ((s.ctx x).state = .running → ∃ t, exec (.uncorrectableError (.deviceRead x.val none k addr)) s = .next t
        ∧ (t.ctx x).state = .draining ∧ (t.ctx x).drain = some ⟨false, s.pulse⟩)

/-! ### Time -/

/-- R342, R343, R349: a measurement from an enabled source locks to it; an offset of at most 1000 ns is slewed, a larger one stepped; one
from a disabled source, and TIMESET while a source is locked, change nothing. -/
def Obligations.DeviceTimeIsCorrected : Prop :=
  ∀ (s : State) (off : Int) (v : W64), -(2 ^ 31) ≤ off → off < 2 ^ 31 →
    let corrected := fun (t : State) (o : Int) => t.timeOff = BitVec.ofInt 32 o ∧ t.holdover = false ∧ t.cores = s.cores ∧ t.mem = s.mem
      ∧ (o.natAbs ≤ 1000 → t.slew9 = 9 * o ∧ t.dtime9 = s.dtime9 ∧ t.stepped = s.stepped)
      ∧ (1000 < o.natAbs → t.slew9 = 0 ∧ t.stepped = true
          ∧ (t.dtime9 : Int) = ((s.dtime9 : Int) + 9 * o) % (9 * 2 ^ 64))
    (bitSet s.timeCtl.toNat 0 = true → ∃ t, exec (.ptmMeasurement off) s = .next t ∧ corrected t off
        ∧ t.timeLock = s.timeLock ||| 1)
    ∧ (bitSet s.timeCtl.toNat 0 = false → exec (.ptmMeasurement off) s = .next s)
    ∧ (bitSet s.timeCtl.toNat 1 = true → ∃ t o, exec .ppsEdge s = .next t ∧ corrected t o ∧ t.timeLock = s.timeLock ||| 2
        ∧ -500000000 ≤ o ∧ o < 500000000 ∧ ((s.dtime.toNat : Int) + o - s.ppsDelay) % 1000000000 = 0)
    ∧ (bitSet s.timeCtl.toNat 1 = false → exec .ppsEdge s = .next s)
    ∧ exec .timeSourceLoss s = .next { s with timeLock := 0, holdover := true, slew9 := 0 }
    ∧ (s.timeLock = 0 → exec (.timeset v) s = .next { s with dtime9 := 9 * v.toNat, slew9 := 0 })
    ∧ (s.timeLock ≠ 0 → exec (.timeset v) s = .next s)
    ∧ exec .stepclr s = .next { s with stepped := false }

/-! ### Peers -/

/-- R353, R357: a package admitted to a partition has its PEERLIVE bit set, one removed or timed out has it clear, and no other bit of
the partition's changes; one to which no usable route leads has its bit clear as soon as it is admitted (the model's choice: DEDUCED, log
32). A flit in order is acknowledged; one that fails its CRC, or is out of order, changes no port. A trained port numbers from the start,
and what it had not had acknowledged is dropped (the model's choice: DESIGN CHOICE, log 40). -/
def Sys2Proof.Machine.peersAndPortsStep : Prop :=
  ∀ (s : State) (k : Fin 8) (p : Fin 64) (n : Fin 12) (f : Flit),
    (∃ t, exec (.peerAdmit k p) s = .next t ∧ ∀ (j : Fin 8) (q : Fin 64),
        (t.peerLive[j]).getLsbD q.val = (if j = k ∧ q = p then decide (p.val = s.pkg) || (s.routePort k p).isSome
          else (s.peerLive[j]).getLsbD q.val))
    ∧ (∃ t, exec (.peerRemove k p) s = .next t ∧ t.mem = s.mem ∧ ∀ (j : Fin 8) (q : Fin 64),
        (t.peerLive[j]).getLsbD q.val = ((s.peerLive[j]).getLsbD q.val && !decide (j = k ∧ q = p)))
    ∧ (∃ t, exec (.peerTimeout k p) s = .next t ∧ t.mem = s.mem ∧ ∀ (j : Fin 8) (q : Fin 64),
        (t.peerLive[j]).getLsbD q.val = ((s.peerLive[j]).getLsbD q.val && !decide (j = k ∧ q = p)))
    ∧ (s.portLive n = true → (s.ports[n]).unacked = [] → f.body = [] → f.dpkg.val = s.pkg →
        ∃ t, exec (.flitReceive n f) s = .next t ∧ t.mem = s.mem ∧ t.cores = s.cores
          ∧ t.ports[n] = (if f.crcOk = true ∧ f.seq = (s.ports[n]).rxSeq + 1 then { s.ports[n] with rxSeq := f.seq } else s.ports[n])
          ∧ ∀ m : Fin 12, m ≠ n → t.ports[m] = s.ports[m])
    ∧ (∃ t, exec (.portTrained n) s = .next t ∧ t.ports[n] = { Port.reset with up := true, resent := (s.ports[n]).resent }
        ∧ (∀ m : Fin 12, m ≠ n → t.ports[m] = s.ports[m]) ∧ t.mem = s.mem ∧ t.cores = s.cores)

/-- An answer `r` has gone to package `p`: to the outside, and, where partition `part` has a usable route to it, in a flit of its own, of
some traffic class (DESIGN CHOICE, log 52). -/
def Sys2Proof.Machine.answered (s t : State) (p : Fin 64) (tag : Byte) (part : Option (Fin 8)) (r : PeerAnswer) : Prop :=
  t.peerReply = s.peerReply ++ [(p, r)]
  ∧ (∀ k, part = some k → (s.routePort k p).isSome = true →
      ∃ tc, t.outgoing = s.outgoing ++ [(k, ⟨0, 0, tc, p, Fin.ofNat 64 s.pkg, 0, tag, true, [], [r]⟩)])
  ∧ ((∀ k, part = some k → s.routePort k p = none) → t.outgoing = s.outgoing)

/-- R355: a peer's request is admitted into the context whose CTXPOD is its tag and whose partition holds what it touches, and is DENIED
where there is none; admitted, it is performed as a local access is, and answered. -/
def Sys2Proof.Machine.remoteRequestsAnswer : Prop :=
  ∀ (s : State) (p : Fin 64) (tag : Byte) (op : RemoteOp),
    (s.admitting tag op = none → ∃ t, exec (.remoteRequest p tag op) s = .next t ∧ t.mem = s.mem ∧ t.cores = s.cores
        ∧ answered s t p tag ((List.finRange 8).find? (fun k => (s.routePort k p).isSome)) .denied)
    ∧ ∀ x, s.admitting tag op = some x → s.remoteAway x op = false → s.remotePoisoned x op = none →
      let part := some (partNo (s.ctx x).partMask)
      (∀ pa n, op = .load pa n → ∃ t, exec (.remoteRequest p tag op) s = .next t
          ∧ answered s t p tag part (.done (s.homeRead pa n).1 false) ∧ t.mem = (s.homeRead pa n).2.mem)
      ∧ (∀ pa bs, op = .store pa bs → ∃ t, exec (.remoteRequest p tag op) s = .next t
          ∧ answered s t p tag part (.done [] false) ∧ t.mem = (s.homeWrite pa bs).mem ∧ t.cores = s.cores)
      ∧ (∀ g off2 ty, op = .loadElem g off2 ty → let e := s.remoteElem x g ty 0 off2 0
          ∃ t, exec (.remoteRequest p tag op) s = .next t ∧ t.mem = (s.loadElem x e ty).2.mem ∧ t.cores = s.cores
            ∧ answered s t p tag part (.done (leBytes ((ty.halfBytes + 1) / 2) (s.loadElem x e ty).1.1) (s.loadElem x e ty).1.2))
      ∧ (∀ o pa (v : W64), op = .atomic o true pa v → let old := (s.homeNat pa 8).1
          ∃ t, exec (.remoteRequest p tag op) s = .next t ∧ answered s t p tag part (.done (leBytes 8 old) false)
            ∧ t.mem = ((s.homeNat pa 8).2.homeWrite pa (leBytes 8 (aopApply o 64 old v.toNat))).mem ∧ t.cores = s.cores)
      ∧ (∀ core a bs, op = .combWrite core a bs none → ∃ t, exec (.remoteRequest p tag op) s = .next t
          ∧ answered s t p tag part (.done [] false)
          ∧ (t.core core).comb = (s.core core).comb.writeBytes a bs ∧ t.mem = s.mem
          ∧ ∀ other, other ≠ core → t.core other = s.core other)

/-- R353, R355, R357: peers and ports, and the requests that peers make. -/
def Obligations.PeersStepAndAreAnswered : Prop :=
  peersAndPortsStep ∧ remoteRequestsAnswer

/-! ### The host -/

/-- R347 to R350: the host's register writes, its window and CXL.mem accesses and its links. The HBM holds 864 × 10^9 bytes (R4, R5), at
physical addresses from 0 on (the place is no rule's: the model's choice, log 7). An access that begins inside it and ends past it
reads ones there; a CXL.mem address outside it is a fault (the model's choice, log 41). -/
def Obligations.HostActs : Prop :=
  ∀ (s : State) (v : W64) (off pa n : Nat) (bs : List Byte) (l : HostLink) (cxl : Bool),
    (bitSet s.ctxRes.toNat 63 = true → 1 ≤ bits v 0 4 → bits v 0 4 ≤ 10 → ∃ t, exec (.hostRegisterWrite 0 v) s = .next t
        ∧ t.cmd = some (bits v 0 4, Fin.ofNat 64 (bits v 8 6), s.ctxDesc.toNat) ∧ bits t.ctxRes 63 1 = 0)
    ∧ (bitSet s.ctxRes.toNat 63 = false → ∃ t, exec (.hostRegisterWrite 0 v) s = .next t ∧ t.cmd = s.cmd ∧ bits t.ctxRes 62 1 = 1)
    ∧ exec (.hostRegisterWrite 0x8 v) s = .next { s with ctxDesc := v }
    ∧ exec (.hostRegisterWrite 0x108 v) s = .next { s with lqOvf := s.lqOvf &&& ~~~v }
    ∧ exec (.hostRegisterWrite 0x10 v) s = .next s
    ∧ (∃ t, exec (.hostRegisterWrite 0x18 v) s = .next t ∧ ∀ i, i < 64 → t.winBase.getLsbD i
        = (v.getLsbD i && decide (36 ≤ i ∧ i < 52)))
    ∧ (∃ t, exec (.hostWindowAccess off (.write bs)) s = .next t ∧ t.cores = s.cores
        ∧ t.mem = (s.homeWrite (s.winBase.toNat + off) (bs.take (864 * 10 ^ 9 - (s.winBase.toNat + off)))).mem)
    ∧ (s.winBase.toNat + off + n ≤ 864 * 10 ^ 9 → ∃ t, exec (.hostWindowAccess off (.read n)) s = .next t
        ∧ t.hostReply = s.hostReply ++ [(s.homeRead (s.winBase.toNat + off) n).1])
    ∧ (s.linkA = true → s.cxlA = true → pa + n ≤ 864 * 10 ^ 9 → ∃ t, exec (.cxlMemAccess pa (.read n)) s = .next t
        ∧ t.hostReply = s.hostReply ++ [(s.homeRead pa n).1] ∧ t.cores = s.cores)
    ∧ (s.linkA = true → s.cxlA = true → 864 * 10 ^ 9 < pa + n → exec (.cxlMemAccess pa (.read n)) s = .fault (.noMemory pa))
    ∧ ((s.linkA && s.cxlA) = false → exec (.cxlMemAccess pa (.read n)) s = .next s)
    ∧ exec (.hostLinkDown l) s
        = .next (match l with | .a => { s with linkA := false, cxlA := false } | .b => { s with linkB := false, cxlB := false })
    ∧ exec (.hostLinkTrained ⟨l, cxl⟩) s
        = .next (match l with | .a => { s with linkA := true, cxlA := cxl } | .b => { s with linkB := true, cxlB := cxl })

/-! ### Power, telemetry and trust -/

/-- R382 to R384, R386, R390, R391: power: what a power-off keeps and what a power-on leaves; the announced level and the power settings to
come, each level with the time it was announced at; a partition whose power exceeds its cap, or, in SWALLOW mode, whose sensors read above
105 °C, swallows some pulses, at least one of sixteen; in FORECAST mode it goes on until its power is below the cap; another swallows
none: power and temperature are free values, and how many pulses is left open (DESIGN CHOICE, log 50). -/
def Obligations.PowerSteps : Prop :=
  ∀ (s : State) (low : Bool) (k : Fin 8) (frac : Fin 16) (lv : Fin 16) (cap : Nat) (fc : Bool),
    (∃ t, exec (.inputOutOfRange low) s = .next t ∧ t.powered = false ∧ t.bootSlot = none ∧ t.mem = {} ∧ t.cores = []
        ∧ t.fwSlots = s.fwSlots ∧ t.fuseVersion = s.fuseVersion ∧ (∀ x : Fin 64, t.ctx x = Ctx.reset)
        ∧ t.flashTele = s.flashTele ∧ t.fuseKey = s.fuseKey)
    ∧ (∃ t, exec .powerOnReset s = .next t ∧ t.powered = true ∧ t.mem = {} ∧ t.cores = [] ∧ t.telemetry = s.flashTele
        ∧ t.bootSlot = s.bootFrom s.fwActive ∧ t.fwSlots = s.fwSlots ∧ t.fuseKey = s.fuseKey ∧ t.pulse = 0 ∧ t.dtime9 = 0
        ∧ (∀ x : Fin 64, t.ctx x = Ctx.reset) ∧ (∀ h : Fin 144, t.hive h = Hive.reset))
    ∧ (let must := s.boundTo k.val ≠ [] ∧ ((s.parts[k]).cap < Config.power s.pulse k.val
          ∨ ((s.parts[k]).forecast = true ∧ (s.parts[k]).frac ≠ 0 ∧ (s.parts[k]).cap ≤ Config.power s.pulse k.val)
          ∨ ((s.parts[k]).forecast = false ∧ ∃ hd : Fin 8, s.partOf hd = k ∧ 105 < Config.celsius s.pulse hd.val))
      ∃ t, exec (.throttle k frac) s = .next t
        ∧ (must → t.parts[k] = { s.parts[k] with frac := if frac = 0 then 1 else frac })
        ∧ (¬ must → t.parts[k] = { s.parts[k] with frac := 0 })
        ∧ (∀ j : Fin 8, j ≠ k → t.parts[j] = s.parts[j]) ∧ t.mem = s.mem ∧ t.cores = s.cores)
    ∧ (∃ t, exec (.forecastWrite k lv) s = .next t
        ∧ (s.parts[k].forecast = false → t.parts[k] = s.parts[k])
        ∧ (s.parts[k].forecast = true → ∃ at_, t.parts[k] = { s.parts[k] with level := lv, levelAt := at_ }
            ∧ ∀ j : Fin 16, at_[j] = if s.parts[k].level < j ∧ j ≤ lv then s.pulse else (s.parts[k].levelAt)[j])
        ∧ (∀ j : Fin 8, j ≠ k → t.parts[j] = s.parts[j]) ∧ t.mem = s.mem ∧ t.cores = s.cores)
    ∧ (s.booted = true → ∃ t, exec (.powerset k cap fc) s = .next t
        ∧ t.parts[k] = { s.parts[k] with nextCap := cap, nextFc := fc } ∧ (∀ j : Fin 8, j ≠ k → t.parts[j] = s.parts[j])
        ∧ t.mem = s.mem ∧ t.cores = s.cores)

/-- R385 to R387, R390 to R392: telemetry and the root of trust: a flush writes flash; a sample counts each partition's throttle bin; a set
is read count by count; a staged image goes into the inactive slot; a report names the nonce, both digests, the version and the booted
slot; a device reset clears the cores and memory, and DTIME runs on (the model's choice: DEDUCED, log 48). -/
def Obligations.TelemetryAndTrustStep : Prop :=
  ∀ (s : State) (set : Nat) (img : FwImage) (nonce : BitVec 256),
    exec .telemetryFlush s = .next { s with flashTele := s.telemetry }
    ∧ (∃ t, exec .telemetrySample s = .next t ∧ t.mem = s.mem ∧ t.cores = s.cores ∧ t.ctxs = s.ctxs
        ∧ ∀ k : Fin 8, (t.count (.throttle k.val (min (s.parts[k]).frac.val 15))).toNat
            = min ((s.count (.throttle k.val (min (s.parts[k]).frac.val 15))).toNat + 1) (2 ^ 64 - 1))
    ∧ (s.booted = true → exec (.telread set) s = .next { s with mgmtReply := s.mgmtReply ++ [(teleSet set).map s.count] })
    ∧ (s.powered = true → ∃ t, exec (.fwstage img) s = .next t ∧ t.fwSlots[1 - s.fwActive] = some img ∧ t.fwStaged = true
        ∧ t.fwSlots[s.fwActive] = s.fwSlots[s.fwActive] ∧ t.fwActive = s.fwActive ∧ t.cores = s.cores ∧ t.mem = s.mem)
    ∧ (s.powered = true → ∀ i j : FwImage, s.fwSlots[(0 : Fin 2)] = some i → s.fwSlots[(1 : Fin 2)] = some j →
        ∃ t sig, exec (.attest nonce) s = .next t
          ∧ t.reports = s.reports ++ [⟨nonce, #v[i.digest, j.digest], s.fuseVersion, s.bootSlot, sig⟩] ∧ t.cores = s.cores)
    ∧ (s.booted = true → ∃ t, exec .devreset s = .next t ∧ t.cores = [] ∧ t.mem.cells = [] ∧ t.dtime9 = s.dtime9
        ∧ t.powered = true ∧ t.fwSlots = s.fwSlots ∧ (∀ x : Fin 64, t.ctx x = Ctx.reset))
end

