-- ==== Sys2Proof/Laws/Array.lean ====
section
/-! SUPPORT. What reading an accumulator row gives after one is written (R28, R236): the array words' rows are read through these. -/
namespace Sys2Proof.Machine

theorem Core.setAcc_dirty {c : Core} {i j : Nat} (hi : i < 1024) (r : AccRow) :
    (c.setAcc i r).dirty j = (c.dirty j || decide (i / 64 = j / 64)) := by
  have h : ((2 : Nat) ^ (i / 64)) < 2 ^ 16 := Nat.pow_lt_pow_right (by decide) (by omega)
  simp only [Core.setAcc, Core.dirty, BitVec.getLsbD_or, BitVec.getLsbD_ofNat, Nat.testBit_two_pow]
  by_cases e : i / 64 = j / 64
  · simp [e, show j / 64 < 16 by omega]
  · simp [e]

/-- The rows kept by a filter that keeps every row looked for are found as before. -/
theorem find?_filter_of {α : Type} {p q : α → Bool} (h : ∀ x, p x = true → q x = true) (l : List α) : (l.filter q).find? p = l.find? p := by
  rw [List.find?_filter]
  congr 1
  funext x
  cases hp : p x
  · simp
  · simp [h x hp]

theorem Core.accRow_setAcc_self {c : Core} {i : Nat} (hi : i < 1024) (r : AccRow) : (c.setAcc i r).accRow i = r := by
  rw [Core.accRow, Core.setAcc_dirty hi]
  have hn : ∀ l : List (Nat × AccRow), (∀ x ∈ l, x.1 ≠ i) → (l ++ [(i, r)]).find? (·.1 == i) = some (i, r) := by
    intro l h
    rw [List.find?_append, List.find?_eq_none.mpr (by simpa using h)]
    simp
  simp only [decide_true, Bool.or_true, if_true, Core.setAcc]
  rw [hn]
  intro x hx
  split at hx <;> simp only [List.mem_filter, bne_iff_ne] at hx
  · exact hx.2
  · intro e; exact hx.2 (by rw [e])

theorem Core.accRow_setAcc_ne {c : Core} {i j : Nat} (hi : i < 1024) (hj : j ≠ i) (r : AccRow) : (c.setAcc i r).accRow j = c.accRow j := by
  rw [Core.accRow, Core.setAcc_dirty hi, Core.accRow]
  have hn : ∀ l : List (Nat × AccRow), (l ++ [(i, r)]).find? (·.1 == j) = l.find? (·.1 == j) := by
    intro l
    simp [List.find?_append, Ne.symm hj]
  simp only [Core.setAcc]
  rw [hn]
  by_cases hb : i / 64 = j / 64
  · have hd : c.dirty j = c.dirty i := by simp only [Core.dirty, hb]
    rw [hd]
    by_cases he : c.dirty i = true
    · simp only [he, hb, decide_true, Bool.or_true, if_true]
      rw [find?_filter_of (fun x hx => by simp_all)]
    · have hz : (c.acc.filter (fun p => p.1 / 64 != i / 64)).find? (·.1 == j) = none := by
        refine List.find?_eq_none.mpr ?_
        intro x hx
        simp only [List.mem_filter, bne_iff_ne] at hx
        simp only [beq_iff_eq]
        intro e; exact hx.2 (by rw [e, hb])
      simp [he, hb, hb ▸ hz]
  · have hf : (if c.dirty i then c.acc.filter (·.1 != i) else c.acc.filter (fun p => p.1 / 64 != i / 64)).find? (·.1 == j)
        = c.acc.find? (·.1 == j) := by
      split <;> refine find?_filter_of (fun x hx => ?_) _ <;> simp only [beq_iff_eq] at hx <;> simp only [hx, bne_iff_ne]
      · exact hj
      · exact fun e => hb e.symm
    simp only [hb, decide_false, Bool.or_false, hf]

/-- Every other part of the core stays. -/
theorem Core.setAcc_eq (c : Core) (i : Nat) (r : AccRow) : ∃ a d, c.setAcc i r = { c with acc := a, accDirty := d } := ⟨_, _, rfl⟩

end Sys2Proof.Machine
end

