-- ==== Sys2Proof/Laws/State.lean ====
section
/-! SUPPORT. What each plain update of the state leaves as it was, a lemma for each field, and where an update shows: the core, the
context, the hive and the sequencer that it names, and no other. -/
namespace Sys2Proof.Machine

/-! ### Updates of the package -/

@[simp] theorem State.setCore_pulse (s : State) (c : Core) : (s.setCore c).pulse = s.pulse := rfl
@[simp] theorem State.setCore_turn (s : State) (c : Core) : (s.setCore c).turn = s.turn := rfl
@[simp] theorem State.setCore_free (s : State) (c : Core) : (s.setCore c).free = s.free := rfl
@[simp] theorem State.setCore_inputs (s : State) (c : Core) : (s.setCore c).inputs = s.inputs := rfl
@[simp] theorem State.setCore_powered (s : State) (c : Core) : (s.setCore c).powered = s.powered := rfl
@[simp] theorem State.setCore_swallowed (s : State) (c : Core) : (s.setCore c).swallowed = s.swallowed := rfl
@[simp] theorem State.setCore_gated (s : State) (c : Core) : (s.setCore c).gated = s.gated := rfl
@[simp] theorem State.setCore_ctxs (s : State) (c : Core) : (s.setCore c).ctxs = s.ctxs := rfl
@[simp] theorem State.setCore_hives (s : State) (c : Core) : (s.setCore c).hives = s.hives := rfl
@[simp] theorem State.setCore_mem (s : State) (c : Core) : (s.setCore c).mem = s.mem := rfl
@[simp] theorem State.setCore_peerCombs (s : State) (c : Core) : (s.setCore c).peerCombs = s.peerCombs := rfl
@[simp] theorem State.setCore_poisoned (s : State) (c : Core) : (s.setCore c).poisoned = s.poisoned := rfl
@[simp] theorem State.setCore_window (s : State) (c : Core) : (s.setCore c).window = s.window := rfl
@[simp] theorem State.setCore_taken (s : State) (c : Core) : (s.setCore c).taken = s.taken := rfl
@[simp] theorem State.setCore_bins (s : State) (c : Core) : (s.setCore c).bins = s.bins := rfl
@[simp] theorem State.setCore_flight (s : State) (c : Core) : (s.setCore c).flight = s.flight := rfl
@[simp] theorem State.setCore_barInsts (s : State) (c : Core) : (s.setCore c).barInsts = s.barInsts := rfl
@[simp] theorem State.setCore_migrations (s : State) (c : Core) : (s.setCore c).migrations = s.migrations := rfl
@[simp] theorem State.setCore_lastMig (s : State) (c : Core) : (s.setCore c).lastMig = s.lastMig := rfl
@[simp] theorem State.setCore_pageReqs (s : State) (c : Core) : (s.setCore c).pageReqs = s.pageReqs := rfl
@[simp] theorem State.setCore_sweeps (s : State) (c : Core) : (s.setCore c).sweeps = s.sweeps := rfl
@[simp] theorem State.setCore_props (s : State) (c : Core) : (s.setCore c).props = s.props := rfl
@[simp] theorem State.setCore_ringMsgs (s : State) (c : Core) : (s.setCore c).ringMsgs = s.ringMsgs := rfl
@[simp] theorem State.setCore_events (s : State) (c : Core) : (s.setCore c).events = s.events := rfl
@[simp] theorem State.setCore_nextNo (s : State) (c : Core) : (s.setCore c).nextNo = s.nextNo := rfl
@[simp] theorem State.setCore_ctxDesc (s : State) (c : Core) : (s.setCore c).ctxDesc = s.ctxDesc := rfl
@[simp] theorem State.setCore_ctxRes (s : State) (c : Core) : (s.setCore c).ctxRes = s.ctxRes := rfl
@[simp] theorem State.setCore_cmd (s : State) (c : Core) : (s.setCore c).cmd = s.cmd := rfl
@[simp] theorem State.setCore_winBase (s : State) (c : Core) : (s.setCore c).winBase = s.winBase := rfl
@[simp] theorem State.setCore_lqOvf (s : State) (c : Core) : (s.setCore c).lqOvf = s.lqOvf := rfl
@[simp] theorem State.setCore_timeCtl (s : State) (c : Core) : (s.setCore c).timeCtl = s.timeCtl := rfl
@[simp] theorem State.setCore_podCfg (s : State) (c : Core) : (s.setCore c).podCfg = s.podCfg := rfl
@[simp] theorem State.setCore_portPart (s : State) (c : Core) : (s.setCore c).portPart = s.portPart := rfl
@[simp] theorem State.setCore_route (s : State) (c : Core) : (s.setCore c).route = s.route := rfl
@[simp] theorem State.setCore_peerLive (s : State) (c : Core) : (s.setCore c).peerLive = s.peerLive := rfl
@[simp] theorem State.setCore_linkLost (s : State) (c : Core) : (s.setCore c).linkLost = s.linkLost := rfl
@[simp] theorem State.setCore_linkDenied (s : State) (c : Core) : (s.setCore c).linkDenied = s.linkDenied := rfl
@[simp] theorem State.setCore_ports (s : State) (c : Core) : (s.setCore c).ports = s.ports := rfl
@[simp] theorem State.setCore_linkA (s : State) (c : Core) : (s.setCore c).linkA = s.linkA := rfl
@[simp] theorem State.setCore_linkB (s : State) (c : Core) : (s.setCore c).linkB = s.linkB := rfl
@[simp] theorem State.setCore_msixLast (s : State) (c : Core) : (s.setCore c).msixLast = s.msixLast := rfl
@[simp] theorem State.setCore_msixWait (s : State) (c : Core) : (s.setCore c).msixWait = s.msixWait := rfl
@[simp] theorem State.setCore_msixSent (s : State) (c : Core) : (s.setCore c).msixSent = s.msixSent := rfl
@[simp] theorem State.setCore_hostReply (s : State) (c : Core) : (s.setCore c).hostReply = s.hostReply := rfl
@[simp] theorem State.setCore_peerReply (s : State) (c : Core) : (s.setCore c).peerReply = s.peerReply := rfl
@[simp] theorem State.setCore_dtime9 (s : State) (c : Core) : (s.setCore c).dtime9 = s.dtime9 := rfl
@[simp] theorem State.setCore_timeLock (s : State) (c : Core) : (s.setCore c).timeLock = s.timeLock := rfl
@[simp] theorem State.setCore_holdover (s : State) (c : Core) : (s.setCore c).holdover = s.holdover := rfl
@[simp] theorem State.setCore_stepped (s : State) (c : Core) : (s.setCore c).stepped = s.stepped := rfl
@[simp] theorem State.setCore_timeOff (s : State) (c : Core) : (s.setCore c).timeOff = s.timeOff := rfl
@[simp] theorem State.setCore_slew9 (s : State) (c : Core) : (s.setCore c).slew9 = s.slew9 := rfl
@[simp] theorem State.setCore_parts (s : State) (c : Core) : (s.setCore c).parts = s.parts := rfl
@[simp] theorem State.setCore_partReset (s : State) (c : Core) : (s.setCore c).partReset = s.partReset := rfl
@[simp] theorem State.setCore_telemetry (s : State) (c : Core) : (s.setCore c).telemetry = s.telemetry := rfl
@[simp] theorem State.setCore_flashTele (s : State) (c : Core) : (s.setCore c).flashTele = s.flashTele := rfl
@[simp] theorem State.setCore_fwSlots (s : State) (c : Core) : (s.setCore c).fwSlots = s.fwSlots := rfl
@[simp] theorem State.setCore_fwActive (s : State) (c : Core) : (s.setCore c).fwActive = s.fwActive := rfl
@[simp] theorem State.setCore_fwStaged (s : State) (c : Core) : (s.setCore c).fwStaged = s.fwStaged := rfl
@[simp] theorem State.setCore_bootSlot (s : State) (c : Core) : (s.setCore c).bootSlot = s.bootSlot := rfl
@[simp] theorem State.setCore_fuseVersion (s : State) (c : Core) : (s.setCore c).fuseVersion = s.fuseVersion := rfl
@[simp] theorem State.setCore_reports (s : State) (c : Core) : (s.setCore c).reports = s.reports := rfl
@[simp] theorem State.setCore_mgmtReply (s : State) (c : Core) : (s.setCore c).mgmtReply = s.mgmtReply := rfl
@[simp] theorem State.setCore_before (s : State) (c : Core) : (s.setCore c).before = s.before := rfl
@[simp] theorem State.setCore_early (s : State) (c : Core) : (s.setCore c).early = s.early := rfl
@[simp] theorem State.setCore_cxlA (s : State) (c : Core) : (s.setCore c).cxlA = s.cxlA := rfl
@[simp] theorem State.setCore_cxlB (s : State) (c : Core) : (s.setCore c).cxlB = s.cxlB := rfl
@[simp] theorem State.setCore_outgoing (s : State) (c : Core) : (s.setCore c).outgoing = s.outgoing := rfl
@[simp] theorem State.setCore_hourPart (s : State) (c : Core) : (s.setCore c).hourPart = s.hourPart := rfl
@[simp] theorem State.setCore_fuseKey (s : State) (c : Core) : (s.setCore c).fuseKey = s.fuseKey := rfl

@[simp] theorem State.setCtx_pulse (s : State) (x : Fin 64) (v : Ctx) : (s.setCtx x v).pulse = s.pulse := rfl
@[simp] theorem State.setCtx_turn (s : State) (x : Fin 64) (v : Ctx) : (s.setCtx x v).turn = s.turn := rfl
@[simp] theorem State.setCtx_free (s : State) (x : Fin 64) (v : Ctx) : (s.setCtx x v).free = s.free := rfl
@[simp] theorem State.setCtx_inputs (s : State) (x : Fin 64) (v : Ctx) : (s.setCtx x v).inputs = s.inputs := rfl
@[simp] theorem State.setCtx_powered (s : State) (x : Fin 64) (v : Ctx) : (s.setCtx x v).powered = s.powered := rfl
@[simp] theorem State.setCtx_swallowed (s : State) (x : Fin 64) (v : Ctx) : (s.setCtx x v).swallowed = s.swallowed := rfl
@[simp] theorem State.setCtx_gated (s : State) (x : Fin 64) (v : Ctx) : (s.setCtx x v).gated = s.gated := rfl
@[simp] theorem State.setCtx_cores (s : State) (x : Fin 64) (v : Ctx) : (s.setCtx x v).cores = s.cores := rfl
@[simp] theorem State.setCtx_hives (s : State) (x : Fin 64) (v : Ctx) : (s.setCtx x v).hives = s.hives := rfl
@[simp] theorem State.setCtx_mem (s : State) (x : Fin 64) (v : Ctx) : (s.setCtx x v).mem = s.mem := rfl
@[simp] theorem State.setCtx_peerCombs (s : State) (x : Fin 64) (v : Ctx) : (s.setCtx x v).peerCombs = s.peerCombs := rfl
@[simp] theorem State.setCtx_poisoned (s : State) (x : Fin 64) (v : Ctx) : (s.setCtx x v).poisoned = s.poisoned := rfl
@[simp] theorem State.setCtx_window (s : State) (x : Fin 64) (v : Ctx) : (s.setCtx x v).window = s.window := rfl
@[simp] theorem State.setCtx_taken (s : State) (x : Fin 64) (v : Ctx) : (s.setCtx x v).taken = s.taken := rfl
@[simp] theorem State.setCtx_bins (s : State) (x : Fin 64) (v : Ctx) : (s.setCtx x v).bins = s.bins := rfl
@[simp] theorem State.setCtx_flight (s : State) (x : Fin 64) (v : Ctx) : (s.setCtx x v).flight = s.flight := rfl
@[simp] theorem State.setCtx_barInsts (s : State) (x : Fin 64) (v : Ctx) : (s.setCtx x v).barInsts = s.barInsts := rfl
@[simp] theorem State.setCtx_migrations (s : State) (x : Fin 64) (v : Ctx) : (s.setCtx x v).migrations = s.migrations := rfl
@[simp] theorem State.setCtx_lastMig (s : State) (x : Fin 64) (v : Ctx) : (s.setCtx x v).lastMig = s.lastMig := rfl
@[simp] theorem State.setCtx_pageReqs (s : State) (x : Fin 64) (v : Ctx) : (s.setCtx x v).pageReqs = s.pageReqs := rfl
@[simp] theorem State.setCtx_sweeps (s : State) (x : Fin 64) (v : Ctx) : (s.setCtx x v).sweeps = s.sweeps := rfl
@[simp] theorem State.setCtx_props (s : State) (x : Fin 64) (v : Ctx) : (s.setCtx x v).props = s.props := rfl
@[simp] theorem State.setCtx_ringMsgs (s : State) (x : Fin 64) (v : Ctx) : (s.setCtx x v).ringMsgs = s.ringMsgs := rfl
@[simp] theorem State.setCtx_events (s : State) (x : Fin 64) (v : Ctx) : (s.setCtx x v).events = s.events := rfl
@[simp] theorem State.setCtx_nextNo (s : State) (x : Fin 64) (v : Ctx) : (s.setCtx x v).nextNo = s.nextNo := rfl
@[simp] theorem State.setCtx_ctxDesc (s : State) (x : Fin 64) (v : Ctx) : (s.setCtx x v).ctxDesc = s.ctxDesc := rfl
@[simp] theorem State.setCtx_ctxRes (s : State) (x : Fin 64) (v : Ctx) : (s.setCtx x v).ctxRes = s.ctxRes := rfl
@[simp] theorem State.setCtx_cmd (s : State) (x : Fin 64) (v : Ctx) : (s.setCtx x v).cmd = s.cmd := rfl
@[simp] theorem State.setCtx_winBase (s : State) (x : Fin 64) (v : Ctx) : (s.setCtx x v).winBase = s.winBase := rfl
@[simp] theorem State.setCtx_lqOvf (s : State) (x : Fin 64) (v : Ctx) : (s.setCtx x v).lqOvf = s.lqOvf := rfl
@[simp] theorem State.setCtx_timeCtl (s : State) (x : Fin 64) (v : Ctx) : (s.setCtx x v).timeCtl = s.timeCtl := rfl
@[simp] theorem State.setCtx_podCfg (s : State) (x : Fin 64) (v : Ctx) : (s.setCtx x v).podCfg = s.podCfg := rfl
@[simp] theorem State.setCtx_portPart (s : State) (x : Fin 64) (v : Ctx) : (s.setCtx x v).portPart = s.portPart := rfl
@[simp] theorem State.setCtx_route (s : State) (x : Fin 64) (v : Ctx) : (s.setCtx x v).route = s.route := rfl
@[simp] theorem State.setCtx_peerLive (s : State) (x : Fin 64) (v : Ctx) : (s.setCtx x v).peerLive = s.peerLive := rfl
@[simp] theorem State.setCtx_linkLost (s : State) (x : Fin 64) (v : Ctx) : (s.setCtx x v).linkLost = s.linkLost := rfl
@[simp] theorem State.setCtx_linkDenied (s : State) (x : Fin 64) (v : Ctx) : (s.setCtx x v).linkDenied = s.linkDenied := rfl
@[simp] theorem State.setCtx_ports (s : State) (x : Fin 64) (v : Ctx) : (s.setCtx x v).ports = s.ports := rfl
@[simp] theorem State.setCtx_linkA (s : State) (x : Fin 64) (v : Ctx) : (s.setCtx x v).linkA = s.linkA := rfl
@[simp] theorem State.setCtx_linkB (s : State) (x : Fin 64) (v : Ctx) : (s.setCtx x v).linkB = s.linkB := rfl
@[simp] theorem State.setCtx_msixLast (s : State) (x : Fin 64) (v : Ctx) : (s.setCtx x v).msixLast = s.msixLast := rfl
@[simp] theorem State.setCtx_msixWait (s : State) (x : Fin 64) (v : Ctx) : (s.setCtx x v).msixWait = s.msixWait := rfl
@[simp] theorem State.setCtx_msixSent (s : State) (x : Fin 64) (v : Ctx) : (s.setCtx x v).msixSent = s.msixSent := rfl
@[simp] theorem State.setCtx_hostReply (s : State) (x : Fin 64) (v : Ctx) : (s.setCtx x v).hostReply = s.hostReply := rfl
@[simp] theorem State.setCtx_peerReply (s : State) (x : Fin 64) (v : Ctx) : (s.setCtx x v).peerReply = s.peerReply := rfl
@[simp] theorem State.setCtx_dtime9 (s : State) (x : Fin 64) (v : Ctx) : (s.setCtx x v).dtime9 = s.dtime9 := rfl
@[simp] theorem State.setCtx_timeLock (s : State) (x : Fin 64) (v : Ctx) : (s.setCtx x v).timeLock = s.timeLock := rfl
@[simp] theorem State.setCtx_holdover (s : State) (x : Fin 64) (v : Ctx) : (s.setCtx x v).holdover = s.holdover := rfl
@[simp] theorem State.setCtx_stepped (s : State) (x : Fin 64) (v : Ctx) : (s.setCtx x v).stepped = s.stepped := rfl
@[simp] theorem State.setCtx_timeOff (s : State) (x : Fin 64) (v : Ctx) : (s.setCtx x v).timeOff = s.timeOff := rfl
@[simp] theorem State.setCtx_slew9 (s : State) (x : Fin 64) (v : Ctx) : (s.setCtx x v).slew9 = s.slew9 := rfl
@[simp] theorem State.setCtx_parts (s : State) (x : Fin 64) (v : Ctx) : (s.setCtx x v).parts = s.parts := rfl
@[simp] theorem State.setCtx_partReset (s : State) (x : Fin 64) (v : Ctx) : (s.setCtx x v).partReset = s.partReset := rfl
@[simp] theorem State.setCtx_telemetry (s : State) (x : Fin 64) (v : Ctx) : (s.setCtx x v).telemetry = s.telemetry := rfl
@[simp] theorem State.setCtx_flashTele (s : State) (x : Fin 64) (v : Ctx) : (s.setCtx x v).flashTele = s.flashTele := rfl
@[simp] theorem State.setCtx_fwSlots (s : State) (x : Fin 64) (v : Ctx) : (s.setCtx x v).fwSlots = s.fwSlots := rfl
@[simp] theorem State.setCtx_fwActive (s : State) (x : Fin 64) (v : Ctx) : (s.setCtx x v).fwActive = s.fwActive := rfl
@[simp] theorem State.setCtx_fwStaged (s : State) (x : Fin 64) (v : Ctx) : (s.setCtx x v).fwStaged = s.fwStaged := rfl
@[simp] theorem State.setCtx_bootSlot (s : State) (x : Fin 64) (v : Ctx) : (s.setCtx x v).bootSlot = s.bootSlot := rfl
@[simp] theorem State.setCtx_fuseVersion (s : State) (x : Fin 64) (v : Ctx) : (s.setCtx x v).fuseVersion = s.fuseVersion := rfl
@[simp] theorem State.setCtx_reports (s : State) (x : Fin 64) (v : Ctx) : (s.setCtx x v).reports = s.reports := rfl
@[simp] theorem State.setCtx_mgmtReply (s : State) (x : Fin 64) (v : Ctx) : (s.setCtx x v).mgmtReply = s.mgmtReply := rfl
@[simp] theorem State.setCtx_before (s : State) (x : Fin 64) (v : Ctx) : (s.setCtx x v).before = s.before := rfl
@[simp] theorem State.setCtx_early (s : State) (x : Fin 64) (v : Ctx) : (s.setCtx x v).early = s.early := rfl
@[simp] theorem State.setCtx_cxlA (s : State) (x : Fin 64) (v : Ctx) : (s.setCtx x v).cxlA = s.cxlA := rfl
@[simp] theorem State.setCtx_cxlB (s : State) (x : Fin 64) (v : Ctx) : (s.setCtx x v).cxlB = s.cxlB := rfl
@[simp] theorem State.setCtx_outgoing (s : State) (x : Fin 64) (v : Ctx) : (s.setCtx x v).outgoing = s.outgoing := rfl
@[simp] theorem State.setCtx_hourPart (s : State) (x : Fin 64) (v : Ctx) : (s.setCtx x v).hourPart = s.hourPart := rfl
@[simp] theorem State.setCtx_fuseKey (s : State) (x : Fin 64) (v : Ctx) : (s.setCtx x v).fuseKey = s.fuseKey := rfl

@[simp] theorem State.setHive_pulse (s : State) (h : Fin 144) (v : Hive) : (s.setHive h v).pulse = s.pulse := rfl
@[simp] theorem State.setHive_turn (s : State) (h : Fin 144) (v : Hive) : (s.setHive h v).turn = s.turn := rfl
@[simp] theorem State.setHive_free (s : State) (h : Fin 144) (v : Hive) : (s.setHive h v).free = s.free := rfl
@[simp] theorem State.setHive_inputs (s : State) (h : Fin 144) (v : Hive) : (s.setHive h v).inputs = s.inputs := rfl
@[simp] theorem State.setHive_powered (s : State) (h : Fin 144) (v : Hive) : (s.setHive h v).powered = s.powered := rfl
@[simp] theorem State.setHive_swallowed (s : State) (h : Fin 144) (v : Hive) : (s.setHive h v).swallowed = s.swallowed := rfl
@[simp] theorem State.setHive_gated (s : State) (h : Fin 144) (v : Hive) : (s.setHive h v).gated = s.gated := rfl
@[simp] theorem State.setHive_cores (s : State) (h : Fin 144) (v : Hive) : (s.setHive h v).cores = s.cores := rfl
@[simp] theorem State.setHive_ctxs (s : State) (h : Fin 144) (v : Hive) : (s.setHive h v).ctxs = s.ctxs := rfl
@[simp] theorem State.setHive_mem (s : State) (h : Fin 144) (v : Hive) : (s.setHive h v).mem = s.mem := rfl
@[simp] theorem State.setHive_peerCombs (s : State) (h : Fin 144) (v : Hive) : (s.setHive h v).peerCombs = s.peerCombs := rfl
@[simp] theorem State.setHive_poisoned (s : State) (h : Fin 144) (v : Hive) : (s.setHive h v).poisoned = s.poisoned := rfl
@[simp] theorem State.setHive_window (s : State) (h : Fin 144) (v : Hive) : (s.setHive h v).window = s.window := rfl
@[simp] theorem State.setHive_taken (s : State) (h : Fin 144) (v : Hive) : (s.setHive h v).taken = s.taken := rfl
@[simp] theorem State.setHive_bins (s : State) (h : Fin 144) (v : Hive) : (s.setHive h v).bins = s.bins := rfl
@[simp] theorem State.setHive_flight (s : State) (h : Fin 144) (v : Hive) : (s.setHive h v).flight = s.flight := rfl
@[simp] theorem State.setHive_barInsts (s : State) (h : Fin 144) (v : Hive) : (s.setHive h v).barInsts = s.barInsts := rfl
@[simp] theorem State.setHive_migrations (s : State) (h : Fin 144) (v : Hive) : (s.setHive h v).migrations = s.migrations := rfl
@[simp] theorem State.setHive_lastMig (s : State) (h : Fin 144) (v : Hive) : (s.setHive h v).lastMig = s.lastMig := rfl
@[simp] theorem State.setHive_pageReqs (s : State) (h : Fin 144) (v : Hive) : (s.setHive h v).pageReqs = s.pageReqs := rfl
@[simp] theorem State.setHive_sweeps (s : State) (h : Fin 144) (v : Hive) : (s.setHive h v).sweeps = s.sweeps := rfl
@[simp] theorem State.setHive_props (s : State) (h : Fin 144) (v : Hive) : (s.setHive h v).props = s.props := rfl
@[simp] theorem State.setHive_ringMsgs (s : State) (h : Fin 144) (v : Hive) : (s.setHive h v).ringMsgs = s.ringMsgs := rfl
@[simp] theorem State.setHive_events (s : State) (h : Fin 144) (v : Hive) : (s.setHive h v).events = s.events := rfl
@[simp] theorem State.setHive_nextNo (s : State) (h : Fin 144) (v : Hive) : (s.setHive h v).nextNo = s.nextNo := rfl
@[simp] theorem State.setHive_ctxDesc (s : State) (h : Fin 144) (v : Hive) : (s.setHive h v).ctxDesc = s.ctxDesc := rfl
@[simp] theorem State.setHive_ctxRes (s : State) (h : Fin 144) (v : Hive) : (s.setHive h v).ctxRes = s.ctxRes := rfl
@[simp] theorem State.setHive_cmd (s : State) (h : Fin 144) (v : Hive) : (s.setHive h v).cmd = s.cmd := rfl
@[simp] theorem State.setHive_winBase (s : State) (h : Fin 144) (v : Hive) : (s.setHive h v).winBase = s.winBase := rfl
@[simp] theorem State.setHive_lqOvf (s : State) (h : Fin 144) (v : Hive) : (s.setHive h v).lqOvf = s.lqOvf := rfl
@[simp] theorem State.setHive_timeCtl (s : State) (h : Fin 144) (v : Hive) : (s.setHive h v).timeCtl = s.timeCtl := rfl
@[simp] theorem State.setHive_podCfg (s : State) (h : Fin 144) (v : Hive) : (s.setHive h v).podCfg = s.podCfg := rfl
@[simp] theorem State.setHive_portPart (s : State) (h : Fin 144) (v : Hive) : (s.setHive h v).portPart = s.portPart := rfl
@[simp] theorem State.setHive_route (s : State) (h : Fin 144) (v : Hive) : (s.setHive h v).route = s.route := rfl
@[simp] theorem State.setHive_peerLive (s : State) (h : Fin 144) (v : Hive) : (s.setHive h v).peerLive = s.peerLive := rfl
@[simp] theorem State.setHive_linkLost (s : State) (h : Fin 144) (v : Hive) : (s.setHive h v).linkLost = s.linkLost := rfl
@[simp] theorem State.setHive_linkDenied (s : State) (h : Fin 144) (v : Hive) : (s.setHive h v).linkDenied = s.linkDenied := rfl
@[simp] theorem State.setHive_ports (s : State) (h : Fin 144) (v : Hive) : (s.setHive h v).ports = s.ports := rfl
@[simp] theorem State.setHive_linkA (s : State) (h : Fin 144) (v : Hive) : (s.setHive h v).linkA = s.linkA := rfl
@[simp] theorem State.setHive_linkB (s : State) (h : Fin 144) (v : Hive) : (s.setHive h v).linkB = s.linkB := rfl
@[simp] theorem State.setHive_msixLast (s : State) (h : Fin 144) (v : Hive) : (s.setHive h v).msixLast = s.msixLast := rfl
@[simp] theorem State.setHive_msixWait (s : State) (h : Fin 144) (v : Hive) : (s.setHive h v).msixWait = s.msixWait := rfl
@[simp] theorem State.setHive_msixSent (s : State) (h : Fin 144) (v : Hive) : (s.setHive h v).msixSent = s.msixSent := rfl
@[simp] theorem State.setHive_hostReply (s : State) (h : Fin 144) (v : Hive) : (s.setHive h v).hostReply = s.hostReply := rfl
@[simp] theorem State.setHive_peerReply (s : State) (h : Fin 144) (v : Hive) : (s.setHive h v).peerReply = s.peerReply := rfl
@[simp] theorem State.setHive_dtime9 (s : State) (h : Fin 144) (v : Hive) : (s.setHive h v).dtime9 = s.dtime9 := rfl
@[simp] theorem State.setHive_timeLock (s : State) (h : Fin 144) (v : Hive) : (s.setHive h v).timeLock = s.timeLock := rfl
@[simp] theorem State.setHive_holdover (s : State) (h : Fin 144) (v : Hive) : (s.setHive h v).holdover = s.holdover := rfl
@[simp] theorem State.setHive_stepped (s : State) (h : Fin 144) (v : Hive) : (s.setHive h v).stepped = s.stepped := rfl
@[simp] theorem State.setHive_timeOff (s : State) (h : Fin 144) (v : Hive) : (s.setHive h v).timeOff = s.timeOff := rfl
@[simp] theorem State.setHive_slew9 (s : State) (h : Fin 144) (v : Hive) : (s.setHive h v).slew9 = s.slew9 := rfl
@[simp] theorem State.setHive_parts (s : State) (h : Fin 144) (v : Hive) : (s.setHive h v).parts = s.parts := rfl
@[simp] theorem State.setHive_partReset (s : State) (h : Fin 144) (v : Hive) : (s.setHive h v).partReset = s.partReset := rfl
@[simp] theorem State.setHive_telemetry (s : State) (h : Fin 144) (v : Hive) : (s.setHive h v).telemetry = s.telemetry := rfl
@[simp] theorem State.setHive_flashTele (s : State) (h : Fin 144) (v : Hive) : (s.setHive h v).flashTele = s.flashTele := rfl
@[simp] theorem State.setHive_fwSlots (s : State) (h : Fin 144) (v : Hive) : (s.setHive h v).fwSlots = s.fwSlots := rfl
@[simp] theorem State.setHive_fwActive (s : State) (h : Fin 144) (v : Hive) : (s.setHive h v).fwActive = s.fwActive := rfl
@[simp] theorem State.setHive_fwStaged (s : State) (h : Fin 144) (v : Hive) : (s.setHive h v).fwStaged = s.fwStaged := rfl
@[simp] theorem State.setHive_bootSlot (s : State) (h : Fin 144) (v : Hive) : (s.setHive h v).bootSlot = s.bootSlot := rfl
@[simp] theorem State.setHive_fuseVersion (s : State) (h : Fin 144) (v : Hive) : (s.setHive h v).fuseVersion = s.fuseVersion := rfl
@[simp] theorem State.setHive_reports (s : State) (h : Fin 144) (v : Hive) : (s.setHive h v).reports = s.reports := rfl
@[simp] theorem State.setHive_mgmtReply (s : State) (h : Fin 144) (v : Hive) : (s.setHive h v).mgmtReply = s.mgmtReply := rfl
@[simp] theorem State.setHive_before (s : State) (h : Fin 144) (v : Hive) : (s.setHive h v).before = s.before := rfl
@[simp] theorem State.setHive_early (s : State) (h : Fin 144) (v : Hive) : (s.setHive h v).early = s.early := rfl
@[simp] theorem State.setHive_cxlA (s : State) (h : Fin 144) (v : Hive) : (s.setHive h v).cxlA = s.cxlA := rfl
@[simp] theorem State.setHive_cxlB (s : State) (h : Fin 144) (v : Hive) : (s.setHive h v).cxlB = s.cxlB := rfl
@[simp] theorem State.setHive_outgoing (s : State) (h : Fin 144) (v : Hive) : (s.setHive h v).outgoing = s.outgoing := rfl
@[simp] theorem State.setHive_hourPart (s : State) (h : Fin 144) (v : Hive) : (s.setHive h v).hourPart = s.hourPart := rfl
@[simp] theorem State.setHive_fuseKey (s : State) (h : Fin 144) (v : Hive) : (s.setHive h v).fuseKey = s.fuseKey := rfl

@[simp] theorem State.advance_pulse (s : State) : (s.advance).pulse = s.pulse := rfl
@[simp] theorem State.advance_free (s : State) : (s.advance).free = s.free := rfl
@[simp] theorem State.advance_inputs (s : State) : (s.advance).inputs = s.inputs := rfl
@[simp] theorem State.advance_powered (s : State) : (s.advance).powered = s.powered := rfl
@[simp] theorem State.advance_swallowed (s : State) : (s.advance).swallowed = s.swallowed := rfl
@[simp] theorem State.advance_gated (s : State) : (s.advance).gated = s.gated := rfl
@[simp] theorem State.advance_cores (s : State) : (s.advance).cores = s.cores := rfl
@[simp] theorem State.advance_ctxs (s : State) : (s.advance).ctxs = s.ctxs := rfl
@[simp] theorem State.advance_hives (s : State) : (s.advance).hives = s.hives := rfl
@[simp] theorem State.advance_mem (s : State) : (s.advance).mem = s.mem := rfl
@[simp] theorem State.advance_peerCombs (s : State) : (s.advance).peerCombs = s.peerCombs := rfl
@[simp] theorem State.advance_poisoned (s : State) : (s.advance).poisoned = s.poisoned := rfl
@[simp] theorem State.advance_window (s : State) : (s.advance).window = s.window := rfl
@[simp] theorem State.advance_taken (s : State) : (s.advance).taken = s.taken := rfl
@[simp] theorem State.advance_bins (s : State) : (s.advance).bins = s.bins := rfl
@[simp] theorem State.advance_flight (s : State) : (s.advance).flight = s.flight := rfl
@[simp] theorem State.advance_barInsts (s : State) : (s.advance).barInsts = s.barInsts := rfl
@[simp] theorem State.advance_migrations (s : State) : (s.advance).migrations = s.migrations := rfl
@[simp] theorem State.advance_lastMig (s : State) : (s.advance).lastMig = s.lastMig := rfl
@[simp] theorem State.advance_pageReqs (s : State) : (s.advance).pageReqs = s.pageReqs := rfl
@[simp] theorem State.advance_sweeps (s : State) : (s.advance).sweeps = s.sweeps := rfl
@[simp] theorem State.advance_props (s : State) : (s.advance).props = s.props := rfl
@[simp] theorem State.advance_ringMsgs (s : State) : (s.advance).ringMsgs = s.ringMsgs := rfl
@[simp] theorem State.advance_events (s : State) : (s.advance).events = s.events := rfl
@[simp] theorem State.advance_nextNo (s : State) : (s.advance).nextNo = s.nextNo := rfl
@[simp] theorem State.advance_ctxDesc (s : State) : (s.advance).ctxDesc = s.ctxDesc := rfl
@[simp] theorem State.advance_ctxRes (s : State) : (s.advance).ctxRes = s.ctxRes := rfl
@[simp] theorem State.advance_cmd (s : State) : (s.advance).cmd = s.cmd := rfl
@[simp] theorem State.advance_winBase (s : State) : (s.advance).winBase = s.winBase := rfl
@[simp] theorem State.advance_lqOvf (s : State) : (s.advance).lqOvf = s.lqOvf := rfl
@[simp] theorem State.advance_timeCtl (s : State) : (s.advance).timeCtl = s.timeCtl := rfl
@[simp] theorem State.advance_podCfg (s : State) : (s.advance).podCfg = s.podCfg := rfl
@[simp] theorem State.advance_portPart (s : State) : (s.advance).portPart = s.portPart := rfl
@[simp] theorem State.advance_route (s : State) : (s.advance).route = s.route := rfl
@[simp] theorem State.advance_peerLive (s : State) : (s.advance).peerLive = s.peerLive := rfl
@[simp] theorem State.advance_linkLost (s : State) : (s.advance).linkLost = s.linkLost := rfl
@[simp] theorem State.advance_linkDenied (s : State) : (s.advance).linkDenied = s.linkDenied := rfl
@[simp] theorem State.advance_ports (s : State) : (s.advance).ports = s.ports := rfl
@[simp] theorem State.advance_linkA (s : State) : (s.advance).linkA = s.linkA := rfl
@[simp] theorem State.advance_linkB (s : State) : (s.advance).linkB = s.linkB := rfl
@[simp] theorem State.advance_msixLast (s : State) : (s.advance).msixLast = s.msixLast := rfl
@[simp] theorem State.advance_msixWait (s : State) : (s.advance).msixWait = s.msixWait := rfl
@[simp] theorem State.advance_msixSent (s : State) : (s.advance).msixSent = s.msixSent := rfl
@[simp] theorem State.advance_hostReply (s : State) : (s.advance).hostReply = s.hostReply := rfl
@[simp] theorem State.advance_peerReply (s : State) : (s.advance).peerReply = s.peerReply := rfl
@[simp] theorem State.advance_dtime9 (s : State) : (s.advance).dtime9 = s.dtime9 := rfl
@[simp] theorem State.advance_timeLock (s : State) : (s.advance).timeLock = s.timeLock := rfl
@[simp] theorem State.advance_holdover (s : State) : (s.advance).holdover = s.holdover := rfl
@[simp] theorem State.advance_stepped (s : State) : (s.advance).stepped = s.stepped := rfl
@[simp] theorem State.advance_timeOff (s : State) : (s.advance).timeOff = s.timeOff := rfl
@[simp] theorem State.advance_slew9 (s : State) : (s.advance).slew9 = s.slew9 := rfl
@[simp] theorem State.advance_parts (s : State) : (s.advance).parts = s.parts := rfl
@[simp] theorem State.advance_partReset (s : State) : (s.advance).partReset = s.partReset := rfl
@[simp] theorem State.advance_telemetry (s : State) : (s.advance).telemetry = s.telemetry := rfl
@[simp] theorem State.advance_flashTele (s : State) : (s.advance).flashTele = s.flashTele := rfl
@[simp] theorem State.advance_fwSlots (s : State) : (s.advance).fwSlots = s.fwSlots := rfl
@[simp] theorem State.advance_fwActive (s : State) : (s.advance).fwActive = s.fwActive := rfl
@[simp] theorem State.advance_fwStaged (s : State) : (s.advance).fwStaged = s.fwStaged := rfl
@[simp] theorem State.advance_bootSlot (s : State) : (s.advance).bootSlot = s.bootSlot := rfl
@[simp] theorem State.advance_fuseVersion (s : State) : (s.advance).fuseVersion = s.fuseVersion := rfl
@[simp] theorem State.advance_reports (s : State) : (s.advance).reports = s.reports := rfl
@[simp] theorem State.advance_mgmtReply (s : State) : (s.advance).mgmtReply = s.mgmtReply := rfl
@[simp] theorem State.advance_before (s : State) : (s.advance).before = s.before := rfl
@[simp] theorem State.advance_early (s : State) : (s.advance).early = s.early := rfl
@[simp] theorem State.advance_cxlA (s : State) : (s.advance).cxlA = s.cxlA := rfl
@[simp] theorem State.advance_cxlB (s : State) : (s.advance).cxlB = s.cxlB := rfl
@[simp] theorem State.advance_outgoing (s : State) : (s.advance).outgoing = s.outgoing := rfl
@[simp] theorem State.advance_hourPart (s : State) : (s.advance).hourPart = s.hourPart := rfl
@[simp] theorem State.advance_fuseKey (s : State) : (s.advance).fuseKey = s.fuseKey := rfl

/-! ### Updates of a core -/

@[simp] theorem Core.setSeq_id (c : Core) (q : Seq) (r : Seqr) : (c.setSeq q r).id = c.id := rfl
@[simp] theorem Core.setSeq_born (c : Core) (q : Seq) (r : Seqr) : (c.setSeq q r).born = c.born := rfl
@[simp] theorem Core.setSeq_handlerBank (c : Core) (q : Seq) (r : Seqr) : (c.setSeq q r).handlerBank = c.handlerBank := rfl
@[simp] theorem Core.setSeq_handlerTags (c : Core) (q : Seq) (r : Seqr) : (c.setSeq q r).handlerTags = c.handlerTags := rfl
@[simp] theorem Core.setSeq_handlerPc (c : Core) (q : Seq) (r : Seqr) : (c.setSeq q r).handlerPc = c.handlerPc := rfl
@[simp] theorem Core.setSeq_seqSnap (c : Core) (q : Seq) (r : Seqr) : (c.setSeq q r).seqSnap = c.seqSnap := rfl
@[simp] theorem Core.setSeq_inHandler (c : Core) (q : Seq) (r : Seqr) : (c.setSeq q r).inHandler = c.inHandler := rfl
@[simp] theorem Core.setSeq_trapVec (c : Core) (q : Seq) (r : Seqr) : (c.setSeq q r).trapVec = c.trapVec := rfl
@[simp] theorem Core.setSeq_trapCause (c : Core) (q : Seq) (r : Seqr) : (c.setSeq q r).trapCause = c.trapCause := rfl
@[simp] theorem Core.setSeq_trapPc (c : Core) (q : Seq) (r : Seqr) : (c.setSeq q r).trapPc = c.trapPc := rfl
@[simp] theorem Core.setSeq_trapEng (c : Core) (q : Seq) (r : Seqr) : (c.setSeq q r).trapEng = c.trapEng := rfl
@[simp] theorem Core.setSeq_trapInfo (c : Core) (q : Seq) (r : Seqr) : (c.setSeq q r).trapInfo = c.trapInfo := rfl
@[simp] theorem Core.setSeq_raised (c : Core) (q : Seq) (r : Seqr) : (c.setSeq q r).raised = c.raised := rfl
@[simp] theorem Core.setSeq_pending (c : Core) (q : Seq) (r : Seqr) : (c.setSeq q r).pending = c.pending := rfl
@[simp] theorem Core.setSeq_stop (c : Core) (q : Seq) (r : Seqr) : (c.setSeq q r).stop = c.stop := rfl
@[simp] theorem Core.setSeq_waitingStop (c : Core) (q : Seq) (r : Seqr) : (c.setSeq q r).waitingStop = c.waitingStop := rfl
@[simp] theorem Core.setSeq_deadlock (c : Core) (q : Seq) (r : Seqr) : (c.setSeq q r).deadlock = c.deadlock := rfl
@[simp] theorem Core.setSeq_tiles (c : Core) (q : Seq) (r : Seqr) : (c.setSeq q r).tiles = c.tiles := rfl
@[simp] theorem Core.setSeq_masks (c : Core) (q : Seq) (r : Seqr) : (c.setSeq q r).masks = c.masks := rfl
@[simp] theorem Core.setSeq_preds (c : Core) (q : Seq) (r : Seqr) : (c.setSeq q r).preds = c.preds := rfl
@[simp] theorem Core.setSeq_amax (c : Core) (q : Seq) (r : Seqr) : (c.setSeq q r).amax = c.amax := rfl
@[simp] theorem Core.setSeq_handles (c : Core) (q : Seq) (r : Seqr) : (c.setSeq q r).handles = c.handles := rfl
@[simp] theorem Core.setSeq_tqcnt (c : Core) (q : Seq) (r : Seqr) : (c.setSeq q r).tqcnt = c.tqcnt := rfl
@[simp] theorem Core.setSeq_tqSnap (c : Core) (q : Seq) (r : Seqr) : (c.setSeq q r).tqSnap = c.tqSnap := rfl
@[simp] theorem Core.setSeq_tqceil (c : Core) (q : Seq) (r : Seqr) : (c.setSeq q r).tqceil = c.tqceil := rfl
@[simp] theorem Core.setSeq_rings (c : Core) (q : Seq) (r : Seqr) : (c.setSeq q r).rings = c.rings := rfl
@[simp] theorem Core.setSeq_ringSnap (c : Core) (q : Seq) (r : Seqr) : (c.setSeq q r).ringSnap = c.ringSnap := rfl
@[simp] theorem Core.setSeq_inQ (c : Core) (q : Seq) (r : Seqr) : (c.setSeq q r).inQ = c.inQ := rfl
@[simp] theorem Core.setSeq_outQ (c : Core) (q : Seq) (r : Seqr) : (c.setSeq q r).outQ = c.outQ := rfl
@[simp] theorem Core.setSeq_comb (c : Core) (q : Seq) (r : Seqr) : (c.setSeq q r).comb = c.comb := rfl
@[simp] theorem Core.setSeq_filter (c : Core) (q : Seq) (r : Seqr) : (c.setSeq q r).filter = c.filter := rfl
@[simp] theorem Core.setSeq_shadow (c : Core) (q : Seq) (r : Seqr) : (c.setSeq q r).shadow = c.shadow := rfl
@[simp] theorem Core.setSeq_active (c : Core) (q : Seq) (r : Seqr) : (c.setSeq q r).active = c.active := rfl
@[simp] theorem Core.setSeq_acc (c : Core) (q : Seq) (r : Seqr) : (c.setSeq q r).acc = c.acc := rfl
@[simp] theorem Core.setSeq_accDirty (c : Core) (q : Seq) (r : Seqr) : (c.setSeq q r).accDirty = c.accDirty := rfl
@[simp] theorem Core.setSeq_arrFlag (c : Core) (q : Seq) (r : Seqr) : (c.setSeq q r).arrFlag = c.arrFlag := rfl
@[simp] theorem Core.setSeq_slots (c : Core) (q : Seq) (r : Seqr) : (c.setSeq q r).slots = c.slots := rfl
@[simp] theorem Core.setSeq_grpBerr (c : Core) (q : Seq) (r : Seqr) : (c.setSeq q r).grpBerr = c.grpBerr := rfl
@[simp] theorem Core.setSeq_bars (c : Core) (q : Seq) (r : Seqr) : (c.setSeq q r).bars = c.bars := rfl
@[simp] theorem Core.setSeq_acts (c : Core) (q : Seq) (r : Seqr) : (c.setSeq q r).acts = c.acts := rfl
@[simp] theorem Core.setSeq_nextAct (c : Core) (q : Seq) (r : Seqr) : (c.setSeq q r).nextAct = c.nextAct := rfl
@[simp] theorem Core.setSeq_task (c : Core) (q : Seq) (r : Seqr) : (c.setSeq q r).task = c.task := rfl
@[simp] theorem Core.setSeq_scopes (c : Core) (q : Seq) (r : Seqr) : (c.setSeq q r).scopes = c.scopes := rfl
@[simp] theorem Core.setSeq_dcf (c : Core) (q : Seq) (r : Seqr) : (c.setSeq q r).dcf = c.dcf := rfl
@[simp] theorem Core.setSeq_cstep (c : Core) (q : Seq) (r : Seqr) : (c.setSeq q r).cstep = c.cstep := rfl
@[simp] theorem Core.setSeq_ports (c : Core) (q : Seq) (r : Seqr) : (c.setSeq q r).ports = c.ports := rfl
@[simp] theorem Core.setSeq_grpAt (c : Core) (q : Seq) (r : Seqr) : (c.setSeq q r).grpAt = c.grpAt := rfl

@[simp] theorem Core.setTile_id (c : Core) (t : TReg) (b : List Byte) : (c.setTile t b).id = c.id := rfl
@[simp] theorem Core.setTile_born (c : Core) (t : TReg) (b : List Byte) : (c.setTile t b).born = c.born := rfl
@[simp] theorem Core.setTile_seqs (c : Core) (t : TReg) (b : List Byte) : (c.setTile t b).seqs = c.seqs := rfl
@[simp] theorem Core.setTile_handlerBank (c : Core) (t : TReg) (b : List Byte) : (c.setTile t b).handlerBank = c.handlerBank := rfl
@[simp] theorem Core.setTile_handlerTags (c : Core) (t : TReg) (b : List Byte) : (c.setTile t b).handlerTags = c.handlerTags := rfl
@[simp] theorem Core.setTile_handlerPc (c : Core) (t : TReg) (b : List Byte) : (c.setTile t b).handlerPc = c.handlerPc := rfl
@[simp] theorem Core.setTile_seqSnap (c : Core) (t : TReg) (b : List Byte) : (c.setTile t b).seqSnap = c.seqSnap := rfl
@[simp] theorem Core.setTile_inHandler (c : Core) (t : TReg) (b : List Byte) : (c.setTile t b).inHandler = c.inHandler := rfl
@[simp] theorem Core.setTile_trapVec (c : Core) (t : TReg) (b : List Byte) : (c.setTile t b).trapVec = c.trapVec := rfl
@[simp] theorem Core.setTile_trapCause (c : Core) (t : TReg) (b : List Byte) : (c.setTile t b).trapCause = c.trapCause := rfl
@[simp] theorem Core.setTile_trapPc (c : Core) (t : TReg) (b : List Byte) : (c.setTile t b).trapPc = c.trapPc := rfl
@[simp] theorem Core.setTile_trapEng (c : Core) (t : TReg) (b : List Byte) : (c.setTile t b).trapEng = c.trapEng := rfl
@[simp] theorem Core.setTile_trapInfo (c : Core) (t : TReg) (b : List Byte) : (c.setTile t b).trapInfo = c.trapInfo := rfl
@[simp] theorem Core.setTile_raised (c : Core) (t : TReg) (b : List Byte) : (c.setTile t b).raised = c.raised := rfl
@[simp] theorem Core.setTile_pending (c : Core) (t : TReg) (b : List Byte) : (c.setTile t b).pending = c.pending := rfl
@[simp] theorem Core.setTile_stop (c : Core) (t : TReg) (b : List Byte) : (c.setTile t b).stop = c.stop := rfl
@[simp] theorem Core.setTile_waitingStop (c : Core) (t : TReg) (b : List Byte) : (c.setTile t b).waitingStop = c.waitingStop := rfl
@[simp] theorem Core.setTile_deadlock (c : Core) (t : TReg) (b : List Byte) : (c.setTile t b).deadlock = c.deadlock := rfl
@[simp] theorem Core.setTile_masks (c : Core) (t : TReg) (b : List Byte) : (c.setTile t b).masks = c.masks := rfl
@[simp] theorem Core.setTile_preds (c : Core) (t : TReg) (b : List Byte) : (c.setTile t b).preds = c.preds := rfl
@[simp] theorem Core.setTile_amax (c : Core) (t : TReg) (b : List Byte) : (c.setTile t b).amax = c.amax := rfl
@[simp] theorem Core.setTile_handles (c : Core) (t : TReg) (b : List Byte) : (c.setTile t b).handles = c.handles := rfl
@[simp] theorem Core.setTile_tqcnt (c : Core) (t : TReg) (b : List Byte) : (c.setTile t b).tqcnt = c.tqcnt := rfl
@[simp] theorem Core.setTile_tqSnap (c : Core) (t : TReg) (b : List Byte) : (c.setTile t b).tqSnap = c.tqSnap := rfl
@[simp] theorem Core.setTile_tqceil (c : Core) (t : TReg) (b : List Byte) : (c.setTile t b).tqceil = c.tqceil := rfl
@[simp] theorem Core.setTile_rings (c : Core) (t : TReg) (b : List Byte) : (c.setTile t b).rings = c.rings := rfl
@[simp] theorem Core.setTile_ringSnap (c : Core) (t : TReg) (b : List Byte) : (c.setTile t b).ringSnap = c.ringSnap := rfl
@[simp] theorem Core.setTile_inQ (c : Core) (t : TReg) (b : List Byte) : (c.setTile t b).inQ = c.inQ := rfl
@[simp] theorem Core.setTile_outQ (c : Core) (t : TReg) (b : List Byte) : (c.setTile t b).outQ = c.outQ := rfl
@[simp] theorem Core.setTile_comb (c : Core) (t : TReg) (b : List Byte) : (c.setTile t b).comb = c.comb := rfl
@[simp] theorem Core.setTile_filter (c : Core) (t : TReg) (b : List Byte) : (c.setTile t b).filter = c.filter := rfl
@[simp] theorem Core.setTile_shadow (c : Core) (t : TReg) (b : List Byte) : (c.setTile t b).shadow = c.shadow := rfl
@[simp] theorem Core.setTile_active (c : Core) (t : TReg) (b : List Byte) : (c.setTile t b).active = c.active := rfl
@[simp] theorem Core.setTile_acc (c : Core) (t : TReg) (b : List Byte) : (c.setTile t b).acc = c.acc := rfl
@[simp] theorem Core.setTile_accDirty (c : Core) (t : TReg) (b : List Byte) : (c.setTile t b).accDirty = c.accDirty := rfl
@[simp] theorem Core.setTile_arrFlag (c : Core) (t : TReg) (b : List Byte) : (c.setTile t b).arrFlag = c.arrFlag := rfl
@[simp] theorem Core.setTile_slots (c : Core) (t : TReg) (b : List Byte) : (c.setTile t b).slots = c.slots := rfl
@[simp] theorem Core.setTile_grpBerr (c : Core) (t : TReg) (b : List Byte) : (c.setTile t b).grpBerr = c.grpBerr := rfl
@[simp] theorem Core.setTile_bars (c : Core) (t : TReg) (b : List Byte) : (c.setTile t b).bars = c.bars := rfl
@[simp] theorem Core.setTile_acts (c : Core) (t : TReg) (b : List Byte) : (c.setTile t b).acts = c.acts := rfl
@[simp] theorem Core.setTile_nextAct (c : Core) (t : TReg) (b : List Byte) : (c.setTile t b).nextAct = c.nextAct := rfl
@[simp] theorem Core.setTile_task (c : Core) (t : TReg) (b : List Byte) : (c.setTile t b).task = c.task := rfl
@[simp] theorem Core.setTile_scopes (c : Core) (t : TReg) (b : List Byte) : (c.setTile t b).scopes = c.scopes := rfl
@[simp] theorem Core.setTile_dcf (c : Core) (t : TReg) (b : List Byte) : (c.setTile t b).dcf = c.dcf := rfl
@[simp] theorem Core.setTile_cstep (c : Core) (t : TReg) (b : List Byte) : (c.setTile t b).cstep = c.cstep := rfl
@[simp] theorem Core.setTile_ports (c : Core) (t : TReg) (b : List Byte) : (c.setTile t b).ports = c.ports := rfl
@[simp] theorem Core.setTile_grpAt (c : Core) (t : TReg) (b : List Byte) : (c.setTile t b).grpAt = c.grpAt := rfl

@[simp] theorem Core.setTokens_id (c : Core) (a b : Seq) (n : Nat) : (c.setTokens a b n).id = c.id := rfl
@[simp] theorem Core.setTokens_born (c : Core) (a b : Seq) (n : Nat) : (c.setTokens a b n).born = c.born := rfl
@[simp] theorem Core.setTokens_seqs (c : Core) (a b : Seq) (n : Nat) : (c.setTokens a b n).seqs = c.seqs := rfl
@[simp] theorem Core.setTokens_handlerBank (c : Core) (a b : Seq) (n : Nat) : (c.setTokens a b n).handlerBank = c.handlerBank := rfl
@[simp] theorem Core.setTokens_handlerTags (c : Core) (a b : Seq) (n : Nat) : (c.setTokens a b n).handlerTags = c.handlerTags := rfl
@[simp] theorem Core.setTokens_handlerPc (c : Core) (a b : Seq) (n : Nat) : (c.setTokens a b n).handlerPc = c.handlerPc := rfl
@[simp] theorem Core.setTokens_seqSnap (c : Core) (a b : Seq) (n : Nat) : (c.setTokens a b n).seqSnap = c.seqSnap := rfl
@[simp] theorem Core.setTokens_inHandler (c : Core) (a b : Seq) (n : Nat) : (c.setTokens a b n).inHandler = c.inHandler := rfl
@[simp] theorem Core.setTokens_trapVec (c : Core) (a b : Seq) (n : Nat) : (c.setTokens a b n).trapVec = c.trapVec := rfl
@[simp] theorem Core.setTokens_trapCause (c : Core) (a b : Seq) (n : Nat) : (c.setTokens a b n).trapCause = c.trapCause := rfl
@[simp] theorem Core.setTokens_trapPc (c : Core) (a b : Seq) (n : Nat) : (c.setTokens a b n).trapPc = c.trapPc := rfl
@[simp] theorem Core.setTokens_trapEng (c : Core) (a b : Seq) (n : Nat) : (c.setTokens a b n).trapEng = c.trapEng := rfl
@[simp] theorem Core.setTokens_trapInfo (c : Core) (a b : Seq) (n : Nat) : (c.setTokens a b n).trapInfo = c.trapInfo := rfl
@[simp] theorem Core.setTokens_raised (c : Core) (a b : Seq) (n : Nat) : (c.setTokens a b n).raised = c.raised := rfl
@[simp] theorem Core.setTokens_pending (c : Core) (a b : Seq) (n : Nat) : (c.setTokens a b n).pending = c.pending := rfl
@[simp] theorem Core.setTokens_stop (c : Core) (a b : Seq) (n : Nat) : (c.setTokens a b n).stop = c.stop := rfl
@[simp] theorem Core.setTokens_waitingStop (c : Core) (a b : Seq) (n : Nat) : (c.setTokens a b n).waitingStop = c.waitingStop := rfl
@[simp] theorem Core.setTokens_deadlock (c : Core) (a b : Seq) (n : Nat) : (c.setTokens a b n).deadlock = c.deadlock := rfl
@[simp] theorem Core.setTokens_tiles (c : Core) (a b : Seq) (n : Nat) : (c.setTokens a b n).tiles = c.tiles := rfl
@[simp] theorem Core.setTokens_masks (c : Core) (a b : Seq) (n : Nat) : (c.setTokens a b n).masks = c.masks := rfl
@[simp] theorem Core.setTokens_preds (c : Core) (a b : Seq) (n : Nat) : (c.setTokens a b n).preds = c.preds := rfl
@[simp] theorem Core.setTokens_amax (c : Core) (a b : Seq) (n : Nat) : (c.setTokens a b n).amax = c.amax := rfl
@[simp] theorem Core.setTokens_handles (c : Core) (a b : Seq) (n : Nat) : (c.setTokens a b n).handles = c.handles := rfl
@[simp] theorem Core.setTokens_tqSnap (c : Core) (a b : Seq) (n : Nat) : (c.setTokens a b n).tqSnap = c.tqSnap := rfl
@[simp] theorem Core.setTokens_tqceil (c : Core) (a b : Seq) (n : Nat) : (c.setTokens a b n).tqceil = c.tqceil := rfl
@[simp] theorem Core.setTokens_rings (c : Core) (a b : Seq) (n : Nat) : (c.setTokens a b n).rings = c.rings := rfl
@[simp] theorem Core.setTokens_ringSnap (c : Core) (a b : Seq) (n : Nat) : (c.setTokens a b n).ringSnap = c.ringSnap := rfl
@[simp] theorem Core.setTokens_inQ (c : Core) (a b : Seq) (n : Nat) : (c.setTokens a b n).inQ = c.inQ := rfl
@[simp] theorem Core.setTokens_outQ (c : Core) (a b : Seq) (n : Nat) : (c.setTokens a b n).outQ = c.outQ := rfl
@[simp] theorem Core.setTokens_comb (c : Core) (a b : Seq) (n : Nat) : (c.setTokens a b n).comb = c.comb := rfl
@[simp] theorem Core.setTokens_filter (c : Core) (a b : Seq) (n : Nat) : (c.setTokens a b n).filter = c.filter := rfl
@[simp] theorem Core.setTokens_shadow (c : Core) (a b : Seq) (n : Nat) : (c.setTokens a b n).shadow = c.shadow := rfl
@[simp] theorem Core.setTokens_active (c : Core) (a b : Seq) (n : Nat) : (c.setTokens a b n).active = c.active := rfl
@[simp] theorem Core.setTokens_acc (c : Core) (a b : Seq) (n : Nat) : (c.setTokens a b n).acc = c.acc := rfl
@[simp] theorem Core.setTokens_accDirty (c : Core) (a b : Seq) (n : Nat) : (c.setTokens a b n).accDirty = c.accDirty := rfl
@[simp] theorem Core.setTokens_arrFlag (c : Core) (a b : Seq) (n : Nat) : (c.setTokens a b n).arrFlag = c.arrFlag := rfl
@[simp] theorem Core.setTokens_slots (c : Core) (a b : Seq) (n : Nat) : (c.setTokens a b n).slots = c.slots := rfl
@[simp] theorem Core.setTokens_grpBerr (c : Core) (a b : Seq) (n : Nat) : (c.setTokens a b n).grpBerr = c.grpBerr := rfl
@[simp] theorem Core.setTokens_bars (c : Core) (a b : Seq) (n : Nat) : (c.setTokens a b n).bars = c.bars := rfl
@[simp] theorem Core.setTokens_acts (c : Core) (a b : Seq) (n : Nat) : (c.setTokens a b n).acts = c.acts := rfl
@[simp] theorem Core.setTokens_nextAct (c : Core) (a b : Seq) (n : Nat) : (c.setTokens a b n).nextAct = c.nextAct := rfl
@[simp] theorem Core.setTokens_task (c : Core) (a b : Seq) (n : Nat) : (c.setTokens a b n).task = c.task := rfl
@[simp] theorem Core.setTokens_scopes (c : Core) (a b : Seq) (n : Nat) : (c.setTokens a b n).scopes = c.scopes := rfl
@[simp] theorem Core.setTokens_dcf (c : Core) (a b : Seq) (n : Nat) : (c.setTokens a b n).dcf = c.dcf := rfl
@[simp] theorem Core.setTokens_cstep (c : Core) (a b : Seq) (n : Nat) : (c.setTokens a b n).cstep = c.cstep := rfl
@[simp] theorem Core.setTokens_ports (c : Core) (a b : Seq) (n : Nat) : (c.setTokens a b n).ports = c.ports := rfl
@[simp] theorem Core.setTokens_grpAt (c : Core) (a b : Seq) (n : Nat) : (c.setTokens a b n).grpAt = c.grpAt := rfl

@[simp] theorem Core.setAct_id (c : Core) (a : Act) : (c.setAct a).id = c.id := rfl
@[simp] theorem Core.setAct_born (c : Core) (a : Act) : (c.setAct a).born = c.born := rfl
@[simp] theorem Core.setAct_seqs (c : Core) (a : Act) : (c.setAct a).seqs = c.seqs := rfl
@[simp] theorem Core.setAct_handlerBank (c : Core) (a : Act) : (c.setAct a).handlerBank = c.handlerBank := rfl
@[simp] theorem Core.setAct_handlerTags (c : Core) (a : Act) : (c.setAct a).handlerTags = c.handlerTags := rfl
@[simp] theorem Core.setAct_handlerPc (c : Core) (a : Act) : (c.setAct a).handlerPc = c.handlerPc := rfl
@[simp] theorem Core.setAct_seqSnap (c : Core) (a : Act) : (c.setAct a).seqSnap = c.seqSnap := rfl
@[simp] theorem Core.setAct_inHandler (c : Core) (a : Act) : (c.setAct a).inHandler = c.inHandler := rfl
@[simp] theorem Core.setAct_trapVec (c : Core) (a : Act) : (c.setAct a).trapVec = c.trapVec := rfl
@[simp] theorem Core.setAct_trapCause (c : Core) (a : Act) : (c.setAct a).trapCause = c.trapCause := rfl
@[simp] theorem Core.setAct_trapPc (c : Core) (a : Act) : (c.setAct a).trapPc = c.trapPc := rfl
@[simp] theorem Core.setAct_trapEng (c : Core) (a : Act) : (c.setAct a).trapEng = c.trapEng := rfl
@[simp] theorem Core.setAct_trapInfo (c : Core) (a : Act) : (c.setAct a).trapInfo = c.trapInfo := rfl
@[simp] theorem Core.setAct_raised (c : Core) (a : Act) : (c.setAct a).raised = c.raised := rfl
@[simp] theorem Core.setAct_pending (c : Core) (a : Act) : (c.setAct a).pending = c.pending := rfl
@[simp] theorem Core.setAct_stop (c : Core) (a : Act) : (c.setAct a).stop = c.stop := rfl
@[simp] theorem Core.setAct_waitingStop (c : Core) (a : Act) : (c.setAct a).waitingStop = c.waitingStop := rfl
@[simp] theorem Core.setAct_deadlock (c : Core) (a : Act) : (c.setAct a).deadlock = c.deadlock := rfl
@[simp] theorem Core.setAct_tiles (c : Core) (a : Act) : (c.setAct a).tiles = c.tiles := rfl
@[simp] theorem Core.setAct_masks (c : Core) (a : Act) : (c.setAct a).masks = c.masks := rfl
@[simp] theorem Core.setAct_preds (c : Core) (a : Act) : (c.setAct a).preds = c.preds := rfl
@[simp] theorem Core.setAct_amax (c : Core) (a : Act) : (c.setAct a).amax = c.amax := rfl
@[simp] theorem Core.setAct_handles (c : Core) (a : Act) : (c.setAct a).handles = c.handles := rfl
@[simp] theorem Core.setAct_tqcnt (c : Core) (a : Act) : (c.setAct a).tqcnt = c.tqcnt := rfl
@[simp] theorem Core.setAct_tqSnap (c : Core) (a : Act) : (c.setAct a).tqSnap = c.tqSnap := rfl
@[simp] theorem Core.setAct_tqceil (c : Core) (a : Act) : (c.setAct a).tqceil = c.tqceil := rfl
@[simp] theorem Core.setAct_rings (c : Core) (a : Act) : (c.setAct a).rings = c.rings := rfl
@[simp] theorem Core.setAct_ringSnap (c : Core) (a : Act) : (c.setAct a).ringSnap = c.ringSnap := rfl
@[simp] theorem Core.setAct_inQ (c : Core) (a : Act) : (c.setAct a).inQ = c.inQ := rfl
@[simp] theorem Core.setAct_outQ (c : Core) (a : Act) : (c.setAct a).outQ = c.outQ := rfl
@[simp] theorem Core.setAct_comb (c : Core) (a : Act) : (c.setAct a).comb = c.comb := rfl
@[simp] theorem Core.setAct_filter (c : Core) (a : Act) : (c.setAct a).filter = c.filter := rfl
@[simp] theorem Core.setAct_shadow (c : Core) (a : Act) : (c.setAct a).shadow = c.shadow := rfl
@[simp] theorem Core.setAct_active (c : Core) (a : Act) : (c.setAct a).active = c.active := rfl
@[simp] theorem Core.setAct_acc (c : Core) (a : Act) : (c.setAct a).acc = c.acc := rfl
@[simp] theorem Core.setAct_accDirty (c : Core) (a : Act) : (c.setAct a).accDirty = c.accDirty := rfl
@[simp] theorem Core.setAct_arrFlag (c : Core) (a : Act) : (c.setAct a).arrFlag = c.arrFlag := rfl
@[simp] theorem Core.setAct_slots (c : Core) (a : Act) : (c.setAct a).slots = c.slots := rfl
@[simp] theorem Core.setAct_grpBerr (c : Core) (a : Act) : (c.setAct a).grpBerr = c.grpBerr := rfl
@[simp] theorem Core.setAct_bars (c : Core) (a : Act) : (c.setAct a).bars = c.bars := rfl
@[simp] theorem Core.setAct_nextAct (c : Core) (a : Act) : (c.setAct a).nextAct = c.nextAct := rfl
@[simp] theorem Core.setAct_task (c : Core) (a : Act) : (c.setAct a).task = c.task := rfl
@[simp] theorem Core.setAct_scopes (c : Core) (a : Act) : (c.setAct a).scopes = c.scopes := rfl
@[simp] theorem Core.setAct_dcf (c : Core) (a : Act) : (c.setAct a).dcf = c.dcf := rfl
@[simp] theorem Core.setAct_cstep (c : Core) (a : Act) : (c.setAct a).cstep = c.cstep := rfl
@[simp] theorem Core.setAct_ports (c : Core) (a : Act) : (c.setAct a).ports = c.ports := rfl
@[simp] theorem Core.setAct_grpAt (c : Core) (a : Act) : (c.setAct a).grpAt = c.grpAt := rfl


/-! ### Where an update shows -/

theorem findCore_insertCore (l : List Core) (c : Core) (id : Nat) :
    findCore (insertCore l c) id = if id = c.id then some c else findCore l id := by
  induction l with
  | nil => simp only [insertCore, findCore, eq_comm]
  | cons d t ih =>
    simp only [insertCore]
    split
    · rename_i hlt
      simp only [findCore, ih]
      split
      · rename_i hd
        rw [if_neg (by omega)]
      · rfl
    · split
      · rename_i _ hd
        simp only [findCore]
        by_cases hc : id = c.id
        · simp [hc]
        · rw [if_neg (fun h => hc h.symm), if_neg hc, if_neg (by omega)]
      · simp only [findCore]
        by_cases hc : id = c.id
        · simp [hc]
        · rw [if_neg (fun h => hc h.symm), if_neg hc]

/-- Core `id` after core `c.id` is set to `c`. -/
theorem State.core_setCore (s : State) (c : Core) (id : Nat) :
    (s.setCore c).core id = if id = c.id then c else s.core id := by
  simp only [State.core, State.setCore, findCore_insertCore]
  split <;> rfl

@[simp] theorem State.core_setCore_self (s : State) (c : Core) : (s.setCore c).core c.id = c := by
  simp [State.core_setCore]

theorem State.core_setCore_of_ne (s : State) (c : Core) {id : Nat} (h : id ≠ c.id) : (s.setCore c).core id = s.core id := by
  simp [State.core_setCore, h]

theorem findCore_id {l : List Core} {id : Nat} {c : Core} (h : findCore l id = some c) : c.id = id := by
  induction l with
  | nil => simp [findCore] at h
  | cons d t ih =>
    simp only [findCore] at h
    split at h
    · simp_all
    · exact ih h

/-- A core knows its own number. -/
@[simp] theorem State.core_id (s : State) (id : Nat) : (s.core id).id = id := by
  unfold State.core
  cases h : findCore s.cores id with
  | none => rfl
  | some c => exact findCore_id h

theorem State.ctx_setCtx (s : State) (x y : Fin 64) (v : Ctx) : (s.setCtx x v).ctx y = if x = y then v else s.ctx y := by
  simp only [State.ctx, State.setCtx, Fin.getElem_fin, Vector.getElem_set, Fin.ext_iff]

@[simp] theorem State.ctx_setCtx_self (s : State) (x : Fin 64) (v : Ctx) : (s.setCtx x v).ctx x = v := by
  simp [State.ctx_setCtx]

theorem State.hive_setHive (s : State) (h k : Fin 144) (v : Hive) :
    (s.setHive h v).hive k = if h = k then v else s.hive k := by
  simp only [State.hive, State.setHive, Fin.getElem_fin, Vector.getElem_set, Fin.ext_iff]

@[simp] theorem State.hive_setHive_self (s : State) (h : Fin 144) (v : Hive) : (s.setHive h v).hive h = v := by
  simp [State.hive_setHive]

theorem Core.seq_setSeq (c : Core) (q p : Seq) (r : Seqr) : (c.setSeq q r).seq p = if q = p then r else c.seq p := by
  have h : (q.idx.val = p.idx.val) ↔ q = p := by cases q <;> cases p <;> decide
  simp only [Core.seq, Core.setSeq, Fin.getElem_fin, Vector.getElem_set, h]

@[simp] theorem Core.seq_setSeq_self (c : Core) (q : Seq) (r : Seqr) : (c.setSeq q r).seq q = r := by
  simp [Core.seq_setSeq]

@[simp] theorem State.ctx_setCore (s : State) (c : Core) (x : Fin 64) : (s.setCore c).ctx x = s.ctx x := rfl
@[simp] theorem State.hive_setCore (s : State) (c : Core) (h : Fin 144) : (s.setCore c).hive h = s.hive h := rfl
@[simp] theorem State.core_setCtx (s : State) (x : Fin 64) (v : Ctx) (id : Nat) : (s.setCtx x v).core id = s.core id := rfl
@[simp] theorem State.core_setHive (s : State) (h : Fin 144) (v : Hive) (id : Nat) : (s.setHive h v).core id = s.core id := rfl
@[simp] theorem State.core_advance (s : State) (id : Nat) : (s.advance).core id = s.core id := rfl

end Sys2Proof.Machine
end

