-- ==== Sys2Proof/Laws/Bins.lean ====
section
/-! SUPPORT. Whose pairs and bins are pending: work at homes makes bins of pairs of the window, and makes no other pair and no other bin. -/
namespace Sys2Proof.Machine

/-- Every pair of the window is of a context and region of `P`, every bin of one of `Q`. -/
def Only (P Q : Fin 64 → Region → Prop) (s : State) : Prop :=
  (∀ p ∈ s.window, P p.ctx p.reg) ∧ ∀ b ∈ s.bins, Q b.ctx b.reg

variable {P Q : Fin 64 → Region → Prop}

theorem Only.of_eq {s t : State} (h : Only P Q s) (hw : t.window = s.window) (hb : t.bins = s.bins) : Only P Q t := by
  simpa only [Only, hw, hb] using h

theorem Only.foldl {α : Type} {f : State → α → State} (hf : ∀ s x, Only P Q s → Only P Q (f s x)) (l : List α) {s : State}
    (h : Only P Q s) : Only P Q (l.foldl f s) := by
  induction l generalizing s with
  | nil => exact h
  | cons x l ih => exact ih (hf s x h)

theorem Only.withBins {s : State} (h : Only P Q s) {bs : List Bin} (hb : ∀ b ∈ bs, Q b.ctx b.reg) : Only P Q { s with bins := bs } :=
  ⟨h.1, hb⟩

theorem Only.iteBins {s : State} (h : Only P Q s) (p : Prop) [Decidable p] {bs : List Bin} (hb : ∀ b ∈ bs, Q b.ctx b.reg) :
    Only P Q (if p then s else { s with bins := bs }) := by
  split
  · exact h
  · exact ⟨h.1, hb⟩

/-! ### What changes neither -/

theorem staleMet_window (s : State) (x : Fin 64) (va : Nat) : (s.staleMet x va).window = s.window := by
  unfold State.staleMet; simp only; repeat' split
  all_goals rfl
theorem staleMet_bins (s : State) (x : Fin 64) (va : Nat) : (s.staleMet x va).bins = s.bins := by
  unfold State.staleMet; simp only; repeat' split
  all_goals rfl

theorem Only.staleMet {s : State} (h : Only P Q s) (x : Fin 64) (va : Nat) : Only P Q (s.staleMet x va) :=
  h.of_eq (staleMet_window ..) (staleMet_bins ..)

theorem Only.staleIf {s : State} (h : Only P Q s) (b : Bool) (x : Fin 64) (va : Nat) : Only P Q (if b then s.staleMet x va else s) := by
  cases b
  · exact h
  · exact h.staleMet x va

theorem Only.staleAt {s : State} (h : Only P Q s) (b : Bool) (x : Fin 64) (l : Leaf) (va : Nat) : Only P Q (s.staleAt b x l va) :=
  h.staleIf _ x va

theorem Only.unitOf {s : State} (h : Only P Q s) (x : Fin 64) (l : Leaf) : Only P Q (s.unitOf x l).2 := by
  unfold State.unitOf; simp only; split <;> exact h

theorem Only.outsideWrites {s : State} (h : Only P Q s) (line : Nat) : Only P Q (s.outsideWrites line) := by
  unfold State.outsideWrites
  split
  · exact h
  · simp only; split <;> exact h

/-! ### The units' work, where touching a line of a side plane keeps as much -/

theorem applyBlockBy_only {plane : State → Nat → State} (hp : ∀ s l, Only P Q s → Only P Q (plane s l)) {s : State} (h : Only P Q s)
    (b : Bin) (bl : Nat) : Only P Q (s.applyBlockBy plane b bl) := by
  unfold State.applyBlockBy
  simp only
  split
  · exact h
  · refine Only.staleAt ?_ _ _ _ _
    exact (Only.foldl hp (blockAt s.pkg b.leaf bl (2 * b.leaf.dataKey s.pkg + bl * b.leaf.block
      * b.leaf.blockTy.halfBytes)).planeLines h).unitOf b.ctx b.leaf

theorem applyBinBy_only {plane : State → Nat → State} (hp : ∀ s l, Only P Q s → Only P Q (plane s l)) {s : State} (h : Only P Q s)
    (b : Bin) : Only P Q (s.applyBinBy plane b) := by
  unfold State.applyBinBy
  split
  · exact Only.foldl (fun s bl h => applyBlockBy_only hp h b bl) _ h
  · split <;> exact h

/-- Bins that satisfy a test are gone, if touching lines makes no new one of their regions. -/
theorem applyBinsBy_only {plane : State → Nat → State} (hp : ∀ s l, Only P Q s → Only P Q (plane s l)) {s : State} (sel : Bin → Bool)
    (hw : ∀ p ∈ s.window, P p.ctx p.reg) (hb : ∀ b ∈ s.bins, sel b = false → Q b.ctx b.reg) : Only P Q (s.applyBinsBy plane sel) := by
  refine Only.foldl (fun s b h => applyBinBy_only hp h b) _ ⟨hw, fun b h => ?_⟩
  simp only [List.mem_filter, Bool.not_eq_true'] at h
  exact hb b h.1 h.2

theorem applyBinsBy_keeps {plane : State → Nat → State} (hp : ∀ s l, Only P Q s → Only P Q (plane s l)) {s : State} (h : Only P Q s)
    (sel : Bin → Bool) : Only P Q (s.applyBinsBy plane sel) := applyBinsBy_only hp sel h.1 (fun b hb _ => h.2 b hb)

theorem makeRoom_only {plane : State → Nat → State} (hp : ∀ s l, Only P Q s → Only P Q (plane s l)) {s : State} (h : Only P Q s)
    (line : Nat) : Only P Q (s.makeRoom plane line) := by
  unfold State.makeRoom
  split
  · exact h
  · split
    · exact h
    · exact applyBinsBy_keeps hp h _

theorem formBin_only {plane : State → Nat → State} (hp : ∀ s l, Only P Q s → Only P Q (plane s l)) {s : State} (h : Only P Q s)
    {p : Pair} (hq : Q p.ctx p.reg) : Only P Q (s.formBin plane p) := by
  unfold State.formBin
  have hc : Only P Q (if p.op = 11 then (s.classLines p.leaf (lineOf p.key)).foldl plane s else s) := by
    split
    · exact Only.foldl hp _ h
    · exact h
  have hm := makeRoom_only hp hc (lineOf p.key)
  simp only
  split
  · exact h
  · refine hm.iteBins _ (fun b hb => ?_)
    rcases List.mem_append.mp hb with hb | hb
    · exact hm.2 b hb
    · rw [List.mem_singleton.mp hb]
      exact hq

theorem mergePair_only {plane : State → Nat → State} (hp : ∀ s l, Only P Q s → Only P Q (plane s l)) {s : State} (h : Only P Q s)
    {p : Pair} (hq : Q p.ctx p.reg) (n : Nat) : Only P Q (s.mergePair plane p n) := by
  unfold State.mergePair
  have hf := formBin_only hp h hq
  refine Only.staleIf (hf.withBins (fun b hb => ?_)) _ _ _
  simp only [List.mem_map] at hb
  obtain ⟨c, hc, rfl⟩ := hb
  have := hf.2 c hc
  split <;> exact this

theorem joinPairs_only {plane : State → Nat → State} (hp : ∀ s l, Only P Q s → Only P Q (plane s l)) {s : State} (h : Only P Q s)
    {p : Pair} (q : Pair) (hq : Q p.ctx p.reg) : Only P Q (s.joinPairs plane p q).2 := by
  unfold State.joinPairs
  exact Only.staleIf (formBin_only hp h hq) _ _ _

theorem joinPairs_owner (plane : State → Nat → State) (s : State) (p q : Pair) :
    (s.joinPairs plane p q).1.ctx = p.ctx ∧ (s.joinPairs plane p q).1.reg = p.reg := ⟨rfl, rfl⟩

theorem mergeAll_only {plane : State → Nat → State} (hp : ∀ s l, Only P Q s → Only P Q (plane s l)) (n : Nat) (ps : List (Pair × Nat))
    {s : State} (h : Only P Q s) (hq : ∀ p ∈ ps, Q p.1.ctx p.1.reg) : Only P Q (s.mergeAll plane n ps) := by
  induction n generalizing s ps with
  | zero => cases ps <;> exact h
  | succ n ih =>
    cases ps with
    | nil => exact h
    | cons q t =>
      unfold State.mergeAll
      simp only
      have hd : Only P Q s.draw.2 := h
      generalize hp' : (q :: t).getD (Config.pick s.draw.1 % (q :: t).length) q = p
      have hpm : p ∈ q :: t := by
        rw [← hp', List.getD_eq_getElem?_getD]
        cases hx : (q :: t)[Config.pick s.draw.1 % (q :: t).length]? with
        | none => exact List.mem_cons_self
        | some v => exact List.mem_of_getElem? hx
      have her : ∀ r ∈ (q :: t).erase p, Q r.1.ctx r.1.reg := fun r hr => hq r (List.mem_of_mem_erase hr)
      split
      · exact ih _ (mergePair_only hp hd (hq p hpm) _) her
      · refine ih _ (joinPairs_only hp hd _ (hq p hpm)) (fun r hr => ?_)
        simp only [List.mem_cons] at hr
        rcases hr with rfl | hr
        · exact hq p hpm
        · exact her r (List.mem_of_mem_erase hr)

/-- Pairs of the window that satisfy a test become bins, if they are of `Q`. -/
theorem mergeWindowBy_only {plane : State → Nat → State} (hp : ∀ s l, Only P Q s → Only P Q (plane s l)) {s : State} (sel : Pair → Bool)
    (hw : ∀ p ∈ s.window, if sel p then Q p.ctx p.reg else P p.ctx p.reg) (hb : ∀ b ∈ s.bins, Q b.ctx b.reg) :
    Only P Q (s.mergeWindowBy plane sel) := by
  refine mergeAll_only hp _ _ ⟨fun p h => ?_, hb⟩ (fun q h => ?_)
  · simp only [List.mem_filter, Bool.not_eq_true'] at h
    simpa only [h.2, Bool.false_eq_true, if_false] using hw p h.1
  · simp only [List.mem_map, List.mem_filter] at h
    obtain ⟨p, ⟨hp, hs⟩, rfl⟩ := h
    simpa only [hs, if_true] using hw p hp

theorem touchFuel_only (hpq : ∀ x r, P x r → Q x r) (n : Nat) {s : State} (h : Only P Q s) (line : Nat) : Only P Q (s.touchFuel n line) := by
  induction n generalizing s line with
  | zero => exact h
  | succ n ih =>
    refine Only.outsideWrites (applyBinsBy_keeps (fun s l h => ih h l) (mergeWindowBy_only (fun s l h => ih h l) _ (fun p hp => ?_) h.2) _) _
    split
    · exact hpq _ _ (h.1 p hp)
    · exact h.1 p hp

theorem touchLine_only (hpq : ∀ x r, P x r → Q x r) {s : State} (h : Only P Q s) (line : Nat) : Only P Q (s.touchLine line) :=
  touchFuel_only hpq _ h line

theorem touch_only (hpq : ∀ x r, P x r → Q x r) {s : State} (h : Only P Q s) (key n : Nat) : Only P Q (s.touch key n) := by
  unfold State.touch
  split
  · exact h
  · exact Only.foldl (fun s i h => touchLine_only hpq h _) _ h

theorem homeWrite_only (hpq : ∀ x r, P x r → Q x r) {s : State} (h : Only P Q s) (key : Nat) (bs : List Byte) :
    Only P Q (s.homeWrite key bs) := (touch_only hpq h key bs.length).of_eq rfl rfl

/-- A region's pairs merged and its bins applied: none of either is left. -/
theorem regionApplied_only (x : Fin 64) (r : Region) (s : State) :
    Only (fun y k => ¬ (y = x ∧ k = r)) (fun y k => ¬ (y = x ∧ k = r))
      ((s.mergeWindow (·.ofRegion x r)).applyBins (·.ofRegion x r)) := by
  have h : Only (fun y k => ¬ (y = x ∧ k = r)) (fun _ _ => True) (s.mergeWindow (·.ofRegion x r)) := by
    refine mergeWindowBy_only (fun s l h => touchLine_only (fun _ _ _ => trivial) h l) _ (fun p _ => ?_) (fun _ _ => trivial)
    split
    · trivial
    · rename_i h
      simpa [Pair.ofRegion] using h
  refine applyBinsBy_only (fun s l h => touchLine_only (fun _ _ h => h) h l) _ h.1 (fun b _ hs => ?_)
  simpa [Bin.ofRegion] using hs

end Sys2Proof.Machine
end

