-- ==== Sys2Proof/Laws/Encoding.lean ====
section
/-! SUPPORT. What an encoded word reads back as, field by field: the header of any word, and the body of each format. -/
namespace Sys2Proof

theorem Seq.idx_lt (q : Seq) : q.idx.val < 4 := q.idx.isLt
@[simp] theorem Seq.ofIdx_idx (q : Seq) : Seq.ofIdx q.idx.val = q := by cases q <;> rfl

/-- `w` is a word of header `h` with opcode `opc` and a body of 48 bits. -/
def WordOf (h : Hdr) (opc w : Nat) : Prop := opc < 256 ∧ ∃ body, body < 2 ^ 48 ∧ w = encHdr h opc + body

/-! ### The header -/

theorem encSba_eq (t : Option (Fin 8)) :
    encSba t = (if t.isSome then 1 else 0) * 2 ^ 73 + (t.map (·.val)).getD 0 * 2 ^ 70 := by
  cases t <;> simp [encSba]
theorem encPop_eq (t : Option Seq) :
    encPop t = (if t.isSome then 1 else 0) * 2 ^ 61 + (t.map (·.idx.val)).getD 0 * 2 ^ 59 := by
  cases t <;> simp [encPop]
theorem encPush_eq (t : Option Seq) :
    encPush t = (if t.isSome then 1 else 0) * 2 ^ 58 + (t.map (·.idx.val)).getD 0 * 2 ^ 56 := by
  cases t <;> simp [encPush]

/-- The fields of a number put together as R39 lays out a header. -/
theorem header_fields {e pd a1 a2 sbw p1 p2 u1 u2 opc body w : Nat} (he : e < 8) (hpd : pd < 8) (ha1 : a1 < 2) (ha2 : a2 < 8)
    (hs : sbw < 256) (hp1 : p1 < 2) (hp2 : p2 < 4) (hu1 : u1 < 2) (hu2 : u2 < 4) (ho : opc < 256) (hb : body < 2 ^ 48)
    (hw : w = e * 2 ^ 77 + pd * 2 ^ 74 + (a1 * 2 ^ 73 + a2 * 2 ^ 70) + sbw * 2 ^ 62 + (p1 * 2 ^ 61 + p2 * 2 ^ 59)
      + (u1 * 2 ^ 58 + u2 * 2 ^ 56) + opc * 2 ^ 48 + body) :
    fld w 77 3 = e ∧ fld w 74 3 = pd ∧ fld w 73 1 = a1 ∧ fld w 70 3 = a2 ∧ fld w 62 8 = sbw ∧ fld w 61 1 = p1 ∧ fld w 59 2 = p2
      ∧ fld w 58 1 = u1 ∧ fld w 56 2 = u2 ∧ fld w 48 8 = opc := by
  unfold fld
  refine ⟨?_, ?_, ?_, ?_, ?_, ?_, ?_, ?_, ?_, ?_⟩ <;> omega

/-- A word's header reads back: its ENG names a class, its fields are the header's, no disabled field is set, its opcode is there. -/
theorem WordOf.reads {h : Hdr} {opc w : Nat} (hw : WordOf h opc w) :
    fld w 77 3 < 4 ∧ hdrOf w = h ∧ hdrReserved w = false ∧ fld w 48 8 = opc := by
  obtain ⟨ho, body, hb, rfl⟩ := hw
  obtain ⟨e, pd, sba, sbw, pop, push⟩ := h
  have hs := sbw.isLt
  have key := header_fields (e := e.idx.val) (pd := pd.val) (a1 := if sba.isSome then 1 else 0) (a2 := (sba.map (·.val)).getD 0)
    (sbw := sbw.toNat) (p1 := if pop.isSome then 1 else 0) (p2 := (pop.map (·.idx.val)).getD 0)
    (u1 := if push.isSome then 1 else 0) (u2 := (push.map (·.idx.val)).getD 0) (opc := opc) (body := body)
    (by have := e.idx_lt; omega) pd.isLt (by split <;> decide) (by cases sba <;> simp) hs (by split <;> decide)
    (by cases pop <;> simp) (by split <;> decide) (by cases push <;> simp) ho hb rfl
  simp only [encHdr, encSba_eq, encPop_eq, encPush_eq]
  generalize hw : e.idx.val * 2 ^ 77 + pd.val * 2 ^ 74 + _ + _ + _ + _ + _ + body = w at *
  obtain ⟨k1, k2, k3, k4, k5, k6, k7, k8, k9, k10⟩ := key
  refine ⟨k1 ▸ e.idx_lt, ?_, ?_, k10⟩
  · simp only [hdrOf, bitSet, k1, k2, k3, k4, k5, k6, k7, k8, k9, Seq.ofIdx_idx, ix]
    cases sba <;> cases pop <;> cases push <;> simp
  · simp only [hdrReserved, bitSet, k3, k4, k6, k7, k8, k9]
    cases sba <;> cases pop <;> cases push <;> simp

/-- A word has 80 bits. -/
theorem WordOf.lt {h : Hdr} {opc w : Nat} (hw : WordOf h opc w) : w < 2 ^ 80 := by
  obtain ⟨ho, body, hb, rfl⟩ := hw
  obtain ⟨e, pd, sba, sbw, pop, push⟩ := h
  have := sbw.isLt
  have := pd.isLt
  have := e.idx_lt
  unfold encHdr
  rcases sba with _ | t <;> rcases pop with _ | p <;> rcases push with _ | u <;> simp only [encSba, encPop, encPush]
  all_goals omega

/-- A header is a multiple of 2^48: the body's fields read below it. -/
theorem encHdr_dvd (h : Hdr) (opc : Nat) : 2 ^ 48 ∣ encHdr h opc := by
  obtain ⟨e, pd, sba, sbw, pop, push⟩ := h
  unfold encHdr
  rcases sba with _ | t <;> rcases pop with _ | p <;> rcases push with _ | u <;> simp only [encSba, encPop, encPush] <;> omega

/-! ### The four formats (R41) -/

theorem wordOf_rrr {h : Hdr} {opc d a b c md : Nat} (ho : opc < 256) (hd : d < 64) (ha : a < 64) (hb : b < 64) (hc : c < 64)
    (hm : md < 2 ^ 24) : WordOf h opc (rrr h opc d a b c md) :=
  ⟨ho, d * 2 ^ 42 + a * 2 ^ 36 + b * 2 ^ 30 + c * 2 ^ 24 + md, by omega, by unfold rrr; omega⟩

theorem wordOf_rri {h : Hdr} {opc d a imm md : Nat} (ho : opc < 256) (hd : d < 64) (ha : a < 64) (hi : imm < 2 ^ 32)
    (hm : md < 16) : WordOf h opc (rri h opc d a imm md) :=
  ⟨ho, d * 2 ^ 42 + a * 2 ^ 36 + imm * 2 ^ 4 + md, by omega, by unfold rri; omega⟩

theorem wordOf_brw {h : Hdr} {opc a b off : Nat} (ho : opc < 256) (ha : a < 64) (hb : b < 64) (hf : off < 2 ^ 32) :
    WordOf h opc (brw h opc a b off) :=
  ⟨ho, a * 2 ^ 42 + b * 2 ^ 36 + off, by omega, by unfold brw; omega⟩

theorem wordOf_wide {h : Hdr} {opc d imm : Nat} (ho : opc < 256) (hd : d < 64) (hi : imm < 2 ^ 42) :
    WordOf h opc (encHdr h opc + d * 2 ^ 42 + imm) :=
  ⟨ho, d * 2 ^ 42 + imm, by omega, by omega⟩

theorem rrr_fields {h : Hdr} {opc d a b c md : Nat} (hd : d < 64) (ha : a < 64) (hb : b < 64) (hc : c < 64) (hm : md < 2 ^ 24) :
    let w := rrr h opc d a b c md
    fD w = d ∧ fA w = a ∧ fB w = b ∧ fC w = c ∧ fMod w = md := by
  obtain ⟨k, hk⟩ := encHdr_dvd h opc
  simp only [fD, fA, fB, fC, fMod, fld, rrr, hk]
  refine ⟨?_, ?_, ?_, ?_, ?_⟩ <;> omega

theorem rri_fields {h : Hdr} {opc d a imm md : Nat} (hd : d < 64) (ha : a < 64) (hi : imm < 2 ^ 32) (hm : md < 16) :
    let w := rri h opc d a imm md
    fD w = d ∧ fA w = a ∧ fImm w = imm ∧ fMod4 w = md := by
  obtain ⟨k, hk⟩ := encHdr_dvd h opc
  simp only [fD, fA, fImm, fMod4, fld, rri, hk]
  refine ⟨?_, ?_, ?_, ?_⟩ <;> omega

theorem brw_fields {h : Hdr} {opc a b off : Nat} (ha : a < 64) (hb : b < 64) (hf : off < 2 ^ 32) :
    let w := brw h opc a b off
    fBrA w = a ∧ fBrB w = b ∧ fBrMod4 w = 0 ∧ fOff w = off := by
  obtain ⟨k, hk⟩ := encHdr_dvd h opc
  simp only [fBrA, fBrB, fBrMod4, fOff, fld, brw, hk]
  refine ⟨?_, ?_, ?_, ?_⟩ <;> omega

theorem wide_fields {h : Hdr} {opc d imm : Nat} (hd : d < 64) (hi : imm < 2 ^ 42) :
    let w := encHdr h opc + d * 2 ^ 42 + imm
    fD w = d ∧ fWide w = imm := by
  obtain ⟨k, hk⟩ := encHdr_dvd h opc
  simp only [fD, fWide, fld, hk]
  refine ⟨?_, ?_⟩ <;> omega

/-! ### The MODs -/

theorem bnat_lt (b : Bool) : bnat b < 2 := by cases b <;> decide
theorem Ty.code_lt (t : Ty) : t.code < 15 := by cases t <;> decide
theorem Rm.code_lt (m : Rm) : m.code < 4 := by cases m <;> decide
theorem Sem.code_lt (m : Sem) : m.code < 4 := by cases m <;> decide
theorem Pm.code_lt (m : Pm) : m.code < 17 := by cases m <;> simp only [Pm.code] <;> omega
theorem Aop.code_lt (m : Aop) : m.code < 9 := by cases m <;> decide
theorem FenceKind.code_lt (k : FenceKind) : k.code < 3 := by cases k <;> decide
theorem BindOp.code_lt (k : BindOp) : k.code < 3 := by cases k <;> decide
theorem Lay.code_lt (k : Lay) : k.code < 3 := by cases k <;> decide
theorem Base.field_lt (b : Base) : b.field < 32 := by cases b <;> simp only [Base.field] <;> omega
theorem TB.field_lt (b : TB) : b.field < 32 := by cases b <;> simp only [TB.field] <;> omega
theorem UpdIdx.field_lt (b : UpdIdx) : b.field < 32 := by cases b <;> simp only [UpdIdx.field] <;> omega
theorem encAmx_lt (a : Option MReg) : encAmx a < 2 ^ 7 := by cases a <;> simp only [encAmx] <;> omega
theorem encRes_lt (k : Option KReg) : encRes k < 2 ^ 8 := by cases k <;> simp only [encRes] <;> omega

theorem encTMod_lt (m : TMod) (bs : Bool) : encTMod m bs < 2 ^ 24 := by
  have := m.ty.code_lt; have := m.rm.code_lt; have := m.pm.code_lt; have := encAmx_lt m.amx
  have := bnat_lt m.z; have := bnat_lt bs; have := bnat_lt m.sat
  unfold encTMod; omega

theorem encMMod_lt {m : MMod} {low : Nat} (hl : low < 2 ^ 9) : encMMod m low < 2 ^ 24 := by
  have := m.ty.code_lt; have := m.sem.code_lt
  unfold encMMod; omega

theorem encAMod_lt {m : AMod} {sub : Nat} (hs : sub < 2 ^ 12) : encAMod m sub < 2 ^ 24 := by
  have := m.ty.code_lt; have := bnat_lt m.sweep; have := bnat_lt m.strict; have := bnat_lt m.sp; have := bnat_lt m.mx
  unfold encAMod; omega

theorem encLd_lt (hs : Bool) (rm : Option KReg) (gl : Fin 6) (z : Bool) : encLd hs rm gl z < 2 ^ 9 := by
  have := bnat_lt hs; have := bnat_lt z
  unfold encLd
  cases rm <;> simp only [encRes] <;> omega

theorem encWl_lt (ty : Ty) (gl : Fin 6) (pm : Pm) : encWl ty gl pm < 2 ^ 24 := by
  have := ty.code_lt; have := pm.code_lt
  unfold encWl; omega

theorem wordOf_bin {h : Hdr} {opc : Nat} (d a : TReg) (b : TB) (m : TMod) (ho : opc < 256) : WordOf h opc (encBin h opc d a b m) :=
  wordOf_rrr ho (by omega) (by omega) (by have := b.field_lt; omega) (by decide) (encTMod_lt m _)
theorem wordOf_ter {h : Hdr} {opc : Nat} (d a : TReg) (b : TB) (c : TReg) (m : TMod) (ho : opc < 256) :
    WordOf h opc (encTer h opc d a b c m) :=
  wordOf_rrr ho (by omega) (by omega) (by have := b.field_lt; omega) (by omega) (encTMod_lt m _)
theorem wordOf_un {h : Hdr} {opc : Nat} (d a : TReg) (m : TMod) (ho : opc < 256) : WordOf h opc (encUn h opc d a m) :=
  wordOf_rrr ho (by omega) (by omega) (by decide) (by decide) (encTMod_lt m _)

end Sys2Proof
end

