-- ==== Sys2Proof/Laws/Memory.lean ====
section
/-! SUPPORT. Every memory operation keeps the canonical form: addresses strictly rising, and no entry equal to what an unlisted
address reads as (log 5). -/
namespace Sys2Proof.Machine

/-- The canonical form as two plain facts. -/
theorem cellsWf_iff (e : Nat) (l : List Host.Cell) :
    cellsWf e l = true ↔ l.Pairwise (fun p q => p.1 < q.1) ∧ ∀ p ∈ l, p.2 ≠ Memory.base e p.1 := by
  induction l with
  | nil => simp [cellsWf]
  | cons p t ih =>
    obtain ⟨k, v⟩ := p
    cases t with
    | nil => simp [cellsWf]
    | cons q t =>
      obtain ⟨k', v'⟩ := q
      simp only [cellsWf, Bool.and_eq_true, bne_iff_ne, decide_eq_true_eq, ih, List.pairwise_cons, List.mem_cons,
        forall_eq_or_imp]
      constructor
      · rintro ⟨⟨hv, hk⟩, ⟨hp, hpt⟩, hv', hb⟩
        exact ⟨⟨⟨hk, fun r hr => Nat.lt_trans hk (hp r hr)⟩, hp, hpt⟩, hv, hv', hb⟩
      · rintro ⟨⟨⟨hk, -⟩, hp, hpt⟩, hv, hv', hb⟩
        exact ⟨⟨hv, hk⟩, ⟨hp, hpt⟩, hv', hb⟩

theorem Memory.wf_iff (m : Memory) :
    m.wf = true ↔ m.cells.Pairwise (fun p q => p.1 < q.1) ∧ ∀ p ∈ m.cells, p.2 ≠ Memory.base m.epoch p.1 :=
  cellsWf_iff m.epoch m.cells

theorem mem_cellsBelow {a : Nat} {l : List Host.Cell} {p : Host.Cell} (h : p ∈ cellsBelow a l) : p ∈ l ∧ p.1 < a := by
  induction l with
  | nil => simp [cellsBelow] at h
  | cons q t ih =>
    obtain ⟨k, v⟩ := q
    simp only [cellsBelow] at h
    split at h
    · rcases List.mem_cons.mp h with rfl | h
      · exact ⟨List.mem_cons_self, ‹_›⟩
      · exact ⟨List.mem_cons_of_mem _ (ih h).1, (ih h).2⟩
    · simp at h

theorem cellsBelow_sublist (a : Nat) (l : List Host.Cell) : (cellsBelow a l).Sublist l := by
  induction l with
  | nil => simp [cellsBelow]
  | cons q t ih =>
    obtain ⟨k, v⟩ := q
    simp only [cellsBelow]
    split
    · exact ih.cons_cons _
    · exact List.nil_sublist _

theorem cellsFrom_sublist (a : Nat) (l : List Host.Cell) : (cellsFrom a l).Sublist l := by
  induction l with
  | nil => simp [cellsFrom]
  | cons q t ih =>
    obtain ⟨k, v⟩ := q
    simp only [cellsFrom]
    split
    · exact ih.cons _
    · exact List.Sublist.refl _

theorem mem_cellsFrom {a : Nat} {l : List Host.Cell} (hl : l.Pairwise (fun p q => p.1 < q.1)) {p : Host.Cell}
    (h : p ∈ cellsFrom a l) : p ∈ l ∧ a ≤ p.1 := by
  induction l with
  | nil => simp [cellsFrom] at h
  | cons q t ih =>
    obtain ⟨k, v⟩ := q
    rw [List.pairwise_cons] at hl
    simp only [cellsFrom] at h
    split at h
    · exact ⟨List.mem_cons_of_mem _ (ih hl.2 h).1, (ih hl.2 h).2⟩
    · rename_i hk
      refine ⟨h, ?_⟩
      rcases List.mem_cons.mp h with rfl | h
      · simpa using hk
      · have := hl.1 p h
        simp only at this
        omega

theorem mem_cellsOf {e a : Nat} {bs : List Byte} {p : Host.Cell} (h : p ∈ cellsOf e a bs) :
    a ≤ p.1 ∧ p.1 < a + bs.length ∧ p.2 ≠ Memory.base e p.1 := by
  induction bs generalizing a with
  | nil => simp [cellsOf] at h
  | cons b t ih =>
    simp only [cellsOf] at h
    split at h
    · obtain ⟨h1, h2, h3⟩ := ih h
      exact ⟨by omega, by simp only [List.length_cons]; omega, h3⟩
    · rcases List.mem_cons.mp h with rfl | h
      · simpa using ‹_›
      · obtain ⟨h1, h2, h3⟩ := ih h
        exact ⟨by omega, by simp only [List.length_cons]; omega, h3⟩

theorem cellsOf_pairwise (e a : Nat) (bs : List Byte) : (cellsOf e a bs).Pairwise (fun p q => p.1 < q.1) := by
  induction bs generalizing a with
  | nil => simp [cellsOf]
  | cons b t ih =>
    simp only [cellsOf]
    split
    · exact ih _
    · exact List.pairwise_cons.mpr ⟨fun q hq => Nat.lt_of_lt_of_le (Nat.lt_succ_self a) (mem_cellsOf hq).1, ih _⟩

/-- A write of bytes keeps the canonical form. -/
theorem Memory.writeBytes_wf {m : Memory} (h : m.wf = true) (a : Nat) (bs : List Byte) : (m.writeBytes a bs).wf = true := by
  obtain ⟨hp, hb⟩ := (Memory.wf_iff m).mp h
  refine (Memory.wf_iff _).mpr ⟨?_, ?_⟩
  · simp only [Memory.writeBytes, List.pairwise_append]
    refine ⟨⟨hp.sublist (cellsBelow_sublist _ _), cellsOf_pairwise _ _ _, ?_⟩, hp.sublist (cellsFrom_sublist _ _), ?_⟩
    · intro p hp' q hq
      have h1 := (mem_cellsBelow hp').2
      have h2 := (mem_cellsOf hq).1
      omega
    · intro p hp' q hq
      have h2 := (mem_cellsFrom hp hq).2
      rcases List.mem_append.mp hp' with h1 | h1
      · have := (mem_cellsBelow h1).2
        omega
      · have := (mem_cellsOf h1).2.1
        omega
  · intro p hp'
    simp only [Memory.writeBytes, List.mem_append] at hp'
    rcases hp' with (h1 | h1) | h1
    · exact hb p (mem_cellsBelow h1).1
    · exact (mem_cellsOf h1).2.2
    · exact hb p ((cellsFrom_sublist _ _).mem h1)

@[simp] theorem Memory.writeBytes_epoch (m : Memory) (a : Nat) (bs : List Byte) : (m.writeBytes a bs).epoch = m.epoch := rfl

theorem Memory.writeNat_wf {m : Memory} (h : m.wf = true) (a n v : Nat) : (m.writeNat a n v).wf = true :=
  Memory.writeBytes_wf h _ _

theorem Memory.writeNibble_wf {m : Memory} (h : m.wf = true) (a2 v : Nat) : (m.writeNibble a2 v).wf = true :=
  Memory.writeBytes_wf h _ _

theorem Memory.writeElem_wf {m : Memory} (h : m.wf = true) (a2 hb v : Nat) : (m.writeElem a2 hb v).wf = true := by
  unfold Memory.writeElem
  split
  · exact Memory.writeNibble_wf h _ _
  · exact Memory.writeNat_wf h _ _ _

/-- A memory with nothing listed has the form, whatever an unlisted byte reads as. -/
theorem Memory.empty_wf (e : Nat) : Memory.wf { epoch := e, cells := [] } = true := rfl

/-- Zeroing a range keeps the form. -/
theorem Memory.zero_wf {m : Memory} (h : m.wf = true) (a n : Nat) : (m.zero a n).wf = true := by
  unfold Memory.zero
  split
  · obtain ⟨hp, hb⟩ := (Memory.wf_iff m).mp h
    exact (Memory.wf_iff _).mpr ⟨hp.sublist List.filter_sublist, fun p hp' => hb p (List.mem_filter.mp hp').1⟩
  · exact Memory.writeBytes_wf h _ _

/-- Writes of a list, one after another, keep the form. -/
theorem Memory.foldl_wf {α : Type} (f : Memory → α → Memory) (hf : ∀ m x, m.wf = true → (f m x).wf = true) (l : List α)
    {m : Memory} (h : m.wf = true) : (l.foldl f m).wf = true := by
  induction l generalizing m with
  | nil => exact h
  | cons x t ih => exact ih (hf m x h)

end Sys2Proof.Machine
end

