-- ==== Sys2Proof/Laws/Homes.lean ====
section
/-! SUPPORT. What an access at a home can change: memory (keeping its canonical form), the counts and events of stale blocks, pending
bins and pairs, and the count of free values; nothing of any core, hive, barrier, queue, link or clock. -/
namespace Sys2Proof.Machine

/-- A context is another but for what it counts of stale blocks (R224). -/
def Stales (c d : Ctx) : Prop := ∃ a n l, d = { c with stepStale := a, staleCnt := n, lastStale := l }

theorem Stales.refl (c : Ctx) : Stales c c := ⟨_, _, _, rfl⟩
theorem Stales.trans {c d e : Ctx} (h : Stales c d) (k : Stales d e) : Stales c e := by
  obtain ⟨_, _, _, rfl⟩ := h; obtain ⟨a, n, l, rfl⟩ := k; exact ⟨a, n, l, rfl⟩

/-- `t` is `s` after work at homes. -/
def Homed (s t : State) : Prop :=
  ∃ m x e b w f p, t = { s with mem := m, ctxs := x, events := e, bins := b, window := w, free := f, poisoned := p }
    ∧ (s.mem.wf = true → m.wf = true) ∧ ∀ y : Fin 64, Stales s.ctxs[y] x[y]

theorem Homed.refl (s : State) : Homed s s := ⟨_, _, _, _, _, _, _, rfl, id, fun _ => .refl _⟩

theorem Homed.trans {s t u : State} (h : Homed s t) (k : Homed t u) : Homed s u := by
  obtain ⟨_, _, _, _, _, _, _, rfl, h, h'⟩ := h
  obtain ⟨m, x, e, b, w, f, p, rfl, k, k'⟩ := k
  exact ⟨m, x, e, b, w, f, p, rfl, fun z => k (h z), fun y => (h' y).trans (k' y)⟩

theorem Homed.foldl {α : Type} {f : State → α → State} (hf : ∀ s x, Homed s (f s x)) (l : List α) (s : State) :
    Homed s (l.foldl f s) := by
  induction l generalizing s with
  | nil => exact .refl s
  | cons x l ih => exact (hf s x).trans (ih _)

theorem Homed.withBins (s : State) (b : List Bin) : Homed s { s with bins := b } := ⟨_, _, _, _, _, _, _, rfl, id, fun _ => .refl _⟩
theorem Homed.withPairs (s : State) (w : List Pair) (n : Nat) : Homed s { s with window := w, free := n } :=
  ⟨_, _, _, _, _, _, _, rfl, id, fun _ => .refl _⟩
theorem Homed.withPoisoned (s : State) (p : List Nat) : Homed s { s with poisoned := p } := ⟨_, _, _, _, _, _, _, rfl, id, fun _ => .refl _⟩

theorem Homed.iteBins {s t : State} (h : Homed s t) (p : Prop) [Decidable p] (b : List Bin) :
    Homed s (if p then t else { t with bins := b }) := by
  split
  · exact h
  · exact h.trans (Homed.withBins _ _)

/-- New memory in canonical form. -/
theorem Homed.mem {s : State} {m : Memory} (h : s.mem.wf = true → m.wf = true) : Homed s { s with mem := m } :=
  ⟨m, _, _, _, _, _, _, rfl, h, fun _ => .refl _⟩

theorem Homed.wf {s t : State} (h : Homed s t) (hs : s.mem.wf = true) : t.mem.wf = true := by
  obtain ⟨_, _, _, _, _, _, _, rfl, h, -⟩ := h; exact h hs
/-- Every context stays but for its counts of stale blocks. -/
theorem Homed.ctx {s t : State} (h : Homed s t) (y : Fin 64) : Stales (s.ctx y) (t.ctx y) := by
  obtain ⟨_, _, _, _, _, _, _, rfl, -, h⟩ := h; exact h y
theorem Homed.regions {s t : State} (h : Homed s t) (y : Fin 64) : (t.ctx y).regions = (s.ctx y).regions := by
  obtain ⟨_, _, _, h⟩ := h.ctx y; rw [h]
theorem Homed.unitStep {s t : State} (h : Homed s t) (y : Fin 64) : (t.ctx y).unitStep = (s.ctx y).unitStep := by
  obtain ⟨_, _, _, h⟩ := h.ctx y; rw [h]
theorem Homed.unitDcf {s t : State} (h : Homed s t) (y : Fin 64) : (t.ctx y).unitDcf = (s.ctx y).unitDcf := by
  obtain ⟨_, _, _, h⟩ := h.ctx y; rw [h]
theorem Homed.partMask {s t : State} (h : Homed s t) (y : Fin 64) : (t.ctx y).partMask = (s.ctx y).partMask := by
  obtain ⟨_, _, _, h⟩ := h.ctx y; rw [h]
theorem Homed.cores {s t : State} (h : Homed s t) : t.cores = s.cores := by obtain ⟨_, _, _, _, _, _, _, rfl, -⟩ := h; rfl
theorem Homed.core {s t : State} (h : Homed s t) (id : Nat) : t.core id = s.core id := by simp only [State.core, h.cores]
theorem Homed.hives {s t : State} (h : Homed s t) : t.hives = s.hives := by obtain ⟨_, _, _, _, _, _, _, rfl, -⟩ := h; rfl
theorem Homed.peerCombs {s t : State} (h : Homed s t) : t.peerCombs = s.peerCombs := by
  obtain ⟨_, _, _, _, _, _, _, rfl, -⟩ := h; rfl
theorem Homed.barInsts {s t : State} (h : Homed s t) : t.barInsts = s.barInsts := by
  obtain ⟨_, _, _, _, _, _, _, rfl, -⟩ := h; rfl
theorem Homed.migrations {s t : State} (h : Homed s t) : t.migrations = s.migrations := by
  obtain ⟨_, _, _, _, _, _, _, rfl, -⟩ := h; rfl
theorem Homed.pulse {s t : State} (h : Homed s t) : t.pulse = s.pulse := by obtain ⟨_, _, _, _, _, _, _, rfl, -⟩ := h; rfl
theorem Homed.pkg {s t : State} (h : Homed s t) : t.pkg = s.pkg := by obtain ⟨_, _, _, _, _, _, _, rfl, -⟩ := h; rfl
theorem Homed.turn {s t : State} (h : Homed s t) : t.turn = s.turn := by obtain ⟨_, _, _, _, _, _, _, rfl, -⟩ := h; rfl

/-- Memory in canonical form stays so. -/
theorem Homed.memOk {s t : State} (h : Homed s t) (hs : s.memOk = true) : t.memOk = true := by
  simp only [State.memOk, Bool.and_eq_true] at hs ⊢
  exact ⟨h.wf hs.1, h.peerCombs ▸ hs.2⟩

/-! ### The operations -/

theorem staleMet_homed (s : State) (x : Fin 64) (va : Nat) : Homed s (s.staleMet x va) := by
  have hset (c : Ctx) (hc : Stales (s.ctx x) c) (y : Fin 64) : Stales s.ctxs[y] (s.setCtx x c).ctxs[y] := by
    by_cases h : x = y
    · subst h; simpa [State.setCtx, State.ctx] using hc
    · have h' : (x : Nat) ≠ y := fun e => h (Fin.ext e)
      simpa [State.setCtx, Vector.getElem_set, h'] using Stales.refl s.ctxs[y]
  unfold State.staleMet
  simp only
  repeat' split
  all_goals exact ⟨_, _, _, _, _, _, _, rfl, id, hset _ ⟨_, _, _, rfl⟩⟩

theorem staleIf_homed (b : Bool) (s : State) (x : Fin 64) (va : Nat) : Homed s (if b then s.staleMet x va else s) := by
  cases b
  · exact .refl s
  · exact staleMet_homed s x va

theorem staleAt_homed (s : State) (b : Bool) (x : Fin 64) (l : Leaf) (va : Nat) : Homed s (s.staleAt b x l va) :=
  staleIf_homed _ s x va

theorem noteEcc_homed (s : State) (x : Fin 64) (info : W64) : Homed s (s.noteEcc x info) := ⟨_, _, _, _, _, _, _, rfl, id, fun _ => .refl _⟩

/-- The step and factors of a unit, with the free values a peer's take. -/
theorem unitOf_homed (s : State) (x : Fin 64) (l : Leaf) : Homed s (s.unitOf x l).2 := by
  unfold State.unitOf
  simp only
  split
  · exact .refl s
  · exact Homed.withPairs s _ _

theorem BlockAt.write_wf (k : BlockAt) {m : Memory} (h : m.wf = true) (sc : Nat) (cs : List Nat) : (k.write m sc cs).wf = true := by
  unfold BlockAt.write
  have h2 := Memory.foldl_wf (fun (m : Memory) (p : Nat × Nat) => m.writeElem (k.data2 + p.2 * k.hb) k.hb p.1)
    (fun m x hm => Memory.writeElem_wf hm _ _ _) cs.zipIdx h
  simp only
  split
  · exact Memory.writeNat_wf h2 _ _ _
  · exact h2

theorem BlockAt.apply_wf (k : BlockAt) {m : Memory} (h : m.wf = true) (f : Nat) (g : W32) (t : Option (BitVec 16))
    (es : List (Nat × Nat × BitVec 16)) (news : List (Nat × Nat × Num)) : (k.apply m f g t es news).1.wf = true := by
  unfold BlockAt.apply
  simp only
  split
  · split
    · exact Memory.writeNat_wf (k.write_wf h _ _) _ _ _
    · exact Memory.writeNat_wf (k.write_wf h _ _) _ _ _
  · split
    · exact k.write_wf h _ _
    · exact k.write_wf h _ _

/-! What the units' work on a line leaves, where touching a line of a side plane leaves as much. -/

theorem applyBlockBy_homed {plane : State → Nat → State} (hp : ∀ s l, Homed s (plane s l)) (s : State) (b : Bin) (bl : Nat) :
    Homed s (s.applyBlockBy plane b bl) := by
  unfold State.applyBlockBy
  simp only
  split
  · exact noteEcc_homed _ _ _
  · exact (((Homed.foldl hp _ s).trans (unitOf_homed _ b.ctx b.leaf)).trans (.mem (fun h => BlockAt.apply_wf _ h _ _ _ _ _))).trans
      (staleAt_homed _ _ _ _ _)

theorem applyBinBy_homed {plane : State → Nat → State} (hp : ∀ s l, Homed s (plane s l)) (s : State) (b : Bin) :
    Homed s (s.applyBinBy plane b) := by
  unfold State.applyBinBy
  split
  · exact Homed.foldl (fun s bl => applyBlockBy_homed hp s b bl) _ s
  · split
    · exact noteEcc_homed _ _ _
    · exact .mem (fun h => Memory.foldl_wf _ (fun m x hm => Memory.writeNat_wf hm _ _ _) _ h)

theorem applyBinsBy_homed {plane : State → Nat → State} (hp : ∀ s l, Homed s (plane s l)) (s : State) (sel : Bin → Bool) :
    Homed s (s.applyBinsBy plane sel) :=
  (Homed.withBins s _).trans (Homed.foldl (applyBinBy_homed hp) _ _)

theorem makeRoom_homed {plane : State → Nat → State} (hp : ∀ s l, Homed s (plane s l)) (s : State) (line : Nat) :
    Homed s (s.makeRoom plane line) := by
  unfold State.makeRoom
  split
  · exact .refl s
  · split
    · exact .refl s
    · exact applyBinsBy_homed hp s _

theorem formBin_homed {plane : State → Nat → State} (hp : ∀ s l, Homed s (plane s l)) (s : State) (p : Pair) :
    Homed s (s.formBin plane p) := by
  unfold State.formBin
  have hc : Homed s (if p.op = 11 then (s.classLines p.leaf (lineOf p.key)).foldl plane s else s) := by
    split
    · exact Homed.foldl hp _ s
    · exact .refl s
  have hm := hc.trans (makeRoom_homed hp _ (lineOf p.key))
  simp only
  split
  · exact .refl s
  · exact hm.iteBins _ _

theorem mergePair_homed {plane : State → Nat → State} (hp : ∀ s l, Homed s (plane s l)) (s : State) (p : Pair) (n : Nat) :
    Homed s (s.mergePair plane p n) := by
  unfold State.mergePair
  exact ((formBin_homed hp s p).trans (Homed.withBins _ _)).trans (staleIf_homed _ _ _ _)

theorem joinPairs_homed {plane : State → Nat → State} (hp : ∀ s l, Homed s (plane s l)) (s : State) (p q : Pair) :
    Homed s (s.joinPairs plane p q).2 := by
  unfold State.joinPairs
  exact (formBin_homed hp s p).trans (staleIf_homed _ _ _ _)

theorem mergeAll_homed {plane : State → Nat → State} (hp : ∀ s l, Homed s (plane s l)) (n : Nat) (ps : List (Pair × Nat)) (s : State) :
    Homed s (s.mergeAll plane n ps) := by
  induction n generalizing s ps with
  | zero => cases ps <;> exact .refl s
  | succ n ih =>
    cases ps with
    | nil => exact .refl s
    | cons q t =>
      unfold State.mergeAll
      simp only
      have hd : Homed s s.draw.2 := Homed.withPairs s _ _
      split
      · exact (hd.trans (mergePair_homed hp _ _ _)).trans (ih _ _)
      · exact (hd.trans (joinPairs_homed hp _ _ _)).trans (ih _ _)

theorem mergeWindowBy_homed {plane : State → Nat → State} (hp : ∀ s l, Homed s (plane s l)) (s : State) (sel : Pair → Bool) :
    Homed s (s.mergeWindowBy plane sel) :=
  (Homed.withPairs s _ _).trans (mergeAll_homed hp _ _ _)

theorem outsideWrites_homed (s : State) (line : Nat) : Homed s (s.outsideWrites line) := by
  unfold State.outsideWrites
  split
  · exact .refl s
  · simp only
    split
    · exact Homed.withPairs s _ _
    · exact (Homed.withPairs s s.window (s.free + 1)).trans (.mem (fun h => Memory.writeBytes_wf h _ _))

/-- No line of the package's own memory is written from outside. -/
theorem outsideWrites_own (s : State) (line : Nat) (h : 64 * line < 2 ^ 52) : s.outsideWrites line = s := if_pos h

theorem touchFuel_homed (n : Nat) (s : State) (line : Nat) : Homed s (s.touchFuel n line) := by
  induction n generalizing s line with
  | zero => exact .refl s
  | succ n ih => exact ((mergeWindowBy_homed ih s _).trans (applyBinsBy_homed ih _ _)).trans (outsideWrites_homed _ _)

theorem touchLine_homed (s : State) (line : Nat) : Homed s (s.touchLine line) := touchFuel_homed _ s line

theorem applyBlock_homed (s : State) (b : Bin) (bl : Nat) : Homed s (s.applyBlock b bl) := applyBlockBy_homed touchLine_homed s b bl
theorem applyBin_homed (s : State) (b : Bin) : Homed s (s.applyBin b) := applyBinBy_homed touchLine_homed s b
theorem applyBins_homed (s : State) (sel : Bin → Bool) : Homed s (s.applyBins sel) := applyBinsBy_homed touchLine_homed s sel
theorem mergeWindow_homed (s : State) (sel : Pair → Bool) : Homed s (s.mergeWindow sel) := mergeWindowBy_homed touchLine_homed s sel
theorem applyOver_homed (s : State) (key n : Nat) : Homed s (s.applyOver key n) := (mergeWindow_homed s _).trans (applyBins_homed _ _)
theorem touchPlane_homed (s : State) (k : BlockAt) : Homed s (s.touchPlane k) := Homed.foldl touchLine_homed _ s

/-- Pairs and bins of the lines touched are applied, a line outside the package may have been written, and nothing else happens. -/
theorem touch_homed (s : State) (key n : Nat) : Homed s (s.touch key n) := by
  unfold State.touch
  split
  · exact .refl s
  · exact Homed.foldl (fun s i => touchLine_homed s _) _ s

theorem homeRead_homed (s : State) (key n : Nat) : Homed s (s.homeRead key n).2 := touch_homed s key n
theorem homeNat_homed (s : State) (key n : Nat) : Homed s (s.homeNat key n).2 := touch_homed s key n

theorem homeWrite_homed (s : State) (key : Nat) (bs : List Byte) : Homed s (s.homeWrite key bs) :=
  ((touch_homed s key bs.length).trans (.mem (m := (s.touch key bs.length).mem.writeBytes key bs)
    (fun h => Memory.writeBytes_wf h _ _))).trans (Homed.withPoisoned _ _)

/-- A read's bytes are those of memory once the line's pairs and bins are applied. -/
theorem homeRead_fst (s : State) (key n : Nat) : (s.homeRead key n).1 = (s.touch key n).mem.readBytes key n := rfl
theorem homeWrite_mem (s : State) (key : Nat) (bs : List Byte) :
    (s.homeWrite key bs).mem = (s.touch key bs.length).mem.writeBytes key bs := rfl

theorem storeElem_homed (s : State) (e : Elem) (ty : Ty) : Homed s (s.storeElem e ty) :=
  (touch_homed s _ _).trans (.mem (fun h => Memory.writeElem_wf h _ _ _))

theorem storeOver_homed (s : State) (x : Fin 64) (e : Elem) (news : List (Nat × Nat × Num)) : Homed s (s.storeOver x e news) := by
  unfold State.storeOver
  simp only
  split
  · exact ((((touch_homed s _ _).trans (touchPlane_homed _ _)).trans (unitOf_homed _ _ _)).trans
      (.mem (fun h => BlockAt.apply_wf _ h _ _ _ _ _))).trans (staleAt_homed _ _ _ _ _)
  · exact ((touch_homed s _ _).trans (touchPlane_homed _ _)).trans (.mem (fun h => BlockAt.write_wf _ h _ _))

theorem storeBlock_homed (s : State) (x : Fin 64) (es : List Elem) (ty : Ty) : Homed s (s.storeBlock x es ty) := by
  unfold State.storeBlock
  split
  · exact .refl s
  · simp only
    split
    · exact (storeOver_homed s x _ []).trans (.mem (fun h => Memory.foldl_wf _ (fun _ _ hm => Memory.writeElem_wf hm _ _ _) _ h))
    · exact storeOver_homed _ _ _ _

theorem loadElem_homed (s : State) (x : Fin 64) (e : Elem) (ty : Ty) : Homed s (s.loadElem x e ty).2 := by
  obtain ⟨o, ho⟩ : ∃ o, e.leaf.elemTy = o := ⟨_, rfl⟩
  simp only [State.loadElem, ho]
  cases o <;> simp only <;> repeat' split
  all_goals first
    | exact .refl s
    | exact touch_homed s _ _
    | exact (touch_homed s _ _).trans (touchPlane_homed _ _)
    | exact ((touch_homed s _ _).trans (touchPlane_homed _ _)).trans (unitOf_homed _ _ _)

end Sys2Proof.Machine
end

