-- ==== Sys2Proof/Laws/Issue.lean ====
section
/-! SUPPORT. What the shared operation of issue can do: a word that is ready does as it is judged; one that is not changes nothing
but its sequencer's wait reason. -/
namespace Sys2Proof.Machine

theorem State.ready_iff (s : State) (h : Hdr) (opc : Nat) :
    s.ready h opc = true ↔ (s.core s.issuer).issuing h.eng = true
      ∧ (s.core s.issuer).blocked (s.cycle (s.core s.issuer)) h opc = none
      ∧ ((s.core s.issuer).usesHandler h.eng && (h.pop.isSome || h.push.isSome)) = false := by
  simp only [State.ready, Bool.and_eq_true, Option.isNone_iff_eq_none, Bool.not_eq_true', and_assoc]

/-- A ready word issues, traps or waits as it is judged. -/
theorem State.issue_ready {s : State} {h : Hdr} {opc : Nat} (hr : s.ready h opc = true) (k : Core → Judged) :
    s.issue h opc k = (k s.me).outcome s h opc := by
  obtain ⟨h1, h2, h3⟩ := (State.ready_iff s h opc).mp hr
  simp only [State.issue, h1, h2, h3, State.me, Bool.not_true, Bool.false_eq_true, if_false]
  cases k (s.core s.issuer) <;> rfl

/-! Each judgement's outcome. -/

@[simp] theorem Judged.outcome_wait (s : State) (h : Hdr) (opc : Nat) (w : Why) :
    (Judged.wait w).outcome s h opc = waits s h w := rfl
@[simp] theorem Judged.outcome_trap (s : State) (h : Hdr) (opc : Nat) (c : Cause) (i : W64) :
    (Judged.trap c i).outcome s h opc = trapped s h c i := rfl
@[simp] theorem Judged.outcome_illegal (s : State) (h : Hdr) (opc r : Nat) :
    (Judged.illegal r).outcome s h opc = trapped s h .illegal (BitVec.ofNat 64 r) := rfl
@[simp] theorem Judged.outcome_go (s s' : State) (h : Hdr) (opc : Nat) (e : Eff) :
    (Judged.go s' e).outcome s h opc = .next (s'.commit s.issuer h opc e) := rfl
@[simp] theorem Judged.outcome_ite (s : State) (h : Hdr) (opc : Nat) (p : Prop) [Decidable p] (a b : Judged) :
    (if p then a else b).outcome s h opc = if p then a.outcome s h opc else b.outcome s h opc := by
  split <;> rfl

/-- Whatever a word is, a slot answers a next state. -/
theorem State.issue_goesOn (s : State) (h : Hdr) (opc : Nat) (k : Core → Judged) : goesOn (s.issue h opc k) = true := by
  unfold State.issue
  simp only
  repeat' split
  all_goals rfl

end Sys2Proof.Machine
end

