-- ==== Sys2Proof/Laws/Ops.lean ====
section
/-! SUPPORT. What the shared operations of issue, landing and completion can do: token counts, raising a trap, pushing tokens,
completing a word, landing a write, and issuing a word. -/
namespace Sys2Proof.Machine

/-! ### Token counts -/

theorem queueNo_lt (a b : Seq) : queueNo a b < 16 := by cases a <;> cases b <;> decide

theorem queueNo_inj {a b p q : Seq} : queueNo a b = queueNo p q ↔ (a, b) = (p, q) := by
  cases a <;> cases b <;> cases p <;> cases q <;> decide

/-- Setting digit `k` of a number in base 16 adds `v` and takes its old digit away at that place. -/
theorem setNib_toNat (w : BitVec 64) {k : Nat} (hk : k < 16) (v : Nat) :
    (setNib w k v).toNat + nib w k * 16 ^ k = w.toNat + v % 16 * 16 ^ k := by
  have hp : 0 < 16 ^ k := Nat.pow_pos (by decide)
  have hle : nib w k * 16 ^ k ≤ w.toNat :=
    Nat.le_trans (Nat.mul_le_mul_right _ (Nat.mod_le _ _)) (Nat.div_mul_le_self _ _)
  have hq : w.toNat / 16 ^ k < 16 ^ (16 - k) := by
    rw [Nat.div_lt_iff_lt_mul hp, ← Nat.pow_add]
    rw [show 16 - k + k = 16 by omega]
    exact w.isLt
  have h16 : 16 ^ (16 - k) = 16 * 16 ^ (15 - k) := by rw [← Nat.pow_succ']; congr 1; omega
  have hd : w.toNat / 16 ^ k - nib w k + v % 16 < 16 ^ (16 - k) := by
    unfold nib
    rw [h16] at hq ⊢
    generalize w.toNat / 16 ^ k = y at hq ⊢
    generalize 16 ^ (15 - k) = z at hq ⊢
    omega
  have hr : w.toNat - nib w k * 16 ^ k = (w.toNat / 16 ^ k - nib w k) * 16 ^ k + w.toNat % 16 ^ k := by
    rw [Nat.sub_mul]
    have := Nat.div_add_mod' w.toNat (16 ^ k)
    have : nib w k * 16 ^ k ≤ w.toNat / 16 ^ k * 16 ^ k := Nat.mul_le_mul_right _ (Nat.mod_le _ _)
    omega
  have hb : w.toNat - nib w k * 16 ^ k + v % 16 * 16 ^ k < 2 ^ 64 := by
    have h1 : w.toNat % 16 ^ k < 16 ^ k := Nat.mod_lt _ hp
    have h2 : (w.toNat / 16 ^ k - nib w k + v % 16 + 1) * 16 ^ k ≤ 16 ^ (16 - k) * 16 ^ k := Nat.mul_le_mul_right _ hd
    rw [← Nat.pow_add, show 16 - k + k = 16 by omega] at h2
    have h3 : (w.toNat / 16 ^ k - nib w k + v % 16 + 1) * 16 ^ k
        = (w.toNat / 16 ^ k - nib w k) * 16 ^ k + v % 16 * 16 ^ k + 16 ^ k := by
      rw [Nat.add_mul, Nat.add_mul, Nat.one_mul]
    omega
  rw [setNib, BitVec.toNat_ofNat, Nat.mod_eq_of_lt hb]
  omega

theorem nib_setNib (w : BitVec 64) {k j : Nat} (hk : k < 16) (hj : j < 16) (v : Nat) :
    nib (setNib w k v) j = if k = j then v % 16 else nib w j := by
  have h := setNib_toNat w hk v
  have hp : 0 < 16 ^ k := Nat.pow_pos (by decide)
  generalize hw : (setNib w k v).toNat = x at h
  simp only [nib, hw] at h ⊢
  rcases Nat.lt_trichotomy k j with hlt | rfl | hgt
  · rw [if_neg (by omega)]
    obtain ⟨d, rfl⟩ := Nat.exists_eq_add_of_lt hlt
    have e : 16 ^ (k + d + 1) = 16 ^ k * 16 * 16 ^ d := by rw [Nat.pow_succ, Nat.pow_add]; ac_rfl
    have key : ∀ y : Nat, y / 16 ^ (k + d + 1) = y / 16 ^ k / 16 / 16 ^ d := by
      intro y; rw [e, ← Nat.div_div_eq_div_mul, ← Nat.div_div_eq_div_mul]
    have hx : x / 16 ^ k + w.toNat / 16 ^ k % 16 = w.toNat / 16 ^ k + v % 16 := by
      have := congrArg (· / 16 ^ k) h
      simpa only [Nat.add_mul_div_right _ _ hp] using this
    rw [key, key]
    congr 2
    omega
  · rw [if_pos rfl]
    have hx : x / 16 ^ k + w.toNat / 16 ^ k % 16 = w.toNat / 16 ^ k + v % 16 := by
      have := congrArg (· / 16 ^ k) h
      simpa only [Nat.add_mul_div_right _ _ hp] using this
    omega
  · rw [if_neg (by omega)]
    obtain ⟨d, rfl⟩ := Nat.exists_eq_add_of_lt hgt
    have hj : 0 < 16 ^ j := Nat.pow_pos (by decide)
    have e : 16 ^ (j + d + 1) = 16 ^ d * 16 * 16 ^ j := by rw [Nat.pow_succ, Nat.pow_add]; ac_rfl
    rw [e, ← Nat.mul_assoc, ← Nat.mul_assoc, ← Nat.mul_assoc, ← Nat.mul_assoc] at h
    have hx := congrArg (· / 16 ^ j) h
    simp only [Nat.add_mul_div_right _ _ hj] at hx
    omega

/-- A queue's count after another is set. -/
theorem Core.tokens_setTokens (c : Core) (a b p q : Seq) (n : Nat) :
    (c.setTokens a b n).tokens p q = if (a, b) = (p, q) then n % 16 else c.tokens p q := by
  simp only [Core.tokens, Core.setTokens, nib_setNib _ (queueNo_lt a b) (queueNo_lt p q), queueNo_inj]

@[simp] theorem Core.ceiling_setTokens (c : Core) (a b p q : Seq) (n : Nat) : (c.setTokens a b n).ceiling p q = c.ceiling p q := rfl

theorem Core.tokens_lt (c : Core) (a b : Seq) : c.tokens a b < 16 := Nat.mod_lt _ (by decide)

/-! ### Raising a trap, pushing tokens -/

/-- A trap raised changes its core's list of them alone. -/
theorem Core.raise_eq (c : Core) (q : Seq) (cause : Cause) (pc : W32) (info : W64) :
    ∃ tr, c.raise q cause pc info = { c with raised := tr } := by
  unfold Core.raise
  split <;> exact ⟨_, rfl⟩

/-- A trap of a sequencer that has none raised joins the others. -/
theorem Core.raise_of_none {c : Core} {q : Seq} (h : ∀ t ∈ c.raised, t.seq ≠ q) (cause : Cause) (pc : W32) (info : W64) :
    c.raise q cause pc info = { c with raised := c.raised ++ [⟨q, cause, pc, info⟩] } := by
  have hf : c.raised.filter (fun t => t.seq != q || t.cause.stands) = c.raised :=
    List.filter_eq_self.2 fun t ht => by simp [h t ht]
  unfold Core.raise
  split
  · rfl
  · simp only [hf]
    rw [if_neg]
    simpa using h

/-- TOKEN_CEILING is always raised (R55). -/
theorem Core.raise_ceiling (c : Core) (q : Seq) (pc : W32) (info : W64) :
    c.raise q .tokenCeiling pc info = { c with raised := c.raised ++ [⟨q, .tokenCeiling, pc, info⟩] } := rfl

theorem Core.raise_of_nil {c : Core} (h : c.raised = []) (q : Seq) (cause : Cause) (pc : W32) (info : W64) :
    c.raise q cause pc info = { c with raised := [⟨q, cause, pc, info⟩] } := by
  simp [Core.raise, h]

/-- Tokens pushed: none, all of them, or TOKEN_CEILING and none (R54, R55). -/
theorem Core.pushTokens_cases (c : Core) (a b : Seq) (n : Nat) (pc : W32) (sig : Bool) :
    (n = 0 ∧ c.pushTokens a b n pc sig = c)
      ∨ (0 < n ∧ c.ceiling a b < c.tokens a b + n
          ∧ c.pushTokens a b n pc sig = c.raise a .tokenCeiling (c.nextPc a) (ceilingInfo pc a b sig))
      ∨ (0 < n ∧ c.tokens a b + n ≤ c.ceiling a b ∧ c.pushTokens a b n pc sig = c.setTokens a b (c.tokens a b + n)) := by
  unfold Core.pushTokens
  split
  · exact .inl ⟨‹_›, rfl⟩
  · split
    · exact .inr (.inl ⟨by omega, ‹_›, rfl⟩)
    · exact .inr (.inr ⟨by omega, by omega, rfl⟩)

/-! ### Completing a word -/

/-- What a completing word leaves of its core: all but its record, its tag, its sequencer's RESTART, the token counts and the traps
raised. -/
theorem Core.complete_eq (c : Core) (a : Act) :
    ∃ seqs tags tq tr, c.complete a = { c with acts := c.acts.filter (·.id != a.id), seqs := seqs, handlerTags := tags
                                               tqcnt := tq, raised := tr } := by
  unfold Core.complete
  have push : ∀ (d : Core) (b : Seq), ∃ tq tr, d.pushTokens a.seq b 1 a.pc a.isTsig = { d with tqcnt := tq, raised := tr } := by
    intro d b
    rcases Core.pushTokens_cases d a.seq b 1 a.pc a.isTsig with ⟨h, -⟩ | ⟨-, -, h⟩ | ⟨-, -, h⟩
    · omega
    · rw [h, Core.raise_ceiling]
      exact ⟨_, _, rfl⟩
    · exact ⟨_, _, h⟩
  rcases a.tag with _ | t <;> rcases a.push with _ | b <;> cases a.resumed <;> cases a.handler <;>
    simp only [Core.setTag, Core.setSeq, if_true, if_false, Bool.false_eq_true]
  all_goals first
    | exact ⟨_, _, _, _, rfl⟩
    | (obtain ⟨tq, tr, h⟩ := push _ b; rw [h]; exact ⟨_, _, _, _, rfl⟩)

theorem Core.complete_id (c : Core) (a : Act) : (c.complete a).id = c.id := by
  obtain ⟨_, _, _, _, h⟩ := c.complete_eq a
  rw [h]

/-! ### Stopping and leaving the handler: the core stays itself -/

theorem Core.stopAct_id (now : Nat) (k : StopKind) (c : Core) (a : Act) : (c.stopAct now k a).id = c.id := by
  have give (p : Option Nat) : (c.giveBack a p).id = c.id := by
    unfold Core.giveBack
    cases a.tag <;> simp [Core.setTag, Core.setSeq] <;> split <;> rfl
  unfold Core.stopAct
  split
  · exact (Core.complete_id _ a).trans rfl
  · rfl
  · split
    · rfl
    · exact give _
  · split
    · rfl
    · exact give _

theorem Core.halt_id (c : Core) (now : Nat) (k : StopKind) : (c.halt now k).id = c.id := by
  have fold : ∀ (l : List Act) (d : Core), (l.foldl (Core.stopAct now k) d).id = d.id := by
    intro l
    induction l with
    | nil => intro d; rfl
    | cons a t ih => intro d; rw [List.foldl_cons, ih, Core.stopAct_id]
  unfold Core.halt
  simp only
  split <;> simp [Core.stopQueues, fold]

theorem Core.leaveHandler_id (c : Core) (now : Nat) : (c.leaveHandler now).id = c.id := by
  unfold Core.leaveHandler
  simp only
  split
  · exact Core.halt_id _ _ _
  · split
    · exact Core.halt_id _ _ _
    · split
      · exact Core.halt_id _ _ _
      · rfl

/-! ### Landing -/

/-- A write that lands, other than of a sysreg or a ring, is in its core alone. -/
theorem State.applyWrite_frame (s : State) (id : Nat) (q : Seq) (w : Write) (hw : ∀ i v, w ≠ .sysreg i v) (hr : ∀ r v, w ≠ .ring r v) :
    ∃ c, s.applyWrite id q w = s.setCore c ∧ c.id = id := by
  unfold State.applyWrite
  cases w with
  | sysreg i v => exact absurd rfl (hw i v)
  | ring r v => exact absurd rfl (hr r v)
  | g hb r v =>
    refine ⟨_, rfl, ?_⟩
    unfold Core.wr
    split
    · simp
    · split <;> simp [Core.setSeq]
  | leave => exact ⟨_, rfl, (Core.leaveHandler_id _ _).trans (by simp)⟩
  | _ => exact ⟨_, rfl, by simp [Core.setTile]⟩

/-- A ring register that lands changes cores and the messages of rings. -/
theorem State.applyWrite_ring (s : State) (id : Nat) (q : Seq) (r : Ring) (v : RingReg) :
    ∃ cs ms, s.applyWrite id q (.ring r v) = { s with cores := cs, ringMsgs := ms } := ⟨_, _, rfl⟩

/-! ### Issuing -/

/-- A word that issues changes its core alone, and uses a free value. -/
theorem State.commit_eq (s : State) (id : Nat) (h : Hdr) (opc : Nat) (e : Eff) :
    ∃ c, s.commit id h opc e = { s with free := s.free + 1 }.setCore (e.after c) :=
  ⟨_, rfl⟩

@[simp] theorem State.commit_mem (s : State) (id : Nat) (h : Hdr) (opc : Nat) (e : Eff) : (s.commit id h opc e).mem = s.mem := rfl
@[simp] theorem State.commit_ctxs (s : State) (id : Nat) (h : Hdr) (opc : Nat) (e : Eff) : (s.commit id h opc e).ctxs = s.ctxs := rfl
@[simp] theorem State.commit_hives (s : State) (id : Nat) (h : Hdr) (opc : Nat) (e : Eff) : (s.commit id h opc e).hives = s.hives :=
  rfl
@[simp] theorem State.commit_peerCombs (s : State) (id : Nat) (h : Hdr) (opc : Nat) (e : Eff) :
    (s.commit id h opc e).peerCombs = s.peerCombs := rfl

end Sys2Proof.Machine
end

