-- ==== Sys2Proof/Laws/PerInstr.lean ====
section
/-! SUPPORT. Statements about every instruction, one lemma per constructor. `Headers`: the word of a well-formed instruction is its
header with an opcode and a body of 48 bits, so that its header reads back (WordOf.reads) and it has 80 bits (WordOf.lt). -/
open Sys2Proof

/-- R39 to R41: the encoding of a well-formed instruction is its header, an opcode and a body of 48 bits. -/
def Sys2Proof.Laws.Headers.Statement (i : Instr) : Prop :=
  ∀ (h : Hdr) (w : Nat), i.hdr? = some h → wellFormed i = true → encodeNat i = some w → ∃ opc, WordOf h opc w

theorem Sys2Proof.Laws.Headers.of_word {i : Instr} {h : Hdr} {opc w : Nat} (hh : i.hdr? = some h) (he : encodeNat i = some w)
    (f : wellFormed i = true → WordOf h opc w) : Statement i := by
  intro h' w' hh' hf he'
  cases hh.symm.trans hh'
  cases he.symm.trans he'
  exact ⟨opc, f hf⟩

theorem Sys2Proof.Laws.Headers.of_event {i : Instr} (hh : i.hdr? = none) : Statement i := by
  intro h w hh'
  rw [hh] at hh'
  cases hh'

theorem Sys2Proof.Laws.Headers.nop (h : Hdr) : Statement (.nop h) :=
  of_word rfl rfl (fun _ => wordOf_rrr (by decide) (by decide) (by decide) (by decide) (by decide) (by decide))
theorem Sys2Proof.Laws.Headers.endW (h : Hdr) : Statement (.endW h) :=
  of_word rfl rfl (fun _ => wordOf_rrr (by decide) (by decide) (by decide) (by decide) (by decide) (by decide))
theorem Sys2Proof.Laws.Headers.add (h : Hdr) (d a b : GReg) : Statement (.add h d a b) :=
  of_word rfl rfl (fun _ => wordOf_rrr (by decide) (by omega) (by omega) (by omega) (by decide) (by decide))
theorem Sys2Proof.Laws.Headers.sub (h : Hdr) (d a b : GReg) : Statement (.sub h d a b) :=
  of_word rfl rfl (fun _ => wordOf_rrr (by decide) (by omega) (by omega) (by omega) (by decide) (by decide))
theorem Sys2Proof.Laws.Headers.mul (h : Hdr) (d a b : GReg) : Statement (.mul h d a b) :=
  of_word rfl rfl (fun _ => wordOf_rrr (by decide) (by omega) (by omega) (by omega) (by decide) (by decide))
theorem Sys2Proof.Laws.Headers.mulh (h : Hdr) (d a b : GReg) : Statement (.mulh h d a b) :=
  of_word rfl rfl (fun _ => wordOf_rrr (by decide) (by omega) (by omega) (by omega) (by decide) (by decide))
theorem Sys2Proof.Laws.Headers.mulhu (h : Hdr) (d a b : GReg) : Statement (.mulhu h d a b) :=
  of_word rfl rfl (fun _ => wordOf_rrr (by decide) (by omega) (by omega) (by omega) (by decide) (by decide))
theorem Sys2Proof.Laws.Headers.madd (h : Hdr) (d a b c : GReg) : Statement (.madd h d a b c) :=
  of_word rfl rfl (fun _ => wordOf_rrr (by decide) (by omega) (by omega) (by omega) (by omega) (by decide))
theorem Sys2Proof.Laws.Headers.and (h : Hdr) (d a b : GReg) : Statement (.and h d a b) :=
  of_word rfl rfl (fun _ => wordOf_rrr (by decide) (by omega) (by omega) (by omega) (by decide) (by decide))
theorem Sys2Proof.Laws.Headers.or (h : Hdr) (d a b : GReg) : Statement (.or h d a b) :=
  of_word rfl rfl (fun _ => wordOf_rrr (by decide) (by omega) (by omega) (by omega) (by decide) (by decide))
theorem Sys2Proof.Laws.Headers.xor (h : Hdr) (d a b : GReg) : Statement (.xor h d a b) :=
  of_word rfl rfl (fun _ => wordOf_rrr (by decide) (by omega) (by omega) (by omega) (by decide) (by decide))
theorem Sys2Proof.Laws.Headers.shl (h : Hdr) (d a b : GReg) : Statement (.shl h d a b) :=
  of_word rfl rfl (fun _ => wordOf_rrr (by decide) (by omega) (by omega) (by omega) (by decide) (by decide))
theorem Sys2Proof.Laws.Headers.shr (h : Hdr) (d a b : GReg) : Statement (.shr h d a b) :=
  of_word rfl rfl (fun _ => wordOf_rrr (by decide) (by omega) (by omega) (by omega) (by decide) (by decide))
theorem Sys2Proof.Laws.Headers.sar (h : Hdr) (d a b : GReg) : Statement (.sar h d a b) :=
  of_word rfl rfl (fun _ => wordOf_rrr (by decide) (by omega) (by omega) (by omega) (by decide) (by decide))
theorem Sys2Proof.Laws.Headers.min (h : Hdr) (d a b : GReg) : Statement (.min h d a b) :=
  of_word rfl rfl (fun _ => wordOf_rrr (by decide) (by omega) (by omega) (by omega) (by decide) (by decide))
theorem Sys2Proof.Laws.Headers.max (h : Hdr) (d a b : GReg) : Statement (.max h d a b) :=
  of_word rfl rfl (fun _ => wordOf_rrr (by decide) (by omega) (by omega) (by omega) (by decide) (by decide))
theorem Sys2Proof.Laws.Headers.minu (h : Hdr) (d a b : GReg) : Statement (.minu h d a b) :=
  of_word rfl rfl (fun _ => wordOf_rrr (by decide) (by omega) (by omega) (by omega) (by decide) (by decide))
theorem Sys2Proof.Laws.Headers.maxu (h : Hdr) (d a b : GReg) : Statement (.maxu h d a b) :=
  of_word rfl rfl (fun _ => wordOf_rrr (by decide) (by omega) (by omega) (by omega) (by decide) (by decide))
theorem Sys2Proof.Laws.Headers.slt (h : Hdr) (d a b : GReg) : Statement (.slt h d a b) :=
  of_word rfl rfl (fun _ => wordOf_rrr (by decide) (by omega) (by omega) (by omega) (by decide) (by decide))
theorem Sys2Proof.Laws.Headers.sltu (h : Hdr) (d a b : GReg) : Statement (.sltu h d a b) :=
  of_word rfl rfl (fun _ => wordOf_rrr (by decide) (by omega) (by omega) (by omega) (by decide) (by decide))
theorem Sys2Proof.Laws.Headers.seq (h : Hdr) (d a b : GReg) : Statement (.seq h d a b) :=
  of_word rfl rfl (fun _ => wordOf_rrr (by decide) (by omega) (by omega) (by omega) (by decide) (by decide))
theorem Sys2Proof.Laws.Headers.sel (h : Hdr) (d a b c : GReg) : Statement (.sel h d a b c) :=
  of_word rfl rfl (fun _ => wordOf_rrr (by decide) (by omega) (by omega) (by omega) (by omega) (by decide))
theorem Sys2Proof.Laws.Headers.clz (h : Hdr) (d a : GReg) : Statement (.clz h d a) :=
  of_word rfl rfl (fun _ => wordOf_rrr (by decide) (by omega) (by omega) (by decide) (by decide) (by decide))
theorem Sys2Proof.Laws.Headers.popc (h : Hdr) (d a : GReg) : Statement (.popc h d a) :=
  of_word rfl rfl (fun _ => wordOf_rrr (by decide) (by omega) (by omega) (by decide) (by decide) (by decide))
theorem Sys2Proof.Laws.Headers.addi (h : Hdr) (d a : GReg) (imm : W32) : Statement (.addi h d a imm) :=
  of_word rfl rfl (fun _ => wordOf_rri (by decide) (by omega) (by omega) (by omega) (by decide))
theorem Sys2Proof.Laws.Headers.andi (h : Hdr) (d a : GReg) (imm : W32) : Statement (.andi h d a imm) :=
  of_word rfl rfl (fun _ => wordOf_rri (by decide) (by omega) (by omega) (by omega) (by decide))
theorem Sys2Proof.Laws.Headers.ori (h : Hdr) (d a : GReg) (imm : W32) : Statement (.ori h d a imm) :=
  of_word rfl rfl (fun _ => wordOf_rri (by decide) (by omega) (by omega) (by omega) (by decide))
theorem Sys2Proof.Laws.Headers.xori (h : Hdr) (d a : GReg) (imm : W32) : Statement (.xori h d a imm) :=
  of_word rfl rfl (fun _ => wordOf_rri (by decide) (by omega) (by omega) (by omega) (by decide))
theorem Sys2Proof.Laws.Headers.shli (h : Hdr) (d a : GReg) (imm : Fin 64) : Statement (.shli h d a imm) :=
  of_word rfl rfl (fun _ => wordOf_rri (by decide) (by omega) (by omega) (by omega) (by decide))
theorem Sys2Proof.Laws.Headers.shri (h : Hdr) (d a : GReg) (imm : Fin 64) : Statement (.shri h d a imm) :=
  of_word rfl rfl (fun _ => wordOf_rri (by decide) (by omega) (by omega) (by omega) (by decide))
theorem Sys2Proof.Laws.Headers.sari (h : Hdr) (d a : GReg) (imm : Fin 64) : Statement (.sari h d a imm) :=
  of_word rfl rfl (fun _ => wordOf_rri (by decide) (by omega) (by omega) (by omega) (by decide))
theorem Sys2Proof.Laws.Headers.slti (h : Hdr) (d a : GReg) (imm : W32) : Statement (.slti h d a imm) :=
  of_word rfl rfl (fun _ => wordOf_rri (by decide) (by omega) (by omega) (by omega) (by decide))
theorem Sys2Proof.Laws.Headers.ldi (h : Hdr) (d : GReg) (imm : BitVec 42) : Statement (.ldi h d imm) :=
  of_word rfl rfl (fun _ => wordOf_wide (by decide) (by omega) (by omega))
theorem Sys2Proof.Laws.Headers.orhi (h : Hdr) (d : GReg) (imm : BitVec 22) : Statement (.orhi h d imm) :=
  of_word rfl rfl (fun _ => wordOf_wide (by decide) (by omega) (by omega))
theorem Sys2Proof.Laws.Headers.bfx (h : Hdr) (d a : GReg) (pos : Fin 64) (wid : Nat) (sx : Bool) : Statement (.bfx h d a pos wid sx) :=
  of_word rfl rfl (fun hf => wordOf_rrr (by decide) (by omega) (by omega) (by decide) (by decide) (by
    simp only [wellFormed, Bool.and_eq_true, decide_eq_true_eq] at hf
    have := bnat_lt sx
    omega))
theorem Sys2Proof.Laws.Headers.bfi (h : Hdr) (d a b : GReg) (pos : Fin 64) (wid : Nat) : Statement (.bfi h d a b pos wid) :=
  of_word rfl rfl (fun hf => wordOf_rrr (by decide) (by omega) (by omega) (by omega) (by decide) (by
    simp only [wellFormed, Bool.and_eq_true, decide_eq_true_eq] at hf
    omega))
theorem Sys2Proof.Laws.Headers.beq (h : Hdr) (a b : GReg) (off : W32) : Statement (.beq h a b off) :=
  of_word rfl rfl (fun _ => wordOf_brw (by decide) (by omega) (by omega) (by omega))
theorem Sys2Proof.Laws.Headers.bne (h : Hdr) (a b : GReg) (off : W32) : Statement (.bne h a b off) :=
  of_word rfl rfl (fun _ => wordOf_brw (by decide) (by omega) (by omega) (by omega))
theorem Sys2Proof.Laws.Headers.blt (h : Hdr) (a b : GReg) (off : W32) : Statement (.blt h a b off) :=
  of_word rfl rfl (fun _ => wordOf_brw (by decide) (by omega) (by omega) (by omega))
theorem Sys2Proof.Laws.Headers.bge (h : Hdr) (a b : GReg) (off : W32) : Statement (.bge h a b off) :=
  of_word rfl rfl (fun _ => wordOf_brw (by decide) (by omega) (by omega) (by omega))
theorem Sys2Proof.Laws.Headers.bltu (h : Hdr) (a b : GReg) (off : W32) : Statement (.bltu h a b off) :=
  of_word rfl rfl (fun _ => wordOf_brw (by decide) (by omega) (by omega) (by omega))
theorem Sys2Proof.Laws.Headers.bgeu (h : Hdr) (a b : GReg) (off : W32) : Statement (.bgeu h a b off) :=
  of_word rfl rfl (fun _ => wordOf_brw (by decide) (by omega) (by omega) (by omega))
theorem Sys2Proof.Laws.Headers.jmp (h : Hdr) (off : W32) : Statement (.jmp h off) :=
  of_word rfl rfl (fun _ => wordOf_brw (by decide) (by decide) (by decide) (by omega))
theorem Sys2Proof.Laws.Headers.jal (h : Hdr) (a : GReg) (off : W32) : Statement (.jal h a off) :=
  of_word rfl rfl (fun _ => wordOf_brw (by decide) (by omega) (by decide) (by omega))
theorem Sys2Proof.Laws.Headers.loop (h : Hdr) (a : GReg) (off : W32) : Statement (.loop h a off) :=
  of_word rfl rfl (fun _ => wordOf_brw (by decide) (by omega) (by decide) (by omega))
theorem Sys2Proof.Laws.Headers.jr (h : Hdr) (a : GReg) : Statement (.jr h a) :=
  of_word rfl rfl (fun _ => wordOf_rrr (by decide) (by decide) (by omega) (by decide) (by decide) (by decide))
theorem Sys2Proof.Laws.Headers.tsig (h : Hdr) (q : Seq) (a : GReg) (imm : W32) : Statement (.tsig h q a imm) :=
  of_word rfl rfl (fun _ => wordOf_rri (by decide) (by decide) (by omega) (by omega) (by have := q.idx_lt; omega))
theorem Sys2Proof.Laws.Headers.twait (h : Hdr) (q : Seq) (a : GReg) (imm : W32) : Statement (.twait h q a imm) :=
  of_word rfl rfl (fun _ => wordOf_rri (by decide) (by decide) (by omega) (by omega) (by have := q.idx_lt; omega))
theorem Sys2Proof.Laws.Headers.tqrd (h : Hdr) (d : GReg) (a b : Seq) : Statement (.tqrd h d a b) :=
  of_word rfl rfl (fun _ => wordOf_rri (by decide) (by omega) (by decide) (by decide) (by have := a.idx_lt; have := b.idx_lt; omega))
theorem Sys2Proof.Laws.Headers.sysr (h : Hdr) (d a : GReg) (imm : W32) : Statement (.sysr h d a imm) :=
  of_word rfl rfl (fun _ => wordOf_rri (by decide) (by omega) (by omega) (by omega) (by decide))
theorem Sys2Proof.Laws.Headers.sysw (h : Hdr) (d a : GReg) (imm : W32) : Statement (.sysw h d a imm) :=
  of_word rfl rfl (fun _ => wordOf_rri (by decide) (by omega) (by omega) (by omega) (by decide))
theorem Sys2Proof.Laws.Headers.tqceilWrite (core act : Nat) : Statement (.tqceilWrite core act) := of_event rfl
theorem Sys2Proof.Laws.Headers.tqcntWrite (core act : Nat) : Statement (.tqcntWrite core act) := of_event rfl
theorem Sys2Proof.Laws.Headers.amaxWrite (core act : Nat) : Statement (.amaxWrite core act) := of_event rfl
theorem Sys2Proof.Laws.Headers.dcfWrite (core : Nat) (sp : Spread) : Statement (.dcfWrite core sp) := of_event rfl
theorem Sys2Proof.Laws.Headers.scopeEntryWrite (core : Nat) (sp : Spread) : Statement (.scopeEntryWrite core sp) := of_event rfl
theorem Sys2Proof.Laws.Headers.pause (h : Hdr) (a : GReg) (imm : W32) (tok : Bool) : Statement (.pause h a imm tok) :=
  of_word rfl rfl (fun _ => wordOf_rri (by decide) (by decide) (by omega) (by omega) (by have := bnat_lt tok; omega))
theorem Sys2Proof.Laws.Headers.pauseEnd (core act : Nat) : Statement (.pauseEnd core act) := of_event rfl
theorem Sys2Proof.Laws.Headers.trap (h : Hdr) (a : GReg) (imm : W32) : Statement (.trap h a imm) :=
  of_word rfl rfl (fun _ => wordOf_rri (by decide) (by decide) (by omega) (by omega) (by decide))
theorem Sys2Proof.Laws.Headers.fence (h : Hdr) (kind : FenceKind) (scope : Fin 32) (cmask : BitVec 16) : Statement (.fence h kind scope cmask) :=
  of_word rfl rfl (fun _ => wordOf_rri (by decide) (by decide) (by decide) (by omega) (by have := kind.code_lt; omega))
theorem Sys2Proof.Laws.Headers.qfence (h : Hdr) (inq outq : Bool) : Statement (.qfence h inq outq) :=
  of_word rfl rfl (fun _ => wordOf_rri (by decide) (by decide) (by decide) (by have := bnat_lt inq; have := bnat_lt outq; omega) (by decide))
theorem Sys2Proof.Laws.Headers.exit (h : Hdr) : Statement (.exit h) :=
  of_word rfl rfl (fun _ => wordOf_rrr (by decide) (by decide) (by decide) (by decide) (by decide) (by decide))
theorem Sys2Proof.Laws.Headers.exitAbort (h : Hdr) : Statement (.exitAbort h) :=
  of_word rfl rfl (fun _ => wordOf_rrr (by decide) (by decide) (by decide) (by decide) (by decide) (by decide))
theorem Sys2Proof.Laws.Headers.taskComplete (core : Nat) : Statement (.taskComplete core) := of_event rfl
theorem Sys2Proof.Laws.Headers.resume (h : Hdr) : Statement (.resume h) :=
  of_word rfl rfl (fun _ => wordOf_rrr (by decide) (by decide) (by decide) (by decide) (by decide) (by decide))
theorem Sys2Proof.Laws.Headers.handlerEntry (core : Nat) : Statement (.handlerEntry core) := of_event rfl
theorem Sys2Proof.Laws.Headers.tokenDeadlock (core : Nat) : Statement (.tokenDeadlock core) := of_event rfl
theorem Sys2Proof.Laws.Headers.resultLanding (core act : Nat) : Statement (.resultLanding core act) := of_event rfl
theorem Sys2Proof.Laws.Headers.variableResultLanding (core act : Nat) : Statement (.variableResultLanding core act) := of_event rfl
theorem Sys2Proof.Laws.Headers.trans (h : Hdr) (d : HReg) (a b : GReg) : Statement (.trans h d a b) :=
  of_word rfl rfl (fun _ => wordOf_rrr (by decide) (by omega) (by omega) (by omega) (by decide) (by decide))
theorem Sys2Proof.Laws.Headers.walkEnd (core : Nat) (h : HReg) : Statement (.walkEnd core h) := of_event rfl
theorem Sys2Proof.Laws.Headers.hstat (h : Hdr) (d : GReg) (a : HReg) : Statement (.hstat h d a) :=
  of_word rfl rfl (fun _ => wordOf_rrr (by decide) (by omega) (by omega) (by decide) (by decide) (by decide))
theorem Sys2Proof.Laws.Headers.hinv (h : Hdr) (d : HReg) : Statement (.hinv h d) :=
  of_word rfl rfl (fun _ => wordOf_rrr (by decide) (by omega) (by decide) (by decide) (by decide) (by decide))
theorem Sys2Proof.Laws.Headers.shootdown (ctx : Nat) (va : W64) : Statement (.shootdown ctx va) := of_event rfl
theorem Sys2Proof.Laws.Headers.ringdef (h : Hdr) (d : Ring) (a b : GReg) : Statement (.ringdef h d a b) :=
  of_word rfl rfl (fun _ => wordOf_rrr (by decide) (by omega) (by omega) (by omega) (by decide) (by decide))
theorem Sys2Proof.Laws.Headers.rclaim (h : Hdr) (d : GReg) (a : Ring) (n : W32) : Statement (.rclaim h d a n) :=
  of_word rfl rfl (fun _ => wordOf_rri (by decide) (by omega) (by omega) (by omega) (by decide))
theorem Sys2Proof.Laws.Headers.rwaite (h : Hdr) (d : GReg) (a : Ring) (n : W32) : Statement (.rwaite h d a n) :=
  of_word rfl rfl (fun _ => wordOf_rri (by decide) (by omega) (by omega) (by omega) (by decide))
theorem Sys2Proof.Laws.Headers.rwaitf (h : Hdr) (d : GReg) (a : Ring) (n : W32) : Statement (.rwaitf h d a n) :=
  of_word rfl rfl (fun _ => wordOf_rri (by decide) (by omega) (by omega) (by omega) (by decide))
theorem Sys2Proof.Laws.Headers.rcommit (h : Hdr) (a : Ring) (n : W32) : Statement (.rcommit h a n) :=
  of_word rfl rfl (fun _ => wordOf_rri (by decide) (by decide) (by omega) (by omega) (by decide))
theorem Sys2Proof.Laws.Headers.rrel (h : Hdr) (a : Ring) (n : W32) : Statement (.rrel h a n) :=
  of_word rfl rfl (fun _ => wordOf_rri (by decide) (by decide) (by omega) (by omega) (by decide))
theorem Sys2Proof.Laws.Headers.rcommitApply (core act : Nat) : Statement (.rcommitApply core act) := of_event rfl
theorem Sys2Proof.Laws.Headers.rrelApply (core act : Nat) : Statement (.rrelApply core act) := of_event rfl
theorem Sys2Proof.Laws.Headers.roomAnswer (core : Nat) (ring : Ring) : Statement (.roomAnswer core ring) := of_event rfl
theorem Sys2Proof.Laws.Headers.creditArrival (core : Nat) (ring : Ring) (n : Nat) : Statement (.creditArrival core ring n) := of_event rfl
theorem Sys2Proof.Laws.Headers.rapp (h : Hdr) (d : Ring) (a : GReg) : Statement (.rapp h d a) :=
  of_word rfl rfl (fun _ => wordOf_rrr (by decide) (by omega) (by omega) (by decide) (by decide) (by decide))
theorem Sys2Proof.Laws.Headers.rappArrival (core act : Nat) : Statement (.rappArrival core act) := of_event rfl
theorem Sys2Proof.Laws.Headers.syncset (h : Hdr) (a b c : GReg) : Statement (.syncset h a b c) :=
  of_word rfl rfl (fun _ => wordOf_rrr (by decide) (by decide) (by omega) (by omega) (by omega) (by decide))
theorem Sys2Proof.Laws.Headers.syncwait (h : Hdr) (d a b c : GReg) (pl : Bool) : Statement (.syncwait h d a b c pl) :=
  of_word rfl rfl (fun _ => wordOf_rrr (by decide) (by omega) (by omega) (by omega) (by omega) (by have := bnat_lt pl; omega))
theorem Sys2Proof.Laws.Headers.syncwaitTimeout (core act : Nat) : Statement (.syncwaitTimeout core act) := of_event rfl
theorem Sys2Proof.Laws.Headers.syncrd (h : Hdr) (d a : GReg) (field : Fin 4) : Statement (.syncrd h d a field) :=
  of_word rfl rfl (fun _ => wordOf_rrr (by decide) (by omega) (by omega) (by decide) (by decide) (by omega))
theorem Sys2Proof.Laws.Headers.cld (h : Hdr) (d a b : GReg) (m : MMod) : Statement (.cld h d a b m) :=
  of_word rfl rfl (fun _ => wordOf_rrr (by decide) (by omega) (by omega) (by omega) (by decide) (encMMod_lt (by decide)))
theorem Sys2Proof.Laws.Headers.cst (h : Hdr) (d a b : GReg) (m : MMod) : Statement (.cst h d a b m) :=
  of_word rfl rfl (fun _ => wordOf_rrr (by decide) (by omega) (by omega) (by omega) (by decide) (encMMod_lt (by decide)))
theorem Sys2Proof.Laws.Headers.lds (h : Hdr) (d : GReg) (a : HReg) (b : GReg) (c : GReg) (res : Bool) (m : MMod) : Statement (.lds h d a b c res m) :=
  of_word rfl rfl (fun _ => wordOf_rrr (by decide) (by omega) (by omega) (by omega) (by omega) (encMMod_lt (by have := bnat_lt res; omega)))
theorem Sys2Proof.Laws.Headers.sts (h : Hdr) (d : GReg) (a : HReg) (b : GReg) (m : MMod) : Statement (.sts h d a b m) :=
  of_word rfl rfl (fun _ => wordOf_rrr (by decide) (by omega) (by omega) (by omega) (by decide) (encMMod_lt (by decide)))
theorem Sys2Proof.Laws.Headers.tld (h : Hdr) (d : TReg) (a : Base) (b : GReg) (gl : Fin 6) (rm : Option KReg) (m : MMod) : Statement (.tld h d a b gl rm m) :=
  of_word rfl rfl (fun _ => wordOf_rrr (by decide) (by omega) (by have := a.field_lt; omega) (by omega) (by decide) (encMMod_lt (encLd_lt _ _ _ _)))
theorem Sys2Proof.Laws.Headers.tldx (h : Hdr) (d : TReg) (a : Base) (b c : GReg) (gl : Fin 6) (rm : Option KReg) (m : MMod) : Statement (.tldx h d a b c gl rm m) :=
  of_word rfl rfl (fun _ => wordOf_rrr (by decide) (by omega) (by have := a.field_lt; omega) (by omega) (by omega) (encMMod_lt (encLd_lt _ _ _ _)))
theorem Sys2Proof.Laws.Headers.mld (h : Hdr) (d : TReg) (a : HReg) (b : GReg) (pm : Pm) (gl : Fin 6) (rm : Option KReg) (z : Bool) (m : MMod) : Statement (.mld h d a b pm gl rm z m) :=
  of_word rfl rfl (fun _ => wordOf_rrr (by decide) (by omega) (by omega) (by omega) (by have := pm.code_lt; omega) (encMMod_lt (encLd_lt _ _ _ _)))
theorem Sys2Proof.Laws.Headers.mgath (h : Hdr) (d : TReg) (a : HReg) (b : TReg) (pm : Pm) (gl : Fin 6) (rm : Option KReg) (z : Bool) (m : MMod) : Statement (.mgath h d a b pm gl rm z m) :=
  of_word rfl rfl (fun _ => wordOf_rrr (by decide) (by omega) (by omega) (by omega) (by have := pm.code_lt; omega) (encMMod_lt (encLd_lt _ _ _ _)))
theorem Sys2Proof.Laws.Headers.tst (h : Hdr) (d : TReg) (a : Base) (b : GReg) (gl : Fin 6) (m : MMod) : Statement (.tst h d a b gl m) :=
  of_word rfl rfl (fun _ => wordOf_rrr (by decide) (by omega) (by have := a.field_lt; omega) (by omega) (by decide) (encMMod_lt (encLd_lt _ _ _ _)))
theorem Sys2Proof.Laws.Headers.tstx (h : Hdr) (d : TReg) (a : Base) (b c : GReg) (gl : Fin 6) (m : MMod) : Statement (.tstx h d a b c gl m) :=
  of_word rfl rfl (fun _ => wordOf_rrr (by decide) (by omega) (by have := a.field_lt; omega) (by omega) (by omega) (encMMod_lt (encLd_lt _ _ _ _)))
theorem Sys2Proof.Laws.Headers.mst (h : Hdr) (d : TReg) (a : HReg) (b : GReg) (pm : Pm) (gl : Fin 6) (m : MMod) : Statement (.mst h d a b pm gl m) :=
  of_word rfl rfl (fun _ => wordOf_rrr (by decide) (by omega) (by omega) (by omega) (by have := pm.code_lt; omega) (encMMod_lt (encLd_lt _ _ _ _)))
theorem Sys2Proof.Laws.Headers.mscat (h : Hdr) (d : TReg) (a : HReg) (b : TReg) (pm : Pm) (gl : Fin 6) (m : MMod) : Statement (.mscat h d a b pm gl m) :=
  of_word rfl rfl (fun _ => wordOf_rrr (by decide) (by omega) (by omega) (by omega) (by have := pm.code_lt; omega) (encMMod_lt (encLd_lt _ _ _ _)))
theorem Sys2Proof.Laws.Headers.pref (h : Hdr) (a : HReg) (b c : GReg) : Statement (.pref h a b c) :=
  of_word rfl rfl (fun _ => wordOf_rrr (by decide) (by decide) (by omega) (by omega) (by omega) (by decide))
theorem Sys2Proof.Laws.Headers.pgreq (h : Hdr) (a b c : GReg) : Statement (.pgreq h a b c) :=
  of_word rfl rfl (fun _ => wordOf_rrr (by decide) (by decide) (by omega) (by omega) (by omega) (by decide))
theorem Sys2Proof.Laws.Headers.pageResident (k : Nat) : Statement (.pageResident k) := of_event rfl
theorem Sys2Proof.Laws.Headers.migrationRequest (ctx : Nat) (va : W64) (dest : Home) (pfn plane : Nat) : Statement (.migrationRequest ctx va dest pfn plane) := of_event rfl
theorem Sys2Proof.Laws.Headers.migrationDrained (k : Nat) : Statement (.migrationDrained k) := of_event rfl
theorem Sys2Proof.Laws.Headers.migrationCopied (k : Nat) : Statement (.migrationCopied k) := of_event rfl
theorem Sys2Proof.Laws.Headers.migrationSwitched (k : Nat) : Statement (.migrationSwitched k) := of_event rfl
theorem Sys2Proof.Laws.Headers.peerTimeout (part : Fin 8) (pkg : Fin 64) : Statement (.peerTimeout part pkg) := of_event rfl
theorem Sys2Proof.Laws.Headers.retryAfterHint (core act elem : Nat) : Statement (.retryAfterHint core act elem) := of_event rfl
theorem Sys2Proof.Laws.Headers.homeLoad (core act elem : Nat) : Statement (.homeLoad core act elem) := of_event rfl
theorem Sys2Proof.Laws.Headers.homeStore (core act elem : Nat) : Statement (.homeStore core act elem) := of_event rfl
theorem Sys2Proof.Laws.Headers.homeAtomic (core act : Nat) : Statement (.homeAtomic core act) := of_event rfl
theorem Sys2Proof.Laws.Headers.copyin (h : Hdr) (a : GReg) : Statement (.copyin h a) :=
  of_word rfl rfl (fun _ => wordOf_rrr (by decide) (by decide) (by omega) (by decide) (by decide) (by decide))
theorem Sys2Proof.Laws.Headers.copyout (h : Hdr) (a : GReg) : Statement (.copyout h a) :=
  of_word rfl rfl (fun _ => wordOf_rrr (by decide) (by decide) (by omega) (by decide) (by decide) (by decide))
theorem Sys2Proof.Laws.Headers.copyEntry (core : Nat) (q : CopyQ) : Statement (.copyEntry core q) := of_event rfl
theorem Sys2Proof.Laws.Headers.copyLoop (core : Nat) (q : CopyQ) : Statement (.copyLoop core q) := of_event rfl
theorem Sys2Proof.Laws.Headers.copyIf (core : Nat) (q : CopyQ) : Statement (.copyIf core q) := of_event rfl
theorem Sys2Proof.Laws.Headers.copyLink (core : Nat) (q : CopyQ) : Statement (.copyLink core q) := of_event rfl
theorem Sys2Proof.Laws.Headers.copyFence (core : Nat) (q : CopyQ) : Statement (.copyFence core q) := of_event rfl
theorem Sys2Proof.Laws.Headers.copyEnd (core : Nat) (q : CopyQ) : Statement (.copyEnd core q) := of_event rfl
theorem Sys2Proof.Laws.Headers.amo (h : Hdr) (d : GReg) (a : HReg) (b c : GReg) (op : Aop) (m : MMod) : Statement (.amo h d a b c op m) :=
  of_word rfl rfl (fun _ => wordOf_rrr (by decide) (by omega) (by omega) (by omega) (by omega) (encMMod_lt (by have := op.code_lt; omega)))
theorem Sys2Proof.Laws.Headers.cas (h : Hdr) (d : GReg) (a : HReg) (b c : GReg) (m : MMod) : Statement (.cas h d a b c m) :=
  of_word rfl rfl (fun _ => wordOf_rrr (by decide) (by omega) (by omega) (by omega) (by omega) (encMMod_lt (by decide)))
theorem Sys2Proof.Laws.Headers.upd (h : Hdr) (d : Region) (a : HReg) (b : UpdIdx) (c : TReg) (gl : Fin 6) (pm : Pm) (ty : Ty) (oc : Fin 16) : Statement (.upd h d a b c gl pm ty oc) :=
  of_word rfl rfl (fun _ => wordOf_rrr (by decide) (by omega) (by omega) (by have := b.field_lt; omega) (by omega) (by have := bnat_lt b.isCont; have := ty.code_lt; have := pm.code_lt; omega))
theorem Sys2Proof.Laws.Headers.ufence (h : Hdr) : Statement (.ufence h) :=
  of_word rfl rfl (fun _ => wordOf_rrr (by decide) (by decide) (by decide) (by decide) (by decide) (by decide))
theorem Sys2Proof.Laws.Headers.updatePairArrival (core act elem : Nat) : Statement (.updatePairArrival core act elem) := of_event rfl
theorem Sys2Proof.Laws.Headers.windowClose : Statement (.windowClose) := of_event rfl
theorem Sys2Proof.Laws.Headers.regdef (h : Hdr) (d : Region) (a b c : GReg) : Statement (.regdef h d a b c) :=
  of_word rfl rfl (fun _ => wordOf_rrr (by decide) (by omega) (by omega) (by omega) (by omega) (by decide))
theorem Sys2Proof.Laws.Headers.regclr (h : Hdr) (d : Region) : Statement (.regclr h d) :=
  of_word rfl rfl (fun _ => wordOf_rrr (by decide) (by omega) (by decide) (by decide) (by decide) (by decide))
theorem Sys2Proof.Laws.Headers.regapply (h : Hdr) (d : Region) : Statement (.regapply h d) :=
  of_word rfl rfl (fun _ => wordOf_rrr (by decide) (by omega) (by decide) (by decide) (by decide) (by decide))
theorem Sys2Proof.Laws.Headers.stepadv (h : Hdr) : Statement (.stepadv h) :=
  of_word rfl rfl (fun _ => wordOf_rrr (by decide) (by decide) (by decide) (by decide) (by decide) (by decide))
theorem Sys2Proof.Laws.Headers.stsweep (h : Hdr) (a b c : GReg) : Statement (.stsweep h a b c) :=
  of_word rfl rfl (fun _ => wordOf_rrr (by decide) (by decide) (by omega) (by omega) (by omega) (by decide))
theorem Sys2Proof.Laws.Headers.sweepPage (k : Nat) : Statement (.sweepPage k) := of_event rfl
theorem Sys2Proof.Laws.Headers.stload (h : Hdr) (a b : GReg) (m : AMod) : Statement (.stload h a b m) :=
  of_word rfl rfl (fun _ => wordOf_rrr (by decide) (by decide) (by omega) (by omega) (by decide) (encAMod_lt (by decide)))
theorem Sys2Proof.Laws.Headers.arrayWordStart (core act : Nat) : Statement (.arrayWordStart core act) := of_event rfl
theorem Sys2Proof.Laws.Headers.arrayWordComplete (core act : Nat) : Statement (.arrayWordComplete core act) := of_event rfl
theorem Sys2Proof.Laws.Headers.gbuild (h : Hdr) (a : GReg) : Statement (.gbuild h a) :=
  of_word rfl rfl (fun _ => wordOf_rrr (by decide) (by decide) (by omega) (by decide) (by decide) (by decide))
theorem Sys2Proof.Laws.Headers.stswap (h : Hdr) : Statement (.stswap h) :=
  of_word rfl rfl (fun _ => wordOf_rrr (by decide) (by decide) (by decide) (by decide) (by decide) (by decide))
theorem Sys2Proof.Laws.Headers.mma (h : Hdr) (a b c : GReg) (m : AMod) : Statement (.mma h a b c m) :=
  of_word rfl rfl (fun _ => wordOf_rrr (by decide) (by decide) (by omega) (by omega) (by omega) (encAMod_lt (by decide)))
theorem Sys2Proof.Laws.Headers.mmas (h : Hdr) (d a b c : GReg) (m : AMod) : Statement (.mmas h d a b c m) :=
  of_word rfl rfl (fun _ => wordOf_rrr (by decide) (by omega) (by omega) (by omega) (by omega) (encAMod_lt (by decide)))
theorem Sys2Proof.Laws.Headers.accinit (h : Hdr) (a b : GReg) : Statement (.accinit h a b) :=
  of_word rfl rfl (fun _ => wordOf_rrr (by decide) (by decide) (by omega) (by omega) (by decide) (by decide))
theorem Sys2Proof.Laws.Headers.accnorm (h : Hdr) (a : GReg) : Statement (.accnorm h a) :=
  of_word rfl rfl (fun _ => wordOf_rrr (by decide) (by decide) (by omega) (by decide) (by decide) (by decide))
theorem Sys2Proof.Laws.Headers.accrd (h : Hdr) (d : TReg) (a : GReg) (m : TMod) : Statement (.accrd h d a m) :=
  of_word rfl rfl (fun _ => wordOf_rrr (by decide) (by omega) (by omega) (by decide) (by decide) (encTMod_lt _ _))
theorem Sys2Proof.Laws.Headers.accwr (h : Hdr) (a : GReg) (b : TReg) (m : TMod) : Statement (.accwr h a b m) :=
  of_word rfl rfl (fun _ => wordOf_rrr (by decide) (by decide) (by omega) (by omega) (by decide) (encTMod_lt _ _))
theorem Sys2Proof.Laws.Headers.accstat (h : Hdr) (d a : GReg) (sub : Fin 4) : Statement (.accstat h d a sub) :=
  of_word rfl rfl (fun _ => wordOf_rrr (by decide) (by omega) (by omega) (by decide) (by decide) (by omega))
theorem Sys2Proof.Laws.Headers.drain (h : Hdr) (a b c : GReg) (ty : Ty) (rm : Rm) (sat : Bool) (amx : Option MReg) (clr : Bool) (lay : Lay) : Statement (.drain h a b c ty rm sat amx clr lay) :=
  of_word rfl rfl (fun _ => wordOf_rrr (by decide) (by decide) (by omega) (by omega) (by omega) (by have := bnat_lt sat; have := bnat_lt clr; have := ty.code_lt; have := rm.code_lt; have := lay.code_lt; have := encAmx_lt amx; omega))
theorem Sys2Proof.Laws.Headers.grpld (h : Hdr) (a : GReg) (slot : Fin 2) : Statement (.grpld h a slot) :=
  of_word rfl rfl (fun _ => wordOf_rrr (by decide) (by decide) (by omega) (by decide) (by decide) (by omega))
theorem Sys2Proof.Laws.Headers.grpldCheckDone (core act : Nat) : Statement (.grpldCheckDone core act) := of_event rfl
theorem Sys2Proof.Laws.Headers.grpbind (h : Hdr) (op : BindOp) (slot : Fin 2) : Statement (.grpbind h op slot) :=
  of_word rfl rfl (fun _ => wordOf_rrr (by decide) (by decide) (by decide) (by decide) (by decide) (by have := op.code_lt; omega))
theorem Sys2Proof.Laws.Headers.grpstat (h : Hdr) (d : GReg) (slot : Fin 2) : Statement (.grpstat h d slot) :=
  of_word rfl rfl (fun _ => wordOf_rrr (by decide) (by omega) (by decide) (by decide) (by decide) (by omega))
theorem Sys2Proof.Laws.Headers.fadd (h : Hdr) (d a : TReg) (b : TB) (m : TMod) : Statement (.fadd h d a b m) :=
  of_word rfl rfl (fun _ => wordOf_bin _ _ _ _ (by decide))
theorem Sys2Proof.Laws.Headers.fsub (h : Hdr) (d a : TReg) (b : TB) (m : TMod) : Statement (.fsub h d a b m) :=
  of_word rfl rfl (fun _ => wordOf_bin _ _ _ _ (by decide))
theorem Sys2Proof.Laws.Headers.fmul (h : Hdr) (d a : TReg) (b : TB) (m : TMod) : Statement (.fmul h d a b m) :=
  of_word rfl rfl (fun _ => wordOf_bin _ _ _ _ (by decide))
theorem Sys2Proof.Laws.Headers.fma (h : Hdr) (d a : TReg) (b : TB) (c : TReg) (m : TMod) : Statement (.fma h d a b c m) :=
  of_word rfl rfl (fun _ => wordOf_ter _ _ _ _ _ (by decide))
theorem Sys2Proof.Laws.Headers.fms (h : Hdr) (d a : TReg) (b : TB) (c : TReg) (m : TMod) : Statement (.fms h d a b c m) :=
  of_word rfl rfl (fun _ => wordOf_ter _ _ _ _ _ (by decide))
theorem Sys2Proof.Laws.Headers.fnma (h : Hdr) (d a : TReg) (b : TB) (c : TReg) (m : TMod) : Statement (.fnma h d a b c m) :=
  of_word rfl rfl (fun _ => wordOf_ter _ _ _ _ _ (by decide))
theorem Sys2Proof.Laws.Headers.fmin (h : Hdr) (d a : TReg) (b : TB) (m : TMod) : Statement (.fmin h d a b m) :=
  of_word rfl rfl (fun _ => wordOf_bin _ _ _ _ (by decide))
theorem Sys2Proof.Laws.Headers.fmax (h : Hdr) (d a : TReg) (b : TB) (m : TMod) : Statement (.fmax h d a b m) :=
  of_word rfl rfl (fun _ => wordOf_bin _ _ _ _ (by decide))
theorem Sys2Proof.Laws.Headers.fabs (h : Hdr) (d a : TReg) (m : TMod) : Statement (.fabs h d a m) :=
  of_word rfl rfl (fun _ => wordOf_un _ _ _ (by decide))
theorem Sys2Proof.Laws.Headers.fneg (h : Hdr) (d a : TReg) (m : TMod) : Statement (.fneg h d a m) :=
  of_word rfl rfl (fun _ => wordOf_un _ _ _ (by decide))
theorem Sys2Proof.Laws.Headers.fdiv (h : Hdr) (d a : TReg) (b : TB) (m : TMod) : Statement (.fdiv h d a b m) :=
  of_word rfl rfl (fun _ => wordOf_bin _ _ _ _ (by decide))
theorem Sys2Proof.Laws.Headers.fsqrt (h : Hdr) (d a : TReg) (m : TMod) : Statement (.fsqrt h d a m) :=
  of_word rfl rfl (fun _ => wordOf_un _ _ _ (by decide))
theorem Sys2Proof.Laws.Headers.frsq (h : Hdr) (d a : TReg) (m : TMod) : Statement (.frsq h d a m) :=
  of_word rfl rfl (fun _ => wordOf_un _ _ _ (by decide))
theorem Sys2Proof.Laws.Headers.frcp (h : Hdr) (d a : TReg) (m : TMod) : Statement (.frcp h d a m) :=
  of_word rfl rfl (fun _ => wordOf_un _ _ _ (by decide))
theorem Sys2Proof.Laws.Headers.fexp2 (h : Hdr) (d a : TReg) (m : TMod) : Statement (.fexp2 h d a m) :=
  of_word rfl rfl (fun _ => wordOf_un _ _ _ (by decide))
theorem Sys2Proof.Laws.Headers.flog2 (h : Hdr) (d a : TReg) (m : TMod) : Statement (.flog2 h d a m) :=
  of_word rfl rfl (fun _ => wordOf_un _ _ _ (by decide))
theorem Sys2Proof.Laws.Headers.ftanh (h : Hdr) (d a : TReg) (m : TMod) : Statement (.ftanh h d a m) :=
  of_word rfl rfl (fun _ => wordOf_un _ _ _ (by decide))
theorem Sys2Proof.Laws.Headers.fpowi (h : Hdr) (d a : TReg) (b : TB) (m : TMod) : Statement (.fpowi h d a b m) :=
  of_word rfl rfl (fun _ => wordOf_bin _ _ _ _ (by decide))
theorem Sys2Proof.Laws.Headers.fclass (h : Hdr) (d a : TReg) (m : TMod) : Statement (.fclass h d a m) :=
  of_word rfl rfl (fun _ => wordOf_un _ _ _ (by decide))
theorem Sys2Proof.Laws.Headers.fcmp (h : Hdr) (d : KReg) (a : TReg) (b : TB) (m : TMod) : Statement (.fcmp h d a b m) :=
  of_word rfl rfl (fun _ => wordOf_rrr (by decide) (by omega) (by omega) (by have := b.field_lt; omega) (by decide) (encTMod_lt _ _))
theorem Sys2Proof.Laws.Headers.fsel (h : Hdr) (d a : TReg) (b : TB) (c : KReg) (m : TMod) : Statement (.fsel h d a b c m) :=
  of_word rfl rfl (fun _ => wordOf_rrr (by decide) (by omega) (by omega) (by have := b.field_lt; omega) (by omega) (encTMod_lt _ _))
theorem Sys2Proof.Laws.Headers.iadd (h : Hdr) (d a : TReg) (b : TB) (m : TMod) : Statement (.iadd h d a b m) :=
  of_word rfl rfl (fun _ => wordOf_bin _ _ _ _ (by decide))
theorem Sys2Proof.Laws.Headers.isub (h : Hdr) (d a : TReg) (b : TB) (m : TMod) : Statement (.isub h d a b m) :=
  of_word rfl rfl (fun _ => wordOf_bin _ _ _ _ (by decide))
theorem Sys2Proof.Laws.Headers.imul (h : Hdr) (d a : TReg) (b : TB) (m : TMod) : Statement (.imul h d a b m) :=
  of_word rfl rfl (fun _ => wordOf_bin _ _ _ _ (by decide))
theorem Sys2Proof.Laws.Headers.imad (h : Hdr) (d a : TReg) (b : TB) (c : TReg) (m : TMod) : Statement (.imad h d a b c m) :=
  of_word rfl rfl (fun _ => wordOf_ter _ _ _ _ _ (by decide))
theorem Sys2Proof.Laws.Headers.iand (h : Hdr) (d a : TReg) (b : TB) (m : TMod) : Statement (.iand h d a b m) :=
  of_word rfl rfl (fun _ => wordOf_bin _ _ _ _ (by decide))
theorem Sys2Proof.Laws.Headers.ior (h : Hdr) (d a : TReg) (b : TB) (m : TMod) : Statement (.ior h d a b m) :=
  of_word rfl rfl (fun _ => wordOf_bin _ _ _ _ (by decide))
theorem Sys2Proof.Laws.Headers.ixor (h : Hdr) (d a : TReg) (b : TB) (m : TMod) : Statement (.ixor h d a b m) :=
  of_word rfl rfl (fun _ => wordOf_bin _ _ _ _ (by decide))
theorem Sys2Proof.Laws.Headers.ishl (h : Hdr) (d a : TReg) (b : TB) (m : TMod) : Statement (.ishl h d a b m) :=
  of_word rfl rfl (fun _ => wordOf_bin _ _ _ _ (by decide))
theorem Sys2Proof.Laws.Headers.ishr (h : Hdr) (d a : TReg) (b : TB) (m : TMod) : Statement (.ishr h d a b m) :=
  of_word rfl rfl (fun _ => wordOf_bin _ _ _ _ (by decide))
theorem Sys2Proof.Laws.Headers.isar (h : Hdr) (d a : TReg) (b : TB) (m : TMod) : Statement (.isar h d a b m) :=
  of_word rfl rfl (fun _ => wordOf_bin _ _ _ _ (by decide))
theorem Sys2Proof.Laws.Headers.imin (h : Hdr) (d a : TReg) (b : TB) (m : TMod) : Statement (.imin h d a b m) :=
  of_word rfl rfl (fun _ => wordOf_bin _ _ _ _ (by decide))
theorem Sys2Proof.Laws.Headers.imax (h : Hdr) (d a : TReg) (b : TB) (m : TMod) : Statement (.imax h d a b m) :=
  of_word rfl rfl (fun _ => wordOf_bin _ _ _ _ (by decide))
theorem Sys2Proof.Laws.Headers.icmp (h : Hdr) (d : KReg) (a : TReg) (b : TB) (m : TMod) : Statement (.icmp h d a b m) :=
  of_word rfl rfl (fun _ => wordOf_rrr (by decide) (by omega) (by omega) (by have := b.field_lt; omega) (by decide) (encTMod_lt _ _))
theorem Sys2Proof.Laws.Headers.iabs (h : Hdr) (d a : TReg) (m : TMod) : Statement (.iabs h d a m) :=
  of_word rfl rfl (fun _ => wordOf_un _ _ _ (by decide))
theorem Sys2Proof.Laws.Headers.cvt (h : Hdr) (d a : TReg) (src : Ty) (m : TMod) : Statement (.cvt h d a src m) :=
  of_word rfl rfl (fun _ => wordOf_un _ _ _ (by decide))
theorem Sys2Proof.Laws.Headers.cvtmx (h : Hdr) (d a b : TReg) (src : Ty) (m : TMod) : Statement (.cvtmx h d a b src m) :=
  of_word rfl rfl (fun _ => wordOf_rrr (by decide) (by omega) (by omega) (by omega) (by decide) (encTMod_lt _ _))
theorem Sys2Proof.Laws.Headers.dqmx (h : Hdr) (d a b : TReg) (src : Ty) (m : TMod) : Statement (.dqmx h d a b src m) :=
  of_word rfl rfl (fun _ => wordOf_rrr (by decide) (by omega) (by omega) (by omega) (by decide) (encTMod_lt _ _))
theorem Sys2Proof.Laws.Headers.cvtfx (h : Hdr) (d a : TReg) (b : GReg) (src : Ty) (m : TMod) : Statement (.cvtfx h d a b src m) :=
  of_word rfl rfl (fun _ => wordOf_rrr (by decide) (by omega) (by omega) (by omega) (by decide) (encTMod_lt _ _))
theorem Sys2Proof.Laws.Headers.tmov (h : Hdr) (d a : TReg) (m : TMod) : Statement (.tmov h d a m) :=
  of_word rfl rfl (fun _ => wordOf_un _ _ _ (by decide))
theorem Sys2Proof.Laws.Headers.tbcast (h : Hdr) (d : TReg) (a : TReg) (b : GReg) (m : TMod) : Statement (.tbcast h d a b m) :=
  of_word rfl rfl (fun _ => wordOf_rrr (by decide) (by omega) (by omega) (by omega) (by decide) (encTMod_lt _ _))
theorem Sys2Proof.Laws.Headers.ttrn (h : Hdr) (d a : TReg) (m : TMod) : Statement (.ttrn h d a m) :=
  of_word rfl rfl (fun _ => wordOf_un _ _ _ (by decide))
theorem Sys2Proof.Laws.Headers.tshuf (h : Hdr) (d a : TReg) (b : TB) (m : TMod) : Statement (.tshuf h d a b m) :=
  of_word rfl rfl (fun _ => wordOf_bin _ _ _ _ (by decide))
theorem Sys2Proof.Laws.Headers.text (h : Hdr) (d : GReg) (a : TReg) (b : GReg) (m : TMod) : Statement (.text h d a b m) :=
  of_word rfl rfl (fun _ => wordOf_rrr (by decide) (by omega) (by omega) (by omega) (by decide) (encTMod_lt _ _))
theorem Sys2Proof.Laws.Headers.tins (h : Hdr) (d : TReg) (a b : GReg) (m : TMod) : Statement (.tins h d a b m) :=
  of_word rfl rfl (fun _ => wordOf_rrr (by decide) (by omega) (by omega) (by omega) (by decide) (encTMod_lt _ _))
theorem Sys2Proof.Laws.Headers.tiota (h : Hdr) (d : TReg) (a b : GReg) (m : TMod) : Statement (.tiota h d a b m) :=
  of_word rfl rfl (fun _ => wordOf_rrr (by decide) (by omega) (by omega) (by omega) (by decide) (encTMod_lt _ _))
theorem Sys2Proof.Laws.Headers.rsum (h : Hdr) (d a : TReg) (m : TMod) : Statement (.rsum h d a m) :=
  of_word rfl rfl (fun _ => wordOf_un _ _ _ (by decide))
theorem Sys2Proof.Laws.Headers.rmax (h : Hdr) (d a : TReg) (m : TMod) : Statement (.rmax h d a m) :=
  of_word rfl rfl (fun _ => wordOf_un _ _ _ (by decide))
theorem Sys2Proof.Laws.Headers.rmin (h : Hdr) (d a : TReg) (m : TMod) : Statement (.rmin h d a m) :=
  of_word rfl rfl (fun _ => wordOf_un _ _ _ (by decide))
theorem Sys2Proof.Laws.Headers.ramax (h : Hdr) (d a : TReg) (m : TMod) : Statement (.ramax h d a m) :=
  of_word rfl rfl (fun _ => wordOf_un _ _ _ (by decide))
theorem Sys2Proof.Laws.Headers.cmpx (h : Hdr) (d a : TReg) (b : GReg) (c : TReg) (m : TMod) : Statement (.cmpx h d a b c m) :=
  of_word rfl rfl (fun _ => wordOf_rrr (by decide) (by omega) (by omega) (by omega) (by omega) (encTMod_lt _ _))
theorem Sys2Proof.Laws.Headers.kand (h : Hdr) (d a b : KReg) : Statement (.kand h d a b) :=
  of_word rfl rfl (fun _ => wordOf_rrr (by decide) (by omega) (by omega) (by omega) (by decide) (by unfold glOneMod; omega))
theorem Sys2Proof.Laws.Headers.kor (h : Hdr) (d a b : KReg) : Statement (.kor h d a b) :=
  of_word rfl rfl (fun _ => wordOf_rrr (by decide) (by omega) (by omega) (by omega) (by decide) (by unfold glOneMod; omega))
theorem Sys2Proof.Laws.Headers.kxor (h : Hdr) (d a b : KReg) : Statement (.kxor h d a b) :=
  of_word rfl rfl (fun _ => wordOf_rrr (by decide) (by omega) (by omega) (by omega) (by decide) (by unfold glOneMod; omega))
theorem Sys2Proof.Laws.Headers.knot (h : Hdr) (d a : KReg) : Statement (.knot h d a) :=
  of_word rfl rfl (fun _ => wordOf_rrr (by decide) (by omega) (by omega) (by decide) (by decide) (by unfold glOneMod; omega))
theorem Sys2Proof.Laws.Headers.kpopc (h : Hdr) (d : GReg) (a : KReg) : Statement (.kpopc h d a) :=
  of_word rfl rfl (fun _ => wordOf_rrr (by decide) (by omega) (by omega) (by decide) (by decide) (by unfold glOneMod; omega))
theorem Sys2Proof.Laws.Headers.kfirst (h : Hdr) (d : GReg) (a : KReg) : Statement (.kfirst h d a) :=
  of_word rfl rfl (fun _ => wordOf_rrr (by decide) (by omega) (by omega) (by decide) (by decide) (by unfold glOneMod; omega))
theorem Sys2Proof.Laws.Headers.kcomp (h : Hdr) (d a : TReg) (b : KReg) (m : TMod) : Statement (.kcomp h d a b m) :=
  of_word rfl rfl (fun _ => wordOf_rrr (by decide) (by omega) (by omega) (by omega) (by decide) (encTMod_lt _ _))
theorem Sys2Proof.Laws.Headers.kexp (h : Hdr) (d a : TReg) (b : KReg) (m : TMod) : Statement (.kexp h d a b m) :=
  of_word rfl rfl (fun _ => wordOf_rrr (by decide) (by omega) (by omega) (by omega) (by decide) (encTMod_lt _ _))
theorem Sys2Proof.Laws.Headers.pset (h : Hdr) (d : PReg) (a : GReg) (wc : Fin 4) : Statement (.pset h d a wc) :=
  of_word rfl rfl (fun _ => wordOf_rrr (by decide) (by omega) (by omega) (by decide) (by decide) (by unfold glOneMod; omega))
theorem Sys2Proof.Laws.Headers.pget (h : Hdr) (d : GReg) (a : PReg) : Statement (.pget h d a) :=
  of_word rfl rfl (fun _ => wordOf_rrr (by decide) (by omega) (by omega) (by decide) (by decide) (by unfold glOneMod; omega))
theorem Sys2Proof.Laws.Headers.amrd (h : Hdr) (d : GReg) (a : MReg) : Statement (.amrd h d a) :=
  of_word rfl rfl (fun _ => wordOf_rrr (by decide) (by omega) (by omega) (by decide) (by decide) (by unfold glOneMod; omega))
theorem Sys2Proof.Laws.Headers.amclr (h : Hdr) (a : MReg) : Statement (.amclr h a) :=
  of_word rfl rfl (fun _ => wordOf_rrr (by decide) (by decide) (by omega) (by decide) (by decide) (by unfold glOneMod; omega))
theorem Sys2Proof.Laws.Headers.barset (h : Hdr) (a : Bar) (b : GReg) (dis : Bool) : Statement (.barset h a b dis) :=
  of_word rfl rfl (fun _ => wordOf_rrr (by decide) (by decide) (by omega) (by omega) (by decide) (by have := bnat_lt dis; omega))
theorem Sys2Proof.Laws.Headers.bararr (h : Hdr) (a : Bar) : Statement (.bararr h a) :=
  of_word rfl rfl (fun _ => wordOf_rrr (by decide) (by decide) (by omega) (by decide) (by decide) (by decide))
theorem Sys2Proof.Laws.Headers.barwait (h : Hdr) (d : GReg) (a : Bar) (b : GReg) : Statement (.barwait h d a b) :=
  of_word rfl rfl (fun _ => wordOf_rrr (by decide) (by omega) (by omega) (by omega) (by decide) (by decide))
theorem Sys2Proof.Laws.Headers.barwaitTimeout (core act : Nat) : Statement (.barwaitTimeout core act) := of_event rfl
theorem Sys2Proof.Laws.Headers.bartry (h : Hdr) (d : GReg) (a : Bar) : Statement (.bartry h d a) :=
  of_word rfl rfl (fun _ => wordOf_rrr (by decide) (by omega) (by omega) (by decide) (by decide) (by decide))
theorem Sys2Proof.Laws.Headers.barrierRelease (inst : Nat) : Statement (.barrierRelease inst) := of_event rfl
theorem Sys2Proof.Laws.Headers.wldef (h : Hdr) (d : WList) (a b c : GReg) : Statement (.wldef h d a b c) :=
  of_word rfl rfl (fun _ => wordOf_rrr (by decide) (by omega) (by omega) (by omega) (by omega) (by decide))
theorem Sys2Proof.Laws.Headers.wlreset (h : Hdr) (d : WList) : Statement (.wlreset h d) :=
  of_word rfl rfl (fun _ => wordOf_rrr (by decide) (by omega) (by decide) (by decide) (by decide) (by decide))
theorem Sys2Proof.Laws.Headers.wlpush (h : Hdr) (d : WList) (b : TReg) (gl : Fin 6) (pm : Pm) : Statement (.wlpush h d b gl pm) :=
  of_word rfl rfl (fun _ => wordOf_rrr (by decide) (by omega) (by decide) (by omega) (by decide) (encWl_lt _ _ _))
theorem Sys2Proof.Laws.Headers.wlins (h : Hdr) (d : WList) (b : TReg) (gl : Fin 6) (pm : Pm) : Statement (.wlins h d b gl pm) :=
  of_word rfl rfl (fun _ => wordOf_rrr (by decide) (by omega) (by decide) (by omega) (by decide) (encWl_lt _ _ _))
theorem Sys2Proof.Laws.Headers.wlpop (h : Hdr) (d : GReg) (a : WList) (b : GReg) (c : TReg) (gl : Fin 6) : Statement (.wlpop h d a b c gl) :=
  of_word rfl rfl (fun _ => wordOf_rrr (by decide) (by omega) (by omega) (by omega) (by omega) (encWl_lt _ _ _))
theorem Sys2Proof.Laws.Headers.wlsteal (h : Hdr) (d : GReg) (a : WList) (b : GReg) (c : TReg) (gl : Fin 6) : Statement (.wlsteal h d a b c gl) :=
  of_word rfl rfl (fun _ => wordOf_rrr (by decide) (by omega) (by omega) (by omega) (by omega) (encWl_lt _ _ _))
theorem Sys2Proof.Laws.Headers.workListFaulted (hive : Nat) (list : WList) : Statement (.workListFaulted hive list) := of_event rfl
theorem Sys2Proof.Laws.Headers.dispdef (h : Hdr) (d : DTab) (a : GReg) : Statement (.dispdef h d a) :=
  of_word rfl rfl (fun _ => wordOf_rrr (by decide) (by omega) (by omega) (by decide) (by decide) (by decide))
theorem Sys2Proof.Laws.Headers.disp (h : Hdr) (d : KReg) (a : DTab) (b c : TReg) (gl : Fin 6) (pm : Pm) (ty : Ty) : Statement (.disp h d a b c gl pm ty) :=
  of_word rfl rfl (fun _ => wordOf_rrr (by decide) (by omega) (by omega) (by omega) (by omega) (encWl_lt _ _ _))
theorem Sys2Proof.Laws.Headers.dispclr (h : Hdr) (a : DTab) (b : GReg) (save : Bool) : Statement (.dispclr h a b save) :=
  of_word rfl rfl (fun _ => wordOf_rrr (by decide) (by decide) (by omega) (by omega) (by decide) (by have := bnat_lt save; omega))
theorem Sys2Proof.Laws.Headers.qtake (h : Hdr) (d : GReg) : Statement (.qtake h d) :=
  of_word rfl rfl (fun _ => wordOf_rrr (by decide) (by omega) (by decide) (by decide) (by decide) (by decide))
theorem Sys2Proof.Laws.Headers.qput (h : Hdr) (a : GReg) (out : Fin 2) : Statement (.qput h a out) :=
  of_word rfl rfl (fun _ => wordOf_rrr (by decide) (by decide) (by omega) (by decide) (by decide) (by omega))
theorem Sys2Proof.Laws.Headers.kspawn (h : Hdr) (a : GReg) (lq : Fin 16) : Statement (.kspawn h a lq) :=
  of_word rfl rfl (fun _ => wordOf_rrr (by decide) (by decide) (by omega) (by decide) (by decide) (by omega))
theorem Sys2Proof.Laws.Headers.heart (h : Hdr) : Statement (.heart h) :=
  of_word rfl rfl (fun _ => wordOf_rrr (by decide) (by decide) (by decide) (by decide) (by decide) (by decide))
theorem Sys2Proof.Laws.Headers.twaitt (h : Hdr) (a : GReg) : Statement (.twaitt h a) :=
  of_word rfl rfl (fun _ => wordOf_rrr (by decide) (by decide) (by omega) (by decide) (by decide) (by decide))
theorem Sys2Proof.Laws.Headers.evpost (h : Hdr) (a b : GReg) : Statement (.evpost h a b) :=
  of_word rfl rfl (fun _ => wordOf_rrr (by decide) (by decide) (by omega) (by omega) (by decide) (by decide))
theorem Sys2Proof.Laws.Headers.ctxyield (h : Hdr) : Statement (.ctxyield h) :=
  of_word rfl rfl (fun _ => wordOf_rrr (by decide) (by decide) (by decide) (by decide) (by decide) (by decide))
theorem Sys2Proof.Laws.Headers.launchEntryCheck (ctx : Nat) (lq : Fin 16) : Statement (.launchEntryCheck ctx lq) := of_event rfl
theorem Sys2Proof.Laws.Headers.coreGrant (core : Nat) : Statement (.coreGrant core) := of_event rfl
theorem Sys2Proof.Laws.Headers.agingExpiry (ctx : Nat) (lq : Fin 16) : Statement (.agingExpiry ctx lq) := of_event rfl
theorem Sys2Proof.Laws.Headers.forcedPreemption (core : Nat) : Statement (.forcedPreemption core) := of_event rfl
theorem Sys2Proof.Laws.Headers.kernelComplete (ctx : Nat) (lq : Fin 16) : Statement (.kernelComplete ctx lq) := of_event rfl
theorem Sys2Proof.Laws.Headers.kernelAbortComplete (ctx : Nat) (lq : Fin 16) : Statement (.kernelAbortComplete ctx lq) := of_event rfl
theorem Sys2Proof.Laws.Headers.watchdog (core : Nat) : Statement (.watchdog core) := of_event rfl
theorem Sys2Proof.Laws.Headers.ctxCreate (ctx : Nat) : Statement (.ctxCreate ctx) := of_event rfl
theorem Sys2Proof.Laws.Headers.ctxSet (ctx : Nat) : Statement (.ctxSet ctx) := of_event rfl
theorem Sys2Proof.Laws.Headers.ctxBind (ctx : Nat) : Statement (.ctxBind ctx) := of_event rfl
theorem Sys2Proof.Laws.Headers.ctxStart (ctx : Nat) : Statement (.ctxStart ctx) := of_event rfl
theorem Sys2Proof.Laws.Headers.ctxSuspend (ctx : Nat) : Statement (.ctxSuspend ctx) := of_event rfl
theorem Sys2Proof.Laws.Headers.ctxResume (ctx : Nat) : Statement (.ctxResume ctx) := of_event rfl
theorem Sys2Proof.Laws.Headers.ctxFault (ctx : Nat) : Statement (.ctxFault ctx) := of_event rfl
theorem Sys2Proof.Laws.Headers.ctxRecover (ctx : Nat) : Statement (.ctxRecover ctx) := of_event rfl
theorem Sys2Proof.Laws.Headers.ctxDestroy (ctx : Nat) : Statement (.ctxDestroy ctx) := of_event rfl
theorem Sys2Proof.Laws.Headers.ctxResetPart (ctx : Nat) : Statement (.ctxResetPart ctx) := of_event rfl
theorem Sys2Proof.Laws.Headers.drainComplete (ctx : Nat) : Statement (.drainComplete ctx) := of_event rfl
theorem Sys2Proof.Laws.Headers.drainTimeout (ctx : Nat) : Statement (.drainTimeout ctx) := of_event rfl
theorem Sys2Proof.Laws.Headers.scrubComplete (ctx : Nat) : Statement (.scrubComplete ctx) := of_event rfl
theorem Sys2Proof.Laws.Headers.partitionReset (part : Nat) : Statement (.partitionReset part) := of_event rfl
theorem Sys2Proof.Laws.Headers.resetEscalation (part : Nat) : Statement (.resetEscalation part) := of_event rfl
theorem Sys2Proof.Laws.Headers.fqheadReread (ctx : Nat) : Statement (.fqheadReread ctx) := of_event rfl
theorem Sys2Proof.Laws.Headers.uncorrectableError (at_ : EccPlace) : Statement (.uncorrectableError at_) := of_event rfl
theorem Sys2Proof.Laws.Headers.ppsEdge : Statement (.ppsEdge) := of_event rfl
theorem Sys2Proof.Laws.Headers.ptmMeasurement (offset : Int) : Statement (.ptmMeasurement offset) := of_event rfl
theorem Sys2Proof.Laws.Headers.timeSourceLoss : Statement (.timeSourceLoss) := of_event rfl
theorem Sys2Proof.Laws.Headers.timeset (v : W64) : Statement (.timeset v) := of_event rfl
theorem Sys2Proof.Laws.Headers.stepclr : Statement (.stepclr) := of_event rfl
theorem Sys2Proof.Laws.Headers.lqbell (ctx : Nat) (lq : Fin 16) : Statement (.lqbell ctx lq) := of_event rfl
theorem Sys2Proof.Laws.Headers.tailPoll (ctx : Nat) (lq : Fin 16) : Statement (.tailPoll ctx lq) := of_event rfl
theorem Sys2Proof.Laws.Headers.peerAdmit (part : Fin 8) (pkg : Fin 64) : Statement (.peerAdmit part pkg) := of_event rfl
theorem Sys2Proof.Laws.Headers.peerRemove (part : Fin 8) (pkg : Fin 64) : Statement (.peerRemove part pkg) := of_event rfl
theorem Sys2Proof.Laws.Headers.hostRegisterWrite (off : Nat) (v : W64) : Statement (.hostRegisterWrite off v) := of_event rfl
theorem Sys2Proof.Laws.Headers.hostWindowAccess (off : Nat) (acc : HostAccess) : Statement (.hostWindowAccess off acc) := of_event rfl
theorem Sys2Proof.Laws.Headers.cxlMemAccess (pa : Nat) (acc : HostAccess) : Statement (.cxlMemAccess pa acc) := of_event rfl
theorem Sys2Proof.Laws.Headers.flitReceive (port : Fin 12) (f : Flit) : Statement (.flitReceive port f) := of_event rfl
theorem Sys2Proof.Laws.Headers.portTrained (port : Fin 12) : Statement (.portTrained port) := of_event rfl
theorem Sys2Proof.Laws.Headers.remoteRequest (pkg : Fin 64) (podCtx : Byte) (op : RemoteOp) : Statement (.remoteRequest pkg podCtx op) := of_event rfl
theorem Sys2Proof.Laws.Headers.inputOutOfRange (low : Bool) : Statement (.inputOutOfRange low) := of_event rfl
theorem Sys2Proof.Laws.Headers.powerOnReset : Statement (.powerOnReset) := of_event rfl
theorem Sys2Proof.Laws.Headers.throttle (part : Fin 8) (frac : Fin 16) : Statement (.throttle part frac) := of_event rfl
theorem Sys2Proof.Laws.Headers.forecastWrite (part : Fin 8) (level : Fin 16) : Statement (.forecastWrite part level) := of_event rfl
theorem Sys2Proof.Laws.Headers.telemetryFlush : Statement (.telemetryFlush) := of_event rfl
theorem Sys2Proof.Laws.Headers.telread (set : Nat) : Statement (.telread set) := of_event rfl
theorem Sys2Proof.Laws.Headers.powerset (part : Fin 8) (cap : Nat) (forecast : Bool) : Statement (.powerset part cap forecast) := of_event rfl
theorem Sys2Proof.Laws.Headers.devreset : Statement (.devreset) := of_event rfl
theorem Sys2Proof.Laws.Headers.fwstage (img : FwImage) : Statement (.fwstage img) := of_event rfl
theorem Sys2Proof.Laws.Headers.attest (nonce : BitVec 256) : Statement (.attest nonce) := of_event rfl
theorem Sys2Proof.Laws.Headers.twaittTimeReached (core act : Nat) : Statement (.twaittTimeReached core act) := of_event rfl
theorem Sys2Proof.Laws.Headers.hostLinkDown (l : HostLink) : Statement (.hostLinkDown l) := of_event rfl
theorem Sys2Proof.Laws.Headers.hostLinkTrained (l : LinkUp) : Statement (.hostLinkTrained l) := of_event rfl
theorem Sys2Proof.Laws.Headers.telemetrySample : Statement (.telemetrySample) := of_event rfl
end

