-- ==== Sys2Proof/Machine/Volas.lean ====
section
/-! DEFINITION. A line of the volas language (R60, R61, R361 to R363, R366): its characters, its expressions, its operands, and
the one word that an instruction line stands for. -/
namespace Sys2Proof.Volas

abbrev Txt := List Char
/-- A result, or why the assembler rejects the line. -/
abbrev Res (α : Type) := Except String α

/-! ### Characters (R361) -/

def isBlank (c : Char) : Bool := c == ' ' || c == '\t' || c == '\r'
def isWordChar (c : Char) : Bool := c.isAlphanum || c == '_'

def dropBlanks : Txt → Txt
  | [] => []
  | c :: r => if isBlank c then dropBlanks r else c :: r

def trim (t : Txt) : Txt := (dropBlanks (dropBlanks t).reverse).reverse

/-- A comment begins with `;` or `//` and runs to the end of the line. -/
def uncomment : Txt → Txt
  | [] => []
  | ';' :: _ => []
  | '/' :: '/' :: _ => []
  | c :: r => c :: uncomment r

/-- The text before the first `c`, and the text after it if there is one. -/
def cut (c : Char) : Txt → Txt × Option Txt
  | [] => ([], none)
  | d :: r => if d == c then ([], some r) else let (a, b) := cut c r; (d :: a, b)

/-- The pieces between the characters that `sep` picks. -/
def pieces (sep : Char → Bool) : Txt → List Txt
  | [] => [[]]
  | c :: r => if sep c then [] :: pieces sep r else
      match pieces sep r with
      | [] => [[c]]
      | p :: ps => (c :: p) :: ps

def words (t : Txt) : List Txt := (pieces isBlank t).filter (fun p => !p.isEmpty)

/-- The operands of a line: pieces between commas; none of an empty text. -/
def operands (t : Txt) : List Txt := if (trim t).isEmpty then [] else (pieces (· == ',') t).map trim

/-! ### Numbers and tokens (R362) -/

def digitOf (c : Char) : Option Nat :=
  if '0' ≤ c ∧ c ≤ '9' then some (c.toNat - 48)
  else if 'a' ≤ c ∧ c ≤ 'f' then some (c.toNat - 87)
  else if 'A' ≤ c ∧ c ≤ 'F' then some (c.toNat - 55)
  else none

/-- The digits of a literal, `_` allowed between digits: `acc` so far, and whether the last character was a digit. -/
def digits (base acc : Nat) (last : Bool) : Txt → Option Nat
  | [] => if last then some acc else none
  | '_' :: r => if last then digits base acc false r else none
  | c :: r =>
    match digitOf c with
    | some d => if d < base then digits base (acc * base + d) true r else none
    | none => none

/-- An integer literal: decimal, `0x` hex or `0b` binary. -/
def number : Txt → Option Nat
  | '0' :: 'x' :: r => digits 16 0 false r
  | '0' :: 'b' :: r => digits 2 0 false r
  | t => digits 10 0 false t

inductive Tok where
  | num (n : Nat)
  | name (s : String)
  | op (s : String)
  deriving DecidableEq, Repr

/-- The token of a run of letters, digits and `_`, given last character first. -/
def wordTok (w : Txt) : Res (List Tok) :=
  match w.reverse with
  | [] => .ok []
  | c :: r =>
    if c.isDigit then
      match number (c :: r) with
      | some n => .ok [.num n]
      | none => .error "not a number"
    else .ok [.name (String.ofList (c :: r))]

def lexFrom (w : Txt) : Txt → Res (List Tok)
  | [] => wordTok w
  | '<' :: '<' :: r => do return (← wordTok w) ++ .op "<<" :: (← lexFrom [] r)
  | '>' :: '>' :: r => do return (← wordTok w) ++ .op ">>" :: (← lexFrom [] r)
  | c :: r =>
    if isWordChar c then lexFrom (c :: w) r
    else if isBlank c then do return (← wordTok w) ++ (← lexFrom [] r)
    else if c ∈ ['+', '-', '*', '/', '%', '&', '^', '~', '(', ')'] then
      do return (← wordTok w) ++ .op (String.ofList [c]) :: (← lexFrom [] r)
    else .error "a character that no expression holds"

/-! ### Expressions (R362) -/

/-- The value of an expression: a number, or a data label plus a number. -/
structure Val where
  sym : Option String
  n   : Int
  deriving DecidableEq, Repr

def Val.ofInt (n : Int) : Val := ⟨none, n⟩

/-- A bitwise operation on unbounded two's-complement integers. -/
def onBits (f : Nat → Nat → Nat) (a b : Int) : Int :=
  let w := Nat.log2 (max a.natAbs b.natAbs) + 2
  let r := f (a % (2 : Int) ^ w).toNat (b % (2 : Int) ^ w).toNat % 2 ^ w
  if 2 ^ (w - 1) ≤ r then (r : Int) - (2 : Int) ^ w else r

/-- A binary operator. A data label may only have a number added to it or taken from it. -/
def apply2 (o : String) (a b : Val) : Res Val :=
  if b.sym.isSome then .error "a data label inside an expression"
  else match a.sym with
  | some l =>
    if o == "+" then .ok ⟨some l, a.n + b.n⟩
    else if o == "-" then .ok ⟨some l, a.n - b.n⟩
    else .error "a data label inside an expression"
  | none =>
    match o with
    | "+" => .ok (.ofInt (a.n + b.n))
    | "-" => .ok (.ofInt (a.n - b.n))
    | "*" => .ok (.ofInt (a.n * b.n))
    | "/" => if b.n = 0 then .error "division by zero" else .ok (.ofInt (Int.tdiv a.n b.n))
    | "%" => if b.n = 0 then .error "division by zero" else .ok (.ofInt (Int.tmod a.n b.n))
    | "<<" => if b.n < 0 then .error "a negative shift" else .ok (.ofInt (a.n * (2 : Int) ^ b.n.toNat))
    | ">>" => if b.n < 0 then .error "a negative shift" else .ok (.ofInt (a.n / (2 : Int) ^ b.n.toNat))
    | "&" => .ok (.ofInt (onBits Nat.land a.n b.n))
    | "^" => .ok (.ofInt (onBits Nat.xor a.n b.n))
    | _ => .error "not an operator"

/-- The binary operators from the loosest level to the tightest, in C precedence. -/
def opsAt : Nat → List String
  | 0 => ["^"]
  | 1 => ["&"]
  | 2 => ["<<", ">>"]
  | 3 => ["+", "-"]
  | 4 => ["*", "/", "%"]
  | _ => []

/-- An expression of level `lvl` (5: unary), with its left part if that has been read; `fuel` bounds the depth. -/
def expr (look : String → Res Val) : (fuel lvl : Nat) → Option Val → List Tok → Res (Val × List Tok)
  | 0, _, _, _ => .error "an expression too deep"
  | fuel + 1, lvl, none, ts =>
    if lvl < 5 then do
      let (v, ts) ← expr look fuel (lvl + 1) none ts
      expr look fuel lvl (some v) ts
    else
      match ts with
      | .num n :: ts => .ok (.ofInt n, ts)
      | .name s :: ts => do return (← look s, ts)
      | .op "-" :: ts => do
        let (v, ts) ← expr look fuel 5 none ts
        if v.sym.isSome then .error "a data label inside an expression" else .ok (.ofInt (-v.n), ts)
      | .op "~" :: ts => do
        let (v, ts) ← expr look fuel 5 none ts
        if v.sym.isSome then .error "a data label inside an expression" else .ok (.ofInt (-v.n - 1), ts)
      | .op "(" :: ts => do
        let (v, ts) ← expr look fuel 0 none ts
        match ts with
        | .op ")" :: ts => .ok (v, ts)
        | _ => .error "a parenthesis is not closed"
      | _ => .error "an operand is missing"
  | fuel + 1, lvl, some v, ts =>
    match ts with
    | .op o :: rest =>
      if (opsAt lvl).contains o then do
        let (b, rest) ← expr look fuel (lvl + 1) none rest
        expr look fuel lvl (some (← apply2 o v b)) rest
      else .ok (v, ts)
    | _ => .ok (v, ts)

def eval (look : String → Res Val) (t : Txt) : Res Val := do
  let ts ← lexFrom [] t
  let (v, rest) ← expr look (8 * ts.length + 16) 0 none ts
  if rest.isEmpty then .ok v else .error "text after an expression"

/-- An expression without a data label. -/
def evalInt (look : String → Res Val) (t : Txt) : Res Int := do
  let v ← eval look t
  if v.sym.isSome then .error "a data label where none may stand" else .ok v.n

/-! ### Floats (R366) -/

def allDigits (t : Txt) : Bool := !t.isEmpty && t.all Char.isDigit

/-- The exact value of a decimal number with an optional fraction and exponent, without its sign. -/
def decimal (t : Txt) : Option (Nat × Nat) :=
  let (m, e?) := cut 'e' (t.map Char.toLower)
  let (i, f?) := cut '.' m
  let f := f?.getD []
  let e : Option Int := match e? with
    | none => some 0
    | some ('-' :: d) => if allDigits d then (digits 10 0 false d).map (fun n => -(n : Int)) else none
    | some ('+' :: d) => if allDigits d then (digits 10 0 false d).map (fun n => (n : Int)) else none
    | some d => if allDigits d then (digits 10 0 false d).map (fun n => (n : Int)) else none
  if !allDigits i || (f?.isSome && !allDigits f) then none
  else do
    let n ← digits 10 0 false (i ++ f)
    let e := (← e) - (f.length : Int)
    return if 0 ≤ e then (n * 10 ^ e.toNat, 1) else (n, 10 ^ (-e).toNat)

/-- The code of a float literal in a format: RoundNE of the exact value; a finite literal may not round to an infinity. -/
def float (ty : Ty) (t : Txt) : Res Nat :=
  let enc := Machine.tyEncode ty .rne false
  let (neg, u) := match t with
    | '-' :: r => (true, r)
    | _ => (false, t)
  if t == "nan".toList then .ok (enc .nan)
  else if u == "inf".toList then .ok (enc (.inf neg))
  else match decimal u with
  | none => .error "not a float literal"
  | some (0, _) => .ok (enc (.zero neg))
  | some (n, d) =>
    let c := enc (.val neg n d)
    if c = enc (.inf neg) then .error "a finite literal too large for its format" else .ok c

/-! ### Registers (R43, R361) -/

/-- The register names: the kinds of R43, `m`, `dt` and `lq`. -/
inductive Rk where
  | g | t | k | p | h | ring | wl | b | reg | dt | m | lq
  deriving DecidableEq, Repr

def Rk.all : List (String × Rk × Nat) :=
  [("g", .g, 32), ("t", .t, 16), ("k", .k, 8), ("p", .p, 8), ("h", .h, 16), ("ring", .ring, 16), ("wl", .wl, 16), ("b", .b, 64),
    ("reg", .reg, 64), ("dt", .dt, 4), ("m", .m, 4), ("lq", .lq, 16)]

/-- A register operand: its kind, its index, and the group length written after it. -/
structure RegTok where
  kind : Rk
  idx  : Nat
  len  : Option Nat
  deriving DecidableEq, Repr

def regName (t : Txt) : Option (Rk × Nat) :=
  let n := t.takeWhile Char.isAlpha
  let d := t.dropWhile Char.isAlpha
  if !allDigits d || (d.head? == some '0' && 1 < d.length) then none
  else do
    let (_, kd, count) ← Rk.all.find? (fun r => r.1.toList == n)
    let i ← digits 10 0 false d
    if i < count then some (kd, i) else none

def regTok (t : Txt) : Option RegTok :=
  match cut ':' t with
  | (r, none) => (regName r).map (fun (kd, i) => ⟨kd, i, none⟩)
  | (r, some l) => do
    let (kd, i) ← regName r
    if allDigits l then some ⟨kd, i, ← digits 10 0 false l⟩ else none

/-- A name that a program may define. -/
def isName (t : Txt) : Bool :=
  match t with
  | [] => false
  | c :: _ => !c.isDigit && t.all isWordChar && (regName t).isNone

def seqName : Txt → Option Seq
  | ['x'] => some .x | ['l'] => some .l | ['c'] => some .c | ['s'] => some .s
  | _ => none

/-! ### What an instruction is written with -/

/-- A modifier field: its spellings with the bits each sets, and whether one must be written (R61). -/
structure Fld where
  opts : List (String × Nat)
  must : Bool := false

/-- An operand of a form: where its value goes in the word. -/
inductive Slot where
  /-- A register of one kind. -/
  | reg (kd : Rk) (pos : Nat)
  /-- A tile group, with the word's group length. -/
  | tile (pos : Nat)
  /-- Operand B, a tile group or with BS a scalar register. -/
  | tileOrG
  /-- Operand B, a scalar register, with BS. -/
  | gBs
  /-- Operand A, a handle (HSEL 1) or a scalar register with a comb address. -/
  | base
  /-- Operand A, a handle, with HSEL 1. -/
  | hsel
  /-- Field C, `kN` or `pN` (R141). -/
  | predC
  /-- An immediate of `width` bits; `rel` is the relocation that a data label in it needs (R372). -/
  | imm (pos width : Nat) (rel : Option Nat)
  /-- A label of the stream (R363). -/
  | label
  | seq (pos : Nat)
  /-- The queue mask of `qfence`. -/
  | queues

/-- A form: its operands, and what the modifiers must have set for it (bits `mask` of the word at `val`). -/
structure Form where
  slots : List Slot
  mask  : Nat := 0
  val   : Nat := 0

/-- An instruction as it is written: its class (none: common), opcode, forms, modifiers, constant MOD bits, and where GL lies. -/
structure Op where
  name  : String
  cls   : Option Seq
  opc   : Nat
  forms : List Form
  mods  : List Fld := []
  md    : Nat := 0
  gl    : Option Nat := none

def numbered (s : String) (n base unit : Nat) : List (String × Nat) :=
  (List.range n).map (fun i => (s ++ toString i, base + i * unit))

def tyNames : List String :=
  ["i8", "n8", "i16", "n16", "i32", "n32", "i64", "f32", "bf16", "f16", "e4m3", "e5m2", "t8", "t6", "e2m1"]

def ty : Fld := ⟨tyNames.zipIdx.map (fun (s, i) => (s, i * 2 ^ 20)), true⟩
def srcTy : Fld := ⟨tyNames.zipIdx.map (fun (s, i) => ("from_" ++ s, i)), true⟩
def rm : Fld := ⟨[("rne", 0), ("rtz", 2 ^ 18), ("rdn", 2 * 2 ^ 18), ("rup", 3 * 2 ^ 18)], false⟩
def pmAt (u : Nat) : Fld := ⟨numbered "k" 8 u u ++ numbered "p" 8 (9 * u) u, false⟩
def pm : Fld := pmAt (2 ^ 10)
def flag (s : String) (v : Nat) : Fld := ⟨[(s, v)], false⟩
def zt : Fld := flag "z" (2 ^ 9)
def sat : Fld := flag "sat" (2 ^ 7)
def amx : Fld := ⟨numbered "am" 4 (2 ^ 4) (2 ^ 5), false⟩
def oc : Fld := ⟨numbered "oc" 16 0 (2 ^ 16), false⟩
def scope : Fld := ⟨numbered "sc" 32 0 (2 ^ 11), false⟩
def sem : Fld := ⟨[("acq", 2 ^ 9), ("rel", 2 * 2 ^ 9), ("ar", 3 * 2 ^ 9)], false⟩
def resk : Fld := ⟨numbered "resk" 8 (2 ^ 7) (2 ^ 4), false⟩
def zm : Fld := flag "z" 1
/-- The spellings of codes 0, 1, ... of a field at bit `pos`, one of which must be written. -/
def oneOf (l : List String) (pos : Nat := 0) : Fld := ⟨l.zipIdx.map (fun (s, i) => (s, i * 2 ^ pos)), true⟩
def memMods : List Fld := [ty, oc, scope, sem]
def conds : Fld := oneOf ["eq", "ne", "lt", "le", "gt", "ge", "un", "ord"]

def one (slots : List Slot) : List Form := [⟨slots, 0, 0⟩]
def G (pos : Nat) : Slot := .reg .g pos
def gD : Slot := G 42
def gA : Slot := G 36
def gB : Slot := G 30
def gC : Slot := G 24
def tD : Slot := .tile 42
def tA : Slot := .tile 36
def tB : Slot := .tile 30
def tC : Slot := .tile 24
def imm32 : Slot := .imm 4 32 (some 4)

def common (name : String) (opc : Nat) (slots : List Slot) (mods : List Fld := []) : Op :=
  ⟨name, none, opc, one slots, mods, 0, none⟩

/-! ### The common block (R58) -/

def commonOps : List Op :=
  [common "nop" 0x00 [], common "end" 0x01 []]
    ++ [("add", 0x04), ("sub", 0x05), ("mul", 0x06), ("mulh", 0x07), ("mulhu", 0x08), ("and", 0x09), ("or", 0x0A), ("xor", 0x0B),
        ("shl", 0x0C), ("shr", 0x0D), ("sar", 0x0E), ("min", 0x0F), ("max", 0x10), ("minu", 0x11), ("maxu", 0x12), ("slt", 0x13),
        ("sltu", 0x14), ("seq", 0x15)].map (fun (n, o) => common n o [gD, gA, gB])
    ++ [common "madd" 0x16 [gD, gA, gB, gC], common "sel" 0x17 [gD, gA, gB, gC]]
    ++ [("addi", 0x18), ("andi", 0x19), ("ori", 0x1A), ("xori", 0x1B), ("shli", 0x1C), ("shri", 0x1D), ("sari", 0x1E),
        ("slti", 0x1F), ("sysr", 0x38), ("sysw", 0x39)].map (fun (n, o) => common n o [gD, gA, imm32])
    ++ [common "ldi" 0x20 [gD, .imm 0 42 (some 3)], common "orhi" 0x21 [gD, .imm 0 22 none],
        common "clz" 0x22 [gD, gA], common "popc" 0x23 [gD, gA],
        common "bfx" 0x24 [gD, gA, .imm 0 6 none, .imm 6 7 none] [flag "sx" (2 ^ 13)],
        common "bfi" 0x25 [gD, gA, gB, .imm 0 6 none, .imm 6 7 none]]
    ++ [("beq", 0x28), ("bne", 0x29), ("blt", 0x2A), ("bge", 0x2B), ("bltu", 0x2C), ("bgeu", 0x2D)].map
        (fun (n, o) => common n o [G 42, G 36, .label])
    ++ [common "jmp" 0x2E [.label], common "jal" 0x2F [G 42, .label], common "jr" 0x30 [gA], common "loop" 0x31 [G 42, .label],
        ⟨"tsig", none, 0x34, [⟨[.seq 0, gA, imm32], 0, 0⟩, ⟨[.seq 0, imm32], 0, 0⟩], [], 0, none⟩,
        ⟨"twait", none, 0x35, [⟨[.seq 0, gA, imm32], 0, 0⟩, ⟨[.seq 0, imm32], 0, 0⟩], [], 0, none⟩,
        common "tqrd" 0x36 [gD, .seq 0, .seq 2],
        common "pause" 0x3A [gA, imm32] [flag "tok" 1], common "trap" 0x3B [gA, imm32],
        common "fence" 0x3C [.imm 4 16 none] [⟨[("acq", 1), ("rel", 2)], false⟩, ⟨numbered "sc" 32 0 (2 ^ 20), false⟩],
        common "qfence" 0x3D [.queues],
        common "trans" 0x40 [.reg .h 42, gA, gB], common "hstat" 0x41 [gD, .reg .h 36], common "hinv" 0x42 [.reg .h 42],
        common "ringdef" 0x44 [.reg .ring 42, gA, gB], common "rwaitf" 0x45 [gD, .reg .ring 36, imm32],
        common "rwaite" 0x46 [gD, .reg .ring 36, imm32], common "rclaim" 0x47 [gD, .reg .ring 36, imm32],
        common "rcommit" 0x48 [.reg .ring 36, imm32], common "rrel" 0x49 [.reg .ring 36, imm32],
        common "rapp" 0x4A [.reg .ring 42, gA],
        common "syncset" 0x4C [gA, gB, gC], common "syncwait" 0x4D [gD, gA, gB, gC] [flag "peer" 1],
        common "syncrd" 0x4E [gD, gA] [oneOf ["target", "count", "gen", "status"]],
        common "cld" 0x50 [gD, gA, gB] [ty, oc, sem], common "cst" 0x51 [gD, gA, gB] [ty, oc, sem]]

/-! ### Class X (R59) -/

def opX (name : String) (opc : Nat) (slots : List Slot) (mods : List Fld := []) : Op :=
  ⟨name, some .x, opc, one slots, mods, 0, none⟩

def xOps : List Op :=
  [opX "exit" 0x60 [] [flag "abort" 1],
   ⟨"lds", some .x, 0x61, [⟨[gD, .hsel, gB], 2 ^ 7, 0⟩, ⟨[gD, .hsel, gB, gC], 2 ^ 7, 2 ^ 7⟩], flag "res" (2 ^ 7) :: memMods, 0, none⟩,
   opX "sts" 0x62 [gD, .hsel, gB] memMods,
   opX "amo" 0x63 [gD, .reg .h 36, gB, gC]
     (oneOf ["add", "and", "or", "xor", "min", "max", "minu", "maxu", "swap"] :: memMods),
   opX "cas" 0x64 [gD, .reg .h 36, gB, gC] memMods,
   ⟨"barset", some .x, 0x65, [⟨[.reg .b 36, gB], 0, 0⟩, ⟨[.reg .b 36], 1, 1⟩], [flag "dis" 1], 0, none⟩,
   opX "bararr" 0x66 [.reg .b 36], opX "barwait" 0x67 [gD, .reg .b 36, gB], opX "bartry" 0x68 [gD, .reg .b 36],
   opX "stepadv" 0x69 [], opX "stsweep" 0x6A [gA, gB, gC],
   opX "regdef" 0x6B [.reg .reg 42, gA, gB, gC], opX "regclr" 0x6C [.reg .reg 42], opX "regapply" 0x6D [.reg .reg 42],
   opX "pgreq" 0x6E [gA, gB, gC], opX "heart" 0x6F [], opX "twaitt" 0x70 [gA], opX "kspawn" 0x71 [.reg .lq 0, gA],
   opX "qtake" 0x72 [gD], opX "qput" 0x73 [gA] [oneOf ["o0", "o1"]], opX "evpost" 0x74 [gA, gB],
   opX "wldef" 0x75 [.reg .wl 42, gA, gB, gC], opX "wlreset" 0x76 [.reg .wl 42],
   opX "dispdef" 0x77 [.reg .dt 42, gA],
   ⟨"dispclr", some .x, 0x78, [⟨[.reg .dt 36, gB], 0, 0⟩, ⟨[.reg .dt 36], 1, 0⟩], [flag "save" 1], 0, none⟩,
   opX "resume" 0x79 [], opX "ctxyield" 0x7C []]

/-! ### Classes L and S (R59) -/

def opG (cls : Seq) (gl : Nat) (name : String) (opc : Nat) (forms : List Form) (mods : List Fld) : Op :=
  ⟨name, some cls, opc, forms, mods, 0, some gl⟩
def withPred (slots : List Slot) : List Form := [⟨slots, 0, 0⟩, ⟨slots ++ [.predC], 0, 0⟩]

def lOps : List Op :=
  [opG .l 1 "tld" 0x60 (one [tD, .base, gB]) (resk :: memMods),
   opG .l 1 "tldx" 0x61 (one [tD, .base, gB, gC]) (resk :: memMods),
   opG .l 1 "mld" 0x62 (withPred [tD, .hsel, gB]) (resk :: zm :: memMods),
   opG .l 1 "mgath" 0x63 (withPred [tD, .hsel, tB]) (resk :: zm :: memMods),
   ⟨"copyin", some .l, 0x64, one [gA], [], 0, none⟩,
   ⟨"stload", some .l, 0x65, one [gA, gB], [ty, flag "sp" (2 ^ 13), flag "mx" (2 ^ 12)], 0, none⟩,
   ⟨"grpld", some .l, 0x66, one [gA], [oneOf ["slot0", "slot1"]], 0, none⟩,
   ⟨"pref", some .l, 0x67, one [.reg .h 36, gB, gC], [], 0, none⟩,
   opG .l 15 "wlpop" 0x68 (one [gD, .reg .wl 36, gB, tC]) [ty],
   opG .l 15 "wlsteal" 0x69 (one [gD, .reg .wl 36, gB, tC]) [ty]]

def sOps : List Op :=
  [opG .s 1 "tst" 0x60 (one [tD, .base, gB]) memMods,
   opG .s 1 "tstx" 0x61 (one [tD, .base, gB, gC]) memMods,
   opG .s 1 "mst" 0x62 (withPred [tD, .hsel, gB]) memMods,
   opG .s 1 "mscat" 0x63 (withPred [tD, .hsel, tB]) memMods,
   opG .s 5 "upd" 0x64 [⟨[.reg .reg 42, .reg .h 36, tB, tC], 2 ^ 8, 0⟩, ⟨[.reg .reg 42, .reg .h 36, gB, tC], 2 ^ 8, 2 ^ 8⟩]
     [ty, oc, flag "cont" (2 ^ 8), pmAt 1],
   ⟨"ufence", some .s, 0x65, one [], [], 0, none⟩,
   ⟨"drain", some .s, 0x66, one [gA, gB, gC], [ty, rm, sat, amx, flag "clr" (2 ^ 2), oneOf ["lin", "trn", "mxb"]], 0, none⟩,
   ⟨"copyout", some .s, 0x67, one [gA], [], 0, none⟩,
   opG .s 15 "wlpush" 0x68 (one [.reg .wl 42, tB]) [ty, pm],
   opG .s 15 "wlins" 0x69 (one [.reg .wl 42, tB]) [ty, pm],
   opG .s 15 "disp" 0x6A (one [.reg .k 42, .reg .dt 36, .reg .t 30, tC]) [ty, pm]]

/-! ### Class C (R59) -/

def opT (mods : List Fld) (slots : List Slot) (name : String) (opc : Nat) : Op := opG .c 15 name opc (one slots) mods
def opC (name : String) (opc : Nat) (slots : List Slot) (mods : List Fld := []) (md : Nat := 0) : Op :=
  ⟨name, some .c, opc, one slots, mods, md, none⟩

def cOps : List Op :=
  let fl : List Fld := [ty, rm, pm, zt, sat]
  let plain : List Fld := [ty, pm, zt]
  let two : List Slot := [tD, tA]
  let three : List Slot := [tD, tA, .tileOrG]
  let kk : Slot := .reg .k 42
  [("fadd", 0x60), ("fsub", 0x61), ("fmul", 0x62), ("fmin", 0x66), ("fmax", 0x67), ("fdiv", 0x6A)].map (fun (n, o) => opT fl three n o)
    ++ [("fma", 0x63), ("fms", 0x64), ("fnma", 0x65)].map (fun (n, o) => opT fl (three ++ [tC]) n o)
    ++ [("fabs", 0x68), ("fneg", 0x69), ("fsqrt", 0x6B), ("frsq", 0x6C), ("frcp", 0x6D), ("fexp2", 0x6E), ("flog2", 0x6F),
        ("ftanh", 0x70)].map (fun (n, o) => opT fl two n o)
    ++ [opT plain three "fpowi" 0x71, opT plain two "fclass" 0x72, opT (conds :: plain) [kk, tA, .tileOrG] "fcmp" 0x73,
        opT plain [tD, tA, .tileOrG, .reg .k 24] "fsel" 0x74]
    ++ [("iadd", 0x78), ("isub", 0x79), ("imul", 0x7A), ("ishl", 0x7F)].map (fun (n, o) => opT (sat :: plain) three n o)
    ++ [("iand", 0x7C), ("ior", 0x7D), ("ixor", 0x7E), ("ishr", 0x80), ("isar", 0x81), ("imin", 0x82), ("imax", 0x83),
        ("tshuf", 0x93)].map (fun (n, o) => opT plain three n o)
    ++ [opT (sat :: plain) (three ++ [tC]) "imad" 0x7B, opT (conds :: plain) [kk, tA, .tileOrG] "icmp" 0x84,
        opT (sat :: plain) two "iabs" 0x85]
    ++ [opT (srcTy :: amx :: fl) two "cvt" 0x88, opT (srcTy :: amx :: plain) [tD, tA, .reg .t 30] "cvtmx" 0x89,
        opT (srcTy :: amx :: fl) [tD, tA, .reg .t 30] "dqmx" 0x8A, opT (srcTy :: amx :: fl) [tD, tA, .gBs] "cvtfx" 0x8B]
    ++ [opT plain two "tmov" 0x90, opG .c 15 "tbcast" 0x91 [⟨[tD, .gBs], 0, 0⟩, ⟨two, 0, 0⟩] (⟨[("row", 1), ("col", 2)], false⟩ :: plain),
        opT [ty] two "ttrn" 0x92, opT [ty] [gD, tA, .gBs] "text" 0x94, opT [ty] [tD, gA, .gBs] "tins" 0x95,
        opT fl [tD, gA, .gBs] "tiota" 0x96]
    ++ [("rsum", 0x98), ("rmax", 0x99), ("rmin", 0x9A), ("ramax", 0x9B)].map
        (fun (n, o) => opT [ty, rm, pm, sat, oneOf ["row", "tile", "grp", "col"]] two n o)
    ++ [opG .c 15 "cmpx" 0x9C [⟨[tD, tA, .gBs], 1, 0⟩, ⟨[tD, tA, .gBs, tC], 1, 1⟩] [ty, flag "pay" 1]]
    ++ [("kand", 0xA0), ("kor", 0xA1), ("kxor", 0xA2)].map (fun (n, o) => opC n o [kk, .reg .k 36, .reg .k 30] [] (2 ^ 15))
    ++ [opC "knot" 0xA3 [kk, .reg .k 36] [] (2 ^ 15), opC "kpopc" 0xA4 [gD, .reg .k 36] [] (2 ^ 15),
        opC "kfirst" 0xA5 [gD, .reg .k 36] [] (2 ^ 15), opT [ty, flag "zt" 1] [tD, tA, .reg .k 30] "kcomp" 0xA6,
        opT [ty, flag "zt" 1] [tD, tA, .reg .k 30] "kexp" 0xA7, opC "pset" 0xA8 [.reg .p 42, gA] [oneOf ["w8", "w16", "w32", "w64"]] (2 ^ 15),
        opC "pget" 0xA9 [gD, .reg .p 36] [] (2 ^ 15), opC "amrd" 0xAC [gD, .reg .m 36] [] (2 ^ 15),
        opC "amclr" 0xAD [.reg .m 36] [] (2 ^ 15)]
    ++ [opC "mma" 0xC0 [gA, gB, gC] [ty, ⟨[("gfwd", 2 ^ 16), ("gdat", 2 * 2 ^ 16), ("gwgt", 3 * 2 ^ 16)], false⟩, flag "gsweep" (2 ^ 15)],
        opC "mmas" 0xC1 [gD, gA, gB, gC] [ty, flag "strict" (2 ^ 14), flag "sp" (2 ^ 13), flag "mx" (2 ^ 12)],
        opC "stswap" 0xC2 [], opC "gbuild" 0xC3 [gA],
        opC "grpbind" 0xC4 [] [oneOf ["bind", "unbind", "rel"], oneOf ["slot0", "slot1"] 2],
        opC "grpstat" 0xC5 [gD] [oneOf ["slot0", "slot1"]],
        opC "accinit" 0xC6 [gA, gB], opC "accnorm" 0xC7 [gA],
        opT (amx :: ⟨[("mant", 1), ("guard", 2), ("exp", 3)], false⟩ :: fl) [tD, gA] "accrd" 0xC8,
        opT [ty, pm, ⟨[("mant", 1), ("guard", 2), ("exp", 3)], false⟩, flag "add" 8] [gA, tB] "accwr" 0xC9,
        ⟨"accstat", some .c, 0xCA, [⟨[gD, gA], 0, 0⟩, ⟨[gD], 3, 3⟩], [oneOf ["unclean", "nf", "nerr", "flags"]], 0, none⟩]

/-- The instruction that a mnemonic names in a stream (R58, R59). -/
def findOp (cls : Seq) (name : Txt) : Option Op :=
  (commonOps ++ match cls with | .x => xOps | .l => lOps | .c => cOps | .s => sOps).find? (fun o => o.name.toList == name)

/-! ### One line (R60, R61, R363) -/

/-- What an operand contributes: bits of the word, the group length it is written with, and a data label in a relocated field
(the relocation's type, the label, the addend). -/
structure Part where
  bits  : Nat := 0
  gl    : Option Nat := none
  reloc : Option (Nat × String × Int) := none

/-- An immediate: IMM32 and IMM42, which are sign-extended (R41), as a signed number or as the bits of the field (R77); any other as an
unsigned number. -/
def place (pos width : Nat) (v : Int) : Res Nat :=
  if (if 32 ≤ width then -((2 : Int) ^ (width - 1)) else 0) ≤ v ∧ v < (2 : Int) ^ width then
    .ok ((v % (2 : Int) ^ width).toNat * 2 ^ pos)
  else .error "an immediate that does not fit its field"

/-- The ADDEND of a relocation is signed, of 32 bits (R362, R372). -/
def addend (v : Int) : Res Int :=
  if -(2 : Int) ^ 31 ≤ v ∧ v < (2 : Int) ^ 31 then .ok v else .error "an addend that does not fit its field"

def plainReg (kd : Rk) (pos : Nat) (r : RegTok) : Option Part :=
  if r.kind = kd ∧ r.len = none then some ⟨r.idx * 2 ^ pos, none, none⟩ else none

/-- The operand `t` in slot `sl`: none if it is not of the slot's kind. `labels` gives the word index of a label of the stream,
`index` is the word's own. -/
def Slot.read (sl : Slot) (look : String → Res Val) (labels : String → Option Nat) (index : Nat) (t : Txt) : Option (Res Part) :=
  match sl, regTok t with
  | .reg kd pos, some r => (plainReg kd pos r).map .ok
  | .tile pos, some r => if r.kind = .t then some (.ok ⟨r.idx * 2 ^ pos, some (r.len.getD 1), none⟩) else none
  | .tileOrG, some r =>
    if r.kind = .t then some (.ok ⟨r.idx * 2 ^ 30, some (r.len.getD 1), none⟩)
    else (plainReg .g 30 r).map (fun p => .ok { p with bits := p.bits + 2 ^ 8 })
  | .gBs, some r => (plainReg .g 30 r).map (fun p => .ok { p with bits := p.bits + 2 ^ 8 })
  | .base, some r =>
    match plainReg .g 36 r with
    | some p => some (.ok p)
    | none => (plainReg .h 36 r).map (fun p => .ok { p with bits := p.bits + 2 ^ 8 })
  | .hsel, some r => (plainReg .h 36 r).map (fun p => .ok { p with bits := p.bits + 2 ^ 8 })
  | .predC, some r =>
    if r.len ≠ none then none
    else if r.kind = .k then some (.ok ⟨(r.idx + 1) * 2 ^ 24, none, none⟩)
    else if r.kind = .p then some (.ok ⟨(r.idx + 9) * 2 ^ 24, none, none⟩)
    else none
  | .imm pos width rel, none => some (do
    let v ← eval look t
    match v.sym, rel with
    | none, _ => return ⟨← place pos width v.n, none, none⟩
    | some l, some ty => return ⟨0, none, some (ty, l, ← addend v.n)⟩
    | some _, none => .error "a data label where none may stand")
  | .label, none =>
    match labels (String.ofList t) with
    | some n => some (.ok ⟨(((n : Int) - index) % (2 : Int) ^ 32).toNat, none, none⟩)
    | none => some (.error "not a label of this stream")
  | .seq pos, none => (seqName t).map (fun q => .ok ⟨q.idx.val * 2 ^ pos, none, none⟩)
  | _, _ => none

/-- The queue mask of `qfence`: `in`, `out` or both, or an expression (R89). -/
def queueMask (look : String → Res Val) (ts : List Txt) : Res Part :=
  let ws := ts.flatMap words
  if ws.all (fun w => w == "in".toList || w == "out".toList) && !ws.isEmpty then
    .ok ⟨((if ws.contains "in".toList then 1 else 0) + (if ws.contains "out".toList then 2 else 0)) * 2 ^ 4, none, none⟩
  else match ts with
    | [t] => do return ⟨← place 4 32 (← evalInt look t), none, none⟩
    | _ => .error "not a queue mask"

/-- All operands in the slots of a form: none if their number or kinds differ. -/
def readAll (look : String → Res Val) (labels : String → Option Nat) (index : Nat) : List Slot → List Txt → Option (Res (List Part))
  | [], [] => some (.ok [])
  | sl :: sls, t :: ts => do
    let p ← sl.read look labels index t
    let ps ← readAll look labels index sls ts
    return do return (← p) :: (← ps)
  | _, _ => none

def Form.read (f : Form) (look : String → Res Val) (labels : String → Option Nat) (index modBits : Nat) (ts : List Txt) :
    Option (Res (List Part)) :=
  if modBits &&& f.mask ≠ f.val then none
  else match f.slots with
    | [.queues] => some (do return [← queueMask look ts])
    | sls => readAll look labels index sls ts

/-- The modifiers of a word: each names one field, at most once; a field that must be written is. -/
def readMods (o : Op) (ms : List Txt) : Res Nat := do
  let hits ← ms.mapM (fun m =>
    match (o.mods.zipIdx.filterMap (fun (f, i) => (f.opts.find? (fun p => p.1.toList == m)).map (fun p => (i, p.2)))).head? with
    | some h => Except.ok h
    | none => .error "a modifier that the instruction does not use")
  if hits.map (·.1) ≠ (hits.map (·.1)).eraseDups then .error "a modifier field written twice"
  else if o.mods.zipIdx.any (fun (f, i) => f.must && !(hits.map (·.1)).contains i) then .error "a modifier is missing"
  else .ok ((hits.map (·.2)).sum + o.md)

/-- The group length: that of every tile group of the word, 1 when left out. -/
def groupBits (o : Op) (ps : List Part) : Res Nat :=
  let ls := ps.filterMap (·.gl)
  let l := ls.headD 1
  if ls.any (· ≠ l) then .error "tile groups of different lengths"
  else match o.gl with
    | some pos => if 1 ≤ l ∧ l ≤ 6 then .ok (l * 2 ^ pos) else .error "a group length outside 1 to 6"
    | none => if l = 1 then .ok 0 else .error "a group length that the word does not have"

/-- One `keyword=value` of the header (R60). -/
def headerPart (look : String → Res Val) (t : Txt) : Res (String × Nat) :=
  let (key, v?) := cut '=' t
  let num (hi : Nat) (f : Nat → Nat) : Res (String × Nat) := do
    let v ← evalInt look (v?.getD [])
    if 0 ≤ v ∧ v ≤ hi then .ok (String.ofList key, f v.toNat) else .error "a header value outside its range"
  let q (f : Nat → Nat) : Res (String × Nat) :=
    match seqName (v?.getD []) with
    | some sq => .ok (String.ofList key, f sq.idx.val)
    | none => .error "not a sequencer"
  match String.ofList key with
  | "pd" => num 7 (· * 2 ^ 74)
  | "sba" => num 7 (fun v => 2 ^ 73 + v * 2 ^ 70)
  | "sbw" => num 255 (· * 2 ^ 62)
  | "pop" => q (fun v => 2 ^ 61 + v * 2 ^ 59)
  | "push" => q (fun v => 2 ^ 58 + v * 2 ^ 56)
  | _ => .error "not a header keyword"

def header (look : String → Res Val) (t : Txt) : Res Nat := do
  let ps ← (words t).mapM (headerPart look)
  if ps.map (·.1) ≠ (ps.map (·.1)).eraseDups then .error "a header keyword written twice" else .ok (ps.map (·.2)).sum

/-- A word as assembled, with the relocation it needs. -/
structure Word where
  word  : Nat
  reloc : Option (Nat × String × Int)
  deriving DecidableEq, Repr

/-- `stload` and `mmas` of e2m1 carry MX whether or not it is written (R243). -/
def autoMx (o : Op) (bits : Nat) : Nat :=
  if (o.name == "stload" || o.name == "mmas") && fld bits 20 4 == 14 && !bitSet bits 12 then bits + 2 ^ 12 else bits

/-- The word of an instruction line in a stream of class `cls` at word `index` (R363): every word it makes has no decode reason. -/
def assemble (look : String → Res Val) (labels : String → Option Nat) (cls : Seq) (index : Nat) (line : Txt) : Res Word := do
  let (body, hdr?) := cut '|' line
  let name := (trim body).takeWhile (fun c => !isBlank c)
  let rest := (trim body).drop name.length
  match pieces (· == '.') name with
  | [] => .error "no mnemonic"
  | mn :: ms =>
    match findOp cls mn with
    | none => .error "a mnemonic that the stream's class does not have"
    | some o =>
      let mb ← readMods o ms
      let ts := operands rest
      match (o.forms.filterMap (fun f => f.read look labels index mb ts)).head? with
      | none => .error "operands that the instruction does not have"
      | some ps =>
        let ps ← ps
        let bits := autoMx o (mb + (ps.map (·.bits)).sum + (← groupBits o ps))
        let w := cls.idx.val * 2 ^ 77 + (← header look (hdr?.getD [])) + o.opc * 2 ^ 48 + bits
        match decode cls w with
        | .error _ => .error "an encoding that is illegal at decode"
        | .ok _ => return ⟨w, (ps.filterMap (·.reloc)).head?⟩

end Sys2Proof.Volas
end

