-- ==== Sys2Proof/Machine/Program.lean ====
section
/-! DEFINITION. A volas source file (R361 to R369): its sections and directives, and the object that the assembler makes of it. A
first pass lays the sections out and gives the names their values; a second reads every word and datum with them. -/
namespace Sys2Proof.Volas

/-! ### The first pass -/

/-- What a name stands for (R362): a word of a stream, a comb address of a piece, a byte of a data section, an expression. -/
inductive Def where
  | word (kern stage : Nat) (q : Seq) (n : Nat)
  | comb (piece : Nat) (addr : Nat)
  | data (sect off : Nat)
  | equ (t : Txt)
  deriving DecidableEq, Repr

/-- A datum: an integer of some bytes, a float, or zeros. -/
inductive Item where
  | int (bytes : Nat) (t : Txt)
  | float (ty : Ty) (t : Txt)
  | zeros (n : Nat)
  deriving DecidableEq, Repr

def Item.size : Item → Nat
  | .int n _ => n
  | .float t _ => t.halfBytes / 2
  | .zeros n => n

/-- Data written one after another. -/
structure Draft where
  items : List Item
  size  : Nat
  deriving DecidableEq, Repr

def Draft.empty : Draft := ⟨[], 0⟩
def Draft.add (d : Draft) (i : Item) : Draft := ⟨d.items ++ [i], d.size + i.size⟩

structure StreamSrc where
  q     : Seq
  lines : List Txt
  entry : Option Txt
  deriving DecidableEq, Repr

/-- A stage as written: its keys, its streams (R365). -/
structure StageSrc where
  no      : Nat
  keys    : List (String × Option Txt)
  streams : List StreamSrc
  deriving DecidableEq, Repr

structure KernelSrc where
  name   : String
  count  : Nat
  stages : List StageSrc
  deriving DecidableEq, Repr

/-- The kinds of comb pieces: `.comb`, `.group`, `.chain`, by their section kinds (R371). -/
structure PieceSrc where
  kern  : Nat
  stage : Nat
  kind  : Nat
  addr  : Nat
  body  : Draft
  deriving DecidableEq, Repr

/-- Attributes of a data section (R367), as the fields of its leaves; `dclass` is of its stamp words. -/
structure Attr where
  r      : Bool
  w      : Bool
  u      : Bool
  fmt    : Nat
  geom   : Nat
  dclass : Nat
  deriving DecidableEq, Repr

structure DataSrc where
  attr  : Attr
  body  : Draft
  plane : Option Draft
  deriving DecidableEq, Repr

structure LaunchSrc where
  lq        : Nat
  kern      : String
  cls       : Nat
  notBefore : Nat
  body      : Draft
  deriving DecidableEq, Repr

/-- The section that lines belong to (R364). -/
inductive Place where
  | none
  | stream
  | piece
  | data
  | plane
  | launch
  deriving DecidableEq, Repr

/-- What the first pass has read. Stages, streams, pieces and sections under work are the last of their lists. -/
structure Layout where
  place    : Place
  kernels  : List KernelSrc
  pieces   : List PieceSrc
  datas    : List DataSrc
  launches : List LaunchSrc
  names    : List (String × Def)
  deriving DecidableEq, Repr

def onLast (f : α → α) : List α → List α
  | [] => []
  | [a] => [f a]
  | a :: as => a :: onLast f as

def lookup (names : List (String × Def)) : Nat → String → Res Val
  | 0, _ => .error "a name defined through itself"
  | fuel + 1, s =>
    match (names.find? (fun p => p.1 == s)).map (fun p => p.2) with
    | none => .error "a name that is not defined"
    | some (Def.word _ _ _ n) => .ok (.ofInt n)
    | some (Def.comb _ a) => .ok (.ofInt a)
    | some (Def.data _ _) => .ok ⟨some s, 0⟩
    | some (Def.equ t) => do
      let v ← eval (lookup names fuel) t
      if v.sym.isSome then .error "an .equ of a data label" else .ok v

def lookIn (names : List (String × Def)) : String → Res Val := lookup names (names.length + 1)

/-- The number of a name, 0 while it is not known. -/
def lookLoose (names : List (String × Def)) (s : String) : Res Val :=
  match lookIn names s with
  | .ok v => .ok v
  | .error _ => .ok (.ofInt 0)

def natOf (look : String → Res Val) (t : Txt) : Res Nat := do
  let v ← evalInt look t
  if 0 ≤ v then .ok v.toNat else .error "a negative count"

/-- `key=value`, or a key alone. -/
def keyOf (t : Txt) : String × Option Txt :=
  let (a, b) := cut '=' t
  (String.ofList (trim a), b.map trim)

def Layout.kern? (l : Layout) : Option Nat := if l.kernels.isEmpty then none else some (l.kernels.length - 1)

def Layout.stage? (l : Layout) : Option StageSrc := do (← l.kernels.getLast?).stages.getLast?

def Layout.onStage (l : Layout) (f : StageSrc → StageSrc) : Layout :=
  { l with kernels := onLast (fun k => { k with stages := onLast f k.stages }) l.kernels }

def Layout.onStream (l : Layout) (f : StreamSrc → StreamSrc) : Layout :=
  l.onStage (fun s => { s with streams := onLast f s.streams })

/-- The data under work (R364). -/
def Layout.body? (l : Layout) : Option Draft :=
  match l.place with
  | .piece => l.pieces.getLast?.map (·.body)
  | .data => l.datas.getLast?.map (·.body)
  | .plane => l.datas.getLast?.bind (·.plane)
  | .launch => l.launches.getLast?.map (·.body)
  | _ => none

/-- The location counter of the data under work: a comb address in a comb section, else an offset. -/
def Layout.counter (l : Layout) : Nat :=
  (l.body?.map (·.size)).getD 0 + (if l.place = .piece then (l.pieces.getLast?.map (·.addr)).getD 0 else 0)

def Layout.add (l : Layout) (i : Item) : Res Layout :=
  match l.place with
  | .piece => .ok { l with pieces := onLast (fun p => { p with body := p.body.add i }) l.pieces }
  | .data => .ok { l with datas := onLast (fun d => { d with body := d.body.add i }) l.datas }
  | .plane => .ok { l with datas := onLast (fun d => { d with plane := d.plane.map (·.add i) }) l.datas }
  | .launch => .ok { l with launches := onLast (fun r => { r with body := r.body.add i }) l.launches }
  | _ => .error "a data directive outside a comb, chain, group, data or launch section"

def Layout.define (l : Layout) (t : Txt) (d : Def) : Res Layout :=
  let s := String.ofList t
  if !isName t then .error "not a name that a program may define"
  else if l.names.any (fun p => p.1 == s) then .error "a name defined twice"
  else .ok { l with names := l.names ++ [(s, d)] }

/-- A label takes the place where it stands (R362). -/
def Layout.label (l : Layout) (t : Txt) : Res Layout :=
  match l.place with
  | .stream =>
    match l.kern?, l.stage? with
    | some k, some s =>
      match s.streams.getLast? with
      | some st => l.define t (.word k s.no st.q st.lines.length)
      | none => .error "a label outside a section"
    | _, _ => .error "a label outside a section"
  | .piece => l.define t (.comb (l.pieces.length - 1) l.counter)
  | .data => l.define t (.data (l.datas.length - 1) l.counter)
  | _ => .error "a label where none may stand"

/-- The attribute words of `.data` (R367). -/
def dataAttr (look : String → Res Val) (t : Txt) : Res Attr := do
  let ws := (words t).map keyOf
  let isRwu (s : String) : Bool := !s.isEmpty && s.toList.all (fun c => c ∈ ['r', 'w', 'u']) && s.toList.eraseDups == s.toList
  let rwu := ws.filter (fun w => w.2.isNone)
  if !(rwu.all (fun w => isRwu w.1) && rwu.length ≤ 1) then .error "an attribute that a data section does not have"
  let keys := ws.filter (fun w => w.2.isSome)
  if keys.any (fun w => !(["fmt", "stamp", "dclass"].contains w.1)) || keys.map (·.1) ≠ (keys.map (·.1)).eraseDups then
    .error "an attribute that a data section does not have"
  let get (s : String) : Option Txt := (keys.find? (fun w => w.1 == s)).bind (·.2)
  let p := ((rwu.head?.map (·.1)).getD "rw").toList
  let fmt ← match get "fmt" with
    | none => Except.ok 0
    | some f =>
      if f == "raw".toList then .ok 0
      else if f == "mxfp8".toList then .ok 16
      else if f == "mxfp4".toList then .ok 17
      else match tyNames.zipIdx.find? (fun n => n.1.toList == f) with
        | some (_, i) => .ok (i + 1)
        | none => .error "not a page format"
  let geom ← match get "stamp" with
    | none => Except.ok (if 16 ≤ fmt then 1 else 0)
    | some s => do
      let n ← natOf look s
      if fmt = 16 ∧ n = 32 then .ok 4
      else if fmt = 8 ∨ fmt = 9 then
        match n with
        | 8 => .ok 2 | 16 => .ok 3 | 32 => .ok 4 | 64 => .ok 5
        | _ => .error "not a stamp size"
      else .error "a stamp on a format that takes none"
  let dclass ← match get "dclass" with
    | none => Except.ok 0
    | some s => do
      let n ← natOf look s
      if (get "stamp").isNone then .error "dclass without stamp" else if n ≤ 15 then .ok n else .error "a class outside 0 to 15"
  return ⟨p.contains 'r', p.contains 'w', p.contains 'u', fmt, geom, dclass⟩

def combEnd : Nat := 0x180000

/-- `.comb`, `.chain` and `.group` (R364). -/
def Layout.openPiece (l : Layout) (kind unit : Nat) (look : String → Res Val) (t : Txt) : Res Layout := do
  let a ← natOf look t
  match l.kern?, l.stage? with
  | some k, some s =>
    if a % unit ≠ 0 ∨ combEnd ≤ a then .error "a comb address that the section does not allow"
    else .ok { l with place := .piece, pieces := l.pieces ++ [⟨k, s.no, kind, a, .empty⟩] }
  | _, _ => .error "a comb section before a stage"

def Layout.openStream (l : Layout) (t : Txt) : Res Layout :=
  match seqName t, l.stage? with
  | some q, some s =>
    if s.streams.any (fun st => st.q = q) then .error "a stream twice in a stage"
    else .ok { l.onStage (fun s => { s with streams := s.streams ++ [⟨q, [], none⟩] }) with place := .stream }
  | _, _ => .error "not a stream of a stage"

def Layout.openKernel (l : Layout) (look : String → Res Val) (t : Txt) : Res Layout :=
  match operands t with
  | [n, c] =>
    match keyOf c with
    | ("stages", some v) => do
      let v ← natOf look v
      if !isName n || !(1 ≤ v ∧ v ≤ 8) || l.kernels.any (fun k => k.name.toList == n) then .error "not a kernel"
      else .ok { l with place := .none, kernels := l.kernels ++ [⟨String.ofList n, v, []⟩] }
    | _ => .error "a kernel without stages"
  | _ => .error "not a kernel"

def Layout.openStage (l : Layout) (look : String → Res Val) (t : Txt) : Res Layout :=
  match operands t with
  | n :: ks => do
    let n ← natOf look n
    let keys := ks.map keyOf
    match l.kernels.getLast? with
    | none => .error "a stage without a kernel"
    | some k =>
      if k.count ≤ n || k.stages.any (fun s => s.no == n) then .error "a stage that the kernel does not have"
      else if keys.map (·.1) ≠ (keys.map (·.1)).eraseDups
          || keys.any (fun p => !(["min", "max", "out0", "out1", "persist", "heart", "budget", "qlog2", "live"].contains p.1))
          || keys.any (fun p => (p.1 == "persist") != p.2.isNone) then .error "a key that a stage does not have"
      else .ok { l with place := .none, kernels := onLast (fun k => { k with stages := k.stages ++ [⟨n, keys, []⟩] }) l.kernels }
  | [] => .error "not a stage"

/-- `.launch` (R364, R369). -/
def Layout.openLaunch (l : Layout) (look : String → Res Val) (t : Txt) : Res Layout :=
  match operands t with
  | q :: k :: ks => do
    let keys := ks.map keyOf
    if keys.map (·.1) ≠ (keys.map (·.1)).eraseDups || keys.any (fun p => !(["class", "notbefore"].contains p.1) || p.2.isNone) then
      .error "a key that a launch does not have"
    let num (s : String) (d hi : Nat) : Res Nat := match (keys.find? (fun p => p.1 == s)).bind (·.2) with
      | none => .ok d
      | some v => do
        let v ← natOf look v
        if v < hi then .ok v else .error "a launch key outside its range"
    match regTok q with
    | some ⟨.lq, n, none⟩ =>
      .ok { l with place := .launch
                   launches := l.launches ++ [⟨n, String.ofList k, ← num "class" 1 4, ← num "notbefore" 0 (2 ^ 64), .empty⟩] }
    | _ => .error "not a launch queue"
  | _ => .error "not a launch record"

def isPow2 (n : Nat) : Bool := n ≠ 0 && n &&& (n - 1) == 0

/-- A directive (R364). -/
def Layout.directive (l : Layout) (look : String → Res Val) (name : String) (t : Txt) : Res Layout :=
  match name with
  | ".kernel" => l.openKernel look t
  | ".stage" => l.openStage look t
  | ".stream" => l.openStream t
  | ".entry" =>
    match l.place, l.stage?.bind (·.streams.getLast?) with
    | .stream, some st => if st.entry.isSome then .error "an entry twice in a stream" else .ok (l.onStream (fun s => { s with entry := some t }))
    | _, _ => .error "an entry outside a stream"
  | ".comb" => l.openPiece 2 1 look t
  | ".group" => l.openPiece 4 64 look t
  | ".chain" => l.openPiece 5 128 look t
  | ".data" => do return { l with place := .data, datas := l.datas ++ [⟨← dataAttr look t, .empty, none⟩] }
  | ".plane" =>
    match l.place, l.datas.getLast?.bind (·.plane) with
    | .data, none => .ok { l with place := .plane, datas := onLast (fun d => { d with plane := some .empty }) l.datas }
    | _, _ => .error "a side plane without its data section"
  | ".launch" => l.openLaunch look t
  | ".d8" => l.add (.int 1 t)
  | ".d16" => l.add (.int 2 t)
  | ".d32" => l.add (.int 4 t)
  | ".d64" => l.add (.int 8 t)
  | ".f32" => l.add (.float .f32 t)
  | ".bf16" => l.add (.float .bf16 t)
  | ".f16" => l.add (.float .f16 t)
  | ".space" => do l.add (.zeros (← natOf look t))
  | ".align" => do
    let n ← natOf look t
    if isPow2 n then l.add (.zeros ((n - l.counter % n) % n)) else .error "an alignment that is no power of two"
  | ".equ" =>
    match operands t with
    | [n, e] => l.define n (.equ e)
    | _ => .error "not a definition"
  | _ => .error "not a directive"

/-- The label of a line, if it has one, and its statement (R361). -/
def splitLine (src : Txt) : Option Txt × Txt :=
  let t := trim (uncomment src)
  let n := t.takeWhile isWordChar
  match t.drop n.length with
  | ':' :: r => (some n, trim r)
  | _ => (none, t)

/-- The name and the operands of a directive. -/
def splitDirective (t : Txt) : String × Txt :=
  let d := t.takeWhile (fun c => !isBlank c)
  (String.ofList d, trim (t.drop d.length))

/-- The statement of a line: a directive or an instruction. -/
def Layout.statement (look : String → Res Val) (l : Layout) (t : Txt) : Res Layout :=
  match t with
  | [] => return l
  | '.' :: _ => let d := splitDirective t; l.directive look d.1 d.2
  | _ => if l.place = .stream then return l.onStream (fun s => { s with lines := s.lines ++ [t] }) else .error "an instruction outside a stream"

/-- The label of a line, where it has one. -/
def Layout.labelled (l : Layout) : Option Txt → Res Layout
  | none => .ok l
  | some n => if n.isEmpty then .error "not a label" else l.label n

/-- A line: its label, then its statement (R361). -/
def Layout.line (look : String → Res Val) (l : Layout) (src : Txt) : Res Layout := do
  let (n, t) := splitLine src
  (← l.labelled n).statement look t

/-- The section that a statement in error would open, its numbers stood in for: the lines after it belong to it all the same, and
give their names values that those numbers may rest on (R361). -/
def Layout.provisional (l : Layout) (t : Txt) : Layout :=
  let d := splitDirective t
  let piece (kind : Nat) : Layout := match l.kern?, l.stage? with
    | some k, some s => { l with place := .piece, pieces := l.pieces ++ [⟨k, s.no, kind, 0, .empty⟩] }
    | _, _ => l
  match d.1 with
  | ".kernel" => { l with place := .none, kernels := l.kernels ++ [⟨String.ofList ((operands d.2).headD []), 8, []⟩] }
  | ".stage" =>
    { l with place := .none, kernels := onLast (fun k => { k with stages := k.stages ++ [⟨k.stages.length, [], []⟩] }) l.kernels }
  | ".comb" => piece 2
  | ".group" => piece 4
  | ".chain" => piece 5
  | ".data" => { l with place := .data, datas := l.datas ++ [⟨⟨true, true, false, 0, 0, 0⟩, .empty, none⟩] }
  | ".launch" => { l with place := .launch, launches := l.launches ++ [⟨0, "", 1, 0, .empty⟩] }
  | _ => l

/-- A pass that knows no name's value for certain: what is in error is left out, but a section that it would open is opened. -/
def Layout.loosely (look : String → Res Val) : Layout → List Txt → Layout
  | l, [] => l
  | l, s :: ss =>
    match l.labelled (splitLine s).1 with
    | .error _ => Layout.loosely look l ss
    | .ok l =>
      match l.statement look (splitLine s).2 with
      | .error _ => Layout.loosely look (l.provisional (splitLine s).2) ss
      | .ok l => Layout.loosely look l ss

/-- The `.equ` definitions of a file, which may be used before they stand (R361). -/
def equsOf (src : List Txt) : List (String × Def) :=
  src.filterMap (fun s => match splitDirective (splitLine s).2 with
    | (".equ", t) => match operands t with
      | [n, e] => some (String.ofList n, .equ e)
      | _ => none
    | _ => none)

/-- A file without `.kernel` forms the kernel `main` with one stage 0 under the defaults (R365). -/
def Layout.start (src : List Txt) : Layout :=
  let has := src.any (fun s => (splitDirective (splitLine s).2).1 == ".kernel")
  ⟨.none, if has then [] else [⟨"main", 1, [⟨0, [], []⟩]⟩], [], [], [], []⟩

def Layout.pass (look : String → Res Val) (src : List Txt) : Res Layout := src.foldlM (Layout.line look) (Layout.start src)

/-- The layout under which every name has the value that the layout itself gives it: names may be used before they are defined. -/
def Layout.settle (src : List Txt) : Nat → List (String × Def) → Res Layout
  | 0, _ => .error "names whose values depend on themselves"
  | fuel + 1, names =>
    let l := Layout.loosely (lookLoose names) (Layout.start src) src
    if l.names = names then Layout.pass (lookIn names) src else Layout.settle src fuel l.names

/-! ### The object -/

/-- Bytes with their relocations: the offset, the type, the data label, the addend (R372). -/
structure Block where
  bytes  : List Byte
  relocs : List (Nat × Nat × String × Int)
  deriving DecidableEq, Repr

/-- A piece of a stage's comb image: its section kind, its comb address, its place among the file's pieces. -/
structure PieceObj where
  kind : Nat
  addr : Nat
  idx  : Nat
  body : Block
  deriving DecidableEq, Repr

/-- A stage of an object: what its record of R306 holds but for addresses, its streams X, L, C, S, and its comb pieces. -/
structure StageObj where
  no      : Nat
  streams : List Block
  entries : List Nat
  pieces  : List PieceObj
  minc    : Nat
  maxc    : Nat
  out     : List (Option Nat)
  persist : Bool
  heart   : Nat
  budget  : Nat
  qlog2   : Nat
  live    : Nat
  imgLen  : Nat
  deriving DecidableEq, Repr

structure KernelObj where
  name   : String
  stages : List StageObj
  deriving DecidableEq, Repr

structure DataObj where
  attr  : Attr
  body  : Block
  plane : Option Block
  deriving DecidableEq, Repr

structure LaunchObj where
  lq        : Nat
  kern      : Nat
  cls       : Nat
  notBefore : Nat
  item      : Block
  deriving DecidableEq, Repr

structure Object where
  kernels  : List KernelObj
  datas    : List DataObj
  launches : List LaunchObj
  names    : List (String × Def)
  deriving DecidableEq, Repr

def intBytes (n : Nat) (v : Int) : List Byte := leBytes n (v % (2 : Int) ^ (8 * n)).toNat

/-- A datum's bytes, with the relocation of a data label (R364, R366, R372). -/
def Item.build (look : String → Res Val) (off : Nat) : Item → Res Block
  | .zeros n => .ok ⟨List.replicate n 0, []⟩
  | .float ty t => do return ⟨leBytes (ty.halfBytes / 2) (← Volas.float ty t), []⟩
  | .int n t => do
    let v ← eval look t
    match v.sym with
    | none =>
      if -((2 : Int) ^ (8 * n - 1)) ≤ v.n ∧ v.n < (2 : Int) ^ (8 * n) then return ⟨intBytes n v.n, []⟩
      else .error "a value outside its width"
    | some l =>
      if n = 8 then return ⟨List.replicate 8 0, [(off, 1, l, ← addend v.n)]⟩
      else if n = 4 then return ⟨List.replicate 4 0, [(off, 2, l, ← addend v.n)]⟩
      else .error "a data label in a field that no relocation covers"

def Draft.build (look : String → Res Val) (d : Draft) : Res Block :=
  d.items.foldlM (fun b i => do
    let c ← i.build look b.bytes.length
    return (⟨b.bytes ++ c.bytes, b.relocs ++ c.relocs⟩ : Block)) ⟨[], []⟩

/-- The words of a stream (R363); one that is left out is the one word `end` (R365). -/
def buildStream (look : String → Res Val) (names : List (String × Def)) (kern stage : Nat) (q : Seq) (src? : Option StreamSrc) :
    Res (Block × Nat) :=
  let labels (s : String) : Option Nat := match (names.find? (fun p => p.1 == s)).map (fun p => p.2) with
    | some (Def.word k st q' n) => if k = kern ∧ st = stage ∧ q' = q then some n else none
    | _ => none
  match src? with
  | none => do return (⟨leBytes 10 (← assemble look labels q 0 "end".toList).word, []⟩, 0)
  | some src => do
    let b ← src.lines.foldlM (fun (b : Block) t => do
      let w ← assemble look labels q (b.bytes.length / 10) t
      return ⟨b.bytes ++ leBytes 10 w.word, b.relocs ++ (w.reloc.toList.map (fun r => (b.bytes.length, r)))⟩) (⟨[], []⟩ : Block)
    if b.bytes.isEmpty then .error "a stream without a word"
    match src.entry with
    | none => return (b, 0)
    | some t => match labels (String.ofList t) with
      | some n => if 10 * n < b.bytes.length then return (b, n) else .error "an entry past its stream"
      | none => .error "an entry that is no label of its stream"

/-- Bytes of the comb image whose written spans (start, length) are these: from 0 to the highest written byte, rounded up to a
multiple of 64 (R373). -/
def imageLen (spans : List (Nat × Nat)) : Nat :=
  ((spans.map (fun p => if p.2 = 0 then 0 else p.1 + p.2)).foldl max 0 + 63) / 64 * 64

/-- Two spans (start, length) have no byte in common. -/
def apart (a b : Nat × Nat) : Bool := a.2 == 0 || b.2 == 0 || decide (a.1 + a.2 ≤ b.1) || decide (b.1 + b.2 ≤ a.1)

def allApart : List (Nat × Nat) → Bool
  | [] => true
  | a :: as => as.all (apart a) && allApart as

/-- A stage's keys and limits (R306, R365). -/
def buildStage (look : String → Res Val) (l : Layout) (kern count : Nat) (s : StageSrc) : Res StageObj := do
  let key (n : String) : Option Txt := (s.keys.find? (fun p => p.1 == n)).bind (·.2)
  let num (n : String) (d : Nat) : Res Nat := match key n with | none => .ok d | some t => natOf look t
  let opt (n : String) : Res (Option Nat) := match key n with | none => .ok none | some t => do return some (← natOf look t)
  let sts ← [Seq.x, .l, .c, .s].mapM (fun q => buildStream look l.names kern s.no q (s.streams.find? (fun st => st.q = q)))
  let pieces ← (l.pieces.zipIdx.filter (fun p => p.1.kern = kern ∧ p.1.stage = s.no)).mapM (fun p => do
    return (⟨p.1.kind, p.1.addr, p.2, ← p.1.body.build look⟩ : PieceObj))
  let spans := pieces.map (fun p => (p.addr, p.body.bytes.length))
  let img := imageLen spans
  let minc ← num "min" 1
  let maxc ← num "max" minc
  let out := [← opt "out0", ← opt "out1"]
  let persist := s.keys.any (fun p => p.1 == "persist")
  let heart ← num "heart" 0
  let budget ← num "budget" 1000000
  let qlog2 ← num "qlog2" 1
  let live ← num "live" img
  if !allApart spans || combEnd < img then .error "comb pieces that overlap or pass the comb's end"
  else if !(1 ≤ minc ∧ minc ≤ maxc ∧ maxc ≤ 576 ∧ 1 ≤ qlog2 ∧ qlog2 ≤ 12 ∧ live ≤ combEnd ∧ heart < 2 ^ 32 ∧ budget < 2 ^ 32)
      || (persist && (maxc ≠ minc || heart = 0)) || (!persist && budget = 0)
      || out.any (fun o => match o with | some q => q ≤ s.no || count ≤ q | none => false) then .error "a stage outside the limits"
  else return ⟨s.no, sts.map (·.1), sts.map (·.2), pieces, minc, maxc, out, persist, heart, budget, qlog2, live, img⟩

def buildKernel (look : String → Res Val) (l : Layout) (kern : Nat) (k : KernelSrc) : Res KernelObj := do
  let sts ← (List.range k.count).mapM (fun n => match k.stages.find? (fun s => s.no = n) with
    | some s => buildStage look l kern k.count s
    | none => .error "a stage of the kernel is missing")
  return ⟨k.name, sts⟩

def kernelIndex (ks : List KernelObj) (n : String) : Option Nat :=
  ((ks.zipIdx).find? (fun p => p.1.name == n)).map (·.2)

/-- The object of a source file, whole, or why it is rejected. -/
def assembleFile (src : List Txt) : Res Object := do
  let l ← Layout.settle src (src.length + 2) (equsOf src)
  let look := lookIn l.names
  let bad ← l.names.mapM (fun p => match p.2 with
    | .equ _ => (look p.1).map (fun v => decide (v.n < -((2 : Int) ^ 63)) || decide ((2 : Int) ^ 64 ≤ v.n))
    | _ => .ok false)
  if bad.any id then .error "a definition whose value does not fit 64 bits"
  let kernels ← l.kernels.zipIdx.mapM (fun (k, i) => buildKernel look l i k)
  let datas ← l.datas.mapM (fun d => do
    let plane ← (match d.plane with | none => .ok none | some p => (p.build look).map some : Res (Option Block))
    return (⟨d.attr, ← d.body.build look, plane⟩ : DataObj))
  let launches ← l.launches.mapM (fun r => match kernelIndex kernels r.kern with
    | none => .error "a launch of a kernel that the file does not have"
    | some k => do
      let b ← r.body.build look
      if 64 < b.bytes.length then .error "an item of more than 64 bytes" else return (⟨r.lq, k, r.cls, r.notBefore, b⟩ : LaunchObj))
  return ⟨kernels, datas, launches, l.names⟩

def linesOf (s : String) : List Txt := pieces (· == '\n') s.toList

end Sys2Proof.Volas
end

