-- ==== Sys2Proof/Machine/Lof.lean ====
section
/-! DEFINITION. The Lomong object format (R370 to R372), and loading (R368, R373): the bytes of an object's file, and what a file
puts where, under the addresses that the loader chooses. -/
namespace Sys2Proof.Volas

/-! ### Writing a file -/

/-- What a section holds. -/
inductive Tag where
  | data (i : Nat)
  | plane (i : Nat)
  | piece (i : Nat)
  | stream (kern stage : Nat) (q : Seq)
  | kernel (i : Nat)
  | launch (i : Nat)
  | names
  deriving DecidableEq, Repr

/-- A section of a file: KIND, KERN, STAGE, ATTR, ADDR (R370), its bytes and their relocations. -/
structure Section where
  tag    : Tag
  kind   : Nat
  kern   : Nat
  stage  : Nat
  attr   : Nat
  addr   : Nat
  bytes  : List Byte
  relocs : List (Nat × Nat × String × Int)
  deriving DecidableEq, Repr

def bnum (b : Bool) : Nat := if b then 1 else 0

/-- ATTR of a data section (R370). -/
def Attr.code (a : Attr) : Nat :=
  bnum a.r + bnum a.w * 2 + bnum a.u * 4 + a.fmt * 2 ^ 4 + a.geom * 2 ^ 9 + a.dclass * 2 ^ 12

def pad (n : Nat) (bs : List Byte) : List Byte := bs ++ List.replicate (n - bs.length) 0

/-- The stage record of R306 with every address 0. -/
def StageObj.record (s : StageObj) : List Byte :=
  let out (o : Option Nat) : List Byte := match o with | some q => leBytes 1 (2 ^ 7 + q) | none => [0]
  pad 128 (List.replicate 32 0 ++ s.streams.flatMap (fun b => leBytes 4 (b.bytes.length / 10)) ++ s.entries.flatMap (leBytes 4)
    ++ List.replicate 8 0 ++ leBytes 4 s.imgLen ++ leBytes 4 s.live ++ s.out.flatMap out ++ leBytes 2 s.minc ++ leBytes 2 s.maxc
    ++ leBytes 2 (bnum s.persist) ++ leBytes 4 s.heart ++ leBytes 4 s.budget)

/-- The kernel descriptor of R305 with every address 0. -/
def KernelObj.descriptor (k : KernelObj) : List Byte :=
  pad 1216 (pad 64 (leBytes 8 k.stages.length)
    ++ pad 128 (k.stages.flatMap (fun s => List.replicate 8 0 ++ leBytes 8 s.qlog2)) ++ k.stages.flatMap (·.record))

/-- The launch entry of R311 with KDESC and RESULT 0 (R369, R371). -/
def LaunchObj.entry (l : LaunchObj) : List Byte :=
  pad 128 (pad 64 (pad 30 (List.replicate 8 0 ++ leBytes 8 l.notBefore) ++ leBytes 1 (l.cls * 2 ^ 4)) ++ l.item.bytes)

/-- The strings: kernels, then names, each ended by a 0 byte. -/
def Object.strings (o : Object) : List String := o.kernels.map (·.name) ++ o.names.map (·.1)

def stringBytes (s : String) : List Byte := s.toList.map (fun c => BitVec.ofNat 8 c.toNat) ++ [0]
def stringOff (l : List String) (i : Nat) : Nat := ((l.take i).map (fun s => (stringBytes s).length)).sum

/-- The sections before the symbols and relocations, in the order of R371. -/
def Object.sections (o : Object) : List Section :=
  o.datas.zipIdx.flatMap (fun (d, i) =>
      ⟨.data i, 3, 0xFF, 0xFF, d.attr.code, 0, d.body.bytes, d.body.relocs⟩
        :: d.plane.toList.map (fun b => ⟨.plane i, 10, 0xFF, 0xFF, 0, 0, b.bytes, b.relocs⟩))
    ++ o.kernels.zipIdx.flatMap (fun (k, ki) => k.stages.flatMap (fun s =>
        (s.pieces.filter (·.kind == 2) ++ s.pieces.filter (·.kind == 5) ++ s.pieces.filter (·.kind == 4)).map (fun p => ⟨.piece p.idx, p.kind, ki, s.no, 0, p.addr, p.body.bytes, p.body.relocs⟩)
          ++ (s.streams.zip [Seq.x, .l, .c, .s]).map (fun (b, q) =>
              ⟨.stream ki s.no q, 1, ki, s.no, q.idx.val, 0, b.bytes, b.relocs⟩)))
    ++ o.kernels.zipIdx.map (fun (k, i) => ⟨.kernel i, 6, i, 0xFF, 0, 0, leBytes 8 (stringOff o.strings i) ++ k.descriptor, []⟩)
    ++ o.launches.zipIdx.map (fun (l, i) =>
        ⟨.launch i, 7, l.kern, 0xFF, l.lq + l.cls * 2 ^ 4, 0, l.entry, l.item.relocs.map (fun r => (r.1 + 64, r.2))⟩)

def indexOf (ss : List Section) (t : Tag) : Nat := (ss.map (·.tag)).idxOf t

/-- The symbol entry of name number `i` (R371). A byte without a stated value is free. -/
def symbolEntry (ss : List Section) (names : List (String × Def)) (off i : Nat) (p : String × Def) : List Byte :=
  let b (k : Nat) : Byte := Config.blank (16 * i + k)
  let e (kind : Nat) (stage cls : Byte) (value : Nat) (sect : List Byte) : List Byte :=
    leBytes 4 off ++ leBytes 1 kind ++ [stage, cls, 0] ++ leBytes 8 value ++ sect ++ List.replicate 4 0
  match p.2 with
  | .word k s q n => e 1 (BitVec.ofNat 8 s) (BitVec.ofNat 8 q.idx.val) n (leBytes 4 (indexOf ss (.stream k s q)))
  | .comb j a =>
    let n := indexOf ss (.piece j)
    e 2 (BitVec.ofNat 8 ((ss[n]?.map (·.stage)).getD 0)) (b 0) a (leBytes 4 n)
  | .data j o => e 3 (b 0) (b 1) o (leBytes 4 (indexOf ss (.data j)))
  | .equ _ =>
    let v := match lookIn names p.1 with | .ok v => v.n | .error _ => 0
    e 4 (b 0) (b 1) (v % (2 : Int) ^ 64).toNat [b 2, b 3, b 4, b 5]

/-- The relocation entry of R372. -/
def relocEntry (o : Object) (sect : Nat) (r : Nat × Nat × String × Int) : List Byte :=
  leBytes 4 sect ++ leBytes 4 r.2.1 ++ leBytes 8 r.1 ++ leBytes 4 ((o.names.map (·.1)).idxOf r.2.2.1) ++ intBytes 4 r.2.2.2

def Object.allSections (o : Object) : List Section :=
  let ss := o.sections
  let nk := o.kernels.length
  let syms := o.names.zipIdx.flatMap (fun (p, i) => symbolEntry ss o.names (stringOff o.strings (nk + i)) i p)
  let rels := ss.zipIdx.flatMap (fun (s, i) => s.relocs.flatMap (relocEntry o i))
  ss ++ [⟨.names, 8, 0xFF, 0xFF, 0, 0, syms, []⟩, ⟨.names, 9, 0xFF, 0xFF, 0, 0, rels, []⟩]

/-- The bytes of a file (R370): header, section table, sections, strings. -/
def Object.file (o : Object) : List Byte :=
  let ss := o.allSections
  let strs := o.strings.flatMap stringBytes
  let first := 64 + 32 * ss.length
  let offs := ss.zipIdx.map (fun (_, i) => first + ((ss.take i).map (·.bytes.length)).sum)
  let strOff := first + (ss.map (·.bytes.length)).sum
  let head := pad 64 ([0x4C, 0x4F, 0x46, 0x1A] ++ leBytes 2 1 ++ leBytes 2 ss.length ++ leBytes 8 64 ++ leBytes 8 strOff
    ++ leBytes 8 strs.length ++ leBytes 2 1)
  let row (s : Section) (off : Nat) : List Byte :=
    leBytes 2 s.kind ++ leBytes 1 s.kern ++ leBytes 1 s.stage ++ leBytes 4 s.attr ++ leBytes 8 s.addr ++ leBytes 8 off
      ++ leBytes 8 s.bytes.length
  head ++ (ss.zip offs).flatMap (fun (s, off) => row s off) ++ ss.flatMap (·.bytes) ++ strs

/-! ### Reading a file -/

def num (bs : List Byte) (o n : Nat) : Nat := leNat ((bs.drop o).take n)

/-- A section as a loader reads it. -/
structure Read where
  kind  : Nat
  kern  : Nat
  stage : Nat
  attr  : Nat
  addr  : Nat
  bytes : List Byte
  deriving DecidableEq, Repr

/-- The comb pieces of a stage: COMB, GROUP and CHAIN sections. -/
def Read.isPiece (r : Read) : Bool := r.kind == 2 || r.kind == 4 || r.kind == 5

def piecesOfStage (rs : List Read) (kern stage : Nat) : List Read := rs.filter (fun r => r.isPiece && r.kern == kern && r.stage == stage)

/-- A PLANE serves the DATA section right before it. -/
def planesOk : Bool → List Read → Bool
  | _, [] => true
  | afterData, r :: rs => (r.kind != 10 || afterData) && planesOk (r.kind == 3) rs

/-- The sections of a file, or why a loader rejects it (R370, R371). -/
def readFile (f : List Byte) : Res (List Read) := do
  if f.length < 64 || (f.take 4) ≠ [0x4C, 0x4F, 0x46, 0x1A] || num f 4 2 ≠ 1 || num f 32 2 ≠ 1 then .error "not a LOF file of this version"
  let rs ← (List.range (num f 6 2)).mapM (fun i => do
    let o := num f 8 8 + 32 * i
    let (off, size) := (num f (o + 16) 8, num f (o + 24) 8)
    if f.length < o + 32 || f.length < off + size then .error "a section past the file's end"
    else return (⟨num f o 2, num f (o + 2) 1, num f (o + 3) 1, num f (o + 4) 4, num f (o + 8) 8, (f.drop off).take size⟩ : Read))
  if rs.any (fun r => r.kind = 0 || 10 < r.kind) then .error "a section of an unknown kind"
  else if !planesOk false rs then .error "a side plane without its data section"
  else if rs.any (fun r => r.isPiece && !allApart ((piecesOfStage rs r.kern r.stage).map (fun p => (p.addr, p.bytes.length)))) then
    .error "comb pieces of a stage overlap"
  else return rs

/-! ### Loading (R368, R373) -/

/-- A launch queue as the loader finds it: its ring's VA and LOG2N, its completion word's VA, its tail word (R351). -/
structure LaunchRing where
  ring  : Nat
  log2n : Nat
  done  : Nat
  tail  : W32
  deriving DecidableEq, Repr

/-- A write of the host: bytes in the context's memory, through BAR 2, or a BAR 0 register (R349, R351). -/
inductive LoadWrite where
  | window (va : Nat) (bytes : List Byte)
  | reg (off : Nat) (v : W64)
  deriving DecidableEq, Repr

/-- The context that a file is loaded for, and the addresses that the loader chooses: of a stream (by kernel, stage and class),
of a stage's comb image and queue, of a kernel's descriptor, and, in the context's partition, the frame and the side plane of the
page at a VA; and the launch queues. -/
structure Plan where
  ctx    : Fin 64
  stream : Nat → Nat → Nat → Nat
  image  : Nat → Nat → Nat
  queue  : Nat → Nat → Nat
  desc   : Nat → Nat
  frame  : Nat → Nat
  plane  : Nat → Nat
  ring   : Nat → LaunchRing

def dataBase : Nat := 2 ^ 40
def pageSize : Nat := 2 ^ 16

def pagesOf (n : Nat) : Nat := (n + pageSize - 1) / pageSize

/-- Where each section's data goes: DATA sections in table order, from 0x100_0000_0000, each at a page of its own. -/
def placeData (va : Nat) : List Read → List Nat
  | [] => []
  | r :: rs => if r.kind = 3 then va :: placeData (va + pagesOf r.bytes.length * pageSize) rs else 0 :: placeData va rs

def patch (bs : List Byte) (o : Nat) (new : List Byte) : List Byte := bs.take o ++ new ++ bs.drop (o + new.length)

/-- The number of the 10-byte word at `o` with `width` bits from bit `pos` replaced. -/
def patchField (bs : List Byte) (o pos width v : Nat) : List Byte :=
  let w := num bs o 10
  patch bs o (leBytes 10 (w - w / 2 ^ pos % 2 ^ width * 2 ^ pos + v % 2 ^ width * 2 ^ pos))

/-- One relocation of type `ty` with the value `v` (R372). -/
def relocate (ty o : Nat) (v : Int) (bs : List Byte) : Res (List Byte) :=
  let bits (w : Nat) : Nat := (v % (2 : Int) ^ w).toNat
  let signed (w : Nat) : Bool := decide (-((2 : Int) ^ (w - 1)) ≤ v) && decide (v < (2 : Int) ^ (w - 1))
  match ty with
  | 1 => .ok (patch bs o (leBytes 8 (bits 64)))
  | 2 => if 0 ≤ v ∧ v < (2 : Int) ^ 32 then .ok (patch bs o (leBytes 4 (bits 32))) else .error "a relocation that does not fit"
  | 3 => if signed 42 then .ok (patchField bs o 0 42 (bits 42)) else .error "a relocation that does not fit"
  | 4 => if signed 32 then .ok (patchField bs o 4 32 (bits 32)) else .error "a relocation that does not fit"
  | _ => .error "a relocation of an unknown type"

/-- A four-byte signed number. -/
def signed32 (n : Nat) : Int := if 2 ^ 31 ≤ n then (n : Int) - (2 : Int) ^ 32 else n

/-- The sections with every relocation of the RELOC sections applied; `vas` are the data sections' addresses. -/
def relocateAll (rs : List Read) (vas : List Nat) : Res (List Read) :=
  let syms := (rs.filter (fun r => r.kind = 8)).flatMap (·.bytes)
  let rels := (rs.filter (fun r => r.kind = 9)).flatMap (·.bytes)
  (List.range (rels.length / 24)).foldlM (fun (rs : List Read) i => do
    let o := 24 * i
    let y := 24 * num rels (o + 16) 4
    let va := vas.getD (num syms (y + 16) 4) 0 + num syms (y + 8) 8
    let k := num rels o 4
    match rs[k]? with
    | some r => do
      let bs ← relocate (num rels (o + 4) 4) (num rels (o + 8) 8) (va + signed32 (num rels (o + 20) 4)) r.bytes
      return rs.set k { r with bytes := bs }
    | none => .error "a relocation of no section") rs

/-- FMT, GEOM and DCLASS of an ATTR. -/
def attrFmt (a : Nat) : Nat := a / 2 ^ 4 % 2 ^ 5
def attrGeom (a : Nat) : Nat := a / 2 ^ 9 % 2 ^ 3
def attrClass (a : Nat) : Nat := a / 2 ^ 12 % 2 ^ 4

/-- The bytes that a page's side plane starts with (R368): stamp words of the context's step, then MX scales of 2^0. -/
def planeStart (attr : Nat) (gstep : W32) : List Byte :=
  let fmt := attrFmt attr
  let geom := attrGeom attr
  let halves := if fmt = 16 then 2 else if fmt = 17 then 1 else (Ty.ofCode (fmt - 1)).halfBytes
  let elems := 2 * pageSize / halves
  let stamps := if 2 ≤ geom ∧ geom ≤ 5 then elems / 2 ^ (geom + 1) else 0
  let scales := if fmt = 16 ∨ fmt = 17 then elems / 32 else 0
  (List.replicate stamps (leBytes 4 (gstep.toNat % 2 ^ 16 + attrClass attr * 2 ^ 16))).flatten ++ List.replicate scales 127

/-- A data page: its address, its section's ATTR, its bytes and its side plane's. -/
structure PageImage where
  va    : Nat
  attr  : Nat
  bytes : List Byte
  plane : List Byte
  deriving DecidableEq, Repr

/-- A leaf with V, RES and MSC set, HOME 0, and R, W, U, FMT and GEOM of the attribute `a`, whose frame and side plane lie at `pfn`
and `plane` (R129, R373). -/
def leafBytes (a pfn plane : Nat) : List Byte :=
  leBytes 8 (1 + 2 + 2 ^ 2 + a % 8 * 2 ^ 5 + attrFmt a * 2 ^ 8 + attrGeom a * 2 ^ 13 + 2 ^ 23 + plane / 2 ^ 12 * 2 ^ 24)
    ++ leBytes 8 (pfn / 2 ^ 16 * 2 ^ 16)

/-- The 64 KiB pages that spans (start, length) touch. -/
def pagesTouched (spans : List (Nat × Nat)) : List Nat :=
  (spans.flatMap (fun p => if p.2 = 0 then []
    else (List.range ((p.1 + p.2 - 1) / pageSize - p.1 / pageSize + 1)).map (fun i => (p.1 / pageSize + i) * pageSize))).eraseDups

/-- The pages of a data section at `va` whose side plane, if written, holds `plane` from byte `off`. -/
def pagesOfSection (r : Read) (va : Nat) (gstep : W32) (off : Nat) (plane : List Byte) : Res (List PageImage) :=
  let n := pagesOf r.bytes.length
  let one := planeStart r.attr gstep
  let run := (List.replicate n one).flatten
  if plane ≠ [] ∧ run.length < off + plane.length then .error "a plane item past the end of the side planes"
  else
    let run := if plane = [] then run else patch run off plane
    .ok ((List.range n).map (fun i => ⟨va + i * pageSize, r.attr, pad pageSize ((r.bytes.drop (i * pageSize)).take pageSize),
      (run.drop (i * one.length)).take one.length⟩))

def dataPages (gstep : W32) : List (Read × Nat) → Res (List PageImage)
  | [] => .ok []
  | (r, va) :: rest =>
    if r.kind ≠ 3 then dataPages gstep rest
    else do
      let (off, plane) := match rest with
        | (p, _) :: _ => if p.kind = 10 then (p.addr, p.bytes) else (0, [])
        | [] => (0, [])
      return (← pagesOfSection r va gstep off plane) ++ (← dataPages gstep rest)

/-- A stage's comb image as one block, gaps 0. -/
def imageOf (ps : List Read) : List Byte :=
  let n := imageLen (ps.map (fun p => (p.addr, p.bytes.length)))
  ps.foldl (fun b p => patch b p.addr p.bytes) (List.replicate n 0)

/-- What a load puts in the context: data pages, streams, comb images, descriptors, the stage queues' spans, the leaf of every page,
by its VA, the launch entries by queue, in table order, and the host's writes that append them. -/
structure Loaded where
  pages    : List PageImage
  streams  : List (Nat × List Byte)
  images   : List (Nat × List Byte)
  descs    : List (Nat × List Byte)
  queues   : List (Nat × Nat)
  leaves   : List (Nat × List Byte)
  launches : List (Nat × List Byte)
  appends  : List LoadWrite
  deriving DecidableEq, Repr

def streamOf (rs : List Read) (kern stage cls : Nat) : List Byte :=
  ((rs.find? (fun r => r.kind == 1 && r.kern == kern && r.stage == stage && r.attr % 4 == cls)).map (·.bytes)).getD []

/-- A kernel's descriptor with its addresses, lengths, entries and IMGLEN filled (R373). -/
def fillDescriptor (pl : Plan) (rs : List Read) (kern : Nat) (d : List Byte) : List Byte :=
  (List.range (num d 0 8)).foldl (fun d s =>
    let b := 192 + 128 * s
    let img := imageOf (piecesOfStage rs kern s)
    let d := (List.range 4).foldl (fun d q =>
      patch (patch d (b + 8 * q) (leBytes 8 (pl.stream kern s q))) (b + 32 + 4 * q) (leBytes 4 ((streamOf rs kern s q).length / 10))) d
    let d := patch (patch d (b + 64) (leBytes 8 (if img.isEmpty then 0 else pl.image kern s))) (b + 72) (leBytes 4 img.length)
    patch d (64 + 16 * s) (leBytes 8 (pl.queue kern s))) d

/-- What one kernel puts: its streams, images, descriptor and queues. -/
def loadKernel (pl : Plan) (rs : List Read) (r : Read) : Loaded :=
  let d := r.bytes.drop 8
  let k := r.kern
  let ss := List.range (num d 0 8)
  { pages := [], leaves := [], launches := [], appends := []
    streams := ss.flatMap (fun s => (List.range 4).map (fun q => (pl.stream k s q, streamOf rs k s q)))
    images := (ss.map (fun s => (pl.image k s, imageOf (piecesOfStage rs k s)))).filter (fun p => !p.2.isEmpty)
    descs := [(pl.desc k, fillDescriptor pl rs k d)]
    queues := ss.map (fun s => (pl.queue k s, 64 * 2 ^ num d (72 + 16 * s) 4)) }

def Loaded.append (a b : Loaded) : Loaded :=
  { pages := a.pages ++ b.pages, streams := a.streams ++ b.streams, images := a.images ++ b.images, descs := a.descs ++ b.descs
    queues := a.queues ++ b.queues, leaves := a.leaves ++ b.leaves, launches := a.launches ++ b.launches
    appends := a.appends ++ b.appends }

/-- The spans that the device only reads: streams, comb images and descriptors. -/
def Loaded.readOnly (l : Loaded) : List (Nat × Nat) := (l.streams ++ l.images ++ l.descs).map (fun p => (p.1, p.2.length))

/-- What is not data lies below the data, apart, each aligned as R305, R306 and R373 ask; no page of a queue, which is written, holds
what is read-only. -/
def Loaded.fits (l : Loaded) : Bool :=
  let spans := l.readOnly ++ l.queues
  allApart spans && spans.all (fun p => decide (p.1 + p.2 ≤ dataBase)) && l.streams.all (fun p => p.1 % 16 == 0)
    && l.descs.all (fun p => p.1 % 64 == 0) && l.queues.all (fun p => p.1 % 64 == 0)
    && (pagesTouched l.queues).all (fun p => !((pagesTouched l.readOnly).contains p))

/-- The leaves of what is loaded: data pages as their sections' ATTR has them, read-only RAW pages, and the queues' pages with R and W
(R305, R373). DEDUCED (log 59): comb images and descriptors lie on pages like the streams', and these leaves too have MSC set. -/
def Loaded.leavesOf (pl : Plan) (l : Loaded) : List (Nat × List Byte) :=
  l.pages.map (fun p => (p.va, leafBytes p.attr (pl.frame p.va) (pl.plane p.va)))
    ++ (pagesTouched l.readOnly).map (fun va => (va, leafBytes 1 (pl.frame va) 0))
    ++ (pagesTouched l.queues).map (fun va => (va, leafBytes 3 (pl.frame va) 0))

/-- The writes that append an entry to launch queue `lq` of context `ctx`, whose tail word is `tail` (R351): the entry at its ring index,
the new tail word after the completion word, and LQBELL. -/
def LaunchRing.append (q : LaunchRing) (ctx : Fin 64) (lq : Nat) (entry : List Byte) : List LoadWrite :=
  [.window (q.ring + 128 * (q.tail.toNat % 2 ^ q.log2n)) entry, .window (q.done + 4) (leBytes 4 (q.tail + 1).toNat),
    .reg 0x0100 (BitVec.ofNat 64 (ctx.val + lq * 2 ^ 8))]

/-- The writes that append these entries, each to its queue, in this order. -/
def appendAll (ctx : Fin 64) (ring : Nat → LaunchRing) : List (Nat × List Byte) → List LoadWrite
  | [] => []
  | (q, e) :: es =>
    (ring q).append ctx q e ++ appendAll ctx (fun p => if p = q then { ring q with tail := (ring q).tail + 1 } else ring p) es

/-- The entries of a LAUNCH section with KDESC set, each for its queue. -/
def launchEntries (pl : Plan) (r : Read) : List (Nat × List Byte) :=
  (List.range (r.bytes.length / 128)).map (fun i =>
    (r.attr % 16, patch ((r.bytes.drop (128 * i)).take 128) 0 (leBytes 8 (pl.desc r.kern))))

/-- A load: all that the file places, or nothing (R373). `gstep` is the context's step. -/
def load (pl : Plan) (gstep : W32) (file : List Byte) : Res Loaded := do
  let rs ← readFile file
  let vas := placeData dataBase rs
  let rs ← relocateAll rs vas
  let pages ← dataPages gstep (rs.zip vas)
  let ks := ((rs.filter (fun r => r.kind = 6)).map (loadKernel pl rs)).foldl Loaded.append ⟨pages, [], [], [], [], [], [], []⟩
  let ls := (rs.filter (fun r => r.kind = 7)).flatMap (launchEntries pl)
  if ks.fits then return { ks with leaves := ks.leavesOf pl, launches := ls, appends := appendAll pl.ctx pl.ring ls }
  else .error "addresses that the loader may not choose"

end Sys2Proof.Volas
end

