-- ==== Sys2Proof/Tests/Slice0.lean ====
section
/-! SUPPORT. Tests: ill-formed words that the checks refuse, words of the spec's encodings decoded, single steps with values worked out
from the spec by hand, and for each statement a state and operands that meet its hypotheses. -/

set_option Elab.async false
namespace Sys2Proof.Tests
open Sys2Proof Sys2Proof.Machine

/-! ### Small states -/

/-- Core 0 runs a task of context 0, and it is the issue slot of its sequencer `q`. -/
def slot (q : Seq) : State := { State.reset.withFetchWord 80 0 with turn := .issue 0 q }

/-- The state with core 0 changed. -/
def chg (s : State) (f : Core → Core) : State := s.setCore (f (s.core 0))

/-- The state at the start of a cycle. -/
def starting (s : State) : State := { s with before := ⟨s.cores, s.ctxs, s.hives⟩ }

/-- A record of a word of X, with nothing of its own. -/
def rec0 : Act :=
  { id := 0, seq := .x, pc := 0, opc := 0, handler := false, tag := none, push := none, popped := false, resumed := false, holds := none
    issued := 0, due := none, fixed := false, writes := [], body := .plain }

/-- The slot state with one word issued and not complete. -/
def busy (a : Act) : State := chg (slot .x) (fun c => { c with acts := [a], nextAct := 1 })

/-- The state with register `r` of sequencer `q` of core 0 at `v`. -/
def setG (s : State) (q : Seq) (r : GReg) (v : W64) : State :=
  chg s (fun c => c.setSeq q { c.seq q with g := (c.seq q).g.set r.val v })

/-- A header of class `q` with tag 0. -/
def tagged (q : Seq) : Hdr := { plainHdr q with sba := some 0 }

/-- The tile MOD with type `t`, one register, and `m` its SUB. -/
def tm (t : Ty) (sub : Fin 16 := 0) : TMod := ⟨t, .rne, 0, .none, false, false, none, sub⟩

/-- What decoding answers, as a pair of options. -/
def word? (q : Seq) (w : Nat) : Option Instr := match decode q w with | .ok i => some i | .error _ => none
def reason? (q : Seq) (w : Nat) : Option Illegal := match decode q w with | .ok _ => none | .error r => some r

def mm (t : Ty) (sem : Sem := .plain) : MMod := ⟨t, 0, 0, sem⟩
def am (t : Ty) : AMod := ⟨t, 0, false, false, false, false⟩

/-! ### Ill-formed words are refused -/

theorem test_illformed_headers :
    wellFormed (.nop { plainHdr .x with pop := some .x }) = false ∧ wellFormed (.nop { plainHdr .l with push := some .l }) = false
    ∧ wellFormed (.exit (plainHdr .l)) = false ∧ wellFormed (.mld (tagged .x) 0 0 0 .none 0 none false (mm .i8)) = false
    ∧ wellFormed (.stswap (plainHdr .s)) = false ∧ wellFormed (.ufence (plainHdr .c)) = false
    ∧ wellFormed (.trans (plainHdr .c) 0 0 0) = false ∧ wellFormed (.cst (plainHdr .c) 0 0 0 (mm .i8)) = false := by decide

theorem test_illformed_scalar_limits :
    wellFormed (.bfx (plainHdr .x) 0 0 0 0 false) = false ∧ wellFormed (.bfx (plainHdr .x) 0 0 1 64 true) = false
    ∧ wellFormed (.bfi (plainHdr .x) 0 0 0 63 2) = false ∧ wellFormed (.tsig (plainHdr .x) .x 0 0) = false
    ∧ wellFormed (.twait (plainHdr .c) .c 0 0) = false ∧ wellFormed (.tqrd (plainHdr .x) 0 .l .l) = false
    ∧ wellFormed (.qfence (plainHdr .x) false false) = false ∧ wellFormed (.rwaitf (tagged .x) 0 0 4097) = false
    ∧ wellFormed (.rcommit (plainHdr .x) 0 4097) = false := by decide

theorem test_illformed_tags :
    wellFormed (.hstat (plainHdr .x) 1 0) = false ∧ wellFormed (.hinv (plainHdr .x) 0) = false
    ∧ wellFormed (.rclaim (plainHdr .x) 1 0 1) = false ∧ wellFormed (.syncwait (plainHdr .x) 1 0 0 0 false) = false
    ∧ wellFormed (.cld (plainHdr .x) 1 0 0 (mm .i8)) = false ∧ wellFormed (.lds (plainHdr .x) 0 0 0 1 true (mm .i8)) = false
    ∧ wellFormed (.tld (plainHdr .l) 0 (.comb 0) 0 0 none (mm .i8)) = false ∧ wellFormed (.amo (plainHdr .x) 1 0 0 0 .add (mm .i32)) = false
    ∧ wellFormed (.accrd (plainHdr .c) 0 0 (tm .f32)) = false ∧ wellFormed (.wlpop (plainHdr .l) 0 0 0 0 0) = false
    ∧ wellFormed (.disp (plainHdr .s) 0 0 0 0 0 .none .i8) = false ∧ wellFormed (.qtake (plainHdr .x) 0) = false := by decide

theorem test_illformed_memory :
    wellFormed (.cld (tagged .x) 1 0 0 (mm .e2m1)) = false ∧ wellFormed (.cld (tagged .x) 1 0 0 (mm .i8 .rel)) = false
    ∧ wellFormed (.cst (plainHdr .x) 1 0 0 (mm .i8 .acq)) = false ∧ wellFormed (.cld (tagged .x) 1 0 0 { mm .i8 with scope := 1 }) = false
    ∧ wellFormed (.lds (tagged .x) 1 0 0 2 false (mm .i8)) = false ∧ wellFormed (.sts (plainHdr .x) 1 0 0 (mm .i8 .ar)) = false
    ∧ wellFormed (.tld (tagged .l) 15 (.comb 0) 0 1 none (mm .i8)) = false
    ∧ wellFormed (.tld (tagged .l) 0 (.comb 0) 0 0 (some 1) (mm .i8)) = false
    ∧ wellFormed (.tld (tagged .l) 0 (.comb 0) 0 0 none (mm .i8 .acq)) = false
    ∧ wellFormed (.mgath (tagged .l) 0 0 15 .none 1 none false (mm .i8)) = false
    ∧ wellFormed (.mscat (plainHdr .s) 0 0 0 .none 0 (mm .i8 .rel)) = false
    ∧ wellFormed (.cas (tagged .x) 1 0 0 0 (mm .i16)) = false ∧ wellFormed (.upd (plainHdr .s) 0 0 (.tile 15) 0 1 .none .f32 0) = false := by decide

theorem test_illformed_array :
    wellFormed (.stload (plainHdr .l) 0 0 (am .f32)) = false ∧ wellFormed (.stload (plainHdr .l) 0 0 { am .i8 with mode := 1 }) = false
    ∧ wellFormed (.mma (plainHdr .c) 0 0 0 { am .i8 with sweep := true }) = false
    ∧ wellFormed (.mma (plainHdr .c) 0 0 0 { am .i8 with mx := true }) = false
    ∧ wellFormed (.mmas (plainHdr .c) 0 0 0 0 (am .e2m1)) = false ∧ wellFormed (.accrd (tagged .c) 0 0 (tm .f32 1)) = false
    ∧ wellFormed (.accwr (plainHdr .c) 0 0 (tm .i64 9)) = false ∧ wellFormed (.accstat (tagged .c) 1 1 3) = false
    ∧ wellFormed (.drain (plainHdr .s) 0 0 0 .f32 .rne false none false .mxb) = false
    ∧ wellFormed (.drain (plainHdr .s) 0 0 0 .e2m1 .rne false none false .lin) = false := by decide

theorem test_illformed_tiles :
    wellFormed (.fadd (plainHdr .c) 0 0 (.tile 0) (tm .i32)) = false ∧ wellFormed (.fdiv (plainHdr .c) 0 0 (.tile 0) (tm .e4m3)) = false
    ∧ wellFormed (.iadd (plainHdr .c) 0 0 (.tile 0) (tm .f32)) = false ∧ wellFormed (.iand (plainHdr .c) 0 0 (.tile 0) { tm .i8 with sat := true }) = false
    ∧ wellFormed (.fadd (plainHdr .c) 0 0 (.tile 0) { tm .f32 with z := true }) = false
    ∧ wellFormed (.fcmp (plainHdr .c) 0 0 (.tile 0) { tm .f32 with gl := 1 }) = false
    ∧ wellFormed (.icmp (plainHdr .c) 0 0 (.tile 0) (tm .i32 6)) = false ∧ wellFormed (.fadd (plainHdr .c) 0 0 (.tile 0) (tm .f32 1)) = false
    ∧ wellFormed (.cvt (plainHdr .c) 0 0 .i8 (tm .f32 1)) = false ∧ wellFormed (.cvtmx (plainHdr .c) 1 0 1 .f32 (tm .e4m3 7)) = false
    ∧ wellFormed (.dqmx (plainHdr .c) 1 0 2 .f32 (tm .f32 7)) = false ∧ wellFormed (.cvtfx (plainHdr .c) 0 0 0 .f32 (tm .f32 7)) = false
    ∧ wellFormed (.tbcast (plainHdr .c) 0 1 0 (tm .i8)) = false ∧ wellFormed (.ttrn (plainHdr .c) 0 0 { tm .i8 with pm := .mask 0 }) = false
    ∧ wellFormed (.cmpx (plainHdr .c) 0 0 0 1 (tm .i8)) = false ∧ wellFormed (.rsum (plainHdr .c) 15 0 { tm .i8 with gl := 1 }) = false
    ∧ wellFormed (.fadd (plainHdr .c) 0 0 (.tile 0) { tm .f32 with amx := some 0 }) = false
    ∧ wellFormed (.iadd (plainHdr .c) 0 0 (.tile 0) { tm .i32 with rm := .rtz }) = false := by decide

theorem test_illformed_objects :
    wellFormed (.barset (plainHdr .x) 0 1 true) = false ∧ wellFormed (.barwait (plainHdr .x) 1 0 0) = false
    ∧ wellFormed (.wlpush (plainHdr .s) 0 15 1 .none) = false ∧ wellFormed (.wlsteal (tagged .l) 0 0 0 15 1) = false
    ∧ wellFormed (.disp (tagged .s) 0 0 0 0 0 .none .e2m1) = false ∧ wellFormed (.dispclr (plainHdr .x) 0 1 false) = false
    ∧ wellFormed (.qtake (tagged .x) 8) = false := by decide

/-! ### Lines and files of volas (the words and bytes that R61, R79, R110, R363 and the chapter on the assembler print) -/

/-- The word of a line of class `q` at word `i`; every label is word 3, every other name the data label itself. -/
def volas? (q : Seq) (i : Nat) (s : String) : Option Nat :=
  (Volas.assemble (fun n => .ok ⟨some n, 0⟩) (fun _ => some 3) q i s.toList).toOption.map (·.word)

theorem test_volas_printed_lines :
    volas? .x 11 "loop g3, next" = some 0x0000_0031_0C00_FFFF_FFF8
    ∧ volas? .c 0 "fma.f32 t2, t0, g5, t1 | pop=l push=s sbw=0b0000_0001" = some 0x4000_6F63_0801_4170_8100
    ∧ volas? .c 0 "iand.i64.p0.z t1, t0, g2 | pop=l" = some 0x4000_287C_0400_8060_A700
    ∧ volas? .l 0 "tld.i64 t0, h0, g0 | sba=0 push=c" = some 0x2200_0660_0000_0060_0102
    ∧ volas? .x 0 "ldi g2, events" = some 0x0000_0020_0800_0000_0000
    ∧ volas? .x 0 "barwait g7, b5, g6 | sba=1" = some 0x0240_0067_1C51_8000_0000 := by decide +kernel

/-- Lines that the assembler rejects: a class without the mnemonic, a modifier of no field, groups of two lengths, a value too wide,
a word that is illegal at decode. -/
theorem test_volas_rejects :
    volas? .l 0 "fadd.f32 t0, t1, t2" = none ∧ volas? .c 0 "iadd.i8.rne t0, t1, t2" = none
    ∧ volas? .c 0 "fadd.f32 t0:2, t1:3, t2:2" = none ∧ volas? .x 0 "addi g1, g1, 0x1_0000_0000" = none
    ∧ volas? .x 0 "bfx g1, g2, 60, 8" = none ∧ volas? .c 0 "cvt.f32 t0, t1" = none := by decide +kernel

/-- The small object of the chapter: seven sections of the printed kinds before the relocations, the printed ATTR and sizes, `l` as printed,
and word 0 after the load of `val` at 0x100_0000_0000. -/
theorem test_volas_small_object :
    ((Volas.assembleFile (Volas.linesOf
        ".data rw\nval:\n .d64 7\n.stream x\n ldi g2, val\n ldi g4, 8 ; word 1\n trans h0, g2, g4 | pd=7\n pause g0, 15\n lds.i64 g3, h0, g0 | sba=0\n exit | sbw=0b0000_0001"
        )).toOption.map (fun o =>
          (o.allSections.map (fun s => (s.kind, s.attr, s.bytes.length)),
           o.allSections[2]?.map (·.bytes),
           ((Volas.relocateAll (o.allSections.map (fun s => ⟨s.kind, s.kern, s.stage, s.attr, s.addr, s.bytes⟩))
              [Volas.dataBase]).toOption.bind (fun rs => rs[1]?)).map (fun r => leNat (r.bytes.take 10)))))
      = some ([(3, 3, 8), (1, 0, 60), (1, 1, 10), (1, 2, 10), (1, 3, 10), (6, 0, 1224), (8, 0, 24), (9, 0, 24)],
          some [0, 0, 0, 0, 0, 0, 1, 0, 0, 0x20], some 0x0000_0020_0900_0000_0000) := by decide +kernel

/-! ### Words decode (each built from the spec's encoding; the bits of the header and body are R39 to R45's) -/

theorem test_decode_spec_words : ∀ x ∈ specWords, word? x.1 x.2.1 = some x.2.2 := by decide +kernel

/-- Memory words of L and S: `mgath` 0x63 with PM in C, GL at 3:1, Z at 0; `sts` of X is 0x62 with HSEL 1 (R140, R141). -/
theorem test_decode_memory_words :
    word? .l (1 * 2 ^ 77 + 2 ^ 73 + 0x63 * 2 ^ 48 + 1 * 2 ^ 42 + 2 * 2 ^ 36 + 3 * 2 ^ 30 + 16 * 2 ^ 24 + 7 * 2 ^ 20 + 2 ^ 8 + 2 ^ 7
        + 5 * 2 ^ 4 + 2 * 2 + 1)
      = some (.mgath (tagged .l) 1 2 3 (.pred 7) 1 (some 5) true (mm .f32))
    ∧ word? .x (0x62 * 2 ^ 48 + 1 * 2 ^ 42 + 2 * 2 ^ 36 + 3 * 2 ^ 30 + 6 * 2 ^ 20 + 2 * 2 ^ 9 + 2 ^ 8)
      = some (.sts (plainHdr .x) 1 2 3 (mm .i64 .rel))
    ∧ word? .x (2 ^ 73 + 0x63 * 2 ^ 48 + 1 * 2 ^ 42 + 2 * 2 ^ 36 + 3 * 2 ^ 30 + 4 * 2 ^ 24 + 4 * 2 ^ 20 + 8)
      = some (.amo (tagged .x) 1 2 3 4 .swap (mm .i32)) := by decide +kernel

/-- Array and group words of L, C and S (R242, R259, R275). -/
theorem test_decode_array_words :
    word? .l (1 * 2 ^ 77 + 0x65 * 2 ^ 48 + 1 * 2 ^ 36 + 2 * 2 ^ 30 + 10 * 2 ^ 20 + 2 ^ 12)
      = some (.stload (plainHdr .l) 1 2 { am .e4m3 with mx := true })
    ∧ word? .s (3 * 2 ^ 77 + 0x66 * 2 ^ 48 + 1 * 2 ^ 36 + 2 * 2 ^ 30 + 3 * 2 ^ 24 + 8 * 2 ^ 20 + 3 * 2 ^ 18 + 2 ^ 7 + 2 * 2 ^ 5 + 2 ^ 4
        + 2 ^ 2 + 1) = some (.drain (plainHdr .s) 1 2 3 .bf16 .rup true (some 2) true .trn)
    ∧ word? .c (2 * 2 ^ 77 + 0xC4 * 2 ^ 48 + 2 + 4) = some (.grpbind (plainHdr .c) .rel 1) := by decide +kernel

/-- Barrier, list, dispatch and kernel words (R285, R297, R302, R317). -/
theorem test_decode_object_words :
    word? .s (3 * 2 ^ 77 + 0x68 * 2 ^ 48 + 15 * 2 ^ 42 + 3 * 2 ^ 30 + 6 * 2 ^ 20 + 1 * 2 ^ 15 + 1 * 2 ^ 10)
      = some (.wlpush (plainHdr .s) 15 3 0 (.mask 0))
    ∧ word? .x (0x65 * 2 ^ 48 + 63 * 2 ^ 36 + 1) = some (.barset (plainHdr .x) 63 0 true)
    ∧ word? .x (2 ^ 73 + 0x72 * 2 ^ 48 + 9 * 2 ^ 42) = some (.qtake (tagged .x) 9)
    ∧ word? .x (0x71 * 2 ^ 48 + 4 * 2 ^ 36 + 15) = some (.kspawn (plainHdr .x) 4 15) := by decide +kernel

/-- The decode reasons of R57, the lowest one first. -/
theorem test_decode_reasons :
    reason? .x (4 * 2 ^ 77) = some .engReserved ∧ reason? .l 0 = some .engMismatch
    ∧ reason? .x (2 ^ 61) = some .ownQueue ∧ reason? .x (0x02 * 2 ^ 48) = some .unassigned
    ∧ reason? .x (1 * 2 ^ 70) = some .reservedNonzero ∧ reason? .x 1 = some .reservedNonzero
    ∧ reason? .x (0x04 * 2 ^ 48 + 32 * 2 ^ 42) = some .indexRange
    ∧ reason? .x (0x04 * 2 ^ 48 + 32 * 2 ^ 42 + 1) = some .reservedNonzero
    ∧ reason? .c (2 * 2 ^ 77 + 0x60 * 2 ^ 48 + 15 * 2 ^ 20 + 2 ^ 15) = some .ty15
    ∧ reason? .c (2 * 2 ^ 77 + 0x60 * 2 ^ 48 + 7 * 2 ^ 20) = some .glBad
    ∧ reason? .c (2 * 2 ^ 77 + 0x60 * 2 ^ 48 + 7 * 2 ^ 20 + 2 ^ 15 + 17 * 2 ^ 10) = some .pmBad
    ∧ reason? .x (0x51 * 2 ^ 48 + 1 * 2 ^ 9) = some .semBad ∧ reason? .x (0x42 * 2 ^ 48) = some .noTag
    ∧ reason? .x (0x3D * 2 ^ 48) = some .operandLimit
    ∧ reason? .c (2 * 2 ^ 77 + 0x40 * 2 ^ 48) = some .unassigned := by decide +kernel

theorem test_decodeTableWord_reads_low_bits : decodeTableWord 80 (0x18 * 2 ^ 48 + 3 * 2 ^ 42) = some (.addi (plainHdr .x) 3 0 0) := by
  decide +kernel

/-! ### The statements' hypotheses are met: words -/

/-- A decoded word, from what `decode` answers as an option. -/
theorem ok_of_word {e : Except Illegal Instr} {i : Instr} (h : (match e with | .ok j => some j | .error _ => none) = some i) : e = .ok i := by
  cases e with
  | ok j => simpa using h
  | error r => simp at h

theorem error_of_reason {e : Except Illegal Instr} {r : Illegal}
    (h : (match e with | .ok _ => none | .error q => some q) = some r) : e = .error r := by
  cases e with
  | ok j => simp at h
  | error q => simpa using h

theorem witness_CommonWordsRoundTrip :
    (∃ w, encodeNat (.nop (plainHdr .x)) = some w ∧ wellFormed (.nop (plainHdr .x)) = true ∧ fld w 48 8 = 0)
    ∧ ∃ w, encodeNat (.cst (plainHdr .s) 31 31 31 (mm .i64 .rel)) = some w
      ∧ wellFormed (.cst (plainHdr .s) 31 31 31 (mm .i64 .rel)) = true ∧ fld w 48 8 = 0x51 := by
  exact ⟨⟨_, rfl, by decide, by decide +kernel⟩, _, rfl, by decide, by decide +kernel⟩

theorem witness_ClassWordsRoundTrip :
    (∃ w, encodeNat (.exit (plainHdr .x)) = some w ∧ wellFormed (.exit (plainHdr .x)) = true ∧ fld w 48 8 = 0x60)
    ∧ ∃ w, encodeNat (.accstat (tagged .c) 31 0 3) = some w ∧ wellFormed (.accstat (tagged .c) 31 0 3) = true ∧ fld w 48 8 = 0xCA := by
  exact ⟨⟨_, rfl, by decide, by decide +kernel⟩, _, rfl, by decide, by decide +kernel⟩

/-- The state after the page tables have been read for the next word of X of core 0. -/
def tablesRead (s : State) : State :=
  let va := (s.core 0).wordVA .x ((s.core 0).nextPc .x)
  s.readTables (s.core 0).ctxId [va, va + 9]

/-- A placed `addi g3, g0, 1`, a placed word with a reserved bit set, and a PC at the stream's end. -/
theorem witness_StepRunsDecodedWord :
    (let s := State.reset.withFetchWord 80 (0x18 * 2 ^ 48 + 3 * 2 ^ 42 + 16);
      s.turn = .issue 0 .x ∧ (s.core 0).issuing .x = true ∧ ((s.core 0).seq .x).earliest ≤ s.cycle (s.core 0) ∧ (s.core 0).heldBy .x = none
      ∧ (s.core 0).nextPc .x < ((s.core 0).seq .x).streamLen ∧ (tablesRead s).wordKeys (s.core 0) .x = some [(0x10_0000, 10)]
      ∧ decodeBytes .x ((tablesRead s).readPieces [(0x10_0000, 10)]).1 = .ok (.addi (plainHdr .x) 3 0 1))
    ∧ (let s := State.reset.withFetchWord 80 1;
      s.turn = .issue 0 .x ∧ (tablesRead s).wordKeys (s.core 0) .x = some [(0x10_0000, 10)]
      ∧ decodeBytes .x ((tablesRead s).readPieces [(0x10_0000, 10)]).1 = .error .reservedNonzero)
    ∧ (let s := chg (slot .x) (fun c => c.setSeq .x { c.seq .x with pc := 0x1000 });
      (s.core 0).issuing .x = true ∧ (s.core 0).heldBy .x = none ∧ ((s.core 0).seq .x).streamLen ≤ (s.core 0).nextPc .x) := by
  refine ⟨⟨?_, ?_, ?_, ?_, ?_, ?_, ok_of_word ?_⟩, ⟨?_, ?_, error_of_reason ?_⟩, ?_, ?_, ?_⟩ <;> decide +kernel

theorem witness_IssueFrame : (plainHdr .x).ok = true ∧ (∀ c, ({} : Eff).after c = c)
    ∧ (slot .x).me.raised = [] := ⟨by decide, fun _ => rfl, by decide +kernel⟩

theorem witness_MemoryReadsWhatIsWritten :
    (let m := ({} : Memory).writeBytes 5 [1, 0, 2];
      m.wf = true ∧ m.read 4 = 0 ∧ m.read 5 = 1 ∧ m.read 6 = 0 ∧ m.read 7 = 2 ∧ m.read 8 = 0 ∧ m.cells = [(5, 1), (7, 2)]) := by
  decide +kernel

theorem witness_StepKeepsMemoryForm : State.reset.memOk = true ∧ ∃ t, step (slot .x) = .next t := by
  have h : goesOn (step (slot .x)) = true := by decide +kernel
  refine ⟨by decide +kernel, ?_⟩
  revert h
  cases step (slot .x) with
  | next t => exact fun _ => ⟨t, rfl⟩
  | fault r => intro h; simp [goesOn] at h
  | refused r => intro h; simp [goesOn] at h

/-- Every opcode of the register, immediate and branch words is ready at core 0's slot; the field words at their limits. -/
theorem witness_scalar_words :
    (∀ opc ∈ [0x04, 0x05, 0x06, 0x07, 0x08, 0x09, 0x0A, 0x0B, 0x0C, 0x0D, 0x0E, 0x0F, 0x10, 0x11, 0x12, 0x13, 0x14, 0x15, 0x16, 0x17, 0x18,
        0x19, 0x1A, 0x1B, 0x1C, 0x1D, 0x1E, 0x1F, 0x20, 0x21, 0x22, 0x23, 0x24, 0x25, 0x28, 0x29, 0x2A, 0x2B, 0x2C, 0x2D, 0x2E, 0x2F, 0x30,
        0x31], (slot .x).ready (plainHdr .x) opc = true)
    ∧ 1 ≤ 1 ∧ (63 : Fin 64).val + 1 ≤ 64 ∧ (0 : Fin 64).val + 64 ≤ 64 := by decide +kernel

theorem witness_ScalarRegisterWordsIssue : (slot .x).ready (plainHdr .x) 0x04 = true ∧ (slot .c).ready (plainHdr .c) 0x23 = true := by
  decide +kernel
theorem witness_ScalarImmediateWordsIssue : (slot .l).ready (plainHdr .l) 0x18 = true ∧ (slot .s).ready (plainHdr .s) 0x25 = true := by
  decide +kernel
theorem witness_BranchWordsIssueOrTrap : (slot .l).ready (plainHdr .l) 0x28 = true ∧ (slot .s).ready (plainHdr .s) 0x31 = true := by
  decide +kernel

/-- Core 0 in its handler, at X's slot. -/
def inHandler : State := chg (slot .x) (fun c =>
  let c := [Seq.l, .c, .s].foldl (fun c q => c.setSeq q { c.seq q with status := .stopped }) c
  { c.setSeq .x { c.seq .x with status := .handler } with inHandler := true })

theorem witness_ControlWordsIssue :
    (∀ opc ∈ [0x00, 0x01, 0x3A, 0x3B, 0x3C, 0x3D, 0x60, 0x79], (slot .x).ready (plainHdr .x) opc = true)
    ∧ (slot .l).ready (plainHdr .l) 0x01 = true ∧ (plainHdr .l).eng ≠ .x ∧ (slot .x).me.inHandler = false
    ∧ (slot .x).ready { { plainHdr .x with push := some .l } with push := none } 0x60 = true
    ∧ ((slot .x).me.scopes[(5 : Fin 32)]).valid = true ∧ ((slot .x).me.scopes[(6 : Fin 32)]).valid = false
    ∧ inHandler.ready (plainHdr .x) 0x79 = true ∧ inHandler.me.inHandler = true := by decide +kernel

/-- Core 0 in its handler, with a `resume` to land, traps `ts` pending and stop `k` waiting. -/
def resuming (ts : List Trap) (k : Option StopKind) : State := chg inHandler (fun c =>
  { c with acts := [{ rec0 with due := some 0, fixed := true, writes := [.leave], handler := true }], nextAct := 1, pending := ts, waitingStop := k })

/-- Nothing waits; a trap is pending, alone and with a stop other than the abort's; a stop waits, the abort's with a trap pending too. -/
theorem witness_resume_returns :
    (∀ x ∈ [(([] : List Trap), (none : Option StopKind)), ([⟨.l, .software, 5, 9⟩], none), ([⟨.l, .software, 5, 9⟩], some .suspend), ([], some .forced),
        ([⟨.l, .software, 5, 9⟩], some .killed)], let s := resuming x.1 x.2;
      lands s 0 0 true { rec0 with due := some 0, fixed := true, writes := [.leave], handler := true }
      ∧ ((s.core 0).seq .x).status = .handler ∧ ((s.core 0).seq .l).status = .stopped) := by
  intro x hx
  simp only [List.mem_cons, List.not_mem_nil, or_false] at hx
  rcases hx with rfl | rfl | rfl | rfl | rfl <;> exact ⟨⟨rfl, rfl, 0, rfl, by decide +kernel⟩, by decide +kernel, by decide +kernel⟩

/-- Queues that no rule admits; a count at each bound; a ceiling below the count; tokens there and not there. -/
theorem witness_TokenWordsIssueTrapOrWait :
    (∀ opc ∈ [0x34, 0x35, 0x36], (slot .x).ready (plainHdr .x) opc = true) ∧ inHandler.ready (plainHdr .x) 0x34 = true
    ∧ inHandler.me.usesHandler .x = true ∧ (slot .x).me.usesHandler .x = false
    ∧ tokenArg (slot .x) (plainHdr .x) 0 0 = 0 ∧ tokenArg (slot .x) (plainHdr .x) 0 15 = 15 ∧ tokenArg (slot .x) (plainHdr .x) 0 16 = 16
    ∧ tokenArg (slot .x) (plainHdr .x) 0 (-1) = -1 ∧ (slot .x).me.ceiling .l .x = 15 ∧ (slot .x).me.tokens .l .x = 0
    ∧ (let c := (slot .x).me.setTokens .l .x 15; c.tokens .l .x = 15)
    ∧ (let c := { (slot .x).me with tqceil := 0 }; c.ceiling .l .x = 0) := by decide +kernel

theorem witness_SysregWordsReadAndWrite :
    (slot .x).ready (plainHdr .x) 0x38 = true ∧ (slot .x).ready (plainHdr .x) 0x39 = true
    ∧ (let i := fun (s : State) (imm : W32) => (s.me.rd .x 0 + imm.signExtend 64).toNat;
      0xFFF < i (slot .x) 0x1000 ∧ i (slot .x) 0xFFF ≤ 0xFFF ∧ i (slot .x) 0 ≤ 0xFFF)
    ∧ (slot .x).me.sysDenied .x 0x300 = false ∧ (slot .x).me.sysDenied .x 0x301 = true ∧ inHandler.me.sysDenied .x 0x301 = false ∧ writeIsEvent 0x300 = true
    ∧ (∃ i, i ≤ 0xFFF ∧ (slot .x).me.sysDenied .x i = false ∧ writeIsEvent i = false)
    ∧ (∀ i ∈ [0x300, 0x301, 0x118, 0x11B, 0x590, 0x59F, 0x400, 0x400 + 8 * 31],
        isSysw (busy { rec0 with body := .sysw i 0x3F80_0000 }) 0 0 i 0x3F80_0000) := by
  refine ⟨?_, ?_, ?_, ?_, ?_, ?_, ?_, ⟨0x100, ?_⟩, fun i _ => ⟨{ rec0 with body := .sysw i 0x3F80_0000 }, rfl, rfl⟩⟩ <;> decide +kernel

/-! ### Landings, completions and traps -/

/-- A word of X that lands `g3` = 7 at the end of cycle 0. -/
def landing (fx hb : Bool) (d : GReg) : Act := { rec0 with due := some 0, fixed := fx, writes := [.g hb d 7] }

theorem witness_LandingsWriteTheirRegisters :
    lands (busy (landing true false 3)) 0 0 true (landing true false 3)
    ∧ lands (busy { landing false false 0 with tag := some 2 }) 0 0 false { landing false false 0 with tag := some 2 }
    ∧ lands (busy (landing true true 31)) 0 0 true (landing true true 31) ∧ (landing true false 3).push = none
    ∧ ((slot .x).core 0).tiles.wf = true ∧ [some 255, none].length * 2 ≤ 8192 ∧ (∀ v ∈ [some 255, none], ∀ x, v = some x → x < 2 ^ (4 * 2)) := by
  refine ⟨⟨rfl, rfl, 0, rfl, by decide +kernel⟩, ⟨rfl, rfl, 0, rfl, by decide +kernel⟩, ⟨rfl, rfl, 0, rfl, by decide +kernel⟩, rfl,
    by decide +kernel, by decide, ?_⟩
  simp

theorem witness_LandingFrame :
    ((busy (landing true false 3)).core 0).act? 0 = some (landing true false 3)
    ∧ (∀ w ∈ (landing true false 3).writes, ∀ i v, w ≠ .sysreg i v)
    ∧ goesOn (exec (.resultLanding 0 0) (busy (landing true false 3))) = true := by
  refine ⟨rfl, by simp [landing], by decide +kernel⟩

theorem witness_CompletionsPushAndEnd :
    (let c := (slot .x).core 0; let a := { rec0 with push := some Seq.l };
      a.push = some .l ∧ a.seq ≠ .l ∧ c.tokens .x .l < c.ceiling .x .l ∧ (c.setTokens .x .l 14).tokens .x .l < c.ceiling .x .l
      ∧ (c.setTokens .x .l 15).ceiling .x .l ≤ (c.setTokens .x .l 15).tokens .x .l ∧ c.raised = [])
    ∧ (let a := { rec0 with body := .pause 0 false }
       let s := chg (busy a) (fun c => c.setSeq .x { c.seq .x with status := .paused });
      (s.core 0).act? 0 = some a ∧ a.push = none ∧ 0 ≤ s.cycle (s.core 0) ∧ ((s.core 0).seq .x).status = .paused) := by
  decide +kernel

/-- Core 0 has stopped for a trap of L, with a handler at word 8 of X's stream. -/
def stopped : State := chg (slot .x) (fun c =>
  { c with stop := some .trap, raised := [⟨.l, .software, 5, 9⟩], trapVec := 8 })

/-- Every sequencer of core 0 has ended but L, which waits for a token, for 256 cycles. -/
def deadlocked : State := chg (slot .x) (fun c =>
  let c := [Seq.x, .c, .s].foldl (fun c q => c.setSeq q { c.seq q with status := .ended }) c
  { c.setSeq .l { c.seq .l with status := .waiting, why := .token } with deadlock := 256 })

theorem witness_TrapsAreTaken :
    (let c := stopped.core 0; c.stop = some .trap ∧ c.acts = [] ∧ c.raised = [⟨.l, .software, 5, 9⟩] ∧ c.handlerReady = true
      ∧ stopped.watchdogDue c = false)
    ∧ (let s := chg stopped (fun c => { c with raised := [⟨.s, .misaligned, 0, 0⟩, ⟨.l, .software, 5, 9⟩] }); let c := s.core 0;
      c.stop = some .trap ∧ c.acts = [] ∧ c.raised ≠ [] ∧ c.handlerReady = true ∧ s.watchdogDue c = false)
    ∧ [(⟨.s, .misaligned, 0, 0⟩ : Trap), ⟨.l, .software, 5, 9⟩] ≠ []
    ∧ (deadlocked.core 0).deadlocked = true ∧ 256 ≤ (deadlocked.core 0).deadlock ∧ (deadlocked.core 0).raised = [] := by decide +kernel

theorem witness_CeilingTrapNamesItsPush :
    let c : Core := (slot .x).me.setTokens .x .l 15
    c.raised = [] ∧ c.ceiling .x .l ≤ c.tokens .x .l ∧ (0 : Nat) < 3 ∧ c.ceiling .x .l < c.tokens .x .l + 3
      ∧ (c.finishTsig { rec0 with pc := 9 } .l 3).raised.map (fun t => bits t.info 0 32) = [9] := by decide +kernel

theorem witness_EndEndsItsStream :
    (slot .l).ready (plainHdr .l) 0x01 = true ∧ (slot .x).ready (plainHdr .x) 0x01 = true ∧ (slot .x).ready (plainHdr .x) 0x60 = true
      ∧ (slot .x).me.inHandler = false ∧ inHandler.ready (plainHdr .x) 0x01 = true ∧ inHandler.ready (plainHdr .x) 0x60 = true
      ∧ inHandler.me.inHandler = true := by decide +kernel

/-! ### Tile words -/

theorem witness_tile_words :
    (∀ opc ∈ [0x60, 0x61, 0x62, 0x63, 0x64, 0x65, 0x66, 0x67, 0x68, 0x69, 0x6A, 0x6B, 0x6C, 0x6D, 0x6E, 0x6F, 0x70, 0x71, 0x72, 0x73, 0x74, 0x78,
        0x79, 0x7A, 0x7B, 0x7C, 0x7D, 0x7E, 0x7F, 0x80, 0x81, 0x82, 0x83, 0x84, 0x85, 0x88, 0x89, 0x8A, 0x8B, 0x90, 0x91, 0x92, 0x93, 0x94,
        0x95, 0x96, 0x98, 0x99, 0x9A, 0x9B, 0x9C, 0xA0, 0xA1, 0xA2, 0xA3, 0xA4, 0xA5, 0xA6, 0xA7, 0xA8, 0xA9, 0xAC, 0xAD],
      (slot .c).ready (plainHdr .c) opc = true) := by decide +kernel

theorem witness_FloatTileWordsIssue : (slot .c).ready (plainHdr .c) 0x60 = true ∧ (slot .c).ready (plainHdr .c) 0x71 = true := by
  decide +kernel
theorem witness_IntegerTileWordsIssue :
    (slot .c).ready (plainHdr .c) 0x78 = true ∧ (slot .c).ready (plainHdr .c) 0x91 = true ∧ (tm .i8).sub = 0 := by decide +kernel

/-- SHP gives 32 rows of 32: 1024 elements, which fill a register exactly at 8 half-bytes each. -/
def shaped (shp : W64) : State := chg (slot .c) (fun c => c.setSeq .c { c.seq .c with shp := shp })
def wide : State := shaped 0x1F1F

theorem witness_ConvertingTileWordsIssue :
    (let p := (slot .c).me.shape .c; p.elems * 8 ≤ 8192 ∧ p.elems ≤ 4096 ∧ p.cols % 32 = 0 ∧ p.elems * 16 ≤ 8192)
    ∧ (let p := wide.me.shape .c; ¬ p.elems * max (Ty.halfBytes .i64) 4 ≤ 8192)
    ∧ (let p := (shaped 0x7F3F).me.shape .c; p.elems * Ty.halfBytes .e2m1 ≤ 8192 ∧ 4096 < p.elems)
    ∧ (let p := (shaped 0x0001).me.shape .c; p.elems * max (Ty.halfBytes .f32) (Ty.halfBytes .e4m3) ≤ 8192 ∧ p.cols % 32 ≠ 0)
    ∧ (∀ s ∈ [wide, shaped 0x7F3F, shaped 0x0001], ∀ opc ∈ [0x72, 0x73, 0x84, 0x88, 0x89, 0x8A, 0x8B], s.ready (plainHdr .c) opc = true)
    ∧ (∀ opc ∈ [0x72, 0x73, 0x84, 0x74, 0x88, 0x89, 0x8A, 0x8B], (slot .c).ready (plainHdr .c) opc = true) := by decide +kernel

theorem witness_MovementTileWordsIssue :
    (let p := (slot .c).me.shape .c; p.elems * 8 ≤ 8192 ∧ (tm .i8 1).sub = 1 ∧ (tm .i8 2).sub = 2)
    ∧ (let p := wide.me.shape .c; ¬ p.elems * max (Ty.halfBytes .i64) 4 ≤ 8192
        ∧ ∀ opc ∈ [0x91, 0x92, 0x93, 0x94, 0x95], wide.ready (plainHdr .c) opc = true)
    ∧ (∀ opc ∈ [0x91, 0x92, 0x93, 0x94, 0x95, 0x96], (slot .c).ready (plainHdr .c) opc = true) := by decide +kernel

/-- A stage of J 0 and K 1 over rows of 256 is legal; J 15 is not. -/
theorem witness_ReductionAndSortWordsIssue :
    (let p := (slot .c).me.shape .c;
      p.elems * max 2 8 ≤ 8192 ∧ cmpxBad 0x08 p = false ∧ cmpxBad 0x7F p = true ∧ (tm .i8 0).sub.val % 2 = 0 ∧ (tm .i8 1).sub.val % 2 = 1)
    ∧ (let p := wide.me.shape .c; 8192 < p.elems * 16 ∧ ∀ opc ∈ [0x98, 0x99, 0x9A, 0x9B, 0x9C], wide.ready (plainHdr .c) opc = true)
    ∧ (let p := (shaped 0x7F3F).me.shape .c; p.elems * Ty.halfBytes .e2m1 ≤ 8192 ∧ 8192 < p.elems * max (Ty.halfBytes .e2m1) 8
        ∧ (shaped 0x7F3F).ready (plainHdr .c) 0x9C = true)
    ∧ (∀ opc ∈ [0x98, 0x99, 0x9A, 0x9B, 0x9C], (slot .c).ready (plainHdr .c) opc = true) := by decide +kernel

theorem witness_MaskWordsIssue :
    ((slot .c).me.shape .c).elems * 16 ≤ 8192 ∧ 8192 < (wide.me.shape .c).elems * Ty.halfBytes .i64
    ∧ (∀ opc ∈ [0xA6, 0xA7], wide.ready (plainHdr .c) opc = true)
    ∧ (∀ opc ∈ [0xA0, 0xA1, 0xA2, 0xA3, 0xA4, 0xA5, 0xA6, 0xA7, 0xA8, 0xA9, 0xAC, 0xAD], (slot .c).ready (plainHdr .c) opc = true) := by
  decide +kernel

/-! ### Handles and memory words -/

/-- A resident RAW page of 1 GiB that maps onto itself, and a READY handle on it. -/
def page : Leaf :=
  { base := 0, size := 2, res := true, home := 0, r := true, w := true, u := true, fmt := 0, geom := 0, vw := false, view := 0, msc := false
    plane := 0, peer := 0, pfn := 0 }
def hand : Handle :=
  { state := .ready, base := 0, size := 2, len := 2 ^ 30, leaves := [page], ctx := 0, final := .ready, walkEnd := 0 }

/-- The slot state with that handle in h1, and an INVALID h0. -/
def handled (q : Seq) : State := chg (slot q) (fun c => { c with handles := c.handles.set 1 hand })

/-- h0 is PENDING with its walk over by cycle 0. -/
def pending : State := chg (slot .x) (fun c => { c with handles := c.handles.set 0 { hand with state := .pending } })

theorem witness_HandlesWalkAndAreRevoked :
    (∀ opc ∈ [0x40, 0x41, 0x42], (slot .x).ready (plainHdr .x) opc = true) ∧ (slot .l).ready (plainHdr .l) 0x67 = true
    ∧ ((slot .x).me.handles[(0 : HReg)]).state ≠ .pending
    ∧ (let c := pending.core 0; (c.handles[(0 : HReg)]).state = .pending ∧ (c.handles[(0 : HReg)]).walkEnd ≤ pending.cycle c ∧ c.acts = [])
    ∧ hand.leaves.any (·.covers 0) = true := by decide +kernel

def plainOrder : Order := ⟨0, .plain, 0xFFFF, 0, 0, 0⟩

/-- Sequencer `q` has a comb load of class 0 that reads in cycle 5. -/
def loading (q : Seq) : Act := { rec0 with seq := q, body := .combLoad 5 6 plainOrder .i64 [0] (.g 3) }
/-- The slot of `q`, at which a later word that touches the comb waits for it. -/
def combHeld (q : Seq) : State := chg (slot q) (fun c => { c with acts := [loading q], nextAct := 1 })

theorem witness_CombWordsIssueOrTrap :
    (let s := setG (setG (slot .x) .x 1 0x18_0000) .x 2 3
     let x := fun (a b : GReg) => s.me.rd .x a + s.me.rd .x b;
      s.ready (plainHdr .x) 0x50 = true ∧ s.ready (plainHdr .x) 0x51 = true
      ∧ 2 * (x 2 0).toNat % 8 ≠ 0 ∧ 2 * (x 1 0).toNat % 8 = 0 ∧ 0x30_0000 < 2 * (x 1 0).toNat + 8 ∧ 2 * (x 0 0).toNat % 8 = 0
      ∧ 2 * (x 0 0).toNat + 8 ≤ 0x30_0000
      ∧ (∀ k ∈ [AccKind.load, .store], ∀ r ∈ [(0 : GReg), 1, 2],
          s.combBusy s.me .x (s.me.orderOf (mm .i32)) (combAccesses k [(x r 0, 8)]) (s.cycle s.me + 1) = false))
    ∧ (let s := combHeld .x; s.ready (plainHdr .x) 0x50 = true ∧ s.ready (plainHdr .x) 0x51 = true
      ∧ ∀ k ∈ [AccKind.load, .store],
          s.combBusy s.me .x (s.me.orderOf (mm .i32)) (combAccesses k [(s.me.rd .x 0 + s.me.rd .x 0, 8)]) (s.cycle s.me + 1) = true)
    ∧ (let s := setG (slot .x) .x 1 0x17_FFFC; let x := (s.me.rd .x 1 + s.me.rd .x 0).toNat; 2 * x % 8 = 0 ∧ 2 * x + 8 = 0x30_0000) := by
  decide +kernel

theorem witness_tile_comb_words :
    (let s := setG (slot .l) .l 1 0x18_0000; let p := s.me.shape .l; let o := s.me.orderOf (mm .i32)
     let run := fun (r : GReg) => [(s.me.rd .l r + s.me.rd .l 0, 1 * p.elems * 8)]; let rows := stridedRuns s.me .l 0 0 0 1 8;
      p.elems * 8 ≤ 8192 ∧ s.ready (plainHdr .l) 0x60 = true ∧ s.ready (plainHdr .l) 0x61 = true
      ∧ (∀ k ∈ [AccKind.load, .store], ∀ xs ∈ [run 0, run 1, rows],
          s.combBusy s.me .l o (combAccesses k xs) (s.cycle s.me + 1) = false)
      ∧ combBad rows = none ∧ 2 * (s.me.rd .l 0 + s.me.rd .l 0).toNat + 1 * p.elems * 8 ≤ 0x30_0000
      ∧ 0x30_0000 < 2 * (s.me.rd .l 1 + s.me.rd .l 0).toNat + 1 * p.elems * 8)
    ∧ (let s := combHeld .l; let o := s.me.orderOf (mm .i32);
      s.ready (plainHdr .l) 0x60 = true ∧ s.ready (plainHdr .l) 0x61 = true
      ∧ ∀ k ∈ [AccKind.load, .store], ∀ xs ∈ [[(s.me.rd .l 0 + s.me.rd .l 0, 8)], stridedRuns s.me .l 0 0 0 1 8],
          s.combBusy s.me .l o (combAccesses k xs) (s.cycle s.me + 1) = true)
    ∧ (let s := setG (slot .l) .l 1 0x18_0000; combBad (stridedRuns s.me .l 1 0 0 1 8) = some 0x18_0000)
    ∧ (let s := chg (slot .l) (fun c => c.setSeq .l { c.seq .l with shp := 0x1F1F }); 8192 < (s.me.shape .l).elems * 16
        ∧ s.ready (plainHdr .l) 0x60 = true ∧ s.ready (plainHdr .l) 0x61 = true) := by
  decide +kernel

theorem witness_comb_accesses_perform :
    (let a := { rec0 with body := .combLoad 0 6 plainOrder .i32 [0] (.g 3) };
      ((busy a).core 0).act? a.id = some a ∧ 0 ≤ (busy a).cycle ((busy a).core 0) ∧ a.due = none)
    ∧ (let a := { rec0 with body := .combStore 0 plainOrder .i32 [(8, 5), (16, 6)] };
      ((busy a).core 0).act? a.id = some a ∧ 0 ≤ (busy a).cycle ((busy a).core 0) ∧ Ty.halfBytes .i32 ≠ 1)
    ∧ (let a := { rec0 with body := .combStore 0 plainOrder .e2m1 [(8, 5), (9, 6)] };
      ((busy a).core 0).act? a.id = some a ∧ Ty.halfBytes .e2m1 = 1) := by
  decide +kernel

theorem witness_MemoryWordsIssueOrTrap :
    (let s := handled .x;
      (s.me.handles[(1 : HReg)]).state ≠ .pending ∧ (s.me.handles[(0 : HReg)]).state ≠ .pending ∧ (s.me.shape .x).elems * 16 ≤ 8192
      ∧ (∀ opc ∈ [0x61, 0x62, 0x63, 0x64], s.ready (plainHdr .x) opc = true)
      ∧ (s.me.scopes[(mm .i32).scope]).valid = true ∧ (s.me.scopes[({ mm .i32 with scope := 6 } : MMod).scope]).valid = false
      ∧ (s.checkRefs s.me.ctxId s.me.handles[(1 : HReg)] .i32 ⟨true, true⟩ (seqRefs s.me .x 1 0 .i32 1 [0])).1 = none
      ∧ ((s.checkRefs s.me.ctxId s.me.handles[(1 : HReg)] .i32 ⟨true, true⟩ (seqRefs s.me .x 1 0 .i32 1 [0])).2).find?
          (atomicDenied .i32 (.amo .add)) = none
      ∧ (s.checkRefs s.me.ctxId s.me.handles[(0 : HReg)] .i32 ⟨true, false⟩ (seqRefs s.me .x 0 0 .i32 1 [])).1.isSome = true)
    ∧ (∀ opc ∈ [0x60, 0x61, 0x62, 0x63], (handled .l).ready (tagged .l) opc = true)
    ∧ (∀ opc ∈ [0x60, 0x61, 0x62, 0x63], (handled .s).ready (plainHdr .s) opc = true)
    ∧ (handled .s).me.progress .s 0x63 = 0
    ∧ (let s := chg (slot .x) (fun c => { c with handles := c.handles.set 1 { hand with leaves := [{ page with fmt := 8 }] } });
      (s.checkRefs s.me.ctxId s.me.handles[(1 : HReg)] .i32 ⟨true, true⟩ (seqRefs s.me .x 1 0 .i32 1 [0])).1 = none
      ∧ (((s.checkRefs s.me.ctxId s.me.handles[(1 : HReg)] .i32 ⟨true, true⟩ (seqRefs s.me .x 1 0 .i32 1 [0])).2).find?
          (atomicDenied .i32 (.amo .add))).isSome = true) := by
  decide +kernel

/-! ### Homes -/

def el : Elem := { idx := 0, va2 := 0, leaf := page, pa2 := 0, base2 := 0, blk := 0, val := 5, tries := 0, notBefore := 0, sent := 0 }
/-- A memory word of kind `k` and type i32 with element `e` to perform. -/
def memRec (k : MemKind) (e : Elem) : Act := { rec0 with body := .mem k plainOrder .i32 [e] [] [] (.g 3) 96 1 }

/-- Each kind of access has an element at its turn; a refused element's hint is over in pulse 5; a migration locks the page. -/
theorem witness_HomeAccessesPerform :
    (∀ k ∈ [MemKind.load, .store, .amo .add, .cas 0],
      (let s := busy (memRec k el);
        memWord s 0 0 (memRec k el) k plainOrder .i32 [el] [] [] (.g 3) 96 1 ∧ homeTakes s 0 (memRec k el) el
        ∧ s.memOk = true ∧ [el].find? (·.idx == el.idx) = some el ∧ s.poisonedAt el .i32 = false))
    ∧ el.leaf.elemTy = none ∧ el.leaf.block = 0 ∧ el.leaf.res = true
    ∧ (let e := { el with notBefore := 5 }; let s : State := { busy (memRec .load e) with pulse := 5 };
        memWord s 0 0 (memRec .load e) .load plainOrder .i32 [e] [] [] (.g 3) 96 1
        ∧ 0 < e.notBefore ∧ e.notBefore ≤ s.pulse ∧ e.fate = .same)
    ∧ (let s : State := { busy (memRec .load el) with migrations := [⟨0, 0, 0, page, .hbm, 2 ^ 30, 0, .draining⟩] };
        s.elemReady (s.core 0) (memRec .load el) el = true ∧ (s.lockOn el.leaf).isSome = true) := by
  refine ⟨?_, by decide +kernel, by decide +kernel, by decide +kernel, ⟨⟨rfl, rfl⟩, by decide +kernel⟩, by decide +kernel⟩
  intro k hk
  simp only [List.mem_cons, List.not_mem_nil, or_false] at hk
  rcases hk with rfl | rfl | rfl | rfl <;> exact ⟨⟨rfl, rfl⟩, ⟨by decide +kernel, by decide +kernel, rfl⟩, by decide +kernel⟩

/-- A stamped page of i32 blocks, an MX page, one that is both, and a page of plain i32. -/
def stampedPage : Leaf := { page with fmt := 10, geom := 3, plane := 2 ^ 29 }
def mxPage : Leaf := { page with fmt := 16, geom := 1, plane := 2 ^ 29 }
def bothPage : Leaf := { page with fmt := 16, geom := 4, plane := 2 ^ 29 }

/-- The state after the page tables have been read for the addresses of some elements. -/
def readFor (s : State) (es : List Elem) : State := s.readTables (s.core 0).ctxId (es.map (fun f => canonOf (f.va2 / 2)))

/-- On each page with a format an element's turn comes, to load and to store; a refused element, its page shot down since, is mapped or
not mapped any more. -/
theorem witness_formatted_accesses :
    (∀ l ∈ [stampedPage, mxPage, bothPage, { page with fmt := 10 }], (let e := { el with leaf := l };
      ∀ k ∈ [MemKind.load, .store], (let s := busy (memRec k e);
        memWord s 0 0 (memRec k e) k plainOrder .i32 [e] [] [] (.g 3) 96 1 ∧ homeTakes s 0 (memRec k e) e ∧ s.poisonedAt e .i32 = false
        ∧ (∀ f ∈ together [e] e, s.elemReady (s.core 0) (memRec k e) f = true) ∧ s.lostAt (s.core 0).ctxId e.leaf (e.pa2 / 2) = none
        ∧ e.leaf.elemTy.isSome = true ∧ e.leaf.res = true ∧ e.leaf.peerOf s.pkg = none)))
    ∧ (stampedPage.isStamped = true ∧ stampedPage.isMx = false ∧ mxPage.isStamped = false ∧ mxPage.isMx = true ∧ bothPage.isStamped = true
      ∧ bothPage.isMx = true ∧ 2 ^ 15 ≤ ageOf 0 1 ∧ ageOf 0 0 < 2 ^ 15)
    ∧ (let e := { el with notBefore := 5, fate := .shot }; let s : State := { busy (memRec .load e) with pulse := 5 };
        memWord s 0 0 (memRec .load e) .load plainOrder .i32 [e] [] [] (.g 3) 96 1 ∧ 0 < e.notBefore ∧ e.notBefore ≤ s.pulse
        ∧ e.fate ≠ .same ∧ ([e].map (·.idx)).Nodup ∧ ∀ f ∈ together [e] e,
            ((readFor s [e]).walk (s.core 0).ctxId (canonOf (f.va2 / 2))).isSome = true)
    ∧ (let e := { el with va2 := 2 ^ 41, notBefore := 5, fate := .shot }; let s : State := { busy (memRec .load e) with pulse := 5 };
        memWord s 0 0 (memRec .load e) .load plainOrder .i32 [e] [] [] (.g 3) 96 1
        ∧ ∀ f ∈ together [e] e, (readFor s [e]).walk (s.core 0).ctxId (canonOf (f.va2 / 2)) = none) := by
  refine ⟨?_, by decide +kernel, ⟨⟨rfl, rfl⟩, by decide +kernel⟩, ⟨⟨rfl, rfl⟩, by decide +kernel⟩⟩
  intro l hl e k hk
  simp only [List.mem_cons, List.not_mem_nil, or_false] at hl hk
  rcases hl with rfl | rfl | rfl | rfl <;> rcases hk with rfl | rfl <;>
    exact ⟨⟨rfl, rfl⟩, ⟨by decide +kernel, by decide +kernel, rfl⟩, by decide +kernel⟩

theorem witness_blocks_merge :
    ({} : Memory).wf = true ∧ blockApart ⟨false, .e4m3, 2, 32, 0, some 100, some 200, 0⟩ ∧ blockApart ⟨false, .i32, 8, 16, 0, some 100, none, 0⟩ := by
  refine ⟨by decide +kernel, ⟨rfl, rfl, by decide, ?_, ?_, ?_⟩, ⟨rfl, rfl, by decide, ?_, ?_, ?_⟩⟩
  · intro a h; cases h; decide
  · intro a h; cases h; decide
  · intro a b h g; cases h; cases g; decide
  · intro a h; cases h; decide
  · intro b h; cases h
  · intro a b _ g; cases g

/-! ### Rings and sync words -/

/-- A ring of 16 entries of 64 bytes, with 3 entries filled and 5 claimed. -/
def localRing : RingReg := { RingReg.reset with valid := true, log2n := 4, esz := 1, tail := 3, claimed := 5 }
def proxyRing (room : BitVec 13) (err : Bool) : RingReg :=
  { RingReg.reset with valid := true, remote := true, log2n := 4, esz := 1, rcore := 1, rring := 2, err := err, room := room }
def acceptRing : RingReg := { RingReg.reset with valid := true, accept := true, log2n := 4, esz := 1, asrc := 0, tail := 2, claimed := 2 }

/-- Rings 0 to 4 of core 0: local, a proxy with and without room, a proxy with ERR, accepting. -/
def ringed : State := chg (slot .x) (fun c => { c with rings :=
  ((((c.rings.set 0 localRing).set 1 (proxyRing 1 false)).set 2 (proxyRing 0 false)).set 3 (proxyRing 1 true)).set 4 acceptRing })

theorem witness_RingWordsIssueTrapOrWait :
    (∀ opc ∈ [0x44, 0x45, 0x46, 0x47, 0x48, 0x49, 0x4A], ringed.ready (plainHdr .x) opc = true)
    ∧ 4096 < (4097 : W32).toNat ∧ (4096 : W32).toNat ≤ 4096
    ∧ localRing.mode = .localRing ∧ (16 : W32).toNat ≤ localRing.size ∧ (11 : W32).toNat ≤ localRing.free ∧ localRing.free < (12 : W32).toNat
    ∧ (2 : W32).toNat + ringed.me.ringPending 0 true ≤ (localRing.claimed - localRing.tail).toNat
    ∧ (3 : W32).toNat ≤ localRing.filled ∧ localRing.filled < (4 : W32).toNat
    ∧ (3 : W32).toNat + ringed.me.ringPending 0 false ≤ localRing.filled ∧ acceptRing.mode = .accepting
    ∧ RingReg.reset.mode ≠ .localRing ∧ RingReg.reset.mode = .invalid ∧ localRing.size < (17 : W32).toNat ∧ localRing.filled ≤ localRing.size
    ∧ (localRing.claimed - localRing.tail).toNat < (3 : W32).toNat + ringed.me.ringPending 0 true ∧ (32 : W64).toNat % 64 ≠ 0
    ∧ 0x18_0000 < (0x18_0000 : W64).toNat + 64 * (proxyRing 1 false).esz.toNat ∧ (proxyRing 1 false).mode = .proxy ∧ (proxyRing 1 false).room ≠ 0 ∧ (proxyRing 0 false).room = 0
    ∧ (proxyRing 1 true).err = true ∧ (ringed.me.rd .x 0).toNat % 64 = 0
    ∧ (ringed.me.rd .x 0).toNat + 64 * (proxyRing 1 false).esz.toNat ≤ 0x18_0000 := by decide +kernel

/-- Core 1's ring 2 accepts entries of core 0; core 0's ring 0 is local and its ring 1 a proxy for that one. -/
def paired (body : ActBody) : State :=
  let s := busy { rec0 with body := body }
  let s := chg s (fun c => { c with rings := (c.rings.set 0 localRing).set 1 (proxyRing 1 false) })
  s.setCore { s.core 1 with rings := (s.core 1).rings.set 2 acceptRing }

theorem witness_RingStepsComplete :
    (let s := paired (.rcommit 0 2); (s.core 0).act? 0 = some { rec0 with body := .rcommit 0 2 }
      ∧ (s.core 0).ringReady { rec0 with body := .rcommit 0 2 } = true)
    ∧ (let s := paired (.rrel 0 3); (s.core 0).act? 0 = some { rec0 with body := .rrel 0 3 }
      ∧ (s.core 0).ringReady { rec0 with body := .rrel 0 3 } = true)
    ∧ (let s : State := { paired .plain with ringMsgs := [.ask 0 1, .credit 0 1 4] };
      .ask 0 1 ∈ s.ringMsgs ∧ .credit 0 1 4 ∈ s.ringMsgs ∧ ((s.core 0).rings[(1 : Ring)]).mode = .proxy)
    ∧ (let s : State := { paired .plain with ringMsgs := [.credit 0 1 4] };
      .ask 0 1 ∉ s.ringMsgs ∧ ((s.core 0).rings[(1 : Ring)]).err = false)
    ∧ (let a := { rec0 with body := .rapp 1 1 2 0 64 (some (List.replicate 64 7)) }; let s := paired a.body;
      (s.core 0).act? 0 = some a ∧ (s.core 0).rappReady a = true ∧ a.push = none ∧ a.resumed = false ∧ (1 : Nat) ≠ 0
      ∧ ((s.core 1).rings[(2 : Ring)]).mode = .accepting ∧ ((s.core 1).rings[(2 : Ring)]).asrc.toNat = 0 % 4
      ∧ ((s.core 2).rings[(2 : Ring)]).mode ≠ .accepting) := by decide +kernel

theorem witness_SyncWordsCountArrivals :
    (let s := setG (setG (setG (setG (slot .x) .x 1 8) .x 2 0x18_0000) .x 3 0x17_FFF0) .x 4 0
     let acq : Order := { zeroReach with sem := .acq };
      (∀ opc ∈ [0x4C, 0x4D, 0x4E], s.ready (plainHdr .x) opc = true)
      ∧ (∀ r ∈ [(1 : GReg), 2, 3], s.combBusy s.me .x zeroReach (combAccesses .store [(s.me.rd .x r, 32)]) (s.cycle s.me) = false
          ∧ s.combBusy s.me .x zeroReach (combAccesses .load [(s.me.rd .x r, 32)]) (s.cycle s.me) = false
          ∧ s.combBusy s.me .x acq (combAccesses .load [(s.me.rd .x r, 32)]) (s.cycle s.me) = false)
      ∧ (s.me.rd .x 1).toNat % 16 ≠ 0 ∧ (s.me.rd .x 2).toNat % 16 = 0 ∧ 0x18_0000 < (s.me.rd .x 2).toNat + 16
      ∧ (s.me.rd .x 3).toNat % 16 = 0 ∧ (s.me.rd .x 3).toNat + 16 ≤ 0x18_0000)
    ∧ (let s := combHeld .x
       let acq : Order := { zeroReach with sem := .acq };
      (∀ opc ∈ [0x4C, 0x4D, 0x4E], s.ready (plainHdr .x) opc = true)
      ∧ s.combBusy s.me .x zeroReach (combAccesses .store [(s.me.rd .x 0, 32)]) (s.cycle s.me) = true
      ∧ s.combBusy s.me .x zeroReach (combAccesses .load [(s.me.rd .x 0, 32)]) (s.cycle s.me) = true
      ∧ s.combBusy s.me .x acq (combAccesses .load [(s.me.rd .x 0, 32)]) (s.cycle s.me) = true)
    ∧ (let a := { rec0 with body := .syncwait 3 0 1 0 none }; let s := busy a;
      (s.core 0).act? 0 = some a ∧ (s.core 0).syncTest 0 1 none = none ∧ 0 ≤ s.cycle (s.core 0) - a.issued)
    ∧ (SyncWord.ofBytes (List.replicate 16 0)).target = 0
    ∧ (let w := SyncWord.ofBytes (leBytes 16 (10 + 7 * 2 ^ 32)); w.target ≠ 0 ∧ w.count.toNat + 13 < 2 ^ 32 ∧ w.status.toNat % 2 ^ 8 = 0)
    ∧ (SyncWord.ofBytes (leBytes 16 (3 * 2 ^ 96))).status.toNat % 2 ^ 8 ≠ 0 := by decide +kernel

/-! ### Copy queues -/

/-- The inbound queue's head chain stands at slot 128 of the comb, where the slot's words are w0 and w1; slot 0 is a COPY. -/
def chain : Chain := { no := 1, pos := 128, pass := none, skip := 0, begun := false, slot := [], fence := 0, tries := 0, notBefore := 0, sent := 0, lost := [] }
def slotOf (w0 w1 : Nat) : List Byte := leBytes 128 (w0 + w1 * 2 ^ 64)
def queued (w0 w1 : Nat) : State := starting (chg (slot .x) (fun c =>
  { c with comb := (c.comb.writeBytes 0 [1]).writeBytes 128 (slotOf w0 w1), inQ := { c.inQ with chains := [chain], posted := 2 } }))
/-- A FENCE that has begun and waits for the outbound queue's chain 0. -/
def fenced : State := chg (slot .x) (fun c =>
  { c with inQ := { c.inQ with chains := [{ chain with begun := true, slot := slotOf 0x25 0, fence := 1 }] }
           outQ := { c.outQ with chains := [{ chain with no := 0 }] } })

theorem witness_CopyQueuesRunChains :
    (let s := setG (setG (slot .l) .l 1 64) .l 2 0x18_0000;
      s.ready (plainHdr .l) 0x64 = true ∧ (s.me.rd .l 1).toNat % 128 ≠ 0 ∧ (s.me.rd .l 2).toNat % 128 = 0
      ∧ 0x18_0000 ≤ (s.me.rd .l 2).toNat ∧ (s.me.rd .l 0).toNat < 0x18_0000 ∧ s.me.inQ.chains.length + 0 < 16)
    ∧ (slot .s).ready (plainHdr .s) 0x67 = true ∧ (slot .s).me.outQ.chains.length + 0 < 16
    ∧ (let s := chg (slot .l) (fun c => { c with inQ := { c.inQ with chains := List.replicate 16 chain }
                                                 outQ := { c.outQ with chains := List.replicate 16 chain } });
      16 ≤ s.me.inQ.chains.length + 0 ∧ 16 ≤ s.me.outQ.chains.length + 0 ∧ s.ready (plainHdr .l) 0x64 = true)
    ∧ entryAt (queued 0 0) 0 .inbound chain (slotOf 0 0) 0 ∧ entryAt (queued 4 0x80) 0 .inbound chain (slotOf 4 0x80) 4
    ∧ entryAt (queued 0x13 1) 0 .inbound chain (slotOf 0x13 1) 3 ∧ entryAt (queued 0x12 2) 0 .inbound chain (slotOf 0x12 2) 2
    ∧ (∀ i, i < 1 → (((queued 0x12 2).atStart.core 0).comb.read (128 - 128 * 1 + 128 * i)).toNat % 16 ∈ [1, 5])
    ∧ entryAt (queued 5 0) 0 .inbound chain (slotOf 5 0) 5 ∧ bitSet (slotNat (slotOf 5 0) 0 8) 5 = false ∧ 128 * 1 ≤ chain.pos
    ∧ entryAt fenced 0 .inbound { chain with begun := true, slot := slotOf 0x25 0, fence := 1 } (slotOf 0x25 0) 5
    ∧ (∃ x ∈ ((fenced.core 0).cq .outbound).chains, x.no < 1) := by
  refine ⟨?_, ?_, ?_, ?_, ?_, ?_, ?_, ?_, ?_, ?_, ?_, ?_, ?_, ⟨{ chain with no := 0 }, ?_⟩⟩
  all_goals first | (simp only [entryAt]; decide +kernel) | decide +kernel

/-- Two i16 elements from 0x100 to 0x200 of the comb. -/
def copySlot : Nat :=
  1 + 3 * 2 ^ 8 + 3 * 2 ^ 13 + 0x100 * 2 ^ 128 + 0x200 * 2 ^ 192 + 2 * 2 ^ 256 + 1 * 2 ^ 320 + 1 * 2 ^ 352 + 2 ^ 384 + 2 ^ 512 + 2 ^ 640 + 2 ^ 768
    + 2 ^ 896
def copying : State := starting (chg (slot .x) (fun c =>
  { c with comb := (c.comb.writeBytes 0x100 [1, 2, 3, 4]).writeBytes 128 (leBytes 128 copySlot)
           inQ := { c.inQ with chains := [chain], posted := 2 } }))

theorem witness_CopyEntryMovesElements :
    entryAt copying 0 .inbound chain (leBytes 128 copySlot) 1 ∧ copyFormed (leBytes 128 copySlot) = true
    ∧ copying.sides 0 (leBytes 128 copySlot) 0 0 = (⟨.comb 0, 0x100, .i16, false⟩, ⟨.comb 0, 0x200, .i16, false⟩)
    ∧ bitSet (slotNat (leBytes 128 copySlot) 0 8) 7 = false ∧ (∀ l ∈ levelsOf (leBytes 128 copySlot), l.ss = l.ds)
    ∧ (∀ u ∈ tuples (levelsOf (leBytes 128 copySlot)), u.fill = false ∧ u.drop = false
        ∧ (⟨.comb 0, 0x100, .i16, false⟩ : Side).at_ u.s + 4 ≤ 0x30_0000 ∧ (⟨.comb 0, 0x200, .i16, false⟩ : Side).at_ u.d + 4 ≤ 0x30_0000) := by
  refine ⟨?_, ?_, ?_, ?_, ?_, ?_⟩
  all_goals first | (simp only [entryAt]; decide +kernel) | decide +kernel

/-- What the copy above leaves at 0x200 (R165: little-endian elements, moved as they are). -/
theorem test_copy_moves_two_elements :
    (match exec (.copyEntry 0 .inbound) copying with
      | .next t => ((t.core 0).comb.readBytes 0x200 5, (t.core 0).comb.readBytes 0x100 4)
      | _ => ([], [])) = ([1, 2, 3, 4, 0], [1, 2, 3, 4]) := by decide +kernel

/-! ### Pages and migrations -/

/-- The slot state's page table with its 1 GiB leaf not resident. -/
def away : State := let s := slot .x; { s with mem := s.mem.writeNat 0x6000 8 0x63 }
def mapped : Leaf := ((slot .x).walk 0 0).getD page
def unmappedRes : Leaf := (away.walk 0 0).getD page
def request : PageReq := ⟨0, 0, 0, 0, 0, unmappedRes, 0, none⟩
/-- The state in which request `r` is judged. -/
def judged (s : State) (r : PageReq) : State := s.readTables r.ctx [BitVec.ofNat 64 r.va]
def moving (st : MState) : Migration := ⟨0, 0, 0, mapped, .hbm, 2 ^ 30, 0, st⟩

theorem witness_PagesArriveAndMigrate :
    (slot .x).ready (plainHdr .x) 0x6E = true ∧ request.sync % 16 = 0 ∧ request.sync + 16 ≤ 0x18_0000
    ∧ (let s : State := { slot .x with pageReqs := [request] };
      s.pageReqs.find? (·.no == request.no) = some request ∧ (judged s request).walk 0 0 = some mapped ∧ s.migrating mapped = none
      ∧ request.met s.pkg mapped = true)
    ∧ (let r := { request with notBefore := 1, leaf := { unmappedRes with pfn := 2 ^ 30 } }
       let s : State := { slot .x with pageReqs := [r], lastMig := [(mapped.dataKey 0, 0)] }
       let s := s.setCtx 0 { s.ctx 0 with mighyst := 5 };
      s.pageReqs.find? (·.no == r.no) = some r ∧ (judged s r).walk 0 0 = some mapped ∧ s.migrating mapped = none ∧ r.met s.pkg mapped = false
      ∧ mapped.res = true ∧ s.movedLately 0 mapped = true)
    ∧ (let s : State := { away with pageReqs := [request] };
      s.pageReqs.find? (·.no == request.no) = some request ∧ (judged s request).walk 0 0 = some unmappedRes ∧ unmappedRes.res = false
      ∧ s.migrating unmappedRes = none ∧ s.movedLately 0 unmappedRes = false ∧ request.met s.pkg unmappedRes = false)
    ∧ (let s : State := { away with pageReqs := [request], lastMig := [(unmappedRes.dataKey 0, 0)] }
       let s := s.setCtx 0 { s.ctx 0 with mighyst := 5 };
      s.pageReqs.find? (·.no == request.no) = some request ∧ (judged s request).walk 0 0 = some unmappedRes ∧ s.migrating unmappedRes = none
      ∧ s.movedLately 0 unmappedRes = true
      ∧ (({ judged s request with pageReqs := s.pageReqs.filter (·.no != request.no) } : State).readTables 0 [canonOf request.va]).leafEntry 0
          request.va = some 0x6000)
    ∧ (let s : State := { slot .x with pageReqs := [request], migrations := [moving .draining] };
      s.pageReqs.find? (·.no == request.no) = some request ∧ (judged s request).walk 0 0 = some mapped
      ∧ s.migrating mapped = some (moving .draining)
      ∧ request.mig ≠ some (moving .draining).no)
    ∧ (((slot .x).readTables 0 [0]).walk 0 0 = some mapped ∧ (slot .x).migrating mapped = none ∧ (slot .x).movedLately 0 mapped = false)
    ∧ (∀ st ∈ [MState.draining, .copying, .switched],
        ({ slot .x with migrations := [moving st] } : State).migration? 0 st = some (moving st))
    ∧ (moving .draining).leaf.dataKey 0 % 64 = 0
    ∧ mapped.planeBytes = 0 ∧ (slot .x).mem.wf = true ∧ (slot .x).window = [] ∧ (slot .x).bins = []
    ∧ (moving .copying).newLeaf.dataKey 0 = 2 ^ 30 ∧ 0x6000 + 16 ≤ 2 ^ 30 := by
  decide +kernel

/-! ### Updates, regions, steps and sweeps -/

/-- Region 1 of context 0 covers the first MiB, added into as i64 (OP 0). -/
def region : RegionReg := { RegionReg.reset with valid := true, len := 2 ^ 20 }
def regioned (q : Seq) : State :=
  let s := handled q
  let x := s.ctx 0
  s.setCtx 0 { x with regions := x.regions.set 1 region }

/-- The state with region 1 of context 0 as given. -/
def withRegion (s : State) (r : RegionReg) : State :=
  let x := s.ctx 0
  s.setCtx 0 { x with regions := x.regions.set 1 r }
/-- A stamped page of f32 values in blocks of 64. -/
def floats : Leaf := { page with fmt := 8, geom := 5, plane := 2 ^ 29 }

/-- Good pairs and a bad handle; STAMPADD; a word that goes on after a stop; shapes that the indices, and that the values, do not fit. -/
theorem witness_UpdIssuesOrTraps :
    (let s := regioned .s
     let p := s.me.shape .s
     let hd := s.me.handles[(1 : HReg)]
     let r := (s.ctx s.me.ctxId).regions[(1 : Region)]
     let refs : List Ref := [⟨0, 0, false, 0⟩];
      s.ready (plainHdr .s) 0x64 = true ∧ s.me.progress .s 0x64 = 0 ∧ hd.state ≠ .pending ∧ r.op.toNat ≠ 11 ∧ p.elems * 8 ≤ 8192
      ∧ s.updCheck 0 r (opTy 0) .i32 refs hd = none
      ∧ (s.updCheck 0 r (opTy 0) .i32 refs s.me.handles[(0 : HReg)]).isSome = true)
    ∧ (let s := withRegion (regioned .s) { region with op := 11 };
      s.updCheck 0 { region with op := 11 } .f32 .i32 [⟨0, 0, false, 0⟩] { hand with leaves := [floats] } = none
      ∧ ((s.ctx s.me.ctxId).regions[(1 : Region)]).op.toNat = 11 ∧ s.ready (plainHdr .s) 0x64 = true)
    ∧ (let s := chg (regioned .s) (fun c => c.setSeq .s { c.seq .s with restart := ⟨1, 0x64, false, true⟩ });
      s.me.progress .s 0x64 = 1 ∧ s.ready (plainHdr .s) 0x64 = true)
    ∧ (let s := chg (regioned .s) (fun c => c.setSeq .s { c.seq .s with shp := 0x7F3F }); let p := s.me.shape .s;
      p.elems * Ty.halfBytes .e2m1 ≤ 8192 ∧ 8192 < p.elems * max (Ty.halfBytes .e2m1) 8 ∧ 8192 < p.elems * Ty.halfBytes .i32
      ∧ s.ready (plainHdr .s) 0x64 = true) := by
  decide +kernel

def pair : Pair := ⟨0, 1, 0, 0, 0, 0, mapped, 0, 5, 0, false, false⟩
def flight (fate : Fate) (tries : Nat) : Flight := ⟨0, 0, 0, 0, 0, pair, tries, 0, 0, fate⟩
def flying (s : State) (f : Flight) : State := { s with flight := [f] }

/-- VA 0 lies on one page of 64 KiB whose leaf entry is `w0`, `w1`. -/
def smallPage (s : State) (w0 w1 : Nat) : State :=
  let words := [(0x6000, 1), (0x6008, 0x8000), (0x8000, 1), (0x8008, 0xA000), (0xA000, w0), (0xA008, w1)]
  { s with mem := words.foldl (fun m p => m.writeNat p.1 8 p.2) s.mem }
/-- A page at 0x10000 of f32 in blocks of 64, its side plane at 0x20000; and one of f32 read through view 0, whose elements begin at
0x100000. -/
def stampW0 : Nat := 0x67 + 8 * 2 ^ 8 + 5 * 2 ^ 13 + 0x20 * 2 ^ 24
def viewW0 : Nat := 0x67 + 8 * 2 ^ 8 + 2 ^ 16
def stamping (s : State) : State := smallPage s stampW0 0x10000
def viewing (s : State) : State :=
  let s := smallPage s viewW0 0x10000
  let x := s.ctx 0
  s.setCtx 0 { x with views := x.views.set 0 ⟨0, 0x10_0000, BitVec.ofNat 64 (2 + (2 ^ 20 - 1) * 2 ^ 22 + 2 ^ 63)⟩ }
def stampLeaf : Leaf := ((stamping (slot .x)).walk 0 0).getD page
def viewLeaf : Leaf := ((viewing (slot .x)).walk 0 0).getD page

/-- Where no unit, or every unit, has taken its 32 pairs, that of a pair has not, or has. -/
theorem unitFull_of_taken {s : State} {n : Nat} (h : s.taken = Vector.replicate 12 n) (p : Pair) (hp : p.leaf.isHere s.pkg = true) :
    s.unitFull p = decide (32 ≤ n) := by
  simp [State.unitFull, h, hp]

theorem witness_units_take_pairs :
    (∀ f ∈ [flight .same 0, flight .moved 0, flight .moved 1],
      ((flying (regioned .s) f).readTables 0 [canonOf pair.va]).unitFull pair = false)
    ∧ (let s := ({ flying (regioned .s) (flight .same 0) with taken := Vector.replicate 12 32 } : State).readTables 0 [canonOf pair.va];
      s.unitFull pair = true ∧ s.pairNow (flight .same 0) = some pair) := by
  refine ⟨?_, unitFull_of_taken (n := 32) (by decide +kernel) _ (by decide +kernel), by decide +kernel⟩
  intro f hf
  simp only [List.mem_cons, List.not_mem_nil, or_false] at hf
  rcases hf with rfl | rfl | rfl <;> exact unitFull_of_taken (n := 0) (by decide +kernel) _ (by decide +kernel)

/-- No leaf, a page that is not read through a view, and one that is, which places the address or not. -/
theorem witness_pairs_have_their_place :
    (slot .x).walk 0 (canonOf (2 ^ 40)) = none
    ∧ (slot .x).walk 0 (canonOf 0) = some mapped ∧ mapped.vw = false
    ∧ (viewing (slot .x)).walk 0 (canonOf 0) = some viewLeaf ∧ viewLeaf.vw = true
    ∧ ((viewing (slot .x)).viewAt 0 viewLeaf 4 8) = some 4 ∧ (viewing (slot .x)).viewAt 0 viewLeaf 2 8 = none := by
  decide +kernel

/-- A pair as it was sent; one whose page has moved, refused for the first time and then sent again; one whose page is not mapped. -/
theorem witness_UpdatePairsArriveAndMerge :
    (∀ f ∈ [flight .same 0, flight .moved 0, flight .moved 1], let s := flying (regioned .s) f; let r := (s.ctx 0).regions[(1 : Region)];
      let u := s.readTables 0 [canonOf pair.va];
      s.flight? 0 0 0 = some f ∧ u.flightReady f = true ∧ pair.leaf.home = 0 ∧ u.pairPlace 0 pair.op pair.va ≠ none ∧ u.lockOn pair.leaf = none
      ∧ (u.pairNow f) = some pair ∧ pair.op ≠ 11 ∧ r.valid = true ∧ r.gen = pair.gen ∧ r.op = pair.op ∧ r.exp = pair.exp)
    ∧ (let f := { flight .moved 1 with pair := { pair with va := 2 ^ 40 } }
       let s := flying (regioned .s) f; let u := s.readTables 0 [canonOf (2 ^ 40)];
      s.flight? 0 0 0 = some f ∧ u.pairNow f = none ∧ u.flightReady f = true)
    ∧ (let p : Pair := { pair with op := 11, step := 1 }; let f := { flight .same 0 with pair := p }
       let s := flying (withRegion (regioned .s) { region with op := 11 }) f; let u := s.readTables 0 [canonOf p.va];
      u.pairNow f = some p ∧ u.flightReady f = true ∧ (p.step - BitVec.ofNat 16 (s.ctx 0).unitStep.toNat).toNat = 1
      ∧ ((s.ctx 0).regions[(1 : Region)]).op = p.op)
    ∧ ((slot .s).ctx 0).regions[(1 : Region)].valid = false ∧ (slot .s).window = [] ∧ (slot .s).bins = [] := by
  decide +kernel

/-- Core 0 runs a region word with operands `v` in phase `ph`; region 1 of its context is valid. -/
def regionRec (i : Instr) (v : List W64) (ph : Nat) : Act := { rec0 with body := .word i v [] 0 ph 0 }
def regionRun (a : Act) : State := chg (regioned .x) (fun c => { c with acts := [a], nextAct := 1 })

/-- Block `b` of page `l` lies in this package's memory and is not poisoned. -/
abbrev blockIsHere (s : State) (x : Fin 64) (l : Leaf) (b : Nat) : Prop :=
  let k := pageBlock s x l b
  s.poisonedBlock k = false ∧ k.data2 / 2 + 512 ≤ 2 ^ 52 ∧ k.n * k.hb ≤ 1024 ∧ ∀ ln ∈ k.planeLines, ln < 2 ^ 46

/-- The region words at their work: a region on a page of plain bytes, and on one that is not resident. -/
theorem witness_region_words :
    (let a := regionRec (.regdef (plainHdr .x) 0 1 2 3) [2 ^ 21, 64, 0] 0; let s := regionRun a;
      (s.core 0).act? a.id = some a ∧ a.due = none ∧ s.regionClash 0 0 (2 ^ 21) 64 = false ∧ s.clearReady (s.core 0) a 0 = true
      ∧ (s.ctx 0).regions[(0 : Region)].valid = false)
    ∧ (let a := regionRec (.regdef (plainHdr .x) 1 1 2 3) [2 ^ 21, 64, 0] 0; let s := regionRun a;
      s.regionClash 0 1 (2 ^ 21) 64 = false ∧ s.clearReady (s.core 0) a 1 = true ∧ (s.ctx 0).regions[(1 : Region)].valid = true)
    ∧ (let a := regionRec (.regclr (plainHdr .x) 1) [] 0; let s := regionRun a;
      (s.core 0).act? a.id = some a ∧ s.clearReady (s.core 0) a 1 = true ∧ s.window = [] ∧ s.bins = [] ∧ s.mem.wf = true
      ∧ s.walk 0 region.base = some mapped ∧ 0 < region.len ∧ 0 - mapped.base + region.len ≤ mapped.bytes ∧ region.len % 8 = 0
      ∧ mapped.res = true ∧ mapped.home = 0 ∧ mapped.vw = false ∧ region.op ≠ 11)
    ∧ (let s : State := { regionRun (regionRec (.regclr (plainHdr .x) 1) [] 0) with mem := away.mem };
      s.walk 0 region.base = some unmappedRes ∧ unmappedRes.res = false)
    ∧ (∀ i ∈ [Instr.regdef (plainHdr .x) 1 1 2 3, .regclr (plainHdr .x) 1, .regapply (plainHdr .x) 1],
        let a := regionRec i [] 1; let s := regionRun a; (s.core 0).act? a.id = some a ∧ 0 ≤ s.cycle (s.core 0) ∧ s.factorsSpread 0 = true) := by
  decide +kernel

/-- A cleared region on a page read through a view, and on a stamped one. -/
theorem witness_regions_clear :
    (let s := viewing (withRegion (regionRun (regionRec (.regclr (plainHdr .x) 1) [] 0)) { region with len := 64, op := 2 });
      s.walk 0 region.base = some viewLeaf ∧ viewLeaf.res = true ∧ viewLeaf.home = 0 ∧ viewLeaf.vw = true ∧ viewLeaf.isStamped = false
      ∧ 0 - viewLeaf.base + 64 ≤ viewLeaf.bytes ∧ s.window = [] ∧ s.bins = [] ∧ s.mem.wf = true
      ∧ ((s.elemsOver 0 viewLeaf 8 0 64).length = 16 ∧ ∀ n ∈ s.elemsOver 0 viewLeaf 8 0 64, (s.start2 0 viewLeaf + n * 8) / 2 + 8 ≤ 2 ^ 52))
    ∧ (let s := stamping (withRegion (regionRun (regionRec (.regclr (plainHdr .x) 1) [] 0)) { region with len := 64, op := 11 });
      s.walk 0 region.base = some stampLeaf ∧ stampLeaf.res = true ∧ stampLeaf.home = 0 ∧ stampLeaf.isStamped = true
      ∧ s.blocksOver 0 stampLeaf stampLeaf.blockTy.halfBytes 0 64 = [0] ∧ s.mem.wf = true)
    ∧ blockIsHere (stamping (slot .x)) 0 stampLeaf 0 := by
  decide +kernel

/-- A bin of an addition, and one of STAMPADD on a stamped page, to apply. -/
theorem witness_bins_apply :
    (let b : Bin := ⟨0, 0, 1, 0, 0, 0, mapped, [⟨0, 5, 0⟩], [], 1, 0⟩
       let s : State := { regionRun (regionRec (.regapply (plainHdr .x) 1) [] 0) with bins := [b] };
      (s.core 0).act? 0 = some (regionRec (.regapply (plainHdr .x) 1) [] 0)
      ∧ s.clearReady (s.core 0) (regionRec (.regapply (plainHdr .x) 1) [] 0) 1 = true ∧ s.window = [] ∧ b.op ≠ 11
      ∧ s.poisonIn (64 * b.line) 64 = none)
    ∧ (let b : Bin := ⟨0x400, 0, 1, 0, 11, 0, stampLeaf, [⟨0x10000, 5, 0⟩], [], 1, 0⟩
       let s : State := { stamping (withRegion (regionRun (regionRec (.regapply (plainHdr .x) 1) [] 0)) { region with op := 11 }) with bins := [b] };
      (s.core 0).act? 0 = some (regionRec (.regapply (plainHdr .x) 1) [] 0)
      ∧ s.clearReady (s.core 0) (regionRec (.regapply (plainHdr .x) 1) [] 0) 1 = true
      ∧ b.leaf.peerOf s.pkg = none ∧ b.parts ≠ [] ∧ (∀ q ∈ b.parts, b.leaf.blockNo s.pkg (2 * q.key) = 0)
      ∧ (let k := blockAt s.pkg b.leaf 0 (2 * b.leaf.dataKey s.pkg + 0); s.poisonedBlock k = false ∧ ∀ ln ∈ k.planeLines, ln < 2 ^ 46)) := by
  decide +kernel

/-- A good definition, and one for each limit that a definition can break: OP 12, CFG bits, alignment, the canonical form, the length, an
overlap. -/
theorem witness_RegionAndStepWordsIssueOrTrap :
    (∀ opc ∈ [0x69, 0x6A, 0x6B, 0x6C, 0x6D], (regioned .x).ready (plainHdr .x) opc = true) ∧ (slot .s).ready (plainHdr .s) 0x65 = true
    ∧ bits (12 : W64) 0 4 = 12 ∧ bits (11 : W64) 0 4 = 11 ∧ bits (2 ^ 21 : W64) 21 43 ≠ 0 ∧ (32 : W64).toNat % 64 ≠ 0
    ∧ canonicalVA (2 ^ 60) = false ∧ canonicalVA 0 = true ∧ 2 ^ 48 < (2 ^ 48 + 64 : W64).toNat
    ∧ (let rs := ((regioned .x).ctx 0).regions;
      (1 : Region) ≠ 0 ∧ rs[(1 : Region)].valid = true ∧ rs[(1 : Region)].base.toNat % 2 ^ 57 < 0 + 64
      ∧ 0 < rs[(1 : Region)].base.toNat % 2 ^ 57 + rs[(1 : Region)].len ∧ rs[(0 : Region)].valid = false)
    ∧ (8 : W64).toNat % 16 ≠ 0 ∧ 0x18_0000 < (0x18_0000 : W64).toNat + 16 ∧ (0x17_FFF0 : W64).toNat + 16 ≤ 0x18_0000 := by decide +kernel

def sweep : Sweep := ⟨0, 0, 0, 0, 2 ^ 30, 0⟩
/-- A page that is not mapped, one that is not resident, one that is not stamped, one that is. -/
theorem witness_StepsAndSweepsAdvance :
    (let s : State := { slot .x with sweeps := [{ sweep with va := 2 ^ 40 }] };
      s.sweeps.find? (·.no == 0) = some { sweep with va := 2 ^ 40 } ∧ (s.readTables 0 [2 ^ 40]).walk 0 (2 ^ 40) = none)
    ∧ sweep.sync + 16 ≤ 0x18_0000
    ∧ (let s : State := { away with sweeps := [sweep] };
      s.sweeps.find? (·.no == 0) = some sweep ∧ (s.readTables 0 [0]).walk 0 0 = some unmappedRes ∧ (s.readTables 0 [0]).lockOn unmappedRes = none
      ∧ unmappedRes.res = false)
    ∧ (let s : State := { slot .x with sweeps := [sweep] };
      (s.readTables 0 [0]).walk 0 0 = some mapped ∧ (s.readTables 0 [0]).lockOn mapped = none ∧ mapped.isStamped = false
      ∧ sweep.stop ≤ 0 - (0 - mapped.base) + mapped.bytes)
    ∧ (let s : State := { stamping (slot .x) with sweeps := [sweep] }; let u := s.readTables 0 [0]
       let bs := u.blocksOver 0 stampLeaf stampLeaf.blockTy.halfBytes 0 stampLeaf.bytes;
      s.sweeps.find? (·.no == 0) = some sweep ∧ u.walk 0 0 = some stampLeaf ∧ u.lockOn stampLeaf = none ∧ stampLeaf.res = true
      ∧ stampLeaf.isStamped = true ∧ stampLeaf.home = 0 ∧ s.window = [] ∧ s.bins = [] ∧ (s.core 0).comb.wf = true ∧ bs.length = 256
      ∧ (∀ b ∈ bs, blockIsHere s 0 stampLeaf b) ∧ stampLeaf.bytes < sweep.stop)
    ∧ findCore (slot .x).cores 0 = some ((slot .x).core 0) ∧ ((slot .x).core 0).ctxId = 0 := by decide +kernel

/-! ### The array and groups -/

/-- L has a comb store of class 0 to the first bytes, to be made in cycle 5. -/
def storeHeld : State := chg (slot .l) (fun c =>
  { c with acts := [{ rec0 with seq := .l, body := .combStore 5 plainOrder .i64 [(0, 7)] }], nextAct := 1 })

/-- Images and ranges at their limits: KF 256 and 257 for i8; rows 0 to 1023 and one past them. -/
theorem witness_ArrayWordsIssueOrTrap :
    (∀ opc ∈ [0xC0, 0xC1, 0xC2, 0xC3, 0xC4, 0xC5, 0xC6, 0xC7, 0xC8, 0xC9, 0xCA], (slot .c).ready (tagged .c) opc = true)
    ∧ (slot .l).ready (plainHdr .l) 0x65 = true
    ∧ (∀ r ∈ [(0 : GReg), 1], ∀ n ∈ [0, imageSize .i8 false false 256], let s := setG (slot .l) .l 1 0x17_FFC0; s.readWaits s.me .l (s.me.rd .l r).toNat n = false)
    ∧ storeHeld.ready (plainHdr .l) 0x65 = true ∧ storeHeld.readWaits storeHeld.me .l 0 64 = true
    ∧ kfOk .i8 false false 256 = true ∧ kfOk .i8 false false 257 = false ∧ (64 : W64).toNat % 64 = 0 ∧ (1 : W64).toNat % 64 ≠ 0
    ∧ imageSize .i8 false false 256 ≤ 0x18_0000 ∧ 0x18_0000 < 0x17_FFC0 + imageSize .i8 false false 256
    ∧ rowsNamed 0 ∧ rowsNamed (1024 * 2 ^ 16) ∧ ¬ rowsNamed (1025 * 2 ^ 16) ∧ bits (1024 * 2 ^ 16 + 1 : W64) 0 10 + bits (1024 * 2 ^ 16 + 1 : W64) 16 11 = 1025
    ∧ rowsNamed (1024 * 2 ^ 16 + 1)
    ∧ bits (1024 * 2 ^ 16 + 1 : W64) 0 10 + bits (1024 * 2 ^ 16 + 1 : W64) 16 11 > 1024 ∧ (0 : W64).toNat < 2 ^ 16
    ∧ 8192 < (wide.me.shape .c).elems * 16 ∧ 1024 ≤ (1024 : W64).toNat ∧ wide.ready (tagged .c) 0xC8 = true
    ∧ (let p := wide.me.shape .c; p.elems * 8 ≤ 8192 ∧ p.cols ≤ 128 ∧ 0 + 1 * p.rows ≤ 1024 ∧ 1024 < 1023 + 1 * p.rows)
    ∧ (960 : W64).toNat ≤ 960 ∧ (960 : W64).toNat % 64 = 0 ∧ 960 < (961 : W64).toNat ∧ (1 : W64).toNat < 16 ∧ 16 ≤ (16 : W64).toNat := by
  simp only [rowsNamed]
  decide +kernel

/-- A group header of M 2 and KG 8 at comb address 0, and a header whose M is 0. -/
def grouped : State := chg (slot .l) (fun c => { c with comb := c.comb.writeNat 0 8 (2 + 8 * 2 ^ 8) })

theorem witness_DrainAndGroupLoadIssueOrTrap :
    (slot .s).ready (plainHdr .s) 0x66 = true ∧ grouped.ready (plainHdr .l) 0x66 = true
    ∧ (slot .s).combBusy (slot .s).me .s zeroReach [wholeComb .store] ((slot .s).cycle (slot .s).me) = false
    ∧ (let s := combHeld .s; s.ready (plainHdr .s) 0x66 = true ∧ s.combBusy s.me .s zeroReach [wholeComb .store] (s.cycle s.me) = true)
    ∧ grouped.readWaits grouped.me .l 0 groupMax = false ∧ storeHeld.readWaits storeHeld.me .l 0 groupMax = true
    ∧ storeHeld.ready (plainHdr .l) 0x66 = true
    ∧ (let C : W64 := 16; bits C 11 5 = 0 ∧ bits C 26 6 = 0 ∧ bits C 39 25 = 0 ∧ bits C 0 11 ≤ 1024 ∧ bits C 16 10 + bits C 0 11 ≤ 1024
        ∧ (rowsAt 0 64 16).all (fun y => decide (y.toNat + 4 ≤ 0x18_0000)) = true)
    ∧ (let C : W64 := 2 + 1023 * 2 ^ 16; bits C 0 11 ≤ 1024 ∧ 1024 < bits C 16 10 + bits C 0 11
        ∧ (rowsAt 0 64 2).all (fun y => decide (y.toNat + 4 ≤ 0x18_0000)) = true)
    ∧ (let runs := rowsAt 0x17_FFC0 64 2; runs[1]? = some 0x18_0000 ∧ 0x18_0000 < (0x18_0000 : W64).toNat + 4
        ∧ runs[0]? = some 0x17_FFC0 ∧ (0x17_FFC0 : W64).toNat + 4 ≤ 0x18_0000)
    ∧ grouped.me.combWriting .l = false ∧ (64 : W64).toNat % 64 = 0 ∧ 0x18_0000 < (0x18_0000 : W64).toNat + 16 ∧ 32 % 64 ≠ 0
    ∧ (let s := chg (slot .l) (fun c => { c with comb := c.comb.writeNat 0x17_FFC0 8 (2 + 8 * 2 ^ 8) });
      headerOk (s.me.comb.readNat 0x17_FFC0 8) (s.me.comb.readNat 0x17_FFC8 8) = true ∧ 0x17_FFC0 + 16 ≤ 0x18_0000
      ∧ 0x18_0000 < 0x17_FFC0 + 144 + 4 * 2 * 8)
    ∧ bits (1025 : W64) 0 11 = 1025 ∧ (1 : W64).toNat % 2 ≠ 0
    ∧ (let c := grouped.me;
      (c.slots[(0 : Fin 2)]).state ≠ .bound ∧ c.loading 0 = false ∧ c.acts = []
      ∧ headerOk (c.comb.readNat 0 8) (c.comb.readNat 8 8) = true ∧ 0 + 144 + 4 * 2 * 8 ≤ 0x18_0000)
    ∧ headerOk 0 0 = false ∧ (slot .l).me.raised = []
    ∧ (let c := { (slot .l).me with slots := (slot .l).me.slots.set 0 { GSlot.reset with state := .bound } };
      (c.slots[(0 : Fin 2)]).state = .bound) := by decide +kernel

/-- Two rows, one product in each column but the last, which holds a masked weight. -/
theorem witness_ProductsAccumulate :
    (2 : Nat) ≤ 128 ∧ (1 : Nat) < 128
    ∧ (let w : Machine.Num := .val false 1 1; let q := w.mul ((Machine.Num.val false 1 1).mul (.val false 1 1)); q ≠ .nan ∧ ∀ neg, q ≠ .inf neg) := by
  decide

/-- A bound group of 2 elements and 16 rows, whose element 0 takes rows 0 to 3 to: row 0; row 1 twice; rows 0 and 1; nowhere. -/
def bound : GSlot :=
  { GSlot.reset with state := .bound, m := 2, kg := 16
                     action := [0, 0x80_2400, 0x2400, 0x800] ++ List.replicate 28 0 }
/-- A core whose planes and filter hold images of 16 rows of i8, with that group bound in slot 1, and words `as` issued. -/
def streamer (as : List Act) : State := chg { slot .c with pulse := 1000 } (fun c =>
  let k : Store := { Store.reset with valid := true, kf := 16 }
  { c with active := k, shadow := k, filter := k, slots := c.slots.set 1 bound, acts := as, nextAct := 1 })

def arrayRec (i : Instr) (v : List W64) (phase : Nat) : Act :=
  { rec0 with seq := .c, body := .word i v [] 0xFF00 phase 0 }
/-- A filter image of one i8 row, with which element 0 can be built. -/
def filtered (a : Act) : State := chg (busy a) (fun c => { c with filter := { Store.reset with valid := true, kf := 1 } })
/-- An `mma` of two rows at 0, a row 16 bytes after the last, under `m`, started in cycle 0, with `k` rows read. -/
def mmaRec (m : AMod) (k : Nat) : Act :=
  { rec0 with seq := .c, body := .word (.mma (plainHdr .c) 1 2 3 m) [0, 16, 2] [0, 0, 0, 0] 0xFF00 1 k }
def mmaMode (mode : Fin 4) (sweep : Bool := false) : AMod := { am .i8 with mode := mode, sweep := sweep }

/-- An `mma` and an `mmas` that wait to start, of good and of bad operands. -/
theorem witness_streams_start :
    (let a : Act := { rec0 with seq := .c, body := .word (.mma (plainHdr .c) 1 2 3 (am .i8)) [0, 16, 2] [] 0xFF00 0 0 }
     let c := (streamer [a]).core 0;
      c.act? 0 = some a ∧ c.arrayReady a = true ∧ a.handler = false ∧ c.raised = []
      ∧ Core.mmaCheck (am .i8) 0 16 2 (c.mmaPlan (am .i8) 2) = none ∧ (Core.mmaCheck (am .i8) 8 16 2 (c.mmaPlan (am .i8) 2)).isSome = true)
    ∧ (let a : Act := { rec0 with seq := .c, body := .word (.mmas (plainHdr .c) 0 1 2 3 (am .i8)) [0, 0, 16, 1 + 2 ^ 16 + 16 * 2 ^ 32] [] 0xFF00 0 0 }
       let c := (streamer [a]).core 0;
      c.act? 0 = some a ∧ c.arrayReady a = true ∧ c.raised = []
      ∧ (match c.mmasCheck (am .i8) 0 0 16 (1 + 2 ^ 16 + 16 * 2 ^ 32) with | .ok _ => true | .error _ => false) = true
      ∧ (match c.mmasCheck (am .i8) 0 0 16 (1 + 2 ^ 16) with | .ok _ => false | .error _ => true) = true) := by
  decide +kernel

/-- In each mode a row is due; the group's entries of each mode; the planes of a sweep are built and exchanged, or not yet. -/
theorem witness_mma_streams :
    (∀ m ∈ [mmaMode 0, mmaMode 1 true, mmaMode 2 true, mmaMode 3], let a := mmaRec m 1; let c := (streamer [a]).core 0; let p := c.mmaPlan m 2;
      c.act? a.id = some a ∧ 1 < p.n * p.nr ∧ mmaRowAt m p 0 0 1 ≤ (streamer [a]).cycle c ∧ p.base + 1 < 1024
      ∧ ¬ 4 < p.n * p.nr ∧ ¬ mmaRowAt m p 1000 0 1 ≤ (streamer [a]).cycle c)
    ∧ ((streamer []).core 0).boundSlot = some bound
    ∧ ((bound.entry 0 0).mode = 0 ∧ (bound.entry 0 1).mode = 1 ∧ (bound.entry 0 1).a = (bound.entry 0 1).b ∧ (bound.entry 0 2).mode = 1
      ∧ (bound.entry 0 2).a ≠ (bound.entry 0 2).b ∧ (bound.entry 0 2).b < 1024 ∧ (bound.entry 0 3).mode = 2)
    ∧ (let m := mmaMode 1 true; let p := ((streamer []).core 0).mmaPlan m 2; let bs := mmaBuilds m p 0 0;
      bs.length = 2 ∧ bs[0]?.map (fun q => decide (q.1 ≤ 1000 ∧ q.2 ≤ 1000)) = some true
      ∧ (mmaBuilds m p 999 0)[0]?.map (fun q => decide (1000 < q.1)) = some true) := by
  decide +kernel

/-- A running `mmas` of one segment of two rows, its image not loaded, or loaded and built, since cycle 0 or cycle 1000. -/
def segments (start loaded : Nat) : MmasRun := ⟨start, 16, loaded, loaded, loaded, [⟨0, 0, 2, 0, 0⟩], []⟩
def mmasRec (r : MmasRun) : Act :=
  { rec0 with seq := .c, body := .word (.mmas (plainHdr .c) 0 1 2 3 (am .i8)) [0, 0, 16, 2] r.toList 0xFF00 1 0 }

theorem witness_mmas_streams :
    (∀ r ∈ [segments 0 0, segments 0 1, segments 1000 0], let a := mmasRec r;
      ((streamer [a]).core 0).act? a.id = some a ∧ MmasRun.ofList r.toList = some r
      ∧ (r.times (am .i8)).find? (fun q => 0 < q.2.2.r0 + q.2.2.n) = (r.times (am .i8))[0]?
      ∧ (r.times (am .i8)).find? (fun q => 2 < q.2.2.r0 + q.2.2.n) = none ∧ (r.times (am .i8))[1]? = none)
    ∧ (((segments 0 1).times (am .i8))[0]?.map (fun q => decide (q.2.1 ≤ 1000))) = some true
    ∧ (((segments 1000 0).times (am .i8))[0]?.map (fun q => decide (1000 < q.2.1))) = some true := by
  decide +kernel

/-- A `drain` of two rows of 32 columns issued in cycle 0, with `r` rows taken. -/
def drainRec (ty : Ty) (lay : Lay) (r : Nat) : Act :=
  { rec0 with seq := .s, body := .word (.drain (plainHdr .s) 1 2 3 ty .rne false none true lay) [0, 256, 2 + 31 * 2 ^ 32] [] 0 0 r }

theorem witness_drain_runs :
    (∀ x ∈ [(Ty.f32, Lay.lin), (.f32, .trn), (.e4m3, .mxb)], let a := drainRec x.1 x.2 0; let b := drainRec x.1 x.2 2
     let s := streamer [a];
      (s.core 0).act? a.id = some a ∧ a.issued + 11 + 0 ≤ s.cycle (s.core 0)
      ∧ ((streamer [b]).core 0).act? b.id = some b ∧ b.due = none ∧ b.issued + 140 + 2 ≤ s.cycle (s.core 0))
    ∧ bits (2 + 31 * 2 ^ 32 : W64) 0 11 = 2 ∧ bits (2 + 31 * 2 ^ 32 : W64) 16 10 + 0 < 1024
    ∧ ({ slot .c with turn := .settle 6 } : State).booted = true := by
  decide +kernel

/-- A `grpbind` of slot 0, which stands as given. -/
def slotted (op : BindOp) (st : GState) : State := starting (chg (busy (arrayRec (.grpbind (plainHdr .c) op 0) [0] 0)) (fun c =>
  { c with slots := c.slots.set 0 { GSlot.reset with state := st } }))

/-- `grpbind` in each form on slots in each state; the words of accumulator rows. -/
theorem witness_groups_and_rows_start :
    (∀ op ∈ [BindOp.bind, .unbind, .rel], ∀ st ∈ [GState.empty, .checked, .bound, .faulted, .released],
      let s := slotted op st; let a := arrayRec (.grpbind (plainHdr .c) op 0) [0] 0;
      (s.core 0).act? 0 = some a ∧ (s.core 0).arrayReady a = true ∧ (s.atStart.core 0).loading 0 = false
      ∧ (s.core 0).grpAt[(0 : Fin 2)] ≠ s.cycle (s.core 0) + 1 ∧ ((s.atStart.core 0).slots[(0 : Fin 2)]).state = st)
    ∧ (∀ i ∈ [Instr.accnorm (plainHdr .c) 1, .accrd (tagged .c) 0 1 (tm .f32), .accwr (plainHdr .c) 1 0 (tm .f32 8)],
      let a : Act := { rec0 with seq := .c, body := .word i [0] [1, 0] 0x0100 0 0 };
      (((busy a).core 0).act? 0 = some a ∧ ((busy a).core 0).arrayReady a = true))
    ∧ (let p : Machine.Shape := ⟨bits (0x0100 : W64) 0 6 + 1, bits (0x0100 : W64) 8 8 + 1⟩;
      p.cols ≤ 128 ∧ (0 : W64).toNat + 1 * p.rows ≤ 1024 ∧ [1, 0].length = 1 * (p.rows * p.cols)) := by
  decide +kernel

def statRec : Act := arrayRec (.accstat (tagged .c) 3 0 0) [0] 0

/-- A `grpbind` of slot 0, which holds a checked group. -/
def bindable : State := starting (chg (busy (arrayRec (.grpbind (plainHdr .c) .bind 0) [0] 0)) (fun c =>
  { c with slots := c.slots.set 0 { GSlot.reset with state := .checked } }))

theorem witness_ArrayWordsRun :
    (starts (busy (arrayRec (.stswap (plainHdr .c)) [0] 0)) 0 0 (arrayRec (.stswap (plainHdr .c)) [0] 0) (.stswap (plainHdr .c)) [0] [] 0xFF00)
    ∧ (starts (busy (arrayRec (.gbuild (plainHdr .c) 1) [0] 0)) 0 0 (arrayRec (.gbuild (plainHdr .c) 1) [0] 0) (.gbuild (plainHdr .c) 1) [0] []
        0xFF00)
    ∧ ((busy (arrayRec (.gbuild (plainHdr .c) 1) [0] 0)).core 0).canBuild 0 = false
    ∧ ((filtered (arrayRec (.gbuild (plainHdr .c) 1) [0] 0)).core 0).canBuild 0 = true
    ∧ (starts (busy (arrayRec (.accinit (plainHdr .c) 1 2) [1024 * 2 ^ 16, 5] 0)) 0 0 (arrayRec (.accinit (plainHdr .c) 1 2) [1024 * 2 ^ 16, 5] 0)
        (.accinit (plainHdr .c) 1 2) [1024 * 2 ^ 16, 5] [] 0xFF00)
    ∧ (starts (busy statRec) 0 0 statRec (.accstat (tagged .c) 3 0 0) [0] [] 0xFF00)
    ∧ (starts (busy (arrayRec (.grpstat (tagged .c) 3 0) [0] 0)) 0 0 (arrayRec (.grpstat (tagged .c) 3 0) [0] 0) (.grpstat (tagged .c) 3 0) [0] []
        0xFF00)
    ∧ (starts bindable 0 0 (arrayRec (.grpbind (plainHdr .c) .bind 0) [0] 0)
        (.grpbind (plainHdr .c) .bind 0) [0] [] 0xFF00)
    ∧ (bindable.atStart.core 0).loading 0 = false ∧ (bindable.core 0).grpAt[(0 : Fin 2)] ≠ bindable.cycle (bindable.core 0) + 1
    ∧ ((bindable.atStart.core 0).slots[(1 : Fin 2)]).state ≠ .checked ∧ ((bindable.atStart.core 0).slots[(1 : Fin 2)]).state ≠ .bound
    ∧ ((bindable.atStart.core 0).slots[(0 : Fin 2)]).state = .checked
    ∧ (let a := arrayRec (.stswap (plainHdr .c)) [0] 1; let s : State := { busy a with pulse := 100 };
      (s.core 0).act? 0 = some a ∧ (s.core 0).arrayOver (s.cycle (s.core 0)) a = true ∧ a.push = none) := by
  refine ⟨⟨rfl, ?_, rfl⟩, ⟨rfl, ?_, rfl⟩, ?_, ?_, ⟨rfl, ?_, rfl⟩, ⟨rfl, ?_, rfl⟩, ⟨rfl, ?_, rfl⟩, ⟨rfl, ?_, rfl⟩, ?_, ?_⟩ <;> decide +kernel

/-- The trivial group (M 1, KG 1) passes its check; a table whose only product is 1 does not. -/
def groupBytes (tab : Nat) : List Nat := List.replicate 16 0 ++ [tab] ++ List.replicate 131 0
def groupRec (tab : Nat) : Act :=
  { rec0 with seq := .l, body := .word (.grpld (plainHdr .l) 1 0) [0, 1, 1] (groupBytes tab) 0 1 148 }

theorem witness_group_check :
    (let a := groupRec 0; let s : State := { busy a with pulse := 2000 };
      (s.core 0).act? 0 = some a ∧ a.image.map (fun x => (x.1, x.2.check.isNone)) = some (0, true)
      ∧ a.checkOver (s.cycle (s.core 0)) = true ∧ a.push = none ∧ a.handler = false)
    ∧ (groupRec 1).image.map (fun x => x.2.check.isSome) = some true := by
  decide +kernel

/-! ### Barriers -/

def inst : BarInst := { no := 1, ctx := 0, bar := 0, scope := 0, p := 1, phase := 0, parts := [⟨0, true, ([0], 1)⟩], break_ := none }
def barView (st : BState) : BarView := ⟨st, 0, 0, 1, 0, 1⟩
def barred (st : BState) : State := chg (slot .x) (fun c => { c with bars := c.bars.set 0 (barView st) })
def barWaits : Act := { rec0 with body := .word (.barwait (tagged .x) 3 0 0) [0] [] 0 0 0 }

theorem witness_BarrierWordsIssueTrapOrWait :
    (∀ opc ∈ [0x65, 0x66, 0x67, 0x68], (barred .armed).ready (tagged .x) opc = true)
    ∧ (let s := slot .x; let u : State := { s with free := s.free + 1 };
      (1 : Nat) ≤ u.setLimit s.me 1 ∧ bits (2 ^ 16 + 1 : W64) 5 11 = 0 ∧ bits (2 ^ 16 + 1 : W64) 32 32 = 0 ∧ bits (2 ^ 16 + 1 : W64) 16 16 = 1
      ∧ (s.me.scopes[(1 : Fin 32)]).valid = true ∧ bits (1 : W64) 16 16 = 0 ∧ (s.me.scopes[(6 : Fin 32)]).valid = false
      ∧ u.setLimit s.me 1 < bits (0xFFFF * 2 ^ 16 + 1 : W64) 16 16)
    ∧ (∀ st ∈ [BState.unconfigured, .broken, .partly, .armed, .released], ((barred st).me.bars[(0 : Bar)]).state = st)
    ∧ (barred .armed).me.acts.any (·.arrives 0) = false
    ∧ (let a := { rec0 with body := .word (.bararr (plainHdr .x) 0) [0, 0] [] 0 0 0 }; (busy a).me.acts.any (·.arrives 0) = true)
    ∧ (barred .released).releasesDone (barred .released).me .x 0 = true := by decide +kernel

/-- Core 1 has configured barrier 0 with a SET that core 0's of entry 1 meets, and P 2. -/
def inst1 : BarInst := { inst with scope := 1, p := 2, parts := [⟨1, false, (slot .x).setOf ((slot .x).core 0) 1⟩] }
def joined : State :=
  let s : State := { slot .x with barInsts := [inst1] }
  s.setCore { s.core 1 with bars := (s.core 1).bars.set 0 ⟨.armed, 0, 1, 2, 0, 1⟩ }

/-- A SET that meets no instance; one that joins another core's, which agrees, or differs in P; a core that leaves, alone and not. -/
theorem witness_barrier_configures :
    ((slot .x).core 0).bars[(0 : Bar)].state = .unconfigured ∧ (slot .x).instsOver 0 0 ((slot .x).setOf ((slot .x).core 0) 1) = []
    ∧ (let s := joined; let vs := (inst1.parts.filter (·.key != 0)).filterMap (fun q => s.partView inst1 q.key);
      ((s.core 0).bars[(0 : Bar)]).state = .unconfigured ∧ s.instsOver (s.core 0).ctxId 0 (s.setOf (s.core 0) 1) = inst1 :: []
      ∧ (s.barInsts.map (·.no)).Nodup ∧ vs.length = 1
      ∧ (∀ w ∈ vs, w.scope = 1 ∧ w.p = 2 ∧ w.state ≠ .broken) ∧ ¬ (2 : BitVec 16).toNat ≤ vs.length ∧ (1 : BitVec 16).toNat ≤ vs.length)
    ∧ (let s := chg joined (fun c => { c with bars := c.bars.set 0 ⟨.armed, 0, 1, 2, 0, 1⟩ });
      ((s.core 0).bars[(0 : Bar)]).scope = 1 ∧ ((s.core 0).bars[(0 : Bar)]).p = 2 ∧ ((s.core 0).bars[(0 : Bar)]).state = .armed
      ∧ s.inst? 1 = some inst1 ∧ inst1.parts.filter (·.key != 0) ≠ [] ∧ inst1.parts.filter (·.key != 1) = [])
    ∧ (let s : State := { barred .partly with barInsts := [inst] };
      ((s.core 0).bars[(0 : Bar)]).state ≠ .unconfigured ∧ s.inst? ((s.core 0).bars[(0 : Bar)]).inst = some inst
      ∧ inst.parts.filter (·.key != 0) = [] ∧ inst.parts.any (·.here) = true) := by
  decide +kernel

theorem witness_BarriersConfigureAndDecide :
     ((barred .armed).core 0).bars[(0 : Bar)].state = .armed
    ∧ (let s : State := { barred .partly with barInsts := [inst] };
      s.inst? 1 = some inst ∧ findCore s.cores 0 = some (s.core 0) ∧ ((s.core 0).bars[(0 : Bar)]).of inst = true
      ∧ inst.p.toNat ≤ (inst.parts.filter (·.here)).length)
    ∧ (let i := { inst with break_ := some 2 }; let s : State := { barred .armed with barInsts := [i] };
      s.inst? 1 = some i ∧ ((s.core 0).bars[(0 : Bar)]).of i = true ∧ ((s.core 0).bars[(0 : Bar)]).state ≠ .broken)
    ∧ (let s := chg (busy barWaits) (fun c => { c with bars := c.bars.set 0 (barView .partly) });
      (s.core 0).act? 0 = some barWaits ∧ (s.core 0).barTest 0 = none ∧ (0 : W64).toNat ≤ s.cycle (s.core 0) - barWaits.issued) := by
  decide +kernel

/-! ### Work lists and dispatch tables -/

def list (st : LState) : ListReg := { ListReg.reset with state := st, domain := 64 }
def listed (q : Seq) (st : LState) : State :=
  let s := slot q
  { s with hives := s.hives.set 0 { (s.hive 0) with lists := (s.hive 0).lists.set 1 (list st) } }

/-- L has a release to be made before a pop. -/
def released : State := chg (listed .l .ready) (fun c =>
  { c with acts := [{ rec0 with seq := .l, body := .combStore 5 { plainOrder with sem := .rel } .i64 [(0, 7)] }], nextAct := 1 })

theorem witness_ListWordsIssueOrTrap :
    (∀ opc ∈ [0x75, 0x76], (listed .x .ready).ready (plainHdr .x) opc = true) ∧ (∀ opc ∈ [0x68, 0x69], (listed .s .ready).ready (plainHdr .s) opc = true)
    ∧ (∀ opc ∈ [0x68, 0x69], (listed .l .ready).ready (tagged .l) opc = true)
    ∧ bits (2 ^ 2 : W64) 2 5 ≠ 0 ∧ bits (9 * 2 ^ 32 : W64) 32 5 = 9 ∧ bits (0 : W64) 32 5 = 0
    ∧ ((slot .x).readLists 0 0 0 0 0).badListPage 0 0 0 0 0 = none
    ∧ (((slot .x).readLists 0 0 (2 ^ 40) 64 0).badListPage 0 0 (2 ^ 40) 64 0).isSome = true ∧ canonicalVA (2 ^ 40) = true
    ∧ ((slot .x).listFor 0 0 1).state = .undefined ∧ ((listed .x .ready).listFor 0 0 1).state ≠ .undefined
    ∧ ((listed .x .ready).readLists 0 0 0 0 0).badListPage 0 0 0 0 0 = none
    ∧ (let s := slot .x
       let l := { list .ready with bitmapVA := 2 ^ 40 }
       let s : State := { s with hives := s.hives.set 0 { (s.hive 0) with lists := (s.hive 0).lists.set 1 l } };
      s.listFor 0 0 1 = l ∧ ((s.readLists 0 0 (2 ^ 40) 64 0).badListPage 0 l.spillVA l.bitmapVA (bits l.cfg 7 25) (bits l.cfg 32 5)).isSome = true
      ∧ bits l.cfg 7 25 = 64 ∧ s.ready (plainHdr .x) 0x76 = true)
    ∧ ((listed .s .ready).listFor 0 0 1).domain ≠ 0
    ∧ (wide.me.shape .c).elems * 16 = 16384 ∧ ((slot .l).me.shape .l).elems * 16 ≤ 8192
    ∧ ((listed .l .ready).listFor 0 0 1).owner.toNat = 0 % 4 ∧ ((listed .l .ready).listFor 0 0 0).state = .undefined
    ∧ bits (36 * 2 ^ 16 : W64) 16 6 = 36 ∧ bits (1 * 2 ^ 16 : W64) 16 6 = 1 ∧ bits (1 * 2 ^ 16 : W64) 22 42 = 0
    ∧ stealHive 0 (1 * 2 ^ 16) ≠ hiveOf 0
    ∧ (listed .l .ready).releasesDone (listed .l .ready).me .l (listed .l .ready).me.nextAct = true
    ∧ (∀ opc ∈ [0x68, 0x69], released.ready (tagged .l) opc = true)
    ∧ released.releasesDone released.me .l released.me.nextAct = false := by decide +kernel

theorem witness_ListsAndTablesTakeRoom :
    (list .ready).state = .ready ∧ (list .ready).entries.length < 4096 + (list .ready).spill
    ∧ 4096 + (list .ready).spill ≤ (List.replicate 4096 (0 : W64)).length
    ∧ (let s := slot .x
       let l := { list .ready with spillVA := 2 ^ 40, log2spill := 10, entries := [7] }
       let s : State := { s with hives := s.hives.set 0 { (s.hive 0) with lists := (s.hive 0).lists.set 1 l } };
      (s.list 0 1).state = .ready ∧ (s.readList (s.list 0 1)).listFails (s.list 0 1) = true ∧ (s.list 0 1).drops.toNat + (s.list 0 1).entries.length < 2 ^ 24)
    ∧ (let t := { DispTable.reset with nexp := 1, caps := [2], fill := [1], bases := [0], rcap := 1 };
      (0 : Nat) < t.nexp ∧ (t.fill.getD 0 0).toNat < (t.caps.getD 0 0).toNat ∧ 0 < t.fill.length ∧ t.rfill.toNat < t.rcap.toNat
      ∧ ¬ (1 < t.nexp) ∧ ¬ ({ t with rfill := 1 } : DispTable).rfill.toNat < t.rcap.toNat) := by decide +kernel

/-- A table of one expert at comb address 0: NEXP 1, and a valid one of rows of 64 bytes in the hive. -/
def table : DispTable := { DispTable.reset with valid := true, nexp := 1, rowsz := 64, caps := [4], fill := [0], bases := [0] }
def tabled (q : Seq) : State :=
  let s := slot q
  { s with hives := s.hives.set 0 { (s.hive 0) with tables := (s.hive 0).tables.set 1 table } }
/-- S's shape is 4 rows of 32 bytes' worth of i16. -/
def rowed : State := chg (tabled .s) (fun c => c.setSeq .s { c.seq .s with shp := 0x1F03 })

/-- A descriptor of one expert and rows of 64 bytes at comb address 0. -/
def tableDesc : State := chg (slot .x) (fun c => { c with comb := c.comb.writeNat 0 8 (1 + 64 * 2 ^ 32) })

theorem witness_DispatchWordsIssueOrTrap :
    (∀ opc ∈ [0x77, 0x78], (tabled .x).ready (plainHdr .x) opc = true) ∧ rowed.ready (tagged .s) 0x6A = true
    ∧ (let x := 0x18_0000 - 16; x % 16 = 0 ∧ 0x18_0000 < x + 48) ∧ 8 % 16 ≠ 0
    ∧ (slot .x).me.combWriting .x = false ∧ (slot .x).combWaits (slot .x).me .x = false ∧ dispHeadBad (slot .x).me 0 = true
    ∧ tableDesc.ready (plainHdr .x) 0x77 = true ∧ tableDesc.me.combWriting .x = false ∧ tableDesc.combWaits tableDesc.me .x = false
    ∧ 0 + 48 + 16 * tableDesc.me.combNat 0 4 ≤ 0x18_0000 ∧ dispHeadBad tableDesc.me 0 = false
    ∧ (∀ e, e < tableDesc.me.combNat 0 4 → dispEntryBad tableDesc.me (0 + 48 + 16 * e) = false)
    ∧ (let s := chg tableDesc (fun c => { c with comb := c.comb.writeBytes 48 [1] }); dispEntryBad s.me (0 + 48 + 16 * 0) = true
        ∧ (0 : Nat) < s.me.combNat 0 4)
    ∧ (let s := chg (slot .x) (fun c => { c with comb := c.comb.writeNat 0x17_FFD0 8 (1 + 64 * 2 ^ 32) });
      0x17_FFD0 % 16 = 0 ∧ 0x17_FFD0 + 48 ≤ 0x18_0000 ∧ dispHeadBad s.me 0x17_FFD0 = false
      ∧ 0x18_0000 < 0x17_FFD0 + 48 + 16 * s.me.combNat 0x17_FFD0 4)
    ∧ (let s := combHeld .x; s.ready (plainHdr .x) 0x77 = true ∧ s.combWaits s.me .x = true)
    ∧ (let s := chg rowed (fun c => c.setSeq .s { c.seq .s with shp := 0x1F1F }); 8192 < (s.me.shape .s).elems * 16
        ∧ s.ready (tagged .s) 0x6A = true)
    ∧ (let p := rowed.me.shape .s;
      p.elems * 4 ≤ 8192 ∧ p.cols * 4 = 2 * (rowed.tableFor 0 0 1).rowsz ∧ (rowed.tableFor 0 0 1).valid = true ∧ 1 * p.rows ≤ 1024
      ∧ p.cols * 2 ≠ 2 * (rowed.tableFor 0 0 1).rowsz ∧ (rowed.tableFor 0 0 0).valid = false)
    ∧ (0 : Nat) % 4 = 0 ∧ 0 + 4 * (((tabled .x).tableFor 0 0 1).nexp + 2) ≤ 0x18_0000 ∧ 2 % 4 ≠ 0
    ∧ 0x18_0000 < 0x17_FFFC + 4 * (((tabled .x).tableFor 0 0 1).nexp + 2) := by decide +kernel

/-! ### Kernels, tasks and launch -/

/-- A kernel (number 1 of launch queue 0) of one persistent stage of which one core is wanted. -/
def stage : Stage :=
  { vas := Vector.replicate 4 0, lens := Vector.replicate 4 1, ents := Vector.replicate 4 0, imgVA := 0, imgLen := 0, live := 0
    out := Vector.replicate 2 none, minc := 1, maxc := 1, persist := true, heart := 1000, budget := 0 }
def kernel (started : Nat) (aborted : Bool) : Kernel :=
  { lq := 0, no := 1, cls := 0, fault := false, stages := [stage], qvas := [0], qlog2 := [0], queues := [[]], puts := [0], fills := [0]
    started := [started], aborted := aborted, since := 0, aged := false, wanting := 0 }
def entry (st : EState) (nb : Nat) : LaunchEntry := ⟨1, st, leBytes 128 (nb * 2 ^ 64), 0, false⟩
/-- Launch queue 0 of context 0 has 16 slots, its words at VA 0x200000, and one entry; context 0 has one kernel at most. -/
def launching (es : List LaunchEntry) (ks : List Kernel) : State :=
  let s := slot .x
  let x := s.ctx 0
  s.setCtx 0 { x with lqs := x.lqs.set 0 { LaunchQueue.reset with valid := true, log2n := 4, doneVA := 0x20_0000, entries := es }, kernels := ks
                      partMask := 1 }

theorem witness_KernelWordsIssueOrTrap :
    (∀ opc ∈ [0x6F, 0x70, 0x71, 0x72, 0x73, 0x74, 0x7C], (slot .x).ready (tagged .x) opc = true) ∧ (slot .x).me.task = some placedTask
    ∧ placedTask.persist = false ∧ ({ placedTask with persist := true } : Task).persist = true ∧ placedTask.out[(0 : Fin 2)] = none
    ∧ (({ placedTask with out := Vector.replicate 2 (some 1) } : Task).out[(0 : Fin 2)]) ≠ none
    ∧ ((slot .x).lq 0 0).valid = false ∧ ((launching [] []).lq 0 0).valid = true ∧ (64 : W64).toNat % 128 ≠ 0 ∧ (0x17_FF80 : W64).toNat % 128 = 0
    ∧ (0x17_FF80 : W64).toNat + 128 ≤ 0x18_0000 ∧ 0x18_0000 < (0x18_0000 : W64).toNat + 128 ∧ (0x18_0000 : W64).toNat % 128 = 0 ∧ (0 : W64).toNat ≤ (slot .x).dtime.toNat
    ∧ (32 : W64).toNat % 64 ≠ 0 ∧ (0x17_FFC0 : W64).toNat % 64 = 0 ∧ (0x17_FFC0 : W64).toNat + 64 ≤ 0x18_0000
    ∧ (0x18_0000 : W64).toNat % 64 = 0 ∧ 0x18_0000 < (0x18_0000 : W64).toNat + 64 ∧ (16 : W64).toNat % 32 ≠ 0
    ∧ (0x17_FFE0 : W64).toNat % 32 = 0 ∧ (0x17_FFE0 : W64).toNat + 32 ≤ 0x18_0000 ∧ (0x18_0000 : W64).toNat % 32 = 0
    ∧ 0x18_0000 < (0x18_0000 : W64).toNat + 32
    ∧ (slot .x).dtime.toNat < (1 : W64).toNat ∧ bits (2 ^ 8 : W64) 8 56 ≠ 0 ∧ bits (255 : W64) 8 56 = 0
    ∧ inHandler.ready (plainHdr .x) 0x7C = true ∧ ((slot .x).ctx 0).state ≠ .draining
    ∧ ((launching [] []).asked 0 (launching [] []).pulse).contains 0 = false
    ∧ (((slot .x).setCtx 0 { (slot .x).ctx 0 with state := .draining }).ctx 0).state = .draining := by decide +kernel

theorem witness_LaunchEntriesAdvance :
    (let s := launching [entry .queued 0] []; s.headEntry 0 0 = some (entry .queued 0) ∧ (entry .queued 0).state = .queued)
    ∧ (let s := launching [entry .waiting 0] [];
      s.headEntry 0 0 = some (entry .waiting 0) ∧ (entry .waiting 0).notBefore ≤ s.dtime.toNat ∧ s.depMet 0 (entry .waiting 0) = true)
    ∧ (let s := launching [entry .waiting 1] [];
      s.headEntry 0 0 = some (entry .waiting 1) ∧ s.dtime.toNat < (entry .waiting 1).notBefore)
    ∧ (let e : LaunchEntry := ⟨1, .waiting, leBytes 128 (2 ^ 192 + 2 ^ 241), 0, false⟩; let s := launching [e] [];
      s.headEntry 0 0 = some e ∧ s.depMet 0 e = false ∧ e.notBefore = 0)
    ∧ (let s := (launching [] []).setCtx 0 { (launching [] []).ctx 0 with state := .suspended };
      (s.lq 0 0).valid = true ∧ (s.ctx 0).state ≠ .running)
    ∧ (let s := (launching [] []).setCtx 0 { (launching [] []).ctx 0 with partMask := 0xFF }; (s.lq 0 0).refused = false ∧ (s.ctx 0).state = .running ∧ (s.vaRead 0 ((s.lq 0 0).doneVA + 4) 4).1.isSome = true
      ∧ (s.lq 0 0).valid = true
      ∧ (s.lq 0 0).size < ((s.lq 0 0).accepted - (s.lq 0 0).done).toNat + (17 - (s.lq 0 0).accepted : W32).toNat
      ∧ ((s.lq 0 0).accepted - (s.lq 0 0).done).toNat + (16 - (s.lq 0 0).accepted : W32).toNat ≤ (s.lq 0 0).size)
    ∧ (let s : State := { launching [] [{ kernel 0 false with cls := 1 }] with pulse := 10000 * 2250 + 1 };
      s.mayAge 0 0 = true ∧ s.kernel? 0 0 = some { kernel 0 false with cls := 1 }) := by
  decide +kernel

theorem witness_KernelsAndTasksEnd :
    (let s := launching [] [kernel 1 false]; s.kernel? 0 0 = some (kernel 1 false) ∧ (s.ctx 0).state = .running ∧ s.kernelOver 0 (kernel 1 false) = true)
    ∧ (let s := launching [] [kernel 1 true]; s.kernel? 0 0 = some (kernel 1 true) ∧ s.abortOver 0 (kernel 1 true) = true)
    ∧ (let s := chg (busy { rec0 with body := .exit }) (fun c =>
          [Seq.l, .c, .s].foldl (fun c q => c.setSeq q { c.seq q with status := .ended }) c);
      (s.core 0).taskOver = true ∧ (s.core 0).stop = none)
    ∧ (let s := chg (launching [] [kernel 1 false]) (fun c => { c with stop := some .abort });
      (s.core 0).taskOver = true ∧ (s.core 0).stop = some .abort ∧ (s.core 0).task = some placedTask
      ∧ s.kernel? placedTask.ctx placedTask.lq = some (kernel 1 false) ∧ (kernel 1 false).lq = placedTask.lq ∧ (kernel 1 false).aborted = false)
    ∧ (let s : State := { slot .x with pulse := 1000000 * 2250 };
      (s.core 0).task = some placedTask ∧ placedTask.expired s.pulse = true ∧ (s.ctx placedTask.ctx).state = .running)
    ∧ (let a := { rec0 with body := .word (.twaitt (plainHdr .x) 1) [0] [] 0 0 0 };
      ((busy a).core 0).act? 0 = some a ∧ (busy a).timeReached a = true) := by decide +kernel

/-- A core with no task in the context's partition, work for it, and a core of class 1 that class-0 work wants. -/
def wanting : State :=
  let s : State := { launching [] [{ kernel 0 false with stages := [{ stage with minc := 1000, maxc := 1000 }] }] with pulse := 225000 }
  chg s (fun c => { c with task := some { placedTask with cls := 1 } })
def wantedBack : State := chg (launching [] []) (fun c => { c with stop := some .forced })

theorem witness_ctxyield_is_asked :
    (wanting.asked 0 wanting.pulse).contains 0 = true ∧ wanting.ready (plainHdr .x) 0x7C = true ∧ (wanting.ctx 0).state ≠ .draining
    ∧ wanting.me.id = 0 ∧ wanting.me.task.isSome = true ∧ wanting.me.inHandler = false := by decide +kernel

/-- A stage of items, with one that can be taken; and a task of the kernel, with traps `ts` pending, saved in slot 0. -/
def itemed : State :=
  { launching [] [{ kernel 0 false with stages := [{ stage with persist := false }], queues := [[⟨0, 0⟩]], puts := [1], fills := [1] }] with pulse := 1 }
def savedTask (ts : List Trap) : Saved :=
  ⟨0, { (slot .x).core 0 with task := some { placedTask with kseq := 1, persist := true }, pending := ts }⟩
def resuming? (ts : List Trap) : State :=
  let s := launching [] [kernel 1 false]
  (s.setCore { s.core 0 with task := none }).setCtx 0 { s.ctx 0 with saved := [savedTask ts] }

theorem witness_items_and_saved_tasks :
    (let s := itemed; let u := served s 0 0;
      s.grantFor 5 = some (0, 0) ∧ (u.kernel? 0 0).bind (u.chooseStage 0) = some 0
      ∧ (u.kernel? 0 0).map (fun k => (u.savedOf 0 k 0, (u.takable k 0).length)) = some ([], 1))
    ∧ (∀ ts ∈ [([] : List Trap), [⟨.l, .software, 5, 9⟩]], let s := resuming? ts; let u := served s 0 0;
      s.grantFor 5 = some (0, 0) ∧ u.kernel? 0 0 = some (kernel 1 false) ∧ u.chooseStage 0 (kernel 1 false) = some 0
      ∧ u.savedOf 0 (kernel 1 false) 0 = [savedTask ts] ∧ (savedTask ts).core.task.isSome = true ∧ (savedTask ts).core.pending = ts) := by
  decide +kernel

theorem witness_CoresAreGrantedAndSaved :
    (let s := launching [] [kernel 0 false]; let u := served s 0 0;
      s.readyClass 0 0 = some (0, 0) ∧
      s.grantFor 5 = some (0, 0) ∧ u.kernel? 0 0 = some (kernel 0 false) ∧ u.chooseStage 0 (kernel 0 false) = some 0
      ∧ u.savedOf 0 (kernel 0 false) 0 = [] ∧ (kernel 0 false).stages[0]? = some stage)
    ∧ (wantedBack.core 0).task.isSome = true ∧ wantedBack.saveDue (wantedBack.core 0) = true := by decide +kernel

theorem witness_core_is_wanted_back :
    (wanting.core 0).task.isSome = true ∧ wanting.saveDue (wanting.core 0) = false ∧ wanting.forceDue 0 = true
    ∧ (wanting.core 0).inHandler = false ∧ (wanting.core 0).stop = none := by decide +kernel

/-! ### Contexts -/

/-- Context 0 in state `st` of partition 0, with command `k` on it in progress and a descriptor at physical address 0x100000. -/
def commanded (k : Nat) (st : CState) : State :=
  let s := slot .x
  let x := s.ctx 0
  { s.setCtx 0 { x with state := st, partMask := 1 } with
      cmd := some (k, 0, 0x10_0000), mem := s.mem.writeBytes 0x10_0000 ([1] ++ List.replicate 39 0 ++ [4] ++ List.replicate 4055 0) }
/-- The same, with context 1 in `st1` of partition mask `m1`. -/
def beside (k : Nat) (st st1 : CState) (m1 : Byte) : State :=
  let s := commanded k st
  s.setCtx 1 { s.ctx 1 with state := st1, partMask := m1 }

theorem witness_ContextCommandsLead :
    (∀ k ∈ [1, 2, 3, 4, 5, 6, 7, 8, 9, 10], ∀ st ∈ [CState.free, .created, .bound, .running, .suspended, .faulted, .draining, .destroyed],
      (commanded k st).cmd = some (k, 0, 0x10_0000) ∧ ((commanded k st).ctx 0).state = st ∧ (commanded k st).partReset = [])
    ∧ (beside 3 .created .bound 3).partClash 0 = true ∧ (commanded 3 .created).partClash 0 = false
    ∧ (beside 4 .bound .running 1).partBusy 0 = true ∧ (commanded 4 .bound).partBusy 0 = false := by decide +kernel

theorem witness_descriptor_reads :
    ((commanded 1 .free).loadDesc { Ctx.reset with podCtx := ((commanded 1 .free).ctx 0).podCtx, fqReread := 0 } 0x10_0000 none).isSome = true
    ∧ ((commanded 2 .bound).loadDesc ((commanded 2 .bound).ctx 0) 0x10_0000 (some ((commanded 2 .bound).ctx 0).partMask)).isSome = true
    ∧ (let s : State := { commanded 1 .free with mem := (slot .x).mem };
      s.cmd = some (1, 0, 0x10_0000)
      ∧ s.loadDesc { Ctx.reset with podCtx := (s.ctx 0).podCtx, fqReread := s.pulse } 0x10_0000 none = none)
    ∧ (let s : State := { commanded 2 .bound with mem := (commanded 2 .bound).mem.writeBytes 0x10_0028 [99] };
      s.loadDesc (s.ctx 0) 0x10_0000 (some (s.ctx 0).partMask) = none)
    ∧ (∀ b ∈ [true, false], let s := commanded 7 .draining; let s := s.setCtx 0 { s.ctx 0 with drain := some ⟨b, 0⟩ };
      s.cmd = some (7, 0, 0x10_0000) ∧ (s.ctx 0).drain = some ⟨b, 0⟩ ∧ (s.ctx 0).state = .draining) := by
  decide +kernel

/-- Context 0 drains: its one core stands, or still runs after 200 µs. -/
def draining (stopped : Bool) : State :=
  let s := chg (slot .x) (fun c => if stopped then { c with stop := some .suspend } else c)
  s.setCtx 0 { s.ctx 0 with state := .draining, drain := some ⟨true, 0⟩, partMask := 1 }

theorem witness_DrainsScrubsAndResetsComplete :
    (((draining true).ctx 0).drain = some ⟨true, 0⟩ ∧ (draining true).drainOver 0 = true)
    ∧ (let s : State := { draining false with pulse := 200 * 2250 };
      (s.ctx 0).drain = some ⟨true, 0⟩ ∧ s.drainLate 0 = true ∧ ∀ c ∈ s.tasksOf 0, c.inHandler = false)
    ∧ (let s := commanded 9 .destroyed; (s.ctx 0).state = .destroyed ∧ s.mem.wf = true)
    ∧ (let s : State := { commanded 10 .bound with partReset := [(0, 0)], pulse := 2000 * 2250 + 1 };
      (s.partReset.any (fun p => p.1 == 0)) = true ∧ (0 : Fin 64) ∈ s.boundTo 0 ∧ (0, 0) ∈ s.partReset ∧ 0 + 2000 * 2250 < s.pulse) := by
  decide +kernel

/-- An `mma` that has streamed no row yet: one row, no group. -/
def streaming : Act := arrayRec (.mma (plainHdr .c) 1 2 3 (am .i8)) [0, 32, 1] 1

theorem witness_FaultQueueAndErrors :
    ((slot .x).ctx 0).state = .running ∧ ((slot .x).ctx 0).state ≠ .free ∧ ((slot .x).ctx 0).state ≠ .destroyed
    ∧ ((slot .x).core 0).issuing .x = true ∧ ((slot .x).core 0).raised = [] ∧ ((slot .c).core 0).issuing .c = true
    ∧ ((slot .c).core 0).streamingWord = none
    ∧ (((busy streaming).core 0).streamingWord.map (fun p => (p.1, p.2.1))) = some (streaming, 0) ∧ streaming.handler = false
    ∧ ((busy streaming).core 0).raised = [] := by decide +kernel

/-! ### Time, peers, the host, power -/

theorem witness_DeviceTimeIsCorrected :
    -(2 ^ 31) ≤ (1000 : Int) ∧ (1001 : Int) < 2 ^ 31 ∧ (1000 : Int).natAbs ≤ 1000 ∧ 1000 < (-1001 : Int).natAbs
    ∧ bitSet State.reset.timeCtl.toNat 0 = false ∧ bitSet State.reset.timeCtl.toNat 1 = false ∧ State.reset.timeLock = 0
    ∧ bitSet ({ State.reset with timeCtl := 3 } : State).timeCtl.toNat 0 = true
    ∧ bitSet ({ State.reset with timeCtl := 3 } : State).timeCtl.toNat 1 = true ∧ ({ State.reset with timeLock := 1 } : State).timeLock ≠ 0 := by
  decide +kernel

/-- A RAW page at physical address 0. -/
def rawPage : RemotePage := ⟨0, 0, 2, 0, 0, 0⟩

def flit : Flit :=
  { seq := 1, ack := 0, tc := 0, dpkg := 0, spkg := 1, hops := 0, podCtx := 0, crcOk := true, body := [], answers := [] }
/-- Port 0 is up and belongs to the partition that context 0, bound with tag 7, runs in. -/
def porting : State :=
  let s := slot .x
  let s := s.setCtx 0 { s.ctx 0 with partMask := 1, podCtx := 7 }
  { s with ports := s.ports.set 0 { Port.reset with up := true }, portPart := s.portPart.set 0 1 }

theorem witness_PeersStepAndAreAnswered :
    (porting.portLive 0 = true ∧ (porting.ports[(0 : Fin 12)]).unacked = [] ∧ flit.body = [] ∧ flit.dpkg.val = porting.pkg
      ∧ flit.seq = (porting.ports[(0 : Fin 12)]).rxSeq + 1)
    ∧ porting.admitting 9 (.combWrite 0 0 [] none) = none
    ∧ (let s : State := { porting with route := porting.route.set 1 0x1FF };
      s.routePort 0 1 = none ∧ ({ s with route := s.route.set 1 0x1F0 } : State).routePort 0 1 = some 0)
    ∧ (∀ op ∈ [RemoteOp.combWrite 0 0 [1] none, .combWrite 3 0x17_FFFF [1] none],
        porting.admitting 7 op = some 0 ∧ porting.remoteAway 0 op = false ∧ porting.remotePoisoned 0 op = none)
    ∧ (∀ op ∈ [RemoteOp.load 0 8, .store 0 [1], .atomic .add true 0 1, .loadElem rawPage 0 .i32],
        (let s := porting.setCtx 0 { porting.ctx 0 with partMask := 0xFF };
          s.admitting 7 op = some 0 ∧ s.remoteAway 0 op = false ∧ s.remotePoisoned 0 op = none)) := by
  decide +kernel

theorem witness_HostActs :
    bitSet State.reset.ctxRes.toNat 63 = true ∧ bitSet ({ State.reset with ctxRes := 0 } : State).ctxRes.toNat 63 = false
    ∧ 1 ≤ bits (1 : W64) 0 4 ∧ bits (10 : W64) 0 4 ≤ 10 ∧ State.reset.winBase.toNat + 0 + 8 ≤ 864 * 10 ^ 9
    ∧ 864 * 10 ^ 9 - 8 + 8 ≤ 864 * 10 ^ 9 ∧ 864 * 10 ^ 9 < 864 * 10 ^ 9 - 7 + 8
    ∧ (let s : State := { State.reset with linkA := true, cxlA := true }; s.linkA = true ∧ s.cxlA = true)
    ∧ (State.reset.linkA && ({ State.reset with cxlA := false } : State).cxlA) = false := by decide +kernel

theorem witness_PowerSteps : State.reset.booted = true ∧ (slot .x).boundTo 0 ≠ [] ∧ State.reset.boundTo 0 = []
    ∧ (let s : State := { State.reset with parts := State.reset.parts.set 0 { State.reset.parts[(0 : Fin 8)] with forecast := true, level := 3 } };
      (s.parts[(0 : Fin 8)]).forecast = true ∧ (s.parts[(0 : Fin 8)]).level < (4 : Fin 16))
    ∧ ((slot .x).parts[(0 : Fin 8)]).forecast = false ∧ (slot .x).partOf 0 = 0 := by decide +kernel

theorem witness_TelemetryAndTrustStep :
    State.reset.booted = true ∧ State.reset.powered = true
    ∧ (let s : State := { State.reset with fwSlots := Vector.replicate 2 (some FwImage.first) };
      s.fwSlots[(0 : Fin 2)] = some FwImage.first ∧ s.fwSlots[(1 : Fin 2)] = some FwImage.first ∧ s.powered = true) := by decide +kernel
end Sys2Proof.Tests
end

section
/-! PROOFS. The movement words (R115 to R119) and the mask, predicate and amax words (R122 to R125): what each shared form of a word
answers at a ready slot, how elements lie in a group, and the two families' statements. -/
namespace Sys2Proof.Machine.MoveAndMask

/-! ### Elements of registers and groups

First the equations of bytesToElems: half-byte elements, two to a byte, and elements of whole bytes. -/

theorem bytesToElems_half_nil (n : Nat) : bytesToElems 1 (n + 1) [] = 0 :: bytesToElems 1 n [] := rfl
theorem bytesToElems_half_last (b : Byte) (t : List Byte) : bytesToElems 1 1 (b :: t) = [b.toNat % 16] := rfl
theorem bytesToElems_half_cons (n : Nat) (b : Byte) (t : List Byte) :
    bytesToElems 1 (n + 2) (b :: t) = b.toNat % 16 :: b.toNat / 16 :: bytesToElems 1 n t := rfl
theorem bytesToElems_whole {hb : Nat} (h : hb ≠ 1) (n : Nat) (bs : List Byte) :
    bytesToElems hb (n + 1) bs = leNat (bs.take (hb / 2)) :: bytesToElems hb n (bs.drop (hb / 2)) := by
  delta bytesToElems
  exact if_neg h

theorem length_bytesToElems_half : ∀ (n : Nat) (bs : List Byte), (bytesToElems 1 n bs).length = n
  | 0, _ => rfl
  | n + 1, [] => by rw [bytesToElems_half_nil, List.length_cons, length_bytesToElems_half n]
  | 1, b :: t => by rw [bytesToElems_half_last, List.length_singleton]
  | n + 2, b :: t => by rw [bytesToElems_half_cons, List.length_cons, List.length_cons, length_bytesToElems_half n]

theorem length_bytesToElems (hb n : Nat) (bs : List Byte) : (bytesToElems hb n bs).length = n := by
  by_cases h : hb = 1
  · rw [h, length_bytesToElems_half]
  · induction n generalizing bs with
    | zero => rfl
    | succ n ih => rw [bytesToElems_whole h, List.length_cons, ih]

@[simp] theorem length_tileElems (c : Core) (t : TReg) (k n hb : Nat) : (c.tileElems t k n hb).length = n :=
  length_bytesToElems _ _ _

theorem rows_pos (c : Core) (q : Seq) : 0 < (c.shape q).rows := Nat.succ_pos _
theorem cols_pos (c : Core) (q : Seq) : 0 < (c.shape q).cols := Nat.succ_pos _

theorem length_flatMap_range {α : Type} {f : Nat → List α} {n : Nat} (hf : ∀ k, (f k).length = n) (gl : Nat) :
    ((List.range gl).flatMap f).length = gl * n := by
  simp only [List.length_flatMap, hf, List.map_const', List.sum_replicate_nat, List.length_range]

/-- In a concatenation of blocks of one length, element k × n + j is element j of block k. -/
theorem getElem?_flatMap_range {α : Type} {f : Nat → List α} {n : Nat} (hf : ∀ k, (f k).length = n) {gl k j : Nat}
    (hk : k < gl) (hj : j < n) : ((List.range gl).flatMap f)[k * n + j]? = (f k)[j]? := by
  induction gl with
  | zero => omega
  | succ gl ih =>
    have hlen := length_flatMap_range hf gl
    rw [List.range_succ, List.flatMap_append, List.flatMap_singleton]
    obtain hlt | rfl : k < gl ∨ k = gl := by omega
    · have hin : k * n + j < gl * n := Nat.lt_of_lt_of_le (by rw [Nat.succ_mul]; omega) (Nat.mul_le_mul_right n hlt)
      rw [List.getElem?_append_left (hlen ▸ hin), ih hlt]
    · rw [List.getElem?_append_right (by omega), hlen, Nat.add_sub_cancel_left]

theorem getD_flatMap_range {α : Type} {f : Nat → List α} {n : Nat} (hf : ∀ k, (f k).length = n) (x : α) {gl k j : Nat}
    (hk : k < gl) (hj : j < n) : ((List.range gl).flatMap f).getD (k * n + j) x = (f k).getD j x := by
  rw [List.getD_eq_getElem?_getD, getElem?_flatMap_range hf hk hj, List.getD_eq_getElem?_getD]

/-! ### Broadcasts of a row or a column (R115) and the transposition (R116), register by register -/

section
variable (p : Shape) (xs : List Nat)

/-- The elements of a register whose every row is row 0 of `xs`. -/
def broadcastRow : List Nat := (List.range p.rows).flatMap (fun _ => xs.take p.cols)
/-- The elements of a register whose every column is column 0 of `xs`. -/
def broadcastCol : List Nat := (List.range p.rows).flatMap (fun r => List.replicate p.cols (xs.getD (r * p.cols) 0))
/-- Element (x, y) of `xs` at place y × rows + x. -/
def transposed : List (Option Nat) :=
  (List.range p.elems).map (fun i => some (xs.getD (i % p.rows * p.cols + i / p.rows) 0))

variable {p xs}

theorem length_take_cols (hr : 0 < p.rows) (hx : xs.length = p.elems) : (xs.take p.cols).length = p.cols := by
  rw [List.length_take, hx]
  exact Nat.min_eq_left (Nat.le_mul_of_pos_left _ hr)

theorem length_broadcastRow (hr : 0 < p.rows) (hx : xs.length = p.elems) : (broadcastRow p xs).length = p.elems :=
  length_flatMap_range (fun _ => length_take_cols hr hx) _

theorem length_broadcastCol : (broadcastCol p xs).length = p.elems :=
  length_flatMap_range (fun _ => List.length_replicate) _

theorem length_transposed : (transposed p xs).length = p.elems := by rw [transposed, List.length_map, List.length_range]

theorem place_lt {x y : Nat} (hx : x < p.rows) (hy : y < p.cols) : y * p.rows + x < p.elems :=
  calc y * p.rows + x < (y + 1) * p.rows := by rw [Nat.succ_mul]; omega
    _ ≤ p.cols * p.rows := Nat.mul_le_mul_right _ hy
    _ = p.elems := Nat.mul_comm _ _

theorem row_lt {j : Nat} (hj : j < p.elems) : j / p.cols < p.rows := Nat.div_lt_of_lt_mul (Nat.mul_comm p.rows p.cols ▸ hj)

theorem getD_broadcastRow (hr : 0 < p.rows) (hc : 0 < p.cols) (hx : xs.length = p.elems) {j : Nat} (hj : j < p.elems) :
    (broadcastRow p xs).getD j 0 = xs.getD (j % p.cols) 0 := by
  have hm : j % p.cols < p.cols := Nat.mod_lt _ hc
  calc (broadcastRow p xs).getD j 0
      = (broadcastRow p xs).getD (j / p.cols * p.cols + j % p.cols) 0 := by rw [Nat.div_add_mod']
    _ = (xs.take p.cols).getD (j % p.cols) 0 :=
        getD_flatMap_range (fun _ => length_take_cols hr hx) 0 (row_lt hj) hm
    _ = xs.getD (j % p.cols) 0 := by rw [List.getD_eq_getElem?_getD, List.getElem?_take_of_lt hm, List.getD_eq_getElem?_getD]

theorem getD_broadcastCol (hc : 0 < p.cols) {j : Nat} (hj : j < p.elems) :
    (broadcastCol p xs).getD j 0 = xs.getD (j / p.cols * p.cols) 0 := by
  have hm : j % p.cols < p.cols := Nat.mod_lt _ hc
  calc (broadcastCol p xs).getD j 0
      = (broadcastCol p xs).getD (j / p.cols * p.cols + j % p.cols) 0 := by rw [Nat.div_add_mod']
    _ = (List.replicate p.cols (xs.getD (j / p.cols * p.cols) 0)).getD (j % p.cols) 0 :=
        getD_flatMap_range (fun _ => List.length_replicate) 0 (row_lt hj) hm
    _ = xs.getD (j / p.cols * p.cols) 0 := by
        rw [List.getD_eq_getElem?_getD, List.getElem?_replicate_of_lt hm, Option.getD_some]

theorem getD_transposed {x y : Nat} (hx : x < p.rows) (hy : y < p.cols) :
    (transposed p xs).getD (y * p.rows + x) none = some (xs.getD (x * p.cols + y) 0) := by
  have hlt := place_lt hx hy
  have hmod : (y * p.rows + x) % p.rows = x := by rw [Nat.mul_add_mod', Nat.mod_eq_of_lt hx]
  have hdiv : (y * p.rows + x) / p.rows = y := by
    rw [Nat.mul_comm, Nat.mul_add_div (by omega), Nat.div_eq_of_lt hx, Nat.add_zero]
  rw [transposed, List.getD_eq_getElem?_getD, List.getElem?_map, List.getElem?_range hlt, Option.map_some, Option.getD_some, hmod, hdiv]

end

/-! ### What a ready slot answers, by the form of the word -/

section
variable {s : State} {h : Hdr} {opc : Nat} (hr : s.ready h opc = true)
include hr

/-- A tile word whose registers hold the shape issues (R49, R94). -/
theorem tileWord_of_fits {hb : Nat} (hf : (s.me.shape h.eng).elems * hb ≤ 8192) (base gl : Nat)
    (out : Core → Shape → List Write) :
    s.tileWord h opc base gl hb noLim out
      = issued s h opc { lat := some (base + beats gl (s.me.shape h.eng) hb), writes := out s.me (s.me.shape h.eng) } := by
  have hfit : (s.me.shape h.eng).fits hb = true := decide_eq_true hf
  rw [State.tileWord, State.issue_ready hr]
  simp only [hfit, noLim, Bool.not_true, Bool.false_eq_true, if_false, Judged.outcome_go, issued]

/-- One whose registers do not hold the shape traps (R94). -/
theorem tileWord_of_not_fits {hb : Nat} (hf : ¬ (s.me.shape h.eng).elems * hb ≤ 8192) (base gl : Nat)
    (out : Core → Shape → List Write) : s.tileWord h opc base gl hb noLim out = trapped s h .illegal 0x0C := by
  have hfit : (s.me.shape h.eng).fits hb = false := decide_eq_false hf
  rw [State.tileWord, State.issue_ready hr]
  simp only [hfit, Bool.not_false, if_true, Judged.outcome_illegal, BitVec.ofNat_eq_ofNat]

theorem tileMap_eq_tileOut (base : Nat) (m : TMod) (d : TReg) (f : Core → Nat → List Nat) :
    s.tileMap h opc base m d f = tileOut s h opc base m d (f s.me) := by
  by_cases hf : (s.me.shape h.eng).elems * m.ty.halfBytes ≤ 8192
  · rw [State.tileMap, tileWord_of_fits hr hf]
    exact (if_pos hf).symm
  · rw [State.tileMap, tileWord_of_not_fits hr hf]
    exact (if_neg hf).symm

theorem packWord_of_fits {m : TMod} (hf : (s.me.shape h.eng).elems * m.ty.halfBytes ≤ 8192) (d : TReg)
    (f : Core → Nat → List (Option Nat)) :
    s.packWord h opc d m f
      = issued s h opc { lat := some 4
                         writes := tileWrites d (m.gl.val + 1) (s.me.shape h.eng).elems m.ty.halfBytes
                           (f s.me (s.me.shape h.eng).elems) } := by
  have hfit : (s.me.shape h.eng).fits m.ty.halfBytes = true := decide_eq_true hf
  rw [State.packWord, State.issue_ready hr]
  simp only [hfit, Bool.not_true, Bool.false_eq_true, if_false, Judged.outcome_go, issued]

theorem packWord_of_not_fits {m : TMod} (hf : 8192 < (s.me.shape h.eng).elems * m.ty.halfBytes) (d : TReg)
    (f : Core → Nat → List (Option Nat)) : s.packWord h opc d m f = trapped s h .illegal 0x0C := by
  have hfit : (s.me.shape h.eng).fits m.ty.halfBytes = false := decide_eq_false (by omega)
  rw [State.packWord, State.issue_ready hr]
  simp only [hfit, Bool.not_false, if_true, Judged.outcome_illegal, BitVec.ofNat_eq_ofNat]

theorem maskToG_of_ready (d : GReg) (f : Core → W64) : s.maskToG h opc d f = writesG s h opc 4 d (f s.me) :=
  State.issue_ready hr _

theorem maskLogic_of_ready (d : KReg) (f : Core → BitVec 4096) :
    s.maskLogic h opc d f = issued s h opc { lat := some 4, writes := [.mask d (BitVec.allOnes 4096) (f s.me)] } :=
  State.issue_ready hr _

end

/-! ### Bits of a mask and the word of a predicate (R122, R124) -/

theorem onesBelow_eq_countP (v n : Nat) : onesBelow v n = (List.range n).countP v.testBit := by
  induction n with
  | zero => rfl
  | succ n ih =>
    have hbit : v / 2 ^ n % 2 = if v.testBit n then 1 else 0 := by
      rw [← Nat.toNat_testBit]
      cases v.testBit n <;> rfl
    rw [onesBelow, ih, hbit, List.range_succ, List.countP_append, List.countP_singleton]

/-- The bits from i up to the one found are 0, and the one found is 1 unless it is 4096. -/
theorem lowestBit_spec (v i n : Nat) (hin : i + n = 4096) :
    lowestBit v i n ≤ 4096 ∧ (∀ j, i ≤ j → j < lowestBit v i n → v.testBit j = false)
      ∧ (lowestBit v i n < 4096 → v.testBit (lowestBit v i n) = true) := by
  fun_induction lowestBit v i n with
  | case1 i => exact ⟨Nat.le_refl _, fun j h1 h2 => by omega, fun h => absurd h (Nat.lt_irrefl _)⟩
  | case2 i n hset =>
    refine ⟨by omega, fun j h1 h2 => by omega, fun _ => ?_⟩
    rw [Nat.testBit_eq_decide_div_mod_eq, hset]
    rfl
  | case3 i n hclear ih =>
    obtain ⟨hle, hzero, hone⟩ := ih (by omega)
    refine ⟨hle, fun j h1 h2 => ?_, hone⟩
    obtain rfl | hgt := Nat.eq_or_lt_of_le h1
    · rw [Nat.testBit_eq_decide_div_mod_eq, decide_eq_false hclear]
    · exact hzero j hgt h2

theorem word_eq_n_add_wc (p : Pred) : p.word = BitVec.ofNat 64 (p.n.toNat + p.wc.toNat * 2 ^ 16) := by
  simp only [Pred.word, pack, List.foldl_cons, List.foldl_nil, Nat.zero_add, Nat.pow_zero, Nat.mul_one]

/-! ### The words' arms -/

section
variable (s : State) (h : Hdr) (m : TMod) (d a : TReg) (b : TB) (g r : GReg) (k x y : KReg) (p : PReg) (am : MReg) (wc : Fin 4)

theorem exec_tbcast : exec (.tbcast h d a g m) s = execTbcast h d a g m s := rfl
theorem exec_ttrn : exec (.ttrn h d a m) s = execTtrn h d a m s := rfl
theorem exec_tshuf : exec (.tshuf h d a b m) s = execTshuf h d a b m s := rfl
theorem exec_text : exec (.text h g a r m) s = execText h g a r m s := rfl
theorem exec_tins : exec (.tins h d g r m) s = execTins h d g r m s := rfl
theorem exec_tiota : exec (.tiota h d g r m) s = execTiota h d g r m s := rfl
theorem exec_kand : exec (.kand h k x y) s = execKand h k x y s := rfl
theorem exec_kor : exec (.kor h k x y) s = execKor h k x y s := rfl
theorem exec_kxor : exec (.kxor h k x y) s = execKxor h k x y s := rfl
theorem exec_knot : exec (.knot h k x) s = execKnot h k x s := rfl
theorem exec_kpopc : exec (.kpopc h g x) s = execKpopc h g x s := rfl
theorem exec_kfirst : exec (.kfirst h g x) s = execKfirst h g x s := rfl
theorem exec_kcomp : exec (.kcomp h d a y m) s = execKcomp h d a y m s := rfl
theorem exec_kexp : exec (.kexp h d a y m) s = execKexp h d a y m s := rfl
theorem exec_pset : exec (.pset h p g wc) s = execPset h p g wc s := rfl
theorem exec_pget : exec (.pget h g p) s = execPget h g p s := rfl
theorem exec_amrd : exec (.amrd h g am) s = execAmrd h g am s := rfl
theorem exec_amclr : exec (.amclr h am) s = execAmclr h am s := rfl

end

/-! ### Broadcasts and the transposition at a ready slot -/

section
variable {s : State} {h : Hdr} {m : TMod} (d a : TReg) (g : GReg) (hf : (s.me.shape h.eng).elems * m.ty.halfBytes ≤ 8192)
include hf

theorem execTbcast_row (hr : s.ready h 0x91 = true) (hsub : m.sub = 1) :
    let p := s.me.shape h.eng
    let gl := m.gl.val + 1
    let hb := m.ty.halfBytes
    execTbcast h d a g m s = issued s h 0x91
      { lat := some (4 + beats gl p hb)
        writes := tileWrites d gl p.elems hb (pmMerge m.z (s.me.actives m.pm hb gl p.elems)
          ((List.range gl).flatMap (fun k => broadcastRow p (s.me.tileElems a k p.elems hb)))) } := by
  simp only [execTbcast, tileWord_of_fits hr hf, hsub, broadcastRow]

theorem execTbcast_col (hr : s.ready h 0x91 = true) (hsub : m.sub = 2) :
    let p := s.me.shape h.eng
    let gl := m.gl.val + 1
    let hb := m.ty.halfBytes
    execTbcast h d a g m s = issued s h 0x91
      { lat := some (4 + beats gl p hb)
        writes := tileWrites d gl p.elems hb (pmMerge m.z (s.me.actives m.pm hb gl p.elems)
          ((List.range gl).flatMap (fun k => broadcastCol p (s.me.tileElems a k p.elems hb)))) } := by
  simp only [execTbcast, tileWord_of_fits hr hf, hsub, broadcastCol]

theorem execTtrn_of_fits (hr : s.ready h 0x92 = true) :
    let p := s.me.shape h.eng
    let gl := m.gl.val + 1
    let hb := m.ty.halfBytes
    execTtrn h d a m s = issued s h 0x92
      { lat := some (4 + beats gl p hb)
        writes := tileWrites d gl p.elems hb
          ((List.range gl).flatMap (fun k => transposed p (s.me.tileElems a k p.elems hb))) } := by
  simp only [execTtrn, tileWord_of_fits hr hf, transposed]

end

/-- Settles O22: each word is a tile word or an elementwise map, answered by its form; the elements of a broadcast or a transposition
are found register by register (getD_flatMap_range), then within a register. -/
theorem movementTileWordsIssue : Obligations.MovementTileWordsIssue := by
  intro s h d a b g r m p gl hb n fits G R i acts traps
  have hrows : 0 < p.rows := rows_pos s.me h.eng
  have hcols : 0 < p.cols := cols_pos s.me h.eng
  have hlen (k : Nat) : (s.me.tileElems a k n hb).length = p.elems := length_tileElems s.me a k n hb
  refine ⟨fun hf => ⟨fun hr => ?_, fun hr => ?_, fun hr => ?_, fun hr => ?_⟩, fun hf hr => ?_, fun hr hsub hf => ?row,
    fun hr hsub hf => ?col, fun hr hf => ?trn, fun hr hf => ?shuf, fun hr hf => ?ext, fun hr hf => ?ins, fun hr => ?iota⟩
  · rw [exec_tbcast, execTbcast]
    exact tileWord_of_not_fits hr hf _ _ _
  · rw [exec_ttrn, execTtrn]
    exact tileWord_of_not_fits hr hf _ _ _
  · rw [exec_text, execText]
    exact tileWord_of_not_fits hr hf _ _ _
  · rw [exec_tins, execTins]
    exact tileWord_of_not_fits hr hf _ _ _
  · rw [exec_tshuf, execTshuf]
    exact tileWord_of_not_fits hr hf _ _ _
  case row =>
    have hblk (k : Nat) : (broadcastRow p (s.me.tileElems a k n hb)).length = n := length_broadcastRow hrows (hlen k)
    refine ⟨_, _, (exec_tbcast s h m d a g).trans (execTbcast_row d a g hf hr hsub), rfl, rfl, length_flatMap_range hblk _,
      fun k j hk hj => ?_⟩
    rw [getD_flatMap_range hblk 0 hk hj]
    exact getD_broadcastRow hrows hcols (hlen k) hj
  case col =>
    have hblk (k : Nat) : (broadcastCol p (s.me.tileElems a k n hb)).length = n := length_broadcastCol
    refine ⟨_, _, (exec_tbcast s h m d a g).trans (execTbcast_col d a g hf hr hsub), rfl, rfl, length_flatMap_range hblk _,
      fun k j hk hj => ?_⟩
    rw [getD_flatMap_range hblk 0 hk hj]
    exact getD_broadcastCol hcols hj
  case trn =>
    have hblk (k : Nat) : (transposed p (s.me.tileElems a k n hb)).length = n := length_transposed
    refine ⟨_, _, (exec_ttrn s h m d a).trans (execTtrn_of_fits d a hf hr), rfl, rfl, length_flatMap_range hblk _,
      fun k x y hk hx hy => ?_⟩
    rw [getD_flatMap_range hblk none hk (place_lt hx hy)]
    exact getD_transposed hx hy
  case shuf =>
    rw [exec_tshuf, execTshuf]
    exact tileWord_of_fits hr hf _ _ _
  case ext =>
    rw [exec_text, execText]
    exact tileWord_of_fits hr hf _ _ _
  case ins =>
    rw [exec_tins, execTins]
    exact tileWord_of_fits hr hf _ _ _
  case iota =>
    rw [exec_tiota, execTiota]
    exact tileMap_eq_tileOut hr _ _ _ _

/-- Settles O24: each word is a mask operation, a scalar read, a pack or a plain issue, answered by its form; counting and finding are
by onesBelow_eq_countP and lowestBit_spec. -/
theorem maskWordsIssue : Obligations.MaskWordsIssue := by
  intro s h k x y p am g t a wc m M sh gl hb bitsY mask
  refine ⟨fun hf => ⟨fun hr => ?_, fun hr => ?_⟩, fun hr => ?and, fun hr => ?or, fun hr => ?xor, fun hr => ?not, fun hr => ?popc,
    fun hr => ?first, fun hr hf => ?comp, fun hr hf => ?expd, fun hr => ?pset, fun hr => ?pget, fun hr => ?amrd, fun hr => ?amclr⟩
  · exact (exec_kcomp s h m t a y).trans (packWord_of_not_fits hr hf _ _)
  · exact (exec_kexp s h m t a y).trans (packWord_of_not_fits hr hf _ _)
  case and => exact (exec_kand s h k x y).trans (maskLogic_of_ready hr _ _)
  case or => exact (exec_kor s h k x y).trans (maskLogic_of_ready hr _ _)
  case xor => exact (exec_kxor s h k x y).trans (maskLogic_of_ready hr _ _)
  case not => exact (exec_knot s h k x).trans (maskLogic_of_ready hr _ _)
  case popc =>
    have hcount : onesBelow (M x).toNat 4096 = (List.range 4096).countP (fun i => (M x).getLsbD i) := onesBelow_eq_countP _ _
    rw [exec_kpopc, execKpopc, maskToG_of_ready hr, ← hcount]
  case first =>
    obtain ⟨hle, hzero, hone⟩ := lowestBit_spec (M x).toNat 0 4096 rfl
    exact ⟨_, (exec_kfirst s h g x).trans (maskToG_of_ready hr _ _), hle, fun i hi => hzero i (Nat.zero_le i) hi, hone⟩
  case comp => exact ⟨_, _, (exec_kcomp s h m t a y).trans (packWord_of_fits hr hf _ _), rfl, rfl⟩
  case expd => exact (exec_kexp s h m t a y).trans (packWord_of_fits hr hf _ _)
  case pset => exact (exec_pset s h g p wc).trans (State.issue_ready hr _)
  case pget => rw [exec_pget, execPget, maskToG_of_ready hr, word_eq_n_add_wc]
  case amrd => exact (exec_amrd s h g am).trans (maskToG_of_ready hr _ _)
  case amclr => exact (exec_amclr s h am).trans (State.issue_ready hr _)

end Sys2Proof.Machine.MoveAndMask
end
